-- ==== Sys2Proof/Word.lean ====
section
/-! DEFINITION. The byte of the part's wires, and the unit in which the model counts time. -/

namespace Sys2Proof

/-- One byte of a frame on an agent link or on a process network (R179). -/
abbrev Byte := BitVec 8

/-- A time of the part: a count of fraction units of 2^-16 ns (the unit of the L-form fraction, R4). -/
abbrev Ticks := Nat

/-- 1 ns is 65,536 fraction units (R4). -/
abbrev ticksPerNs : Nat := 65536

/-- 1 s is 10^9 ns. -/
abbrev nsPerSec : Nat := 1000000000

/-- 1 s in fraction units. -/
abbrev ticksPerSec : Nat := 65536000000000

/-- The first time beyond the L-form range 0 … 2^48 - 1 seconds (R1). -/
abbrev timeEnd : Nat := 281474976710656 * ticksPerSec

/-- The first value beyond a 48-bit field. -/
abbrev end48 : Nat := 281474976710656

/-- Seconds of a UT day (R1). -/
abbrev secPerDay : Nat := 86400

end Sys2Proof
end

