-- ==== Sys2Proof/Syntax.lean ====
section
/-! DEFINITION. The commands of the TD460: the requests of its agents and the events at its pins, networks, timers
and block boundaries, one constructor of Instr per row of spec/opcode_table.json, and the values they carry. -/

namespace Sys2Proof

/-! ## Names -/

/-- The three agents; agent n is the processor on port APn (00_scope.md). -/
inductive Agent | agent0 | agent1 | agent2
deriving DecidableEq, Repr

/-- The two process networks and their ports NA and NB (R46). -/
inductive Net | netA | netB
deriving DecidableEq, Repr

/-- One value for each agent. -/
structure PerAgent (α : Type) where
  a0 : α
  a1 : α
  a2 : α
deriving DecidableEq, Repr

/-- One value for each network. -/
structure PerNet (α : Type) where
  a : α
  b : α
deriving DecidableEq, Repr

/-- The three scales of time (R1), which are also the domains of a schedule entry (R115). -/
inductive Scale | dt | ut | el
deriving DecidableEq, Repr

/-- Forms of a time value at an agent's side (R4). -/
inductive Form | long | short
deriving DecidableEq, Repr

/-- Rounding modes (R7). -/
inductive Rounding | nearest | zero | up | down
deriving DecidableEq, Repr

/-- Values of the compare field (R11). -/
inductive Compare | less | equal | greater | unordered
deriving DecidableEq, Repr

/-- A time value at full precision with its class (R5): VALID with a count of fraction units, UNSET or SATURATED. -/
inductive TimeVal
  | valid (t : Ticks)
  | unset
  | saturated
deriving DecidableEq, Repr

/-- An interval with its class (R4, R5). -/
inductive IntervalVal
  | valid (d : Int)
  | unset
  | saturated
deriving DecidableEq, Repr

/-- A time value as it travels in a frame (R4, R179). -/
inductive TimeField
  | long (sec ns frac : Nat)
  | short (sec ns : Nat)
  | unset (f : Form)
  | saturated (f : Form)
deriving DecidableEq, Repr

/-- An interval as it travels in a frame (R4, R179); `neg` is sign -. -/
inductive IntervalField
  | given (neg : Bool) (sec ns frac : Nat)
  | unset
  | saturated
deriving DecidableEq, Repr

/-- A time operand: a value in the frame, or CURSOR (R4). -/
inductive Operand
  | cursor
  | given (v : TimeField)
deriving DecidableEq, Repr

/-- A leap announcement: kind, and the UT midnight in seconds (R21). -/
inductive Leap
  | none
  | insert (midnight : Nat)
  | delete (midnight : Nat)
deriving DecidableEq, Repr

/-- The six sticky flags and the summary flag (R9); as a mask, the flags that FLAGS-CLEAR names (R20). -/
structure Flags where
  iv : Bool
  ov : Bool
  ix : Bool
  wr : Bool
  lh : Bool
  st : Bool
  fx : Bool
deriving DecidableEq, Repr

/-- The options of a request header (R181). -/
structure Options where
  form : Option Form
  rounding : Option Rounding
  condition : Option Compare
  record : Bool
  update : Bool
  lateOk : Bool
  preempt : Bool
deriving DecidableEq, Repr

/-- No option set. -/
def Options.plain : Options := ⟨.none, .none, .none, false, false, false, false⟩

/-! ## The fields of the requests -/

/-- Network preference (R78). -/
inductive Preference | netA | netB | none
deriving DecidableEq, Repr

/-- The settings PART-CONFIG may name (R23, R58, R78, R88, R164, R180); durations in ns, identities of 48 bits. -/
structure PartSettings where
  stepThreshold : Option Nat
  stepEnable : Option Bool
  lockWindow : Option Nat
  maxSlew : Option Nat
  holdLimit : Option Nat
  holdStep : Option Nat
  echoInterval : Option Nat
  replyWait : Option Nat
  outlierLimit : Option Nat
  preference : Option Preference
  refMode : Option Bool
  refClass : Option Nat
  refAccuracy : Option Nat
  autoAdmit : Option Bool
  lease : Option Nat
  partIdentity : Option Nat
  stationA : Option Nat
  stationB : Option Nat
deriving DecidableEq, Repr

/-- A PART-CONFIG that names no setting. -/
def PartSettings.nothing : PartSettings :=
  ⟨.none, .none, .none, .none, .none, .none, .none, .none, .none, .none, .none, .none, .none, .none, .none, .none, .none, .none⟩

/-- L-form fields as they stand in a record, whatever their class (R179). -/
structure RawTime where
  sec : Nat
  ns : Nat
  frac : Nat
deriving DecidableEq, Repr

/-- A snapshot record (R42, R183). -/
structure SnapshotRecord where
  version : Nat
  rate : Int
  lockClass : Nat
  identity : Nat
  dtAtSave : RawTime
  check : Nat
deriving DecidableEq, Repr

/-- A stretch of a select window (R156): the bytes that the agent shifts in after the direction byte, and whether it then
releases select. A window whole is one stretch with a release; one that something comes between is several (log entry 52). -/
structure Stretch where
  bytes : List Byte
  released : Bool
deriving DecidableEq, Repr

/-- What a select window is by its direction byte (R156, R181). -/
inductive WindowKind | submit | collect | other
deriving DecidableEq, Repr

/-- The scales an absolute STEER-STEP may name (R38). -/
inductive SteerScale | dt | ut
deriving DecidableEq, Repr

/-- What STEER-STEP carries (R38). -/
inductive StepOperand
  | absolute (t : TimeField) (scale : SteerScale)
  | interval (i : IntervalField)
deriving DecidableEq, Repr

/-- The due of a SCHED-ADD (R121). -/
inductive DueSpec
  | absolute (t : TimeField)
  | cursorPlus (i : IntervalField)
  | nowPlus (i : IntervalField)
deriving DecidableEq, Repr

/-- The action a SCHED-ADD names, its lines as displacements (R122). -/
inductive ActionSpec
  | pulse (disp : Int)
  | set (disp : Int)
  | clear (disp : Int)
  | load (disp : Int) (count value : Nat)
  | alert (level tag : Nat)
deriving DecidableEq, Repr

/-- The fields of a SCHED-ADD (R121, R122). -/
structure AddRequest where
  domain : Scale
  due : DueSpec
  action : ActionSpec
  period : Option IntervalField
  repeatCount : Option Nat
  notify : Option Nat
deriving DecidableEq, Repr

/-- The name of a schedule entry (R116). -/
structure Handle where
  index : Nat
  generation : Nat
deriving DecidableEq, Repr

/-- Edges of an input (R151). -/
inductive EdgeKind | rise | fall
deriving DecidableEq, Repr

/-- Edge setting of an input (R150). -/
inductive EdgeSetting | none | rise | fall | both
deriving DecidableEq, Repr

/-- The settings LINE-CONFIG may name (R150). -/
structure LineSettings where
  width : Option Nat
  edge : Option EdgeSetting
  route : Option Agent
  level : Option Nat
  holdOff : Option Nat
deriving DecidableEq, Repr

/-- The context fields CONTEXT-SET may name (R162). -/
structure ContextSettings where
  form : Option Form
  mixed : Option Bool
  base : Option Nat
  rounding : Option Rounding
  trapIv : Option Bool
  trapOv : Option Bool
  trapWr : Option Bool
  trapSt : Option Bool
  cursor : Option TimeField
  lineBase : Option Nat
  threshold : Option Nat
  mask : Option Nat
deriving DecidableEq, Repr

/-- A CONTEXT-SET that names no field. -/
def ContextSettings.nothing : ContextSettings :=
  ⟨.none, .none, .none, .none, .none, .none, .none, .none, .none, .none, .none, .none⟩

/-- The fifty requests of the catalogue (11.4), with the fields of their own rules. An absent entry, slot or handle
stands for ALL. -/
inductive Request
  | timeRead (scale : Scale)
  | timeConvert (source target : Scale) (form : Form) (x : Operand)
  | timeDiff (a b : Operand)
  | timeOffset (t : Operand) (i : IntervalField)
  | flagsRead
  | flagsClear (mask : Flags)
  | partConfig (c : PartSettings)
  | servoRead
  | snapshotRead
  | servoRestart
  | snapshotRestore (r : SnapshotRecord)
  | steerStep (x : StepOperand)
  | steerSlew (i : IntervalField) (rate : Option Nat)
  | steerRate (rate : Int)
  | steerLeap (leap : Leap) (offset : Option Int)
  | portEnable (n : Net)
  | portDisable (n : Net)
  | portRead (n : Net)
  | sourceBar (entry reason : Nat)
  | sourceUnbar (entry : Nat)
  | sourceRead (entry : Option Nat)
  | refLabel (label : Nat) (offset : Option Int) (leap : Option Leap)
  | clientAdd (identity : Nat)
  | clientRemove (slot : Nat)
  | clientRead (slot : Option Nat)
  | epochConfig (k : Nat)
  | epochRead
  | quotaSet (q0 q1 q2 : Nat)
  | schedAdd (r : AddRequest)
  | schedCancel (h : Handle)
  | schedRead (h : Option Handle)
  | lineSet (disp : Int)
  | lineClear (disp : Int)
  | lineLoad (disp : Int) (count value : Nat)
  | lineTest (disp : Int)
  | lineStore (disp : Int) (count : Nat)
  | lineOwn (disp : Int) (owner : Option Agent)
  | lineConfig (disp : Int) (c : LineSettings)
  | captureRead
  | captureRelease (n : Nat)
  | contextSet (c : ContextSettings)
  | contextRead
  | grantClaim
  | grantRenew
  | grantRelease
  | agentReset
  | partReset
  | alertRead
  | alertReturn (n : Nat)
  | alertMask (mask : Nat)
deriving DecidableEq, Repr

/-- A request as its frame carries it: the option byte and the fields (R181). -/
structure Submitted where
  opts : Options
  req : Request
deriving DecidableEq, Repr

/-! ## The operands of the events -/

/-- An Ethernet frame as a port sees it (R55, R180): whether its check sequence is correct, its destination
address, its type field and the bytes that follow. -/
structure EthFrame where
  fcsOk : Bool
  dest : Nat
  etherType : Nat
  payload : List Byte
deriving DecidableEq, Repr

/-- The alert kinds that have a pending flag (R171), in the order R174 chooses among equal levels. -/
inductive FlagKind | fault | grant | servo | leap | source | slew | client | capture
deriving DecidableEq, Repr

/-- The two lists of the schedule (R118). -/
inductive ListId | timescale | elapsed
deriving DecidableEq, Repr

/-! ## The commands -/

/-- One constructor per row of spec/opcode_table.json. A request command is a request frame of agent `ag` taken by
the block that owns what it concerns; where the agent's port does not hold that frame in hand, the command first
submits it (log entry 1). An event command is the event itself, taken when the state lets it come about (log entry 2). -/
inductive Instr
  | timeRead (ag : Agent) (o : Options) (scale : Scale)
  | timeConvert (ag : Agent) (o : Options) (source target : Scale) (form : Form) (x : Operand)
  | timeDiff (ag : Agent) (o : Options) (a b : Operand)
  | timeOffset (ag : Agent) (o : Options) (t : Operand) (i : IntervalField)
  | flagsRead (ag : Agent) (o : Options)
  | flagsClear (ag : Agent) (o : Options) (mask : Flags)
  | partConfig (ag : Agent) (o : Options) (c : PartSettings)
  | servoRead (ag : Agent) (o : Options)
  | snapshotRead (ag : Agent) (o : Options)
  | servoRestart (ag : Agent) (o : Options)
  | snapshotRestore (ag : Agent) (o : Options) (r : SnapshotRecord)
  | steerStep (ag : Agent) (o : Options) (x : StepOperand)
  | steerSlew (ag : Agent) (o : Options) (i : IntervalField) (rate : Option Nat)
  | steerRate (ag : Agent) (o : Options) (rate : Int)
  | steerLeap (ag : Agent) (o : Options) (leap : Leap) (offset : Option Int)
  | portEnable (ag : Agent) (o : Options) (n : Net)
  | portDisable (ag : Agent) (o : Options) (n : Net)
  | portRead (ag : Agent) (o : Options) (n : Net)
  | sourceBar (ag : Agent) (o : Options) (entry reason : Nat)
  | sourceUnbar (ag : Agent) (o : Options) (entry : Nat)
  | sourceRead (ag : Agent) (o : Options) (entry : Option Nat)
  | refLabel (ag : Agent) (o : Options) (label : Nat) (offset : Option Int) (leap : Option Leap)
  | clientAdd (ag : Agent) (o : Options) (identity : Nat)
  | clientRemove (ag : Agent) (o : Options) (slot : Nat)
  | clientRead (ag : Agent) (o : Options) (slot : Option Nat)
  | epochConfig (ag : Agent) (o : Options) (k : Nat)
  | epochRead (ag : Agent) (o : Options)
  | quotaSet (ag : Agent) (o : Options) (q0 q1 q2 : Nat)
  | schedAdd (ag : Agent) (o : Options) (r : AddRequest)
  | schedCancel (ag : Agent) (o : Options) (h : Handle)
  | schedRead (ag : Agent) (o : Options) (h : Option Handle)
  | lineSet (ag : Agent) (o : Options) (disp : Int)
  | lineClear (ag : Agent) (o : Options) (disp : Int)
  | lineLoad (ag : Agent) (o : Options) (disp : Int) (count value : Nat)
  | lineTest (ag : Agent) (o : Options) (disp : Int)
  | lineStore (ag : Agent) (o : Options) (disp : Int) (count : Nat)
  | lineOwn (ag : Agent) (o : Options) (disp : Int) (owner : Option Agent)
  | lineConfig (ag : Agent) (o : Options) (disp : Int) (c : LineSettings)
  | captureRead (ag : Agent) (o : Options)
  | captureRelease (ag : Agent) (o : Options) (n : Nat)
  | contextSet (ag : Agent) (o : Options) (c : ContextSettings)
  | contextRead (ag : Agent) (o : Options)
  | grantClaim (ag : Agent) (o : Options)
  | grantRenew (ag : Agent) (o : Options)
  | grantRelease (ag : Agent) (o : Options)
  | agentReset (ag : Agent) (o : Options)
  | partReset (ag : Agent) (o : Options)
  | alertRead (ag : Agent) (o : Options)
  | alertReturn (ag : Agent) (o : Options) (n : Nat)
  | alertMask (ag : Agent) (o : Options) (mask : Nat)
  /-- A SUBMIT window, or a stretch of one. -/
  | submitWindow (ag : Agent) (x : Stretch)
  /-- A COLLECT window, or a stretch of one; what the agent shifts in is disregarded. -/
  | collectWindow (ag : Agent) (x : Stretch)
  /-- A window with another direction byte, or with none complete, or a stretch of one. -/
  | otherWindow (ag : Agent) (direction : Option Byte) (x : Stretch)
  | agentResetInput (ag : Agent)
  | resetInput
  | powerOn
  | schedAgentReset (ag : Agent)
  | lineAgentReset (ag : Agent)
  | grantAgentReset (ag : Agent)
  | slewNotifyReset (ag : Agent)
  | linkUp (n : Net)
  | linkDown (n : Net)
  | frameArrival (n : Net) (f : EthFrame)
  | transmitEnd (n : Net)
  | frameDeparts (n : Net)
  | echoSlot (n : Net)
  /-- The reply wait of the ask with this echo sequence runs out. -/
  | replyWaitExpiry (n : Net) (seq : Nat)
  | originTaken
  | sourceSample
  | sourceMiss
  | staleDeadline (entry : Nat)
  | refDeadline
  | staleRemoval (entry : Nat)
  | refEdge
  | measurement
  | utcPairAdopt
  | slewComplete
  | leapApply
  | holdoverGrade
  | holdoverExpiry
  | snapshotSave
  | registerTaken
  | clientSample
  | clientMiss
  | lapseTimer (slot : Nat)
  | epochInstant
  | epochStepReport
  | stepReport
  | rekey
  | keyReached (l : ListId)
  | pulseEnd (line : Nat)
  /-- Input IN`k` (line 32 + k) changes level. -/
  | inputEdge (k : Nat) (e : EdgeKind)
  | grantExpiry
  | renewalReport
  | alertRaise (ag : Agent) (kind : FlagKind)
  | scheduleAlertRaise (ag : Agent)
  | alertDelivery (ag : Agent)
  | resetInputRelease
  | agentResetInputRelease (ag : Agent)
deriving DecidableEq, Repr

end Sys2Proof
end

