-- ==== Sys2Proof/Decode.lean ====
section
/-! DEFINITION. The command that a word spells by the bits of spec/opcode_table.json: no row of the table gives bits,
so no word spells one (log entry 33); and the direction byte of a select window. The frames of the agent links are read in Machine/Requests.lean, those of the networks in Machine/Mtx.lean. -/

namespace Sys2Proof

/-- No row of the table has bits. -/
def decodeTableWord (_nbits _w : Nat) : Option Instr := none

/-- What a select window is by its direction byte: SUBMIT 0x5A, COLLECT 0xA5, and neither for another one or for one that is
not complete (R156, R181). -/
def windowKind : Option Byte → WindowKind
  | some 0x5A#8 => .submit
  | some 0xA5#8 => .collect
  | _ => .other

end Sys2Proof
end

