-- ==== Sys2Proof/Config.lean ====
section
/-! DEFINITION. What every TD460 fixes once, and the free values: opaque constants without a body, about which
nothing can be proved (log entries 4 and 5). -/

namespace Sys2Proof.Config

/-- Free value (log entry 4): the UTC offset held where a leap would take it outside -32,768 … 32,767, of which
R36 and R35 state no value. -/
opaque offsetBeyondRange : Int → Int

/-- Free value (log entry 5): whether SOURCE-BAR, SOURCE-UNBAR and SOURCE-READ of an entry number above 8 are refused
with RANGE (true) or NO_ENTRY (false); R76, R77 and R86 give no status for such a number. -/
opaque entryOutsideIsRange : Nat → Bool

/-- Rows of the source table (R67), the client table (R87), the schedule (R115). -/
abbrev sourceEntries : Nat := 9
abbrev clientSlots : Nat := 48
abbrev schedIndices : Nat := 64
/-- Network paths of one network at most (R67). -/
abbrev pathsPerNet : Nat := 4
/-- Outputs and inputs of the line space (R138). -/
abbrev outputCount : Nat := 24
abbrev inputCount : Nat := 16
/-- Class-1 positions of a transmit queue (R53). -/
abbrev class1Room : Nat := 7
/-- Entries of one correction list (R111). -/
abbrev correctionRoom : Nat := 12
/-- Records of a capture queue (R153) and of a schedule-alert FIFO (R172). -/
abbrev captureRoom : Nat := 16
abbrev schedFifoRoom : Nat := 8
/-- Records a CAPTURE-READ returns at most (R154). -/
abbrev captureReadMax : Nat := 4
/-- Limit of the rate correction in units of 1/256 ppb (R21). -/
abbrev rateLimit : Int := 128000000
/-- Snapshot interval (R42), lapse time (R97), stale time (R75), reference deadline (R81), in ns of EL. -/
abbrev snapshotInterval : Nat := 60000000000
abbrev lapseTime : Nat := 60000000000
abbrev staleTime : Nat := 60000000000
abbrev refDeadlineTime : Nat := 3000000000
/-- The age at which an edge can no longer be labelled (R80), in ns. -/
abbrev labelWindow : Nat := 500000000
/-- The least lead of a schedule key (R123), in fraction units: 2 µs. -/
abbrev schedLead : Nat := 131072000
/-- The farthest key (R123): 30 days, in fraction units. -/
abbrev schedHorizon : Nat := 2592000 * ticksPerSec
/-- Largest sample a delay filter keeps (R65): 10 ms, in fraction units. -/
abbrev filterMax : Nat := 655360000000
/-- Broadcast address of Ethernet (PRESUMED, log entry 6: the spec names it without a value). -/
abbrev broadcastAddress : Nat := 281474976710655
/-- Type field of an MTX frame (R180). -/
abbrev mtxType : Nat := 39485
/-- Units of 1/(256 · 10^15) ns in one fraction unit and in one ns: the residue counters of R22 and R31 (log entry 7). -/
abbrev subPerTick : Nat := 3906250000000
abbrev subPerNs : Nat := 256000000000000000
/-- Largest value of EL (R21): 2^64 - 1 ns. -/
abbrev elMax : Nat := 18446744073709551615
/-- Largest value of a 32-bit counter (R57). -/
abbrev counterMax : Nat := 4294967295

end Sys2Proof.Config
end

