-- ==== Sys2Proof/Machine/State.lean ====
section
/-! DEFINITION. The state of the TD460, block by block, as plain data, and the part right after power-on.
INVENTORY.md lists every field with its rule and its reset value. -/

namespace Sys2Proof.Machine

/-! ## Statuses and alert details -/

/-- Statuses of a response (11.5), in the order of their codes. -/
inductive Status
  | ok | exception | rank | grant | held | state | range | full | noEntry | lineOwner | tooLate | condition
  | count | notInAlert | format | check | unknown | closed
deriving DecidableEq, Repr

/-- Servo states (R21). -/
inductive ServoState | freerun | acquire | locked | holdover | fault
deriving DecidableEq, Repr

/-- Causes of FAULT (R32). -/
inductive FaultCause | clamp | restore
deriving DecidableEq, Repr

/-- Details of GRANT (R165, R167). -/
inductive GrantDetail | preempted | expired
deriving DecidableEq, Repr

/-- Ends of a slew record (R31). -/
inductive SlewEnd | completed | replaced | dropped
deriving DecidableEq, Repr

/-- Kinds of a leap that is applied (R36). -/
inductive LeapKind | insert | delete
deriving DecidableEq, Repr

/-- Causes of SOURCE (R84, R85). -/
inductive SourceCause | first | better | stale | barred | listen | removed | fault | restart
deriving DecidableEq, Repr

/-- Detail of SOURCE (R84): previous and new selection as entry and identity. -/
structure SourceDetail where
  prev : Option (Nat × Nat)
  new : Option (Nat × Nat)
  cause : SourceCause
deriving DecidableEq, Repr

/-- Events and causes of CLIENT (R102). -/
inductive ClientEvent | admitted | lapsed | released | removed
deriving DecidableEq, Repr
inductive ClientCause | expected | auto | back | misses | port | timeout | agent
deriving DecidableEq, Repr

/-- Detail of CLIENT (R102). -/
structure ClientDetail where
  slot : Nat
  identity : Nat
  event : ClientEvent
  cause : Option ClientCause
  net : Option Net
deriving DecidableEq, Repr

/-- Outcomes of a firing (R125). -/
inductive FireOutcome | onTime | late | shifted | suppressed
deriving DecidableEq, Repr

/-- A raised alert of one of the eight flag kinds (R171); a capture carries its level, line and edge (R153). -/
inductive Raise
  | fault (cause : FaultCause)
  | grant (d : GrantDetail)
  | servo (old new : ServoState)
  | leap (kind : LeapKind) (offset : Int)
  | source (d : SourceDetail)
  | slew (e : SlewEnd)
  | client (d : ClientDetail)
  | capture (level line : Nat) (edge : EdgeKind)
deriving DecidableEq, Repr

/-- A SCHEDULE alert (R126), with its gap once it is in the FIFO (R172). -/
structure SchedAlert where
  level : Nat
  tag : Nat
  handle : Handle
  outcome : FireOutcome
  gap : Nat
deriving DecidableEq, Repr

/-- The alert of a return record (R174). -/
inductive AlertRecord
  | flag (r : Raise)
  | schedule (a : SchedAlert)
deriving DecidableEq, Repr

/-! ## Timescale unit (R21, R23) -/

/-- Slew record (R21): sign and magnitude of the remaining offset, `sub` being the residue of the magnitude below one
fraction unit (log entry 7), the slew rate and the notify-agent. -/
structure Slew where
  neg : Bool
  mag : Ticks
  sub : Nat
  ppm : Nat
  notify : Option Agent
deriving DecidableEq, Repr

/-- The six settings of R23; durations in ns. -/
structure TimescaleSettings where
  stepThreshold : Nat
  stepEnable : Bool
  lockWindow : Nat
  maxSlew : Nat
  holdLimit : Nat
  holdStep : Nat
deriving DecidableEq, Repr

/-- The timescale record (R21). `dtSub` and `elSub` are the residues of the continuous advance (R22, log entry 7);
`holdSince` is the EL at which HOLDOVER was entered (R29). -/
structure Timescale where
  dt : Ticks
  dtSub : Nat
  el : Nat
  elSub : Nat
  rate : Int
  slew : Option Slew
  utc : Int
  leap : Leap
  timeSet : Bool
  rateBasis : Bool
  servo : ServoState
  inWindow : Nat
  outCount : Nat
  clamp : Nat
  stepCount : Nat
  holdEntry : Nat
  holdAge : Nat
  holdSince : Nat
  quality : Nat
  lockClass : Nat
  snapAt : Option Nat
  store : Option SnapshotRecord
  settings : TimescaleSettings
deriving DecidableEq, Repr

/-! ## Network ports (R46 … R66) -/

/-- A stamp: DT and EL at the stamping point (R50, R51). -/
structure Stamp where
  dt : Ticks
  el : Nat
deriving DecidableEq, Repr

/-- Port states (R46). -/
inductive PortState | disabled | down | up
deriving DecidableEq, Repr

/-- What an ask is put to (R60): a source path by entry and identity, or a client presence by slot and identity. -/
inductive Target
  | path (entry identity : Nat)
  | client (slot identity : Nat)
deriving DecidableEq, Repr

/-- States of an outstanding ask (R60). -/
inductive AskState
  | queued
  | inFlight (t1 : TimeVal) (e1 : Nat)
  | dropped
deriving DecidableEq, Repr

/-- An outstanding ask (R60). -/
structure Ask where
  seq : Nat
  target : Target
  issue : Nat
  wait : Nat
  state : AskState
deriving DecidableEq, Repr

/-- An EPOCH frame as assembled (6.4); the departure is written at egress. -/
structure EpochFrame where
  origin : Nat
  seq : Nat
  utc : Int
  leap : Leap
  quality : Nat
  servo : ServoState
  selected : Option Nat
  holdAge : Option Nat
  corrections : List (Nat × Ticks)
deriving DecidableEq, Repr

/-- Class-1 frames (3.3): an ECHO-ASK with its sequence and target identity, or an ADMIT (R92). -/
inductive Class1Frame
  | ask (origin seq targetId : Nat)
  | admission (origin client seq : Nat) (status : Status) (slot : Nat)
deriving DecidableEq, Repr

/-- A frame in transmission. -/
inductive TxFrame
  | epoch (f : EpochFrame)
  | class1 (f : Class1Frame)
deriving DecidableEq, Repr

/-- The egress of a frame that has departed: its stamp, and the departure field written into it, if it has one (R51). -/
structure Egress where
  stamp : Stamp
  field : Option TimeVal
deriving DecidableEq, Repr

/-- The frame in transmission (R54); its egress is absent until it departs. -/
structure Transmission where
  frame : TxFrame
  egress : Option Egress
deriving DecidableEq, Repr

/-- The seven counters of a port (R57). -/
structure PortCounters where
  accepted : Nat
  droppedVersion : Nat
  droppedFormat : Nat
  droppedFcs : Nat
  epochReplaced : Nat
  lateReplies : Nat
  tableFull : Nat
deriving DecidableEq, Repr

/-- A network port with its transmit queue and echo engine (chapter 3). The echo cycle began at EL `cycleStart`, its
next slot is `nextSlot` (64 when the cycle has no slot left), and the settings in force for it are kept (R58). -/
structure NetPort where
  state : PortState
  link : Bool
  class0 : Option EpochFrame
  class1 : List Class1Frame
  tx : Option Transmission
  counters : PortCounters
  echoSeq : Nat
  asks : List Ask
  cycleStart : Nat
  nextSlot : Nat
  cycleInterval : Nat
  cycleWait : Nat
deriving DecidableEq, Repr

/-- The echo settings shared by both ports (R58), in ns. -/
structure EchoSettings where
  interval : Nat
  wait : Nat
  outlier : Nat
deriving DecidableEq, Repr

/-- Part identity and station addresses (R180). -/
structure WireSettings where
  part : Nat
  station : PerNet Nat
deriving DecidableEq, Repr

/-- A delay filter (R65): value, sample count, outlier run and the exact sum of its first samples. -/
structure Filter where
  value : Option Ticks
  count : Nat
  run : Nat
  sum : Nat
deriving DecidableEq, Repr

/-! ## Source table (R67) -/

/-- Path states (R68). -/
inductive PathState | listen | candidate | selected | stale | barred
deriving DecidableEq, Repr

/-- The most recent rising edge of line 47 (R79). -/
structure EdgeRecord where
  stamp : Stamp
  labelled : Bool
deriving DecidableEq, Repr

/-- A source path record (R67); the reference path has no network, sequence and miss count, and its filter stays empty. -/
structure SourcePath where
  identity : Nat
  net : Option Net
  state : PathState
  cls : Nat
  accuracy : Nat
  exponent : Int
  lastSeq : Option Nat
  lastArrival : Option Stamp
  listenCount : Nat
  filter : Filter
  miss : Option Nat
  lastOffset : Option Int
  seen : Nat
  staleSince : Option Nat
  deadline : Option Nat
  barReason : Option Nat
  edge : Option EdgeRecord
deriving DecidableEq, Repr

/-- The four settings of R78. -/
structure SourceSettings where
  preference : Preference
  refMode : Bool
  refClass : Nat
  refAccuracy : Nat
deriving DecidableEq, Repr

/-- The source table (R67): entries 0 … 8, the selected entry, the suspension flag, the settings. -/
structure SourceTable where
  entries : List (Option SourcePath)
  selected : Option Nat
  suspended : Bool
  settings : SourceSettings
deriving DecidableEq, Repr

/-! ## Client table (R87) -/

/-- Client states (R87). -/
inductive ClientState | expected | measuring | served | lapsed
deriving DecidableEq, Repr
inductive AdmittedBy | auto | agent
deriving DecidableEq, Repr

/-- A presence (R89). -/
structure Presence where
  filter : Filter
  miss : Nat
  since : Nat
deriving DecidableEq, Repr

/-- A client record (R87). -/
structure Client where
  identity : Nat
  state : ClientState
  by_ : AdmittedBy
  regSeq : Option Nat
  presences : PerNet (Option Presence)
  lapsedSince : Option Nat
  taken : Nat
deriving DecidableEq, Repr

/-- The client table (R87, R88): slots 0 … 47, the two counters and the setting. -/
structure ClientTable where
  slots : List (Option Client)
  refusedFull : Nat
  refusedClosed : Nat
  autoAdmit : Bool
deriving DecidableEq, Repr

/-! ## Epoch unit (R103) -/

structure EpochUnit where
  exponent : Nat
  next : Option Ticks
  seq : Nat
  cursor : PerNet Nat
  lastList : PerNet (List Nat)
deriving DecidableEq, Repr

/-! ## Schedule (R115) -/

/-- An entry's action with absolute lines (R115). -/
inductive Action
  | pulse (line : Nat)
  | set (line : Nat)
  | clear (line : Nat)
  | load (base count value : Nat)
  | alert (level tag : Nat)
deriving DecidableEq, Repr

/-- What a periodic entry holds besides (R115): period in fraction units, repeat remaining (0 unbounded), skip count. -/
structure Train where
  period : Ticks
  remaining : Nat
  skip : Nat
deriving DecidableEq, Repr

/-- A live entry (R115); `due` and `key` in fraction units of their scales. -/
structure Entry where
  handle : Handle
  owner : Agent
  domain : Scale
  due : Ticks
  key : Ticks
  shifted : Bool
  action : Action
  train : Option Train
  notify : Option Nat
  last : Option FireOutcome
  accept : Nat
deriving DecidableEq, Repr

/-- The schedule (R115, R117, R118, R120). -/
structure Schedule where
  timescale : List Entry
  elapsed : List Entry
  generations : List Nat
  quotas : PerAgent Nat
  counter : Nat
  lastServed : Agent
deriving DecidableEq, Repr

/-! ## Line unit (R141, R151 … R153) -/

structure Output where
  level : Bool
  owner : Option Agent
  width : Nat
  pulseEnd : Option Nat
deriving DecidableEq, Repr

structure Input where
  level : Bool
  edge : EdgeSetting
  route : Agent
  alertLevel : Nat
  holdOff : Nat
  lastTaken : Option Nat
deriving DecidableEq, Repr

/-- A capture record (R152). -/
structure Capture where
  line : Nat
  edge : EdgeKind
  dt : TimeVal
  el : Nat
  quality : Nat
  gap : Nat
deriving DecidableEq, Repr

structure CaptureQueue where
  records : List Capture
  gap : Nat
deriving DecidableEq, Repr

structure LineUnit where
  outputs : List Output
  inputs : List Input
  captures : PerAgent CaptureQueue
deriving DecidableEq, Repr

/-! ## Grant arbiter (R164) -/

inductive Grant
  | free
  | held (by_ : Agent) (expiry : Nat)
deriving DecidableEq, Repr

structure GrantArbiter where
  grant : Grant
  lease : Nat
deriving DecidableEq, Repr

/-! ## Agent units (R156 … R163, R171 … R175) -/

structure Traps where
  iv : Bool
  ov : Bool
  wr : Bool
  st : Bool
deriving DecidableEq, Repr

/-- The agent context (R161), less what Alerts holds beside it. -/
structure Context where
  form : Form
  mixed : Bool
  base : Nat
  rounding : Rounding
  traps : Traps
  flags : Flags
  compare : Compare
  cursor : TimeVal
  lineBase : Nat
  threshold : Nat
  mask : Nat
deriving DecidableEq, Repr

/-- A return record (R174). -/
structure ReturnRecord where
  mask : Nat
  form : Form
  alert : AlertRecord
deriving DecidableEq, Repr

/-- The eight pending flags with their details (R171). -/
structure PendingAlerts where
  fault : Option FaultCause
  grant : Option GrantDetail
  servo : Option (ServoState × ServoState)
  leap : Option (LeapKind × Int)
  source : Option SourceDetail
  slew : Option SlewEnd
  client : Option ClientDetail
  capture : Option (Nat × Nat × EdgeKind)
deriving DecidableEq, Repr

/-! ### Result bodies of the responses -/

/-- What SERVO-READ returns (R45). -/
structure ServoReport where
  dt : TimeVal
  el : Nat
  rate : Int
  slew : Option Slew
  utc : Int
  leap : Leap
  timeSet : Bool
  rateBasis : Bool
  servo : ServoState
  inWindow : Nat
  outCount : Nat
  clamp : Nat
  stepCount : Nat
  holdEntry : Nat
  holdAge : Nat
  quality : Nat
  lockClass : Nat
  snapAt : Option Nat
  settings : TimescaleSettings
  selected : Option (Nat × Nat)
deriving DecidableEq, Repr

/-- What PORT-READ returns (R57). -/
structure PortReport where
  state : PortState
  link : Bool
  queued0 : Nat
  queued1 : Nat
  sending : Bool
  echoSeq : Nat
  asks : Nat
  counters : PortCounters
deriving DecidableEq, Repr

/-- What every SOURCE-READ carries besides (R86). -/
structure SourceTail where
  selected : Option Nat
  suspended : Bool
  settings : SourceSettings
deriving DecidableEq, Repr

/-- One present entry in SOURCE-READ of ALL (R86). -/
structure PathSummary where
  identity : Nat
  net : Option Net
  state : PathState
  cls : Nat
  accuracy : Nat
  delay : Option Ticks
  miss : Option Nat
  lastOffset : Option Int
deriving DecidableEq, Repr

/-- One slot in use in CLIENT-READ of ALL (R101): for each network whether a presence exists, with its delay value. -/
structure ClientSummary where
  identity : Nat
  state : ClientState
  by_ : AdmittedBy
  presences : PerNet (Option (Option Ticks))
deriving DecidableEq, Repr

/-- What EPOCH-READ returns (R114). -/
structure EpochReport where
  exponent : Nat
  periodNs : Nat
  next : Option Ticks
  seq : Nat
  cursor : PerNet Nat
  lastList : PerNet (List Nat)
deriving DecidableEq, Repr

/-- The grant state a grant request returns (9.5): FREE, or the holder and the lease remaining in ns. -/
inductive GrantReport
  | free
  | held (by_ : Agent) (remaining : Nat)
deriving DecidableEq, Repr

/-- A capture record as CAPTURE-READ returns it, its stamps shaped (R154). -/
structure CaptureView where
  line : Nat
  edge : EdgeKind
  dt : TimeField
  el : TimeField
  quality : Nat
  gap : Nat
deriving DecidableEq, Repr

/-- What CONTEXT-READ returns (R163). -/
structure ContextReport where
  ctx : Context
  depth : Nat
  topLevel : Option Nat
  pending : List FlagKind
  fifoLength : Nat
  captureLength : Nat
  captureGap : Nat
  overrun : Bool
deriving DecidableEq, Repr

/-- What LINE-TEST returns besides the level (R146). -/
inductive LineDetail
  | output (o : Output)
  | input (i : Input) (dedicated : Bool)
  | internal
deriving DecidableEq, Repr

/-- The result body of a response (R183). -/
inductive Body
  | empty
  | time (t : TimeField)
  | interval (i : IntervalField)
  | flags (f : Flags)
  | flagsAndTraps (f : Flags) (t : Traps)
  | servo (r : ServoReport)
  | snapshot (r : SnapshotRecord)
  | portState (s : PortState)
  | port (r : PortReport)
  | path (p : SourcePath) (tail : SourceTail)
  | paths (l : List (Option PathSummary)) (tail : SourceTail)
  | labelled (offset : Int) (state : PathState)
  | slot (n : Nat)
  | identity (n : Nat)
  | client (slot : Nat) (c : Client) (asks : PerNet Bool)
  | clients (l : List (Option ClientSummary)) (inUse : Nat) (autoAdmit : Bool) (full closed : Nat)
  | epochConfig (periodNs : Nat) (next : Option Ticks)
  | epoch (r : EpochReport)
  | quotas (q u : PerAgent Nat)
  | added (h : Handle) (domain : Scale) (due key : Ticks)
  | cancelled (last : Option FireOutcome) (train : Option (Nat × Nat))
  | entry (e : Entry)
  | entries (use quota : Nat) (l : List (Handle × Scale × Ticks))
  | line (line : Nat) (level : Bool)
  | lineSpan (line count value : Nat)
  | lineTest (line : Nat) (level : Bool) (d : LineDetail)
  | lineStore (value : Nat)
  | lineOwner (line : Nat) (former new : Option Agent)
  | outputSettings (width : Nat)
  | inputSettings (edge : EdgeSetting) (route : Agent) (level holdOff : Nat)
  | captures (length gap : Nat) (l : List CaptureView)
  | length (n : Nat)
  | context (r : ContextReport)
  | grant (g : GrantReport)
  | alertTop (r : ReturnRecord) (depth : Nat)
  | alertReturned (length depth mask : Nat)
  | masks (before after : Nat)
deriving DecidableEq, Repr

/-- A held response (R160, R183): its flags byte, status and result body. -/
structure Response where
  overrun : Bool
  flags : Flags
  status : Status
  body : Body
deriving DecidableEq, Repr

/-- Port status of an agent port (R156), with the request in hand or the held response. -/
inductive LinkState
  | idle
  | busy (q : Submitted)
  | ready (r : Response)
deriving DecidableEq, Repr

/-- The select window open on an agent port (R156 … R158, R168): its direction byte, none while that is not complete; the status
with the held response as they stood at the end of the direction byte; the bytes shifted in after it; and whether a reset has
cut the window off, so that the port disregards it to its release. -/
structure OpenWindow where
  direction : Option Byte
  link : LinkState
  bytes : List Byte
  cut : Bool
deriving DecidableEq, Repr

/-- An agent unit with its port (R156, R159, R161, R171, R172). -/
structure AgentUnit where
  link : LinkState
  overrun : Bool
  resetIn : Bool
  dataOut : List Byte
  window : Option OpenWindow
  ctx : Context
  stack : List ReturnRecord
  pending : PendingAlerts
  fifo : List SchedAlert
  gap : Nat
deriving DecidableEq, Repr

/-! ## Between the blocks -/

/-- An accepted ORIGIN on its way to the source table (R56, R69). -/
structure OriginMsg where
  net : Net
  stamp : Stamp
  seq : Nat
  identity : Nat
  departure : Ticks
  cls : Nat
  accuracy : Nat
  exponent : Int
  utc : Int
  leap : Leap
deriving DecidableEq, Repr

/-- An accepted REGISTER on its way to the client table (R56). -/
structure RegisterMsg where
  net : Net
  stamp : Stamp
  identity : Nat
  seq : Nat
deriving DecidableEq, Repr

/-- A delay sample, or a miss with its EL, on its way to the table that owns its target (R61, R63). -/
structure SampleMsg where
  net : Net
  target : Target
  sample : Int
deriving DecidableEq, Repr
structure MissMsg where
  net : Net
  target : Target
  el : Nat
deriving DecidableEq, Repr

/-- What the source table hands the timescale unit for entry `entry` (R71, R80): an offset with its interval
exponent, or a UTC pair with its arrival; a part of the pair that REF-LABEL did not carry is absent. -/
inductive TimescaleMsg
  | offset (entry : Nat) (exponent : Int) (o : Int)
  | pair (entry : Nat) (utc : Option Int) (leap : Option Leap) (arrival : Ticks)
deriving DecidableEq, Repr

/-- What the timescale unit reports to the schedule (R30, R134). `removed` is the DT instant of the second that a DELETE leap
applied in the reported event removed, none where it applied none (R135). `later` holds the indices whose entries took their keys
after the step, which had therefore not reached them (R131, log entry 12). -/
inductive ScheduleMsg
  | step (old new : Ticks) (removed : Option Ticks) (later : List Nat)
  | change (removed : Option Ticks)
deriving DecidableEq, Repr

/-- A renewal report of an accepted grant request (R164). It `stands` while the requester still holds the grant under which it was
accepted: a release, an expiry or a pass of the grant to another agent voids it for good. -/
structure Renewal where
  by_ : Agent
  stands : Bool
deriving DecidableEq, Repr

/-- The messages between the blocks that are not yet taken, oldest first (log entry 10). -/
structure InFlight where
  origins : List OriginMsg
  registers : List RegisterMsg
  sourceSamples : List SampleMsg
  sourceMisses : List MissMsg
  clientSamples : List SampleMsg
  clientMisses : List MissMsg
  refEdges : List Stamp
  toTimescale : List TimescaleMsg
  toSchedule : List ScheduleMsg
  toEpoch : List (Ticks × Ticks)
  renewals : List Renewal
  schedResets : List Agent
  lineResets : List Agent
  grantResets : List Agent
  slewResets : List Agent
  raises : PerAgent (List Raise)
  schedRaises : PerAgent (List SchedAlert)
deriving DecidableEq, Repr

/-! ## The machine -/

/-- The TD460. `span` is the model's own: the ns of oscillator time that one idle step lets pass (log entry 3).
`pending` is the queue of the commands that wait. -/
structure State where
  ts : Timescale
  ports : PerNet NetPort
  echo : EchoSettings
  wire : WireSettings
  src : SourceTable
  cli : ClientTable
  epoch : EpochUnit
  sched : Schedule
  lines : LineUnit
  arbiter : GrantArbiter
  units : PerAgent AgentUnit
  flight : InFlight
  resetIn : Bool
  span : Nat
  pending : List Instr
deriving DecidableEq, Repr

/-- The TD460 has no fault that stops it: what the spec describes as going wrong is answered with a status, counted,
or is the servo state FAULT, and the part goes on. Nobody raises a fault. -/
inductive Fault
deriving DecidableEq, Repr

/-- Why a command has no meaning. -/
inductive Refusal
  /-- Raised by exec for a command not modelled yet, by its mnemonic; safe. No arm of exec answers it now. -/
  | notModelled (mnemonic : String)
deriving DecidableEq, Repr

/-! ## After power-on -/

/-- The record after power-on (R21, R23). -/
def Timescale.reset : Timescale where
  dt := 0
  dtSub := 0
  el := 0
  elSub := 0
  rate := 0
  slew := none
  utc := 0
  leap := .none
  timeSet := false
  rateBasis := false
  servo := .freerun
  inWindow := 0
  outCount := 0
  clamp := 0
  stepCount := 0
  holdEntry := 15
  holdAge := 0
  holdSince := 0
  quality := 15
  lockClass := 15
  snapAt := none
  store := none
  settings := ⟨1000000, true, 1000, 100, 14400000000000, 900000000000⟩

/-- A port after power-on (R46, R57, R60); no link is present (DESIGN CHOICE, log entry 9). -/
def NetPort.reset : NetPort where
  state := .disabled
  link := false
  class0 := none
  class1 := []
  tx := none
  counters := ⟨0, 0, 0, 0, 0, 0, 0⟩
  echoSeq := 0
  asks := []
  cycleStart := 0
  nextSlot := 0
  cycleInterval := 1000000000
  cycleWait := 4000000

/-- An empty delay filter (R65). -/
def Filter.empty : Filter := ⟨none, 0, 0, 0⟩

/-- The source table after power-on (R67, R78). -/
def SourceTable.reset : SourceTable :=
  ⟨List.replicate Config.sourceEntries none, none, false, ⟨.none, false, 6, 1000⟩⟩

/-- The client table after power-on (R87, R88). -/
def ClientTable.reset : ClientTable := ⟨List.replicate Config.clientSlots none, 0, 0, true⟩

/-- The epoch unit after power-on (R103). -/
def EpochUnit.reset : EpochUnit := ⟨3, none, 0, ⟨0, 0⟩, ⟨[], []⟩⟩

/-- The schedule after power-on (R115, R120). -/
def Schedule.reset : Schedule :=
  ⟨[], [], List.replicate Config.schedIndices 0, ⟨32, 16, 16⟩, 1, .agent2⟩

/-- An output and an input after power-on (R141, R150, R151); the signal is low (DESIGN CHOICE, log entry 9). -/
def Output.reset : Output := ⟨false, none, 10000, none⟩
def Input.reset : Input := ⟨false, .none, .agent0, 8, 0, none⟩

/-- The line unit after power-on (R141, R150, R153). -/
def LineUnit.reset : LineUnit :=
  ⟨List.replicate Config.outputCount Output.reset, List.replicate Config.inputCount Input.reset,
    ⟨⟨[], 0⟩, ⟨[], 0⟩, ⟨[], 0⟩⟩⟩

/-- All seven flags clear (R9). -/
def Flags.clear : Flags := ⟨false, false, false, false, false, false, false⟩

/-- The context's reset values (R161). -/
def Context.reset : Context where
  form := .long
  mixed := false
  base := 0
  rounding := .nearest
  traps := ⟨false, false, false, false⟩
  flags := Flags.clear
  compare := .unordered
  cursor := .unset
  lineBase := 0
  threshold := 15
  mask := 0

/-- No alert pending (R171). -/
def PendingAlerts.clear : PendingAlerts := ⟨none, none, none, none, none, none, none, none⟩

/-- An agent unit after power-on (R156, R159, R161); the pins, with no window open, as log entry 9 says. -/
def AgentUnit.reset : AgentUnit := ⟨.idle, false, false, [], none, Context.reset, [], PendingAlerts.clear, [], 0⟩

/-- No message between the blocks (R170: no block keeps a frame, an alert or a request). -/
def InFlight.empty : InFlight :=
  ⟨[], [], [], [], [], [], [], [], [], [], [], [], [], [], [], ⟨[], [], []⟩, ⟨[], [], []⟩⟩

/-- The TD460 right after power-on. -/
def State.reset : State where
  ts := Timescale.reset
  ports := ⟨NetPort.reset, NetPort.reset⟩
  echo := ⟨1000000000, 4000000, 10000⟩
  wire := ⟨0, ⟨0, 0⟩⟩
  src := SourceTable.reset
  cli := ClientTable.reset
  epoch := EpochUnit.reset
  sched := Schedule.reset
  lines := LineUnit.reset
  arbiter := ⟨.free, 10000000000⟩
  units := ⟨AgentUnit.reset, AgentUnit.reset, AgentUnit.reset⟩
  flight := InFlight.empty
  resetIn := false
  span := 1
  pending := []

end Sys2Proof.Machine
end

