-- ==== Sys2Proof/Machine/Operands.lean ====
section
/-! DEFINITION. Operand forms, conversions between the scales, rounding and the shaping of results (R2 … R8). -/

namespace Sys2Proof

/-- The midnight of an announcement is a multiple of 86,400 (R35, R41). -/
def Leap.midnightOk : Leap → Bool
  | .none => true
  | .insert m => m % secPerDay == 0
  | .delete m => m % secPerDay == 0

/-- The form of a time value in a frame. -/
def TimeField.form : TimeField → Form
  | .long .. => .long
  | .short .. => .short
  | .unset f => f
  | .saturated f => f

/-- A nanoseconds field below 10^9 (R179); the two reserved encodings are the classes UNSET and SATURATED. -/
def TimeField.nsOk : TimeField → Bool
  | .long _ n _ => decide (n < nsPerSec)
  | .short _ n => decide (n < nsPerSec)
  | _ => true

def IntervalField.nsOk : IntervalField → Bool
  | .given _ _ n _ => decide (n < nsPerSec)
  | _ => true

namespace Machine

/-! ## Ranges and fields -/

/-- A time within 0 … 2^48 - 1 seconds (R1). -/
def inTimeRange (t : Int) : Bool := decide (0 ≤ t) && decide (t < (timeEnd : Int))

/-- Seconds as fraction units. -/
def secTicks (s : Int) : Int := s * (ticksPerSec : Int)

/-- L-form fields as fraction units (R4). -/
def longTicks (sec ns frac : Nat) : Ticks := (sec * nsPerSec + ns) * ticksPerNs + frac

/-- A time as L-form fields (R4). -/
def rawOfTicks (t : Ticks) : RawTime :=
  ⟨t / ticksPerSec, t % ticksPerSec / ticksPerNs, t % ticksPerNs⟩

/-- EL, or another count of ns, as a time value: its fraction is 0 (R1). -/
def nsTicks (n : Nat) : Ticks := n * ticksPerNs

/-- The UTC offset moved by a leap; outside its range the value is free (log entry 4). -/
def addOffset (off d : Int) : Int :=
  if -32768 ≤ off + d ∧ off + d ≤ 32767 then off + d else Config.offsetBeyondRange (off + d)

/-! ## Conversions (R2, R3) -/

/-- DT to UT (R2), with the flag LH of an instant inside the inserted second. -/
def toUt (off : Int) (l : Leap) (d : Int) : Int × Bool :=
  match l with
  | .none => (d - secTicks off, false)
  | .insert m =>
    if d < secTicks (m + off) then (d - secTicks off, false)
    else if d < secTicks (m + off + 1) then (secTicks (m - 1) + (d - secTicks (m + off)), true)
    else (d - secTicks (off + 1), false)
  | .delete m =>
    if d < secTicks (m - 1 + off) then (d - secTicks off, false) else (d - secTicks (off - 1), false)

/-- UT to DT (R3), with the mark of a UT instant inside a deleted second (R119). -/
def toDt (off : Int) (l : Leap) (u : Int) : Int × Bool :=
  match l with
  | .none => (u + secTicks off, false)
  | .insert m => if u < secTicks m then (u + secTicks off, false) else (u + secTicks (off + 1), false)
  | .delete m =>
    if u < secTicks (m - 1) then (u + secTicks off, false)
    else if u < secTicks m then (secTicks (m + off - 1), true)
    else (u + secTicks (off - 1), false)

/-- The latest UT instant whose DT by R3 is at or before `k`: the inverse the schedule counts a train's keys with (R132). -/
def lastUtAt (off : Int) (l : Leap) (k : Int) : Int :=
  match l with
  | .none => k - secTicks off
  | .insert m =>
    if k < secTicks (m + off) then k - secTicks off
    else if k < secTicks (m + off + 1) then secTicks m - 1
    else k - secTicks (off + 1)
  | .delete m => if k < secTicks (m + off - 1) then k - secTicks off else k - secTicks (off - 1)

/-- DT at which a standing announcement is applied (R36), in seconds; none when nothing stands. -/
def leapInstant (off : Int) : Leap → Option Int
  | .none => none
  | .insert m => some (m + off + 1)
  | .delete m => some (m - 1 + off)

/-- The announcement stands and its application instant lies at or before `d` (R36). -/
def leapDue (off : Int) (l : Leap) (d : Ticks) : Bool :=
  match leapInstant off l with
  | none => false
  | some i => decide (secTicks i ≤ (d : Int))

/-- `d` lies inside the inserted second of the standing announcement (R35, R41). -/
def insideInserted (off : Int) (l : Leap) (d : Ticks) : Bool :=
  match l with
  | .insert m => decide (secTicks (m + off) ≤ (d : Int)) && decide ((d : Int) < secTicks (m + off + 1))
  | _ => false

/-! ## Operands (R4, R5) -/

/-- An inline time value at full precision; an S-form value is read against the seconds base (R4). -/
def expand (base : Nat) : TimeField → TimeVal
  | .long s n f => .valid (longTicks s n f)
  | .short s n => .valid (longTicks (base * 65536 + s) n 0)
  | .unset _ => .unset
  | .saturated _ => .saturated

/-- A time operand: inline, or the requester's cursor at full precision (R4). -/
def operandVal (c : Context) : Operand → TimeVal
  | .cursor => c.cursor
  | .given v => expand c.base v

/-- An interval operand; a sign - on a zero magnitude is +, and the sign of a non-VALID one is disregarded (R4, R5). -/
def intervalVal : IntervalField → IntervalVal
  | .given neg s n f =>
    let m : Int := (longTicks s n f : Int)
    .valid (if neg then -m else m)
  | .unset => .unset
  | .saturated => .saturated

/-- The form override, otherwise the form of the context (R4). -/
def effForm (o : Options) (c : Context) : Form := o.form.getD c.form

/-- The rounding override, otherwise the mode of the context (R7). -/
def effRounding (o : Options) (c : Context) : Rounding := o.rounding.getD c.rounding

/-! ## Rounding (R7) -/

/-- Whole ns of a magnitude of `t` fraction units under a mode; `neg` says that the value is negative (R7). -/
def roundNs (m : Rounding) (neg : Bool) (t : Nat) : Nat :=
  let q := t / ticksPerNs
  let f := t % ticksPerNs
  match m with
  | .nearest => if f < 32768 then q else if f = 32768 then q + q % 2 else q + 1
  | .zero => q
  | .up => if neg || f == 0 then q else q + 1
  | .down => if neg && f != 0 then q + 1 else q

/-- A quotient rounded to the nearest whole number, a tie to the even one: the NEAREST mode as the echo engine and
the delay filters apply it (R62, R65, R66). -/
def divNearestEven (a : Int) (b : Nat) : Int :=
  let q := a / (b : Int)
  let r := 2 * (a % (b : Int))
  if r < b then q else if r = b then q + q % 2 else q + 1

/-! ## Results (R6, R8) -/

/-- No flag raised. -/
def noFlags : Flags := Flags.clear

/-- An exact time result before shaping: its class and value, and the flags raised in forming it (R6). -/
structure TimeResult where
  val : TimeVal
  raised : Flags
deriving DecidableEq, Repr

/-- A shaped time result: the field returned, the full value that the options record and store, all flags raised (R8). -/
structure ShapedTime where
  field : TimeField
  full : TimeVal
  raised : Flags
deriving DecidableEq, Repr

/-- An exact VALID result, SATURATED with OV outside the range (R6); `lh` is raised in range alone (R5). -/
def exactTime (t : Int) (lh : Bool) : TimeResult :=
  if inTimeRange t then ⟨.valid t.toNat, { noFlags with lh := lh }⟩ else ⟨.saturated, { noFlags with ov := true }⟩

/-- A count of ns as an S-form field, and whether its upper seconds differ from the base (R8). -/
def shortOfNs (base ns : Nat) : TimeField × Bool :=
  let sec := ns / nsPerSec
  (.short (sec % 65536) (ns % nsPerSec), sec / 65536 != base)

/-- A result given in the effective form (R5, R6, R7, R8). -/
def shapeTime (f : Form) (m : Rounding) (base : Nat) (r : TimeResult) : ShapedTime :=
  match r.val with
  | .unset => ⟨.unset f, .unset, r.raised⟩
  | .saturated => ⟨.saturated f, .saturated, r.raised⟩
  | .valid t =>
    match f with
    | .long => let w := rawOfTicks t; ⟨.long w.sec w.ns w.frac, .valid t, r.raised⟩
    | .short =>
      let ns := roundNs m false t
      if timeEnd ≤ nsTicks ns then ⟨.saturated f, .saturated, { r.raised with ov := true, lh := false }⟩
      else
        let w := shortOfNs base ns
        ⟨w.1, .valid (nsTicks ns), { r.raised with ix := r.raised.ix || t % ticksPerNs != 0, wr := r.raised.wr || w.2 }⟩

/-- A shaped interval result: the field, its value as returned, the flags raised (R8). -/
structure ShapedInterval where
  field : IntervalField
  val : IntervalVal
  raised : Flags
deriving DecidableEq, Repr

/-- Sign and magnitude of an interval as fields; magnitude zero has sign + (R4). -/
def intervalField (d : Int) : IntervalField :=
  let w := rawOfTicks d.natAbs
  .given (decide (d < 0)) w.sec w.ns w.frac

/-- An interval result in the effective form: exact in L-form, its fraction rounded away in S-form (R8). -/
def shapeInterval (f : Form) (m : Rounding) (v : IntervalVal) (raised : Flags) : ShapedInterval :=
  match v with
  | .unset => ⟨.unset, .unset, raised⟩
  | .saturated => ⟨.saturated, .saturated, raised⟩
  | .valid d =>
    match f with
    | .long => ⟨intervalField d, .valid d, raised⟩
    | .short =>
      let t := nsTicks (roundNs m (decide (d < 0)) d.natAbs)
      if timeEnd ≤ t then ⟨.saturated, .saturated, { raised with ov := true }⟩
      else
        let r : Int := if d < 0 then -(t : Int) else t
        ⟨intervalField r, .valid r, { raised with ix := raised.ix || d.natAbs % ticksPerNs != 0 }⟩

/-- The time a + d, by class (R6, R18). -/
def offsetTime (a : TimeVal) (d : IntervalVal) : TimeResult :=
  match a, d with
  | .unset, _ | _, .unset => ⟨.unset, { noFlags with iv := true }⟩
  | .saturated, .saturated => ⟨.unset, { noFlags with iv := true }⟩
  | .saturated, _ | _, .saturated => ⟨.saturated, noFlags⟩
  | .valid t, .valid i => exactTime ((t : Int) + i) false

/-- The interval a - b, by class (R6, R17), with the flags raised. -/
def diffTimes (a b : TimeVal) : IntervalVal × Flags :=
  match a, b with
  | .unset, _ | _, .unset => (.unset, { noFlags with iv := true })
  | .saturated, .saturated => (.unset, { noFlags with iv := true })
  | .saturated, _ | _, .saturated => (.saturated, noFlags)
  | .valid x, .valid y => (.valid ((x : Int) - (y : Int)), noFlags)

/-- A VALID time converted between scales of R16, other classes by R6. -/
def convertTime (off : Int) (l : Leap) (source target : Scale) (x : TimeVal) : TimeResult :=
  match x with
  | .unset => ⟨.unset, { noFlags with iv := true }⟩
  | .saturated => ⟨.saturated, noFlags⟩
  | .valid t =>
    match source, target with
    | .dt, .ut => let r := toUt off l t; exactTime r.1 r.2
    | .ut, .dt => exactTime (toDt off l t).1 false
    | _, _ => exactTime t false

end Machine
end Sys2Proof
end

