-- ==== Sys2Proof/Machine/Bytes.lean ====
section
/-! DEFINITION. Numbers as bytes (R179) and the two check words (R183). -/

namespace Sys2Proof.Machine

/-- A number in `w` bytes, most significant byte first (R179). -/
def be : Nat → Nat → List Byte
  | 0, _ => []
  | w + 1, n => be w (n / 256) ++ [BitVec.ofNat 8 n]

/-- A signed number in `w` bytes, two's complement (R179). -/
def beSigned (w : Nat) (d : Int) : List Byte := be w (d % ((256 ^ w : Nat) : Int)).toNat

/-- The number that bytes spell, most significant byte first (R179). -/
def ofBe (l : List Byte) : Nat := l.foldl (fun a b => a * 256 + b.toNat) 0

/-- The two's complement number that `w` bytes spell. -/
def ofBeSigned (w n : Nat) : Int := if 2 * n < 256 ^ w then (n : Int) else (n : Int) - ((256 ^ w : Nat) : Int)

/-- `k` bits of a CRC shifted out, most significant bit first (R183). -/
def crcShift {w : Nat} (poly : BitVec w) : Nat → BitVec w → BitVec w
  | 0, c => c
  | k + 1, c => crcShift poly k (if c.msb then (c <<< 1) ^^^ poly else c <<< 1)

/-- A CRC of width `w` taken over one more byte. -/
def crcByte {w : Nat} (poly : BitVec w) (c : BitVec w) (b : Byte) : BitVec w :=
  crcShift poly 8 (c ^^^ (b.setWidth w <<< (w - 8)))

/-- The check of request and response frames: CRC-16, polynomial 0x1021, initial value 0xFFFF, no final inversion (R183). -/
def crc16 (l : List Byte) : Nat := (l.foldl (crcByte 0x1021#16) 0xFFFF#16).toNat

/-- The check word of a snapshot record: CRC-32, polynomial 0x04C11DB7, initial value 0xFFFFFFFF, remainder inverted (R183). -/
def crc32 (l : List Byte) : Nat := (~~~(l.foldl (crcByte 0x04C11DB7#32) 0xFFFFFFFF#32)).toNat

/-- L-form fields in 12 bytes (R179). -/
def rawBytes (r : RawTime) : List Byte := be 6 r.sec ++ be 4 r.ns ++ be 2 r.frac

/-- The 24 bytes of a snapshot record before its check word, as they are carried (R183). -/
def snapshotBody (r : SnapshotRecord) : List Byte :=
  be 1 r.version ++ beSigned 4 r.rate ++ be 1 r.lockClass ++ be 6 r.identity ++ rawBytes r.dtAtSave

/-- A record as the part keeps and sends it: an UNSET or SATURATED DT at save has zeros in its other fields (R179), and the
check word is taken over them (R183, log entry 39). -/
def snapshotKept (r : SnapshotRecord) : SnapshotRecord :=
  if r.dtAtSave.ns < nsPerSec then r
  else
    let z := { r with dtAtSave := ⟨0, r.dtAtSave.ns, 0⟩ }
    { z with check := crc32 (snapshotBody z) }

/-- The 28 bytes of a snapshot record (R183). -/
def snapshotBytes (r : SnapshotRecord) : List Byte := snapshotBody (snapshotKept r) ++ be 4 (snapshotKept r).check

/-- The check word agrees with the 24 bytes before it as they are carried (R44, R183, log entry 39). -/
def snapshotChecks (r : SnapshotRecord) : Bool := crc32 (snapshotBody r) == r.check

end Sys2Proof.Machine
end

