-- ==== Sys2Proof/Machine/Codes.lean ====
section
/-! DEFINITION. The codes of the enumerated fields (R179, R183, 11.5): each list holds the values in the order of their
codes 0, 1, 2 … -/

namespace Sys2Proof.Machine

/-- The code of a value. -/
def codeIn {α : Type} [BEq α] (l : List α) (x : α) : Nat := l.idxOf x

/-- The value of a code; none beyond the last listed value (R179). -/
def ofCode {α : Type} (l : List α) (n : Nat) : Option α := l[n]?

def formList : List Form := [.long, .short]
def roundingList : List Rounding := [.nearest, .zero, .up, .down]
def compareList : List Compare := [.less, .equal, .greater, .unordered]
def scaleList : List Scale := [.dt, .ut, .el]
def steerScaleList : List SteerScale := [.dt, .ut]
def agentList : List Agent := [.agent0, .agent1, .agent2]
/-- The owner of an output (R141). -/
def ownerList : List (Option Agent) := [some .agent0, some .agent1, some .agent2, none]
def netList : List Net := [.netA, .netB]
def preferenceList : List Preference := [.netA, .netB, .none]
/-- Settings with the values on and off (R23, R78, R88, R161), in that order (log entry 18). -/
def onOffList : List Bool := [true, false]
/-- Flags with the values true and false (R21), in that order (log entry 18). -/
def trueFalseList : List Bool := [true, false]
/-- Levels high and low (R141), in that order (log entry 18). -/
def levelList : List Bool := [true, false]
def edgeList : List EdgeKind := [.rise, .fall]
def edgeSettingList : List EdgeSetting := [.none, .rise, .fall, .both]
def servoList : List ServoState := [.freerun, .acquire, .locked, .holdover, .fault]
def portStateList : List PortState := [.disabled, .down, .up]
def pathStateList : List PathState := [.listen, .candidate, .selected, .stale, .barred]
def clientStateList : List ClientState := [.expected, .measuring, .served, .lapsed]
def admittedByList : List AdmittedBy := [.auto, .agent]
def outcomeList : List FireOutcome := [.onTime, .late, .shifted, .suppressed]
/-- Alert kinds (R183). -/
def kindList : List FlagKind := [.fault, .grant, .servo, .leap, .source, .slew, .client, .capture]
def faultCauseList : List FaultCause := [.clamp, .restore]
def grantDetailList : List GrantDetail := [.preempted, .expired]
def sourceCauseList : List SourceCause := [.first, .better, .stale, .barred, .listen, .removed, .fault, .restart]
def slewEndList : List SlewEnd := [.completed, .replaced, .dropped]
def clientEventList : List ClientEvent := [.admitted, .lapsed, .released, .removed]
def clientCauseList : List ClientCause := [.expected, .auto, .back, .misses, .port, .timeout, .agent]

/-- Statuses (11.5). -/
def statusList : List Status :=
  [.ok, .exception, .rank, .grant, .held, .state, .range, .full, .noEntry, .lineOwner, .tooLate, .condition, .count,
    .notInAlert, .format, .check, .unknown, .closed]

/-- Kind and midnight of an announcement (R179): NONE 0, INSERT 1, DELETE 2. -/
def leapCode : Leap → Nat × Nat
  | .none => (0, 0)
  | .insert m => (1, m)
  | .delete m => (2, m)

/-- The announcement of a kind and a midnight. -/
def leapOf (kind midnight : Nat) : Option Leap :=
  match kind with
  | 0 => some .none
  | 1 => some (.insert midnight)
  | 2 => some (.delete midnight)
  | _ => none

end Sys2Proof.Machine
end

