-- ==== Sys2Proof/Machine/Flags.lean ====
section
/-! DEFINITION. Sticky flags, traps, compare field and the options of a time request (R9 … R13, R20). -/

namespace Sys2Proof.Machine

/-- Any of the six sticky flags of `r` that `f` does not hold yet (R9). -/
def anyNew (f r : Flags) : Bool :=
  (r.iv && !f.iv) || (r.ov && !f.ov) || (r.ix && !f.ix) || (r.wr && !f.wr) || (r.lh && !f.lh) || (r.st && !f.st)

/-- The raised flags are set; FX is set when one goes from clear to set, and is left as it is otherwise (R9). -/
def raiseFlags (f r : Flags) : Flags where
  iv := f.iv || r.iv
  ov := f.ov || r.ov
  ix := f.ix || r.ix
  wr := f.wr || r.wr
  lh := f.lh || r.lh
  st := f.st || r.st
  fx := f.fx || anyNew f r

/-- Each flag the mask names is cleared, the others stay (R20). -/
def clearFlags (f m : Flags) : Flags where
  iv := f.iv && !m.iv
  ov := f.ov && !m.ov
  ix := f.ix && !m.ix
  wr := f.wr && !m.wr
  lh := f.lh && !m.lh
  st := f.st && !m.st
  fx := f.fx && !m.fx

/-- A raised flag has its trap-enable on; IX and LH have none (R10). -/
def trapped (t : Traps) (r : Flags) : Bool := (r.iv && t.iv) || (r.ov && t.ov) || (r.wr && t.wr) || (r.st && t.st)

/-- Union of two sets of raised flags. -/
def Flags.or (a b : Flags) : Flags :=
  ⟨a.iv || b.iv, a.ov || b.ov, a.ix || b.ix, a.wr || b.wr, a.lh || b.lh, a.st || b.st, a.fx || b.fx⟩

/-- Comparison of two times; UNORDERED unless both are VALID (R11). -/
def compareTimes (a b : TimeVal) : Compare :=
  match a, b with
  | .valid x, .valid y => if x < y then .less else if x = y then .equal else .greater
  | _, _ => .unordered

/-- The sign of an interval as the compare field holds it (R11). -/
def compareSign (v : IntervalVal) : Compare :=
  match v with
  | .valid d => if d < 0 then .less else if d = 0 then .equal else .greater
  | _ => .unordered

/-- What a time request leaves in the context, and whether it ends EXCEPTION: flags by R9; a trap leaves compare field
and cursor (R10); otherwise the record option writes `cmp` (R11) and the update option then writes `upd` (R12). -/
def finishContext (o : Options) (c : Context) (raised : Flags) (cmp : Compare) (upd : Option TimeVal) : Context × Bool :=
  let c1 := { c with flags := raiseFlags c.flags raised }
  if trapped c.traps raised then (c1, true)
  else
    let c2 := if o.record then { c1 with compare := cmp } else c1
    match upd with
    | some v => (if o.update then { c2 with cursor := v } else c2, false)
    | none => (c2, false)

end Sys2Proof.Machine
end

