-- ==== Sys2Proof/Machine/Ops.lean ====
section
/-! DEFINITION. The named operations every block works with: access to the blocks, raising alerts (R171, R172), the taking
and answering of a request (R156 … R160), the transmit queue (R52 … R54) and the end of an ask (R64). -/

namespace Sys2Proof

/-! ## Per agent and per network -/

def PerAgent.get {α : Type} (p : PerAgent α) : Agent → α
  | .agent0 => p.a0
  | .agent1 => p.a1
  | .agent2 => p.a2

def PerAgent.set {α : Type} (p : PerAgent α) : Agent → α → PerAgent α
  | .agent0, x => { p with a0 := x }
  | .agent1, x => { p with a1 := x }
  | .agent2, x => { p with a2 := x }

def PerNet.get {α : Type} (p : PerNet α) : Net → α
  | .netA => p.a
  | .netB => p.b

def PerNet.set {α : Type} (p : PerNet α) : Net → α → PerNet α
  | .netA, x => { p with a := x }
  | .netB, x => { p with b := x }

/-- The agent after `a`, with agent 0 following agent 2 (R120). -/
def Agent.next : Agent → Agent
  | .agent0 => .agent1
  | .agent1 => .agent2
  | .agent2 => .agent0

/-- Rank-0 requests of the catalogue (11.4). -/
def Request.rankZero : Request → Bool
  | .partConfig _ | .servoRestart | .snapshotRestore _ | .portEnable _ | .portDisable _ | .sourceBar _ _ | .sourceUnbar _
  | .clientAdd _ | .clientRemove _ | .epochConfig _ | .quotaSet _ _ _ | .lineOwn _ _ | .lineConfig _ _ | .partReset => true
  | _ => false

/-- Grant requests of the catalogue (11.4). -/
def Request.needsGrant : Request → Bool
  | .steerStep _ | .steerSlew _ _ | .steerRate _ | .steerLeap _ _ | .refLabel _ _ _ => true
  | _ => false

/-- Requests that pass through the schedule's arbiter (R120). -/
def Request.atArbiter : Request → Bool
  | .schedAdd _ | .schedCancel _ | .schedRead _ | .quotaSet _ _ _ => true
  | _ => false

/-- A time operand in the form its frame has room for, with a legal nanoseconds field (R179, R181). -/
def Operand.okIn (f : Form) : Operand → Bool
  | .cursor => true
  | .given v => v.form == f && v.nsOk

/-- A nanoseconds field that is VALID or a reserved encoding (R179). -/
def Machine.rawNsOk (n : Nat) : Bool := decide (n < nsPerSec) || n == 4294967295 || n == 4294967294

/-- Every field of the request has a legal encoding in its frame (R179, R182): inline times stand in the effective
form, the operand of TIME-CONVERT in the form it names, the cursor of CONTEXT-SET in the form of the context. -/
def Submitted.encodingOk (c : Machine.Context) (q : Submitted) : Bool :=
  let f := Machine.effForm q.opts c
  match q.req with
  | .timeConvert _ _ g x => x.okIn g
  | .timeDiff a b => a.okIn f && b.okIn f
  | .timeOffset t i => t.okIn f && i.nsOk
  | .snapshotRestore r => Machine.rawNsOk r.dtAtSave.ns
  | .steerStep (.absolute t _) => t.form == f && t.nsOk
  | .steerStep (.interval i) => i.nsOk
  | .steerSlew i _ => i.nsOk
  | .schedAdd r =>
    (match r.due with
      | .absolute t => t.form == f && t.nsOk
      | .cursorPlus i => i.nsOk
      | .nowPlus i => i.nsOk) &&
    (match r.period with
      | some i => i.nsOk
      | none => true)
  | .contextSet x =>
    match x.cursor with
    | some t => t.form == c.form && t.nsOk
    | none => true
  | _ => true

namespace Machine

/-! ## Access to the blocks -/

def State.unit (s : State) (ag : Agent) : AgentUnit := s.units.get ag
def State.setUnit (s : State) (ag : Agent) (u : AgentUnit) : State := { s with units := s.units.set ag u }
def State.ctx (s : State) (ag : Agent) : Context := (s.unit ag).ctx
def State.setCtx (s : State) (ag : Agent) (c : Context) : State := s.setUnit ag { s.unit ag with ctx := c }
def State.port (s : State) (n : Net) : NetPort := s.ports.get n
def State.setPort (s : State) (n : Net) (p : NetPort) : State := { s with ports := s.ports.set n p }
def State.setTs (s : State) (t : Timescale) : State := { s with ts := t }
def State.setSched (s : State) (c : Schedule) : State := { s with sched := c }
def State.setLines (s : State) (l : LineUnit) : State := { s with lines := l }
def State.setFlight (s : State) (f : InFlight) : State := { s with flight := f }

/-- Entry `i` of the source table (R67). -/
def State.path (s : State) (i : Nat) : Option SourcePath := s.src.entries.getD i none
def State.setPath (s : State) (i : Nat) (p : Option SourcePath) : State :=
  { s with src := { s.src with entries := s.src.entries.set i p } }

/-- Slot `i` of the client table (R87). -/
def State.client (s : State) (i : Nat) : Option Client := s.cli.slots.getD i none
def State.setClient (s : State) (i : Nat) (c : Option Client) : State :=
  { s with cli := { s.cli with slots := s.cli.slots.set i c } }

/-- The capture queue of an agent (R153). -/
def State.captures (s : State) (ag : Agent) : CaptureQueue := s.lines.captures.get ag
def State.setCaptures (s : State) (ag : Agent) (q : CaptureQueue) : State :=
  s.setLines { s.lines with captures := s.lines.captures.set ag q }

/-- A saturating 32-bit counter (R57, R67, R87). -/
def bump32 (n : Nat) : Nat := if n < Config.counterMax then n + 1 else n
/-- A saturating 8-bit count (R63, R153, R172). -/
def bump8 (n : Nat) : Nat := if n < 255 then n + 1 else n
/-- A 16-bit sequence (00_scope.md, "Numbers"). -/
def next16 (n : Nat) : Nat := (n + 1) % 65536

/-- The attention output of an agent port (R175). -/
def State.attention (s : State) (ag : Agent) : Bool := !(s.unit ag).stack.isEmpty && !(s.unit ag).resetIn

/-! ## Raising alerts -/

/-- The kind of a raise (R171). -/
def Raise.kind : Raise → FlagKind
  | .fault _ => .fault
  | .grant _ => .grant
  | .servo _ _ => .servo
  | .leap _ _ => .leap
  | .source _ => .source
  | .slew _ => .slew
  | .client _ => .client
  | .capture _ _ _ => .capture

/-- A block raises an alert toward one agent; the agent unit takes it as an event of its own (R171). -/
def raiseTo (ag : Agent) (r : Raise) (s : State) : State :=
  s.setFlight { s.flight with raises := s.flight.raises.set ag (s.flight.raises.get ag ++ [r]) }

/-- An alert toward all three agents (chapter 10). -/
def raiseAll (r : Raise) (s : State) : State := raiseTo .agent2 r (raiseTo .agent1 r (raiseTo .agent0 r s))

/-- The schedule raises SCHEDULE toward an owner (R126). -/
def raiseSched (ag : Agent) (a : SchedAlert) (s : State) : State :=
  s.setFlight { s.flight with schedRaises := s.flight.schedRaises.set ag (s.flight.schedRaises.get ag ++ [a]) }

/-! ## The grant check (R164) -/

/-- Whether the agent holds the steering grant. -/
def State.holdsGrant (s : State) (ag : Agent) : Bool :=
  match s.arbiter.grant with
  | .free => false
  | .held a _ => a == ag

/-- An accepted grant request is reported to the arbiter (R164). -/
def reportRenewal (ag : Agent) (s : State) : State :=
  s.setFlight { s.flight with renewals := s.flight.renewals ++ [⟨ag, s.holdsGrant ag⟩] }

/-- The holder loses the grant, so the renewal reports that wait change nothing, even where it claims the grant anew before they
are taken (R164). -/
def voidRenewals (s : State) : State :=
  s.setFlight { s.flight with renewals := s.flight.renewals.map fun r => { r with stands := false } }

/-! ## Taking a request (R156, R157, R160) -/

/-- The port takes select windows: neither RESET nor the port's own reset input is asserted (R168, R170). -/
def State.takesWindows (s : State) (ag : Agent) : Bool := !s.resetIn && !(s.unit ag).resetIn

/-- A whole frame can reach the port: it takes select windows, and none is open on it (R156, log entry 52). -/
def State.takesFrames (s : State) (ag : Agent) : Bool := s.takesWindows ag && (s.unit ag).window.isNone

/-- The agent unit builds the response and holds it: the overrun flag is carried and cleared, and the requester's flags
are those that stand after the request (R159, R160). -/
def respond (ag : Agent) (st : Status) (b : Body) (s : State) : State :=
  let u := s.unit ag
  s.setUnit ag { u with link := .ready ⟨u.overrun, u.ctx.flags, st, b⟩, overrun := false }

/-- The checks of encoding, rank and grant; a request that passes is in hand and the port BUSY (R157, R160, R182). -/
def acceptFrame (ag : Agent) (q : Submitted) (s : State) : State :=
  if q.encodingOk (s.ctx ag) = false then respond ag .format .empty s
  else if q.req.rankZero && ag != .agent0 then respond ag .rank .empty s
  else if q.req.needsGrant && !s.holdsGrant ag then respond ag .grant .empty s
  else s.setUnit ag { s.unit ag with link := .busy q }

/-- A SUBMIT that finds the port BUSY is disregarded and sets the overrun flag (R157, R159). -/
def overrun (ag : Agent) (s : State) : State := s.setUnit ag { s.unit ag with overrun := true }

/-- A whole request frame reaches the port of an agent (R157): while BUSY it is an overrun, otherwise it is taken and
any held response is discarded. -/
def submit (ag : Agent) (q : Submitted) (s : State) : State :=
  if s.takesFrames ag then
    match (s.unit ag).link with
    | .busy _ => overrun ag s
    | _ => acceptFrame ag q s
  else s

/-- An agent with a request waiting at the schedule's arbiter (R120). -/
def State.waitsAtArbiter (s : State) (ag : Agent) : Bool :=
  match (s.unit ag).link with
  | .busy q => q.req.atArbiter
  | _ => false

/-- Whom the arbiter hands the schedule to next: the first with a request waiting, from the agent after the one last
served (R120). -/
def State.arbiterChoice (s : State) : Option Agent :=
  let a := s.sched.lastServed.next
  if s.waitsAtArbiter a then some a
  else if s.waitsAtArbiter a.next then some a.next
  else if s.waitsAtArbiter a.next.next then some a.next.next
  else none

/-- The request is in hand at the agent's port, and its block takes it next: a schedule request waits for its turn (R120). -/
def State.inHand (s : State) (ag : Agent) (q : Submitted) : Bool :=
  (s.unit ag).link == .busy q && (!q.req.atArbiter || s.arbiterChoice == some ag)

/-- What a block answers: the state after the request, its status and its result body. -/
structure Answer where
  state : State
  status : Status
  body : Body
deriving DecidableEq, Repr

/-- A refusal that leaves the blocks as they are. -/
def refuse (st : Status) (s : State) : Answer := ⟨s, st, .empty⟩

/-- An answer OK. -/
def accept (b : Body) (s : State) : Answer := ⟨s, .ok, b⟩

/-- A request that is not in hand is submitted (log entry 1). -/
def bringInHand (ag : Agent) (q : Submitted) (s : State) : State :=
  if (s.unit ag).link = .busy q then s else submit ag q s

/-- A request command (R160, log entry 1): the request, submitted unless it is in hand, is taken by its block, and the
agent unit holds the answer. -/
def runRequest (ag : Agent) (q : Submitted) (take : State → Answer) (s : State) : State :=
  let s1 := bringInHand ag q s
  if s1.inHand ag q then
    let a := take s1
    respond ag a.status a.body a.state
  else s1

/-! ## The transmit queue (R52 … R54) -/

/-- An UP port with nothing in transmission begins to send: the EPOCH first, otherwise the oldest class-1 frame (R54). -/
def beginTx (p : NetPort) : NetPort :=
  if p.state = .up then
    match p.tx with
    | some _ => p
    | none =>
      match p.class0 with
      | some f => { p with class0 := none, tx := some ⟨.epoch f, none⟩ }
      | none =>
        match p.class1 with
        | [] => p
        | f :: rest => { p with class1 := rest, tx := some ⟨.class1 f, none⟩ }
  else p

/-- A class-1 frame is placed in the queue; false when it is dropped for want of room (R53). -/
def placeClass1 (f : Class1Frame) (p : NetPort) : NetPort × Bool :=
  if p.class1.length < Config.class1Room then (beginTx { p with class1 := p.class1 ++ [f] }, true) else (p, false)

/-- An EPOCH is placed in the class-0 position, replacing one that waits there (R52). -/
def placeEpoch (f : EpochFrame) (p : NetPort) : NetPort :=
  let c := if p.class0.isSome then { p.counters with epochReplaced := bump32 p.counters.epochReplaced } else p.counters
  beginTx { p with class0 := some f, counters := c }

/-! ## The end of an ask (R64) -/

/-- The frame is the ECHO-ASK of one of these sequences. -/
def Class1Frame.isAskOf (seqs : List Nat) : Class1Frame → Bool
  | .ask _ q _ => seqs.contains q
  | .admission .. => false

/-- The asks that `p` names are ended, and an ECHO-ASK still queued for one leaves the queue (R63, R64). -/
def endAsksWhere (p : Ask → Bool) (n : NetPort) : NetPort :=
  let seqs := (n.asks.filter p).map (·.seq)
  { n with asks := n.asks.filter (fun a => !p a), class1 := n.class1.filter (fun f => !f.isAskOf seqs) }

/-- The target's outstanding ask on each port is ended without a miss (R64). -/
def endAsks (t : Target) (s : State) : State :=
  { s with ports := ⟨endAsksWhere (fun a => a.target == t) s.ports.a, endAsksWhere (fun a => a.target == t) s.ports.b⟩ }

/-- The ask of a target on one port is ended without a miss (R64). -/
def endAskOn (n : Net) (t : Target) (s : State) : State :=
  s.setPort n (endAsksWhere (fun a => a.target == t) (s.port n))

end Machine
end Sys2Proof
end

