-- ==== Sys2Proof/Machine/Requests.lean ====
section
/-! DEFINITION. Request frames (R179, R181, R182): the bytes of a SUBMIT window as a request, or the status they are
answered with. The order of the fields follows the rule of each request (log entry 17). -/

namespace Sys2Proof.Machine

/-- A reader of bytes: a value and the bytes left, or none where a field is no legal encoding or bytes are wanting. -/
abbrev Reader := StateT (List Byte) Option

/-! ## Fields (R179, R181) -/

/-- The next `w` bytes. -/
def readBytes (w : Nat) : Reader (List Byte) := fun l => if w ≤ l.length then some (l.take w, l.drop w) else none

/-- A number of `w` bytes. -/
def readNum (w : Nat) : Reader Nat := do return ofBe (← readBytes w)

/-- A two's complement number of `w` bytes. -/
def readSigned (w : Nat) : Reader Int := do return ofBeSigned w (← readNum w)

/-- A value that must be present. -/
def readSome {α : Type} (x : Option α) : Reader α := fun l => x.map fun v => (v, l)

/-- An enumerated byte (R179). -/
def readEnum {α : Type} (l : List α) : Reader α := do readSome (ofCode l (← readNum 1))

/-- A presence or sign byte: 0 or 1 alone (R179). -/
def readBit : Reader Bool := readEnum [false, true]

/-- An optional field of `w` bytes (R179): an absent one occupies its size and is disregarded. -/
def readOpt {α : Type} (w : Nat) (p : Reader α) : Reader (Option α) := do
  if ← readBit then return some (← p)
  else
    let _ ← readBytes w
    return none

/-- A number read as an L-form time (R179). -/
def longField (sec ns frac : Nat) : Option TimeField :=
  if ns < nsPerSec then some (.long sec ns frac)
  else if ns = 4294967295 then some (.unset .long)
  else if ns = 4294967294 then some (.saturated .long)
  else none

/-- A number read as an S-form time (R179). -/
def shortField (sec ns : Nat) : Option TimeField :=
  if ns < nsPerSec then some (.short sec ns)
  else if ns = 4294967295 then some (.unset .short)
  else if ns = 4294967294 then some (.saturated .short)
  else none

/-- Bytes of a time value in a form (R179). -/
def formSize : Form → Nat
  | .long => 12
  | .short => 6

/-- A time value in a form (R179). -/
def readTime : Form → Reader TimeField
  | .long => do readSome (longField (← readNum 6) (← readNum 4) (← readNum 2))
  | .short => do readSome (shortField (← readNum 2) (← readNum 4))

/-- An interval of 13 bytes (R179). A sign byte other than 0 and 1 is no legal encoding, on an UNSET or SATURATED interval too
(DESIGN CHOICE, log entry 48). -/
def readInterval : Reader IntervalField := do
  let neg ← readBit
  match ← readTime .long with
  | .unset _ => return .unset
  | .saturated _ => return .saturated
  | .long s n f => return .given neg s n f
  | .short s n => return .given neg s n 0

/-- An operand that may be given as CURSOR (R181): those of TIME-CONVERT, TIME-DIFF and TIME-OFFSET (DESIGN CHOICE, log entry
49). -/
def readOperand (f : Form) : Reader Operand := do
  if ← readBit then return .given (← readTime f) else return .cursor

/-- Kind and midnight of an announcement (log entry 17). -/
def readLeap : Reader Leap := do readSome (leapOf (← readNum 1) (← readNum 6))

/-- An entry or slot byte, 255 for ALL (R181). -/
def readAll : Reader (Option Nat) := do
  let n ← readNum 1
  return if n = 255 then none else some n

def readHandle : Reader Handle := do return ⟨← readNum 1, ← readNum 1⟩

/-- The mask of FLAGS-CLEAR (R181); a mask with bit 7 set is no legal encoding, so the request is answered FORMAT (DESIGN CHOICE,
log entry 17). -/
def flagsOfByte (n : Nat) : Option Flags :=
  if n < 128 then some ⟨n.testBit 5, n.testBit 4, n.testBit 3, n.testBit 2, n.testBit 1, n.testBit 0, n.testBit 6⟩ else none

/-! ## The settings and records -/

/-- The settings of PART-CONFIG, chapter by chapter (R181). A station address, 48 bits by R180, is read in 6 bytes as an identity is
(DESIGN CHOICE, log entry 17). -/
def readPartSettings : Reader PartSettings := do
  return {
    stepThreshold := ← readOpt 4 (readNum 4)
    stepEnable := ← readOpt 1 (readEnum onOffList)
    lockWindow := ← readOpt 4 (readNum 4)
    maxSlew := ← readOpt 2 (readNum 2)
    holdLimit := ← readOpt 8 (readNum 8)
    holdStep := ← readOpt 8 (readNum 8)
    echoInterval := ← readOpt 8 (readNum 8)
    replyWait := ← readOpt 4 (readNum 4)
    outlierLimit := ← readOpt 4 (readNum 4)
    preference := ← readOpt 1 (readEnum preferenceList)
    refMode := ← readOpt 1 (readEnum onOffList)
    refClass := ← readOpt 1 (readNum 1)
    refAccuracy := ← readOpt 4 (readNum 4)
    autoAdmit := ← readOpt 1 (readEnum onOffList)
    lease := ← readOpt 8 (readNum 8)
    partIdentity := ← readOpt 6 (readNum 6)
    stationA := ← readOpt 6 (readNum 6)
    stationB := ← readOpt 6 (readNum 6) }

/-- The 28 bytes of a snapshot record (R183), as they are carried for its check; SNAPSHOT-RESTORE then disregards what R179 has
disregarded (`snapshotKept`). -/
def readSnapshot : Reader SnapshotRecord := do
  return {
    version := ← readNum 1
    rate := ← readSigned 4
    lockClass := ← readNum 1
    identity := ← readNum 6
    dtAtSave := ⟨← readNum 6, ← readNum 4, ← readNum 2⟩
    check := ← readNum 4 }

/-- STEER-STEP: selector, then the alternative (R38, R181); the absolute time is inline, never CURSOR (DESIGN CHOICE, log entry
49). -/
def readStep (f : Form) : Reader StepOperand := do
  if ← readBit then return .interval (← readInterval)
  else return .absolute (← readTime f) (← readEnum steerScaleList)

/-- The due of a SCHED-ADD: selector, then the alternative (R121, R181); the absolute due is inline, never CURSOR (DESIGN CHOICE,
log entry 49). -/
def readDue (f : Form) : Reader DueSpec := do
  match ← readNum 1 with
  | 0 => return .absolute (← readTime f)
  | 1 => return .cursorPlus (← readInterval)
  | 2 => return .nowPlus (← readInterval)
  | _ => failure

/-- The action of a SCHED-ADD: selector, then its fields (R115, R122, R181). -/
def readAction : Reader ActionSpec := do
  match ← readNum 1 with
  | 0 => return .pulse (← readSigned 1)
  | 1 => return .set (← readSigned 1)
  | 2 => return .clear (← readSigned 1)
  | 3 => return .load (← readSigned 1) (← readNum 1) (← readNum 2)
  | 4 => return .alert (← readNum 1) (← readNum 2)
  | _ => failure

/-- The fields of a SCHED-ADD (R121, R122). -/
def readAdd (f : Form) : Reader AddRequest := do
  return {
    domain := ← readEnum scaleList
    due := ← readDue f
    action := ← readAction
    period := ← readOpt 13 readInterval
    repeatCount := ← readOpt 2 (readNum 2)
    notify := ← readOpt 1 (readNum 1) }

/-- The settings of LINE-CONFIG (R150). -/
def readLineSettings : Reader LineSettings := do
  return {
    width := ← readOpt 4 (readNum 4)
    edge := ← readOpt 1 (readEnum edgeSettingList)
    route := ← readOpt 1 (readEnum agentList)
    level := ← readOpt 1 (readNum 1)
    holdOff := ← readOpt 4 (readNum 4) }

/-- The fields of CONTEXT-SET (R161, R162); the cursor stands in the form `f`. -/
def readContext (f : Form) : Reader ContextSettings := do
  return {
    form := ← readOpt 1 (readEnum formList)
    mixed := ← readOpt 1 (readEnum onOffList)
    base := ← readOpt 4 (readNum 4)
    rounding := ← readOpt 1 (readEnum roundingList)
    trapIv := ← readOpt 1 (readEnum onOffList)
    trapOv := ← readOpt 1 (readEnum onOffList)
    trapWr := ← readOpt 1 (readEnum onOffList)
    trapSt := ← readOpt 1 (readEnum onOffList)
    cursor := ← readOpt (formSize f) (readTime f)
    lineBase := ← readOpt 1 (readNum 1)
    threshold := ← readOpt 1 (readNum 1)
    mask := ← readOpt 1 (readNum 1) }

/-! ## The catalogue (11.4) -/

/-- The request of a code, read from its body; `f` is the effective form and `g` the form of the context. None for a code
outside the catalogue. -/
def readRequest (f g : Form) (code : Nat) : Option (Reader Request) :=
  match code with
  | 1 => some do return .timeRead (← readEnum scaleList)
  | 2 => some do
    let a ← readEnum scaleList
    let b ← readEnum scaleList
    let h ← readEnum formList
    return .timeConvert a b h (← readOperand h)
  | 3 => some do return .timeDiff (← readOperand f) (← readOperand f)
  | 4 => some do return .timeOffset (← readOperand f) (← readInterval)
  | 5 => some do return .flagsRead
  | 6 => some do return .flagsClear (← readSome (flagsOfByte (← readNum 1)))
  | 16 => some do return .partConfig (← readPartSettings)
  | 17 => some do return .servoRead
  | 18 => some do return .snapshotRead
  | 19 => some do return .servoRestart
  | 20 => some do return .snapshotRestore (← readSnapshot)
  | 21 => some do return .steerStep (← readStep f)
  | 22 => some do return .steerSlew (← readInterval) (← readOpt 2 (readNum 2))
  | 23 => some do return .steerRate (← readSigned 4)
  | 24 => some do return .steerLeap (← readLeap) (← readOpt 2 (readSigned 2))
  | 32 => some do return .portEnable (← readEnum netList)
  | 33 => some do return .portDisable (← readEnum netList)
  | 34 => some do return .portRead (← readEnum netList)
  | 40 => some do return .sourceBar (← readNum 1) (← readNum 1)
  | 41 => some do return .sourceUnbar (← readNum 1)
  | 42 => some do return .sourceRead (← readAll)
  | 43 => some do return .refLabel (← readNum 6) (← readOpt 2 (readSigned 2)) (← readOpt 7 readLeap)
  | 48 => some do return .clientAdd (← readNum 6)
  | 49 => some do return .clientRemove (← readNum 1)
  | 50 => some do return .clientRead (← readAll)
  | 56 => some do return .epochConfig (← readNum 1)
  | 57 => some do return .epochRead
  | 64 => some do return .quotaSet (← readNum 1) (← readNum 1) (← readNum 1)
  | 65 => some do return .schedAdd (← readAdd f)
  | 66 => some do return .schedCancel (← readHandle)
  | 67 => some do
    let h ← readHandle
    return .schedRead (if h.index = 255 then none else some h)
  | 72 => some do return .lineSet (← readSigned 1)
  | 73 => some do return .lineClear (← readSigned 1)
  | 74 => some do return .lineLoad (← readSigned 1) (← readNum 1) (← readNum 2)
  | 75 => some do return .lineTest (← readSigned 1)
  | 76 => some do return .lineStore (← readSigned 1) (← readNum 1)
  | 77 => some do return .lineOwn (← readSigned 1) (← readEnum ownerList)
  | 78 => some do return .lineConfig (← readSigned 1) (← readLineSettings)
  | 79 => some do return .captureRead
  | 80 => some do return .captureRelease (← readNum 1)
  | 88 => some do return .contextSet (← readContext g)
  | 89 => some do return .contextRead
  | 90 => some do return .grantClaim
  | 91 => some do return .grantRenew
  | 92 => some do return .grantRelease
  | 93 => some do return .agentReset
  | 94 => some do return .partReset
  | 96 => some do return .alertRead
  | 97 => some do return .alertReturn (← readNum 1)
  | 98 => some do return .alertMask (← readNum 1)
  | _ => none

/-! ## The option byte (R181) -/

/-- Bits 7-6: form override; 3 is reserved. -/
def formOverride (n : Nat) : Option (Option Form) := ofCode [none, some .long, some .short] (n / 64)

/-- Bits 5-3 as a rounding override, for other requests than SCHED-ADD; 5 … 7 are reserved. -/
def roundingOverride (n : Nat) : Option (Option Rounding) :=
  ofCode [none, some .nearest, some .zero, some .up, some .down] (n / 8 % 8)

/-- Bits 5-3 as a condition value, for SCHED-ADD; 5 … 7 are reserved. -/
def conditionValue (n : Nat) : Option (Option Compare) :=
  ofCode [none, some .less, some .equal, some .greater, some .unordered] (n / 8 % 8)

/-- The option byte of a request code; none for a reserved encoding. -/
def readOptions (code n : Nat) : Option Options :=
  match formOverride n, roundingOverride n, conditionValue n with
  | some f, some r, some c =>
    if n % 2 = 1 then none
    else
      let bit2 := n.testBit 2
      if code = 65 then some ⟨f, none, c, false, n.testBit 1, bit2, false⟩
      else if code = 90 then some ⟨f, r, none, false, n.testBit 1, false, bit2⟩
      else some ⟨f, r, none, bit2, n.testBit 1, false, false⟩
  | _, _, _ => none

/-! ## Frames (R182) -/

/-- The tests of R182 in their order, over the bytes of a SUBMIT window. -/
def readFrame (c : Context) (l : List Byte) : Except Status Submitted :=
  let n := l.length
  if n < 6 ∨ 128 < n ∨ ofBe (l.take 2) ≠ n then .error .format
  else if crc16 (l.take (n - 2)) ≠ ofBe (l.drop (n - 2)) then .error .check
  else
    let code := ofBe ((l.drop 2).take 1)
    match readRequest c.form c.form code with
    | none => .error .unknown
    | some _ =>
      match readOptions code (ofBe ((l.drop 3).take 1)) with
      | none => .error .format
      | some o =>
        match (readRequest (effForm o c) c.form code).bind fun p => p ((l.drop 4).take (n - 6)) with
        | some (r, []) => .ok ⟨o, r⟩
        | _ => .error .format

end Sys2Proof.Machine
end

