-- ==== Sys2Proof/Machine/Servo.lean ====
section
/-! DEFINITION. What the timescale unit and the selection of the source table do inside an event: advance of time
(R22, R31), steps (R30), the ends of a slew (R31), leaps (R35, R36), the servo's states (R24 … R29, R32, R34) and the
choice of the selected path (R82 … R85). -/

namespace Sys2Proof.Machine

/-! ## Quality class (R34) -/

/-- The selected path's record (R67). -/
def State.selectedPath (s : State) : Option SourcePath :=
  match s.src.selected with
  | some i => s.path i
  | none => none

/-- Quality class of HOLDOVER by age (R29). -/
def holdoverGradeOf (t : Timescale) : Nat := min (t.holdEntry + 1 + t.holdAge * nsPerSec / t.settings.holdStep) 14

/-- The table of R34, `cls` being the selected path's class. -/
def gradeOf (t : Timescale) (cls : Option Nat) : Nat :=
  if t.timeSet = false then 15
  else
    match t.servo with
    | .fault => 15
    | .locked => t.lockClass
    | .acquire => min (cls.getD 15 + 4) 14
    | .holdover => holdoverGradeOf t
    | .freerun => 14

/-- The quality class is recomputed in the event that changes an input of it (R34). -/
def regrade (s : State) : State := s.setTs { s.ts with quality := gradeOf s.ts (s.selectedPath.map SourcePath.cls) }

/-! ## Reports and leaps -/

/-- The DT instant at which a DELETE is applied, M - 1 + off, which the UT entries of the removed second have for their key
(R119, R135); none for an announcement that removes no second. -/
def removedAt (off : Int) : Leap → Option Ticks
  | .delete m => some (secTicks (m - 1 + off)).toNat
  | _ => none

/-- A change of the UTC offset or announcement is reported to the schedule (R134). -/
def reportChange (removed : Option Ticks) (s : State) : State :=
  s.setFlight { s.flight with toSchedule := s.flight.toSchedule ++ [.change removed] }

/-- A step is reported to the schedule and to the epoch unit (R30). -/
def reportStep (old new : Ticks) (removed : Option Ticks) (s : State) : State :=
  s.setFlight { s.flight with
    toSchedule := s.flight.toSchedule ++ [.step old new removed []], toEpoch := s.flight.toEpoch ++ [(old, new)] }

/-- A standing leap is applied (R36). -/
def applyLeap (s : State) : State :=
  match s.ts.leap with
  | .none => s
  | .insert _ =>
    let off := addOffset s.ts.utc 1
    reportChange none (raiseAll (.leap .insert off) (s.setTs { s.ts with utc := off, leap := .none }))
  | .delete m =>
    let off := addOffset s.ts.utc (-1)
    reportChange (removedAt s.ts.utc (.delete m)) (raiseAll (.leap .delete off) (s.setTs { s.ts with utc := off, leap := .none }))

/-! ## Slews and steps -/

/-- The slew record ends, with SLEW toward its notify-agent if it has one (R31). -/
def endSlew (e : SlewEnd) (s : State) : State :=
  match s.ts.slew with
  | none => s
  | some w =>
    let s1 := s.setTs { s.ts with slew := none }
    match w.notify with
    | none => s1
    | some a => raiseTo a (.slew e) s1

/-- Any slew record is replaced by a new one (R25, R28, R39). -/
def replaceSlew (w : Slew) (s : State) : State :=
  let s1 := endSlew .replaced s
  s1.setTs { s1.ts with slew := some w }

/-- The announcement is a DELETE. -/
def Leap.isDelete : Leap → Bool
  | .delete _ => true
  | _ => false

/-- A step of DT to `new`, its residue becoming `sub` (R30): the slew is dropped, the step counted and reported, and a
leap whose instant DT has thereby reached is applied in the same event. The schedule is then owed a step report (R131) and a
change report (R134), and the spec does not say which of them it takes first: the model sends the step report first, so
overtaken UT entries fire in the order of the keys they had before the leap (DESIGN CHOICE, log entry 51). -/
def stepTo (new : Ticks) (sub : Nat) (s : State) : State :=
  let old := s.ts.dt
  let s1 := endSlew .dropped s
  let s2 := s1.setTs { s1.ts with dt := new, dtSub := sub, stepCount := min (s1.ts.stepCount + 1) 65535 }
  let due := leapDue s2.ts.utc s2.ts.leap new
  let s3 := reportStep old new (if due then removedAt s2.ts.utc s2.ts.leap else none) s2
  if due then applyLeap s3 else s3

/-! ## Servo states -/

/-- A change of servo state other than the entry to FAULT raises SERVO toward all agents (R34). -/
def changeServo (new : ServoState) (s : State) : State :=
  if s.ts.servo = new then s else raiseAll (.servo s.ts.servo new) (s.setTs { s.ts with servo := new })

/-- Entry to ACQUIRE (R24): the counts become 0, the snapshot interval stops, the holdover age becomes 0 (R29). -/
def enterAcquire (s : State) : State :=
  let s1 := changeServo .acquire s
  s1.setTs { s1.ts with inWindow := 0, outCount := 0, clamp := 0, snapAt := none, holdAge := 0 }

/-- Entry to LOCKED within a measurement (R27). -/
def enterLocked (cls : Nat) (s : State) : State :=
  let s1 := changeServo .locked s
  s1.setTs { s1.ts with
    rateBasis := true, lockClass := cls, outCount := 0, snapAt := some (s1.ts.el + Config.snapshotInterval) }

/-- Entry to HOLDOVER (R29). -/
def enterHoldover (s : State) : State :=
  let s1 := changeServo .holdover (endSlew .dropped s)
  s1.setTs { s1.ts with holdEntry := s1.ts.quality, holdAge := 0, holdSince := s1.ts.el, snapAt := none }

/-- HOLDOVER ends by expiry (R29). -/
def expireHoldover (s : State) : State :=
  let s1 := changeServo .freerun s
  regrade (s1.setTs { s1.ts with rateBasis := false, holdAge := 0 })

/-- A path selected where none was (R24). -/
def takeSelected (s : State) : State :=
  match s.ts.servo with
  | .freerun | .holdover => enterAcquire s
  | _ => s

/-- Selection moved to a path of this class and last offset (R24). -/
def takeMoved (cls : Nat) (last : Option Int) (s : State) : State :=
  match s.ts.servo with
  | .acquire => enterAcquire s
  | .locked =>
    match last with
    | some o =>
      if o.natAbs ≤ nsTicks s.ts.settings.lockWindow then s.setTs { s.ts with lockClass := cls, outCount := 0 }
      else enterAcquire s
    | none => enterAcquire s
  | _ => s

/-- Selection lost, none selected (R24). -/
def takeLost (s : State) : State :=
  match s.ts.servo with
  | .acquire | .locked =>
    if s.ts.rateBasis && s.ts.timeSet then enterHoldover s
    else
      let s1 := changeServo .freerun s
      s1.setTs { s1.ts with snapAt := none }
  | _ => s

/-! ## Selection (R82 … R85) -/

/-- Lexicographic order of the parts of a selection key. -/
def keyLess : List Nat → List Nat → Bool
  | a :: as, b :: bs => if a < b then true else if b < a then false else keyLess as bs
  | _, _ => false

/-- Network preference as a part of the key: 0 is better (R82). -/
def preferenceRank (p : Preference) (n : Option Net) : Nat :=
  match p, n with
  | .netA, some .netA => 0
  | .netB, some .netB => 0
  | .none, _ => 0
  | _, _ => 1

/-- The selection key of entry `i` (R82); entry 8 counts with the reference accuracy setting. -/
def selectionKey (set : SourceSettings) (i : Nat) (p : SourcePath) : List Nat :=
  [p.cls, if i = 8 then set.refAccuracy else p.accuracy, preferenceRank set.preference p.net, p.identity, i]

/-- The CANDIDATE entries with their numbers. -/
def candidates (t : SourceTable) : List (Nat × SourcePath) :=
  t.entries.zipIdx.filterMap fun (e, i) =>
    match e with
    | some p => if p.state = .candidate then some (i, p) else none
    | none => none

/-- The better of a best so far and a further candidate (R82). -/
def betterOf (set : SourceSettings) (best : Option (Nat × SourcePath)) (c : Nat × SourcePath) : Option (Nat × SourcePath) :=
  match best with
  | none => some c
  | some b => if keyLess (selectionKey set c.1 c.2) (selectionKey set b.1 b.2) then some c else some b

/-- The best CANDIDATE (R82). -/
def bestCandidate (t : SourceTable) : Option (Nat × SourcePath) := (candidates t).foldl (betterOf t.settings) none

/-- The selected entry becomes `i`, or none, and what was handed over for the former one is void (R24, log entry 11). -/
def setSelected (i : Option Nat) (s : State) : State :=
  { s with src := { s.src with selected := i }, flight := { s.flight with toTimescale := [] } }

/-- A path's state is set. -/
def setPathState (i : Nat) (st : PathState) (s : State) : State :=
  match s.path i with
  | some p => s.setPath i (some { p with state := st })
  | none => s

/-- Entry `i` becomes the selected path; `report` is what the timescale unit takes, SOURCE follows (R83, R84). -/
def selectPath (i : Nat) (p : SourcePath) (prev : Option (Nat × Nat)) (cause : SourceCause) (report : State → State)
    (s : State) : State :=
  let s1 := setSelected (some i) (setPathState i .selected s)
  regrade (raiseAll (.source ⟨prev, some (i, p.identity), cause⟩) (report s1))

/-- The cause of a loss, or of a move that the selected path brought about (R84). -/
def leaveCause : Option SourcePath → SourceCause
  | none => .removed
  | some p =>
    match p.state with
    | .stale => .stale
    | .barred => .barred
    | _ => .listen

/-- The table re-examines selection (R83); `fresh` is the cause of a selection where none was (R84, R85). -/
def reexamine (fresh : SourceCause) (s : State) : State :=
  if s.src.suspended then s
  else
    match s.src.selected with
    | none =>
      match bestCandidate s.src with
      | none => s
      | some (i, p) => selectPath i p none fresh takeSelected s
    | some j =>
      let prev : Option (Nat × Nat) := some (j, ((s.path j).map SourcePath.identity).getD 0)
      if (s.path j).map SourcePath.state = some .selected then
        match bestCandidate s.src with
        | none => s
        | some (i, p) =>
          if p.cls < ((s.path j).map SourcePath.cls).getD 0 then
            selectPath i p prev .better (takeMoved p.cls p.lastOffset) (setPathState j .candidate s)
          else s
      else
        let cause := leaveCause (s.path j)
        match bestCandidate s.src with
        | some (i, p) => selectPath i p prev cause (takeMoved p.cls p.lastOffset) s
        | none => regrade (raiseAll (.source ⟨prev, none, cause⟩) (takeLost (setSelected none s)))

/-- A new class of the path that stays selected is reported to the timescale unit (R24, R84). -/
def reportClass (i : Nat) (s : State) : State :=
  if s.src.selected = some i then
    match s.path i with
    | some p => regrade (if s.ts.servo = .locked then s.setTs { s.ts with lockClass := p.cls } else s)
    | none => s
  else s

/-- The source table is told of the entry to FAULT: it suspends selection and drops the selected path (R85). -/
def suspendSelection (s : State) : State :=
  let s1 :=
    match s.src.selected with
    | none => s
    | some j =>
      let prev : Option (Nat × Nat) := some (j, ((s.path j).map SourcePath.identity).getD 0)
      raiseAll (.source ⟨prev, none, .fault⟩) (setSelected none (setPathState j .candidate s))
  { s1 with src := { s1.src with suspended := true } }

/-- The servo enters FAULT (R32). -/
def enterFault (cause : FaultCause) (s : State) : State :=
  let s1 := endSlew .dropped s
  let s2 := s1.setTs { s1.ts with servo := .fault, snapAt := none }
  regrade (suspendSelection (raiseAll (.fault cause) s2))

/-! ## Measurements (R25 … R28) -/

/-- The adjustment of the rate law (R26): offset × 16 ÷ T in units of 1/256 ppb, rounded toward zero, T = 2^k s. -/
def rateDelta (k : Int) (o : Int) : Int := Int.tdiv (o * 16 * 2 ^ (4 - k).toNat) (16 * (ticksPerNs : Int))

/-- The rate law (R26). -/
def rateLaw (k : Int) (o : Int) (s : State) : State :=
  let r := s.ts.rate + rateDelta k o
  if r > Config.rateLimit then s.setTs { s.ts with rate := Config.rateLimit, clamp := s.ts.clamp + 1 }
  else if r < -Config.rateLimit then s.setTs { s.ts with rate := -Config.rateLimit, clamp := s.ts.clamp + 1 }
  else s.setTs { s.ts with rate := r, clamp := 0 }

/-- A slew record of a signed offset (R25, R39). -/
def slewOf (d : Int) (ppm : Nat) (notify : Option Agent) : Slew := ⟨decide (d < 0), d.natAbs, 0, ppm, notify⟩

/-- The slew of a measurement (R25, R28): remaining offset -o at the max slew rate, without a notify-agent. -/
def measurementSlew (o : Int) (s : State) : State := replaceSlew (slewOf (-o) s.ts.settings.maxSlew none) s

/-- |o| is at or below the lock window (R27). -/
def inLockWindow (o : Int) (t : Timescale) : Bool := decide (o.natAbs ≤ nsTicks t.settings.lockWindow)

/-- The end of a measurement of ACQUIRE (R27): the in-window count, then FAULT on a clamp count of 4 (R26), else LOCKED
on an in-window count of 8. -/
def finishAcquire (cls : Nat) (o : Int) (s : State) : State :=
  let s1 := s.setTs { s.ts with inWindow := if inLockWindow o s.ts then s.ts.inWindow + 1 else 0 }
  if 4 ≤ s1.ts.clamp then enterFault .clamp s1
  else if 8 ≤ s1.ts.inWindow then enterLocked cls s1
  else s1

/-- One measurement of ACQUIRE (R25). A step that would leave the range of DT discards the measurement whole. -/
def measureAcquire (cls : Nat) (k : Int) (o : Int) (s : State) : State :=
  let new : Int := (s.ts.dt : Int) - o
  if s.ts.timeSet = false then
    if inTimeRange new then
      let s1 := stepTo new.toNat s.ts.dtSub s
      finishAcquire cls o (s1.setTs { s1.ts with timeSet := true })
    else s
  else if decide (nsTicks s.ts.settings.stepThreshold < o.natAbs) && s.ts.settings.stepEnable then
    if inTimeRange new then finishAcquire cls o (rateLaw k o (stepTo new.toNat s.ts.dtSub s)) else s
  else finishAcquire cls o (rateLaw k o (measurementSlew o s))

/-- One measurement of LOCKED (R28): no step; an out count of 4 returns to ACQUIRE, a clamp count of 4 enters FAULT. Where
one measurement brings both counts to 4, FAULT is entered directly (DESIGN CHOICE, log entry 43). -/
def measureLocked (k : Int) (o : Int) (s : State) : State :=
  let s1 := rateLaw k o (measurementSlew o s)
  let s2 := s1.setTs { s1.ts with outCount := if inLockWindow o s1.ts then 0 else s1.ts.outCount + 1 }
  if 4 ≤ s2.ts.clamp then enterFault .clamp s2
  else if 4 ≤ s2.ts.outCount then enterAcquire s2
  else s2

/-- An offset is taken as one measurement (R25, R28); in the other states it is discarded (R24). -/
def takeOffset (cls : Nat) (k : Int) (o : Int) (s : State) : State :=
  match s.ts.servo with
  | .acquire => regrade (measureAcquire cls k o s)
  | .locked => regrade (measureLocked k o s)
  | _ => s

/-! ## The UTC pair of the selected path (R35) -/

/-- A pair brought up to an instant (R35, log entry 16): an announcement with a bad midnight is NONE, and one whose
instant has come is read as applied. -/
def bringUp (off : Int) (l : Leap) (instant : Ticks) : Int × Leap :=
  let l1 := if l.midnightOk then l else .none
  if leapDue off l1 instant then (addOffset off (if Leap.isDelete l1 then -1 else 1), .none) else (off, l1)

/-- The timescale unit takes a pair handed over by the selected path and adopts any difference (R35). -/
def adoptPair (off : Option Int) (l : Option Leap) (arrival : Ticks) (s : State) : State :=
  let t := s.ts
  let up := bringUp (off.getD t.utc) (l.getD t.leap) (max arrival t.dt)
  if (t.servo = .acquire || t.servo = .locked) && !insideInserted t.utc t.leap t.dt && decide (up ≠ (t.utc, t.leap)) then
    reportChange none (s.setTs { t with utc := up.1, leap := up.2 })
  else s

/-! ## The advance of time (R22, R31) -/

/-- What is left of a slew, in units of 1/(256 · 10^15) ns. -/
def slewLeft (w : Slew) : Nat := w.mag * Config.subPerTick + w.sub

/-- The part of a slew that a corrected advance of `a` units of 1/256 · 10^-9 ns uses up, in units of 1/(256 · 10^15) ns. -/
def slewUse (a : Nat) (w : Slew) : Nat := min (a * w.ppm) (slewLeft w)

/-- The slew record after it. -/
def slewAfter (a : Nat) (w : Slew) : Slew :=
  let rest := slewLeft w - slewUse a w
  { w with mag := rest / Config.subPerTick, sub := rest % Config.subPerTick }

/-- The last part of a counter of 0 … `top` - 1 with `unit` parts to each count, or `n` where that lies before it: the counter
goes on within its range and holds at its last part (DESIGN CHOICE, log entry 8). -/
def partsWithin (unit top n : Nat) : Nat := min n (top * unit - 1)

/-- EL and its residue after a corrected advance of `a` units, in parts of 1/(256 · 10^15) ns (R22). -/
def elParts (a : Nat) (t : Timescale) : Nat :=
  partsWithin Config.subPerNs (Config.elMax + 1) (t.el * Config.subPerNs + t.elSub + a * 1000000)

/-- DT and its residue likewise, with the share of a slew in the direction of its sign (R22, R31). -/
def dtParts (a : Nat) (t : Timescale) : Nat :=
  let n := t.dt * Config.subPerTick + t.dtSub + a * 1000000
  partsWithin Config.subPerTick timeEnd
    (match t.slew with
      | none => n
      | some w => if w.neg then n - slewUse a w else n + slewUse a w)

/-- The record after `n` ns of the part's oscillator (R22, R31, R29); DT and EL keep their residues (log entry 7). EL
advances whatever DT does (R1), and each holds at the end of its own range alone (log entry 8). -/
def advanceTs (n : Nat) (t : Timescale) : Timescale :=
  let a := n * (256000000000 - t.rate).toNat
  let el := elParts a t / Config.subPerNs
  { t with
    dt := dtParts a t / Config.subPerTick, dtSub := dtParts a t % Config.subPerTick
    el := el, elSub := elParts a t % Config.subPerNs, slew := t.slew.map (slewAfter a)
    holdAge := if t.servo = .holdover then min ((el - t.holdSince) / nsPerSec) 259200 else t.holdAge }

/-- Time passes. -/
def advance (n : Nat) (s : State) : State := s.setTs (advanceTs n s.ts)

end Sys2Proof.Machine
end

