-- ==== Sys2Proof/Machine/Sources.lean ====
section
/-! DEFINITION. The delay filter (R65, R66) and the source table (chapter 4): ORIGIN frames, samples and misses, ageing,
barring, the reference path, and the requests SOURCE-BAR, SOURCE-UNBAR, SOURCE-READ and REF-LABEL. -/

namespace Sys2Proof.Machine

/-! ## The delay filter (R65, R66) -/

/-- What became of a sample: kept, discarded as an outlier, or taken as the restart of the filter (R66). -/
inductive SampleFate | kept | outlier | restart
deriving DecidableEq, Repr

/-- A sample in 0 … 10 ms (R65). -/
def sampleInRange (x : Int) : Bool := decide (0 ≤ x) && decide (x ≤ (Config.filterMax : Int))

/-- The sample is an outlier (R65); `limit` is the outlier limit in ns. -/
def isOutlier (limit : Nat) (f : Filter) (x : Int) : Bool :=
  !sampleInRange x || (decide (4 ≤ f.count) && decide (nsTicks limit < (x - ((f.value.getD 0 : Nat) : Int)).natAbs))

/-- A kept sample: the mean of the first four, then one eighth of the way (R65, R66). -/
def keepSample (f : Filter) (x : Nat) : Filter :=
  if f.count < 4 then
    ⟨some (divNearestEven ((f.sum + x : Nat) : Int) (f.count + 1)).toNat, f.count + 1, 0, f.sum + x⟩
  else
    ⟨some (divNearestEven ((7 * f.value.getD 0 + x : Nat) : Int) 8).toNat, min (f.count + 1) 65535, 0, f.sum⟩

/-- A delay filter takes a sample (R65, R66). -/
def filterTake (limit : Nat) (f : Filter) (x : Int) : Filter × SampleFate :=
  if isOutlier limit f x then
    if f.run + 1 < 4 then ({ f with run := f.run + 1 }, .outlier)
    else if sampleInRange x then (⟨some x.toNat, 1, 0, x.toNat⟩, .restart)
    else (Filter.empty, .restart)
  else (keepSample f x.toNat, .kept)

/-! ## Path states (R68, R72, R73) -/

/-- LISTEN, CANDIDATE or SELECTED: the states that are asked and that hold a deadline (R59, R73). -/
def PathState.live : PathState → Bool
  | .listen | .candidate | .selected => true
  | _ => false

/-- A path that enters LISTEN from STALE or BARRED begins afresh (R68); the reference path has no miss count (R67). -/
def SourcePath.afresh (p : SourcePath) : SourcePath :=
  { p with
    state := .listen, listenCount := 0, filter := Filter.empty, miss := p.miss.map fun _ => 0, lastOffset := none
    staleSince := none, barReason := none }

/-- A path that enters STALE (R68, R73). -/
def SourcePath.staled (since : Nat) (p : SourcePath) : SourcePath :=
  { p with state := .stale, staleSince := some since, deadline := none, lastOffset := none }

/-- The state tests of R72. -/
def SourcePath.tested (p : SourcePath) : SourcePath :=
  match p.state with
  | .listen => if p.cls < 14 ∧ 2 ≤ p.listenCount ∧ 1 ≤ p.filter.count then { p with state := .candidate } else p
  | .candidate | .selected =>
    if 14 ≤ p.cls ∨ p.filter.value = none then { p with state := .listen, listenCount := 0, lastOffset := none } else p
  | _ => p

/-- Three declared intervals in ns (R73): 3 × 2^k s, k in -4 … 4. -/
def staleSpan (k : Int) : Nat := 187500000 * 2 ^ (k + 4).toNat

/-! ## ORIGIN frames (R69 … R71) -/

/-- The frame's sequence is newer than the path's last (R70). -/
def isNewer (seq : Nat) : Option Nat → Bool
  | none => true
  | some last => let d := (seq + 65536 - last) % 65536; decide (1 ≤ d) && decide (d ≤ 32768)

/-- The fields a path takes from a frame (R70). -/
def SourcePath.takeFields (m : OriginMsg) (p : SourcePath) : SourcePath :=
  { p with
    lastSeq := some m.seq, cls := m.cls, accuracy := m.accuracy, exponent := m.exponent
    lastArrival := some m.stamp, seen := bump32 p.seen
    listenCount := if p.state = .listen then min (p.listenCount + 1) 2 else p.listenCount
    deadline := some (m.stamp.el + staleSpan m.exponent) }

/-- The offset o = arrival - (departure + delay), when the delay value is present (R71). -/
def originOffset (m : OriginMsg) (p : SourcePath) : Option Int :=
  p.filter.value.map fun d => (m.stamp.dt : Int) - ((m.departure + d : Nat) : Int)

/-- A message to the timescale unit. -/
def handToTimescale (m : TimescaleMsg) (s : State) : State :=
  s.setFlight { s.flight with toTimescale := s.flight.toTimescale ++ [m] }

/-- If entry `i` is selected, its offset and then its UTC pair are handed to the timescale unit (R71, R80). -/
def handOver (i : Nat) (k : Int) (o : Option Int) (utc : Option Int) (leap : Option Leap) (arrival : Ticks) (s : State) :
    State :=
  if s.src.selected = some i then
    let s1 :=
      match o with
      | some x => handToTimescale (.offset i k x) s
      | none => s
    if utc.isSome || leap.isSome then handToTimescale (.pair i utc leap arrival) s1 else s1
  else s

/-- Entry `i` takes a frame that is not dropped for its sequence; `p` is its record, afresh if it was STALE (R70, R71). -/
def takeFrame (i : Nat) (m : OriginMsg) (p : SourcePath) (s : State) : State :=
  let p1 := (p.takeFields m).tested
  let o := originOffset m p1
  let s1 := reexamine .first (s.setPath i (some { p1 with lastOffset := o }))
  let s2 := if m.cls ≠ p.cls then reportClass i s1 else s1
  handOver i m.exponent o (some m.utc) (some m.leap) m.stamp.dt s2

/-- A known path takes an ORIGIN (R70). -/
def pathTakesOrigin (i : Nat) (m : OriginMsg) (p : SourcePath) (s : State) : State :=
  match p.state with
  | .barred => s.setPath i (some { p with seen := bump32 p.seen })
  | .stale => takeFrame i m p.afresh s
  | _ => if isNewer m.seq p.lastSeq then takeFrame i m p s else s

/-- Entries 0 … 7 in ascending order with their numbers. -/
def networkEntries (t : SourceTable) : List (Option SourcePath × Nat) := (t.entries.take 8).zipIdx

/-- The entry that holds the pair (identity, network) (R69). -/
def findPath (t : SourceTable) (identity : Nat) (n : Net) : Option (Nat × SourcePath) :=
  (networkEntries t).findSome? fun (e, i) =>
    match e with
    | some p => if p.identity = identity ∧ p.net = some n then some (i, p) else none
    | none => none

/-- The paths of one network in ascending entry order (R59, R69). -/
def pathsOf (t : SourceTable) (n : Net) : List (Nat × SourcePath) :=
  (networkEntries t).filterMap fun (e, i) =>
    match e with
    | some p => if p.net = some n then some (i, p) else none
    | none => none

/-- The lowest-numbered free entry of 0 … 7 (R69). -/
def freeEntry (t : SourceTable) : Option Nat :=
  (networkEntries t).findSome? fun (e, i) => if e.isNone then some i else none

/-- A path created by a frame, before it takes the frame (R69). -/
def newPath (m : OriginMsg) : SourcePath where
  identity := m.identity
  net := some m.net
  state := .listen
  cls := m.cls
  accuracy := m.accuracy
  exponent := m.exponent
  lastSeq := none
  lastArrival := none
  listenCount := 0
  filter := Filter.empty
  miss := some 0
  lastOffset := none
  seen := 0
  staleSince := none
  deadline := none
  barReason := none
  edge := none

/-- The drop of an ORIGIN for want of a path is counted at the port (R56, R69). -/
def countTableFull (n : Net) (s : State) : State :=
  let p := s.port n
  s.setPort n { p with counters := { p.counters with tableFull := bump32 p.counters.tableFull } }

/-- The source table takes an ORIGIN (R69). -/
def takeOrigin (m : OriginMsg) (s : State) : State :=
  if (s.port m.net).state ≠ .up then s
  else if m.exponent < -4 ∨ 4 < m.exponent then s
  else
    match findPath s.src m.identity m.net with
    | some (i, p) => pathTakesOrigin i m p s
    | none =>
      if (pathsOf s.src m.net).length < Config.pathsPerNet then
        match freeEntry s.src with
        | some i => takeFrame i m (newPath m) s
        | none => countTableFull m.net s
      else countTableFull m.net s

/-! ## Samples, misses, ageing (R73 … R75) -/

/-- The source path a sample or miss is for, if it is still asked (R74). -/
def liveTarget (t : Target) (s : State) : Option (Nat × SourcePath) :=
  match t with
  | .client _ _ => none
  | .path i identity =>
    match s.path i with
    | some p => if p.identity = identity ∧ p.state.live then some (i, p) else none
    | none => none

/-- The source table takes a delay sample (R74). -/
def takeSourceSample (m : SampleMsg) (s : State) : State :=
  match liveTarget m.target s with
  | none => s
  | some (i, p) =>
    let f := filterTake s.echo.outlier p.filter m.sample
    let p1 := { p with filter := f.1, miss := some 0 }
    if f.2 = .outlier then s.setPath i (some p1) else reexamine .first (s.setPath i (some p1.tested))

/-- The samples on their way to the source table that `g` names are taken, oldest first: an ECHO-BACK that was taken before
the end of its target has its sample applied when the table takes that end (R64, log entry 10). -/
def settleSamples (g : SampleMsg → Bool) (s : State) : State :=
  let l := s.flight.sourceSamples
  (l.filter g).foldl (fun u m => takeSourceSample m u)
    (s.setFlight { s.flight with sourceSamples := l.filter fun m => !g m })

/-- The samples of one path are taken. -/
def settlePath (i : Nat) (p : SourcePath) (s : State) : State :=
  settleSamples (fun m => m.target == .path i p.identity) s

/-- Entry `i` enters STALE: samples on their way are taken, the engines end its ask and selection is re-examined (R64,
R73 … R75, R81). -/
def makeStale (i : Nat) (since : Nat) (p : SourcePath) (s : State) : State :=
  let s1 := settlePath i p s
  match s1.path i with
  | some q => reexamine .first (endAsks (.path i q.identity) (s1.setPath i (some (q.staled since))))
  | none => s1

/-- The source table takes a miss, already counted by the engine (R74). -/
def takeSourceMiss (m : MissMsg) (s : State) : State :=
  match liveTarget m.target s with
  | none => s
  | some (i, p) => if 4 ≤ p.miss.getD 0 then makeStale i m.el p s else s

/-- The deadline of a live path is reached (R73, R81). -/
def staleAtDeadline (i : Nat) (s : State) : State :=
  match s.path i with
  | some p =>
    match p.deadline with
    | some d => if p.state.live && decide (d ≤ s.ts.el) then makeStale i d p s else s
    | none => s
  | none => s

/-- 60 s of EL have passed since the path entered STALE (R75). -/
def removalDue (i : Nat) (s : State) : Bool :=
  match s.path i with
  | some p =>
    match p.staleSince with
    | some t => decide (p.state = .stale) && decide (i < 8) && decide (t + Config.staleTime ≤ s.ts.el)
    | none => false
  | none => false

/-- A path that has been STALE for 60 s is removed (R75). -/
def removeStale (i : Nat) (s : State) : State :=
  match s.path i with
  | some p => if removalDue i s then reexamine .first (endAsks (.path i p.identity) (s.setPath i none)) else s
  | none => s

/-- The loss of a port: samples of its network on their way are taken, every live path of it enters STALE, then selection is
re-examined (R48, R64, R75). A path that is STALE already keeps its stale since and its removal (DESIGN CHOICE, log entry
44). -/
def portLossSources (n : Net) (s : State) : State :=
  let s1 := settleSamples (fun m => m.net == n) s
  let lose : Option SourcePath → Option SourcePath :=
    Option.map fun p => if p.net = some n ∧ p.state.live then p.staled s.ts.el else p
  reexamine .first { s1 with src := { s1.src with entries := s1.src.entries.map lose } }

/-! ## The reference path (R78 … R81) -/

/-- Entry 8 as reference mode creates it (R78). -/
def newReference (set : SourceSettings) (el : Nat) : SourcePath where
  identity := 0
  net := none
  state := .listen
  cls := set.refClass
  accuracy := set.refAccuracy
  exponent := 0
  lastSeq := none
  lastArrival := none
  listenCount := 0
  filter := Filter.empty
  miss := none
  lastOffset := none
  seen := 0
  staleSince := none
  deadline := some (el + Config.refDeadlineTime)
  barReason := none
  edge := none

/-- The class tests of the reference path (R81). -/
def SourcePath.refTested (el : Nat) (p : SourcePath) : SourcePath :=
  match p.state with
  | .listen => if p.cls < 14 ∧ 2 ≤ p.listenCount then { p with state := .candidate } else p
  | .candidate | .selected =>
    if 14 ≤ p.cls then
      { p with state := .listen, listenCount := 0, lastOffset := none, deadline := some (el + Config.refDeadlineTime) }
    else p
  | _ => p

/-- The source table takes a stamped rising edge of line 47 (R79). -/
def takeRefEdge (st : Stamp) (s : State) : State :=
  match s.path 8 with
  | some p => if p.state = .barred then s else s.setPath 8 (some { p with edge := some ⟨st, false⟩ })
  | none => s

/-- An edge that may be labelled: unlabelled, and less than 500 ms old (R80). -/
def labellable (el : Nat) : Option EdgeRecord → Option Stamp
  | some e => if !e.labelled && decide (el < e.stamp.el + Config.labelWindow) then some e.stamp else none
  | none => none

/-- The reference path after a labelled edge (R80, R81); its deadline never moves back (log entry 26). -/
def SourcePath.label (st : Stamp) (o : Int) (p : SourcePath) : SourcePath :=
  let p1 := if p.state = .stale then p.afresh else p
  let p2 := if p1.state = .listen then { p1 with listenCount := min (p1.listenCount + 1) 2 } else p1
  let p3 :=
    if p2.state = .listen ∧ 2 ≤ p2.listenCount ∧ p2.cls < 14 then { p2 with state := PathState.candidate } else p2
  { p3 with
    edge := some ⟨st, true⟩, lastArrival := some st, lastOffset := some o, seen := bump32 p.seen
    deadline := some (max (p3.deadline.getD 0) (st.el + Config.refDeadlineTime)) }

/-- A UTC offset the requests may carry (R41, R80). -/
def utcInRange : Option Int → Bool
  | none => true
  | some d => decide (-32768 ≤ d) && decide (d ≤ 32767)

/-- An announcement whose midnight is a multiple of 86,400, or none (R80). -/
def optLeapOk : Option Leap → Bool
  | none => true
  | some l => l.midnightOk

/-- REF-LABEL at the source table (R80). -/
def takeRefLabel (ag : Agent) (label : Nat) (off : Option Int) (l : Option Leap) (s : State) : Answer :=
  match s.path 8 with
  | none => refuse .state s
  | some p =>
    if p.state = .barred then refuse .state s
    else
      match labellable s.ts.el p.edge with
      | none => refuse .state s
      | some st =>
        if !utcInRange off || !optLeapOk l then refuse .range s
        else
          let o : Int := (st.dt : Int) - secTicks label
          let s1 := reexamine .first (s.setPath 8 (some (p.label st o)))
          let s2 := handOver 8 0 (some o) off l st.dt s1
          accept (.labelled o (((s2.path 8).map SourcePath.state).getD .listen)) (reportRenewal ag s2)

/-! ## Barring (R76, R77) and reading (R86) -/

/-- The refusal of an entry number above 8 (log entry 5). -/
def entryRefusal (e : Nat) : Status := if e < Config.sourceEntries then .noEntry else if Config.entryOutsideIsRange e then .range else .noEntry

/-- A path that enters BARRED (R68, R76). -/
def SourcePath.barredBy (reason : Nat) (p : SourcePath) : SourcePath :=
  { p with state := .barred, barReason := some reason, staleSince := none, deadline := none, lastOffset := none }

/-- Entry `e` enters BARRED: samples on their way are taken, its asks end, selection is re-examined (R64, R76). -/
def barPath (e reason : Nat) (p : SourcePath) (s : State) : State :=
  let s1 := settlePath e p s
  match s1.path e with
  | some q => reexamine .first (endAsks (.path e q.identity) (s1.setPath e (some (q.barredBy reason))))
  | none => s1

/-- SOURCE-BAR (R76). -/
def takeSourceBar (e reason : Nat) (s : State) : Answer :=
  match s.path e with
  | none => refuse (entryRefusal e) s
  | some p =>
    if p.state = .barred then accept .empty (s.setPath e (some { p with barReason := some reason }))
    else accept .empty (barPath e reason p s)

/-- The deadline of an unbarred path, run from the request (R77). -/
def unbarDeadline (el e : Nat) (p : SourcePath) : Nat :=
  if e = 8 then el + Config.refDeadlineTime else el + staleSpan p.exponent

/-- SOURCE-UNBAR (R77). -/
def takeSourceUnbar (e : Nat) (s : State) : Answer :=
  match s.path e with
  | none => refuse (entryRefusal e) s
  | some p =>
    if p.state = .barred then
      accept .empty
        (reexamine .first (s.setPath e (some { p.afresh with deadline := some (unbarDeadline s.ts.el e p) })))
    else refuse .state s

/-- What every SOURCE-READ carries (R86). -/
def sourceTail (t : SourceTable) : SourceTail := ⟨t.selected, t.suspended, t.settings⟩

/-- A present entry in SOURCE-READ of ALL (R86); the reference path's delay is 0 (R67). -/
def summaryOf (p : SourcePath) : PathSummary :=
  ⟨p.identity, p.net, p.state, p.cls, p.accuracy, if p.net = none then some 0 else p.filter.value, p.miss, p.lastOffset⟩

/-- SOURCE-READ (R86). -/
def takeSourceRead (e : Option Nat) (s : State) : Answer :=
  match e with
  | none => accept (.paths (s.src.entries.map (Option.map summaryOf)) (sourceTail s.src)) s
  | some i =>
    match s.path i with
    | some p => accept (.path p (sourceTail s.src)) s
    | none => refuse (entryRefusal i) s

/-! ## The commands -/

def execSourceBar (ag : Agent) (o : Options) (entry reason : Nat) (s : State) : Host.Outcome State Fault Refusal :=
  .next (runRequest ag ⟨o, .sourceBar entry reason⟩ (takeSourceBar entry reason) s)

def execSourceUnbar (ag : Agent) (o : Options) (entry : Nat) (s : State) : Host.Outcome State Fault Refusal :=
  .next (runRequest ag ⟨o, .sourceUnbar entry⟩ (takeSourceUnbar entry) s)

def execSourceRead (ag : Agent) (o : Options) (entry : Option Nat) (s : State) : Host.Outcome State Fault Refusal :=
  .next (runRequest ag ⟨o, .sourceRead entry⟩ (takeSourceRead entry) s)

def execRefLabel (ag : Agent) (o : Options) (label : Nat) (offset : Option Int) (leap : Option Leap) (s : State) :
    Host.Outcome State Fault Refusal :=
  .next (runRequest ag ⟨o, .refLabel label offset leap⟩ (takeRefLabel ag label offset leap) s)

/-- The source table takes the oldest ORIGIN handed to it (R69). -/
def execOriginTaken (s : State) : Host.Outcome State Fault Refusal :=
  match s.flight.origins with
  | [] => .next s
  | m :: rest => .next (takeOrigin m (s.setFlight { s.flight with origins := rest }))

/-- The source table takes the oldest delay sample handed to it (R74). -/
def execSourceSample (s : State) : Host.Outcome State Fault Refusal :=
  match s.flight.sourceSamples with
  | [] => .next s
  | m :: rest => .next (takeSourceSample m (s.setFlight { s.flight with sourceSamples := rest }))

/-- The source table takes the oldest miss reported to it (R74). -/
def execSourceMiss (s : State) : Host.Outcome State Fault Refusal :=
  match s.flight.sourceMisses with
  | [] => .next s
  | m :: rest => .next (takeSourceMiss m (s.setFlight { s.flight with sourceMisses := rest }))

/-- A network path reaches its stale deadline (R73). -/
def execStaleDeadline (entry : Nat) (s : State) : Host.Outcome State Fault Refusal :=
  if entry < 8 then .next (staleAtDeadline entry s) else .next s

/-- The reference path reaches its deadline (R81). -/
def execRefDeadline (s : State) : Host.Outcome State Fault Refusal := .next (staleAtDeadline 8 s)

/-- A path that has been STALE for 60 s is removed (R75). -/
def execStaleRemoval (entry : Nat) (s : State) : Host.Outcome State Fault Refusal := .next (removeStale entry s)

/-- The source table takes the oldest edge of line 47 handed to it (R79). -/
def execRefEdge (s : State) : Host.Outcome State Fault Refusal :=
  match s.flight.refEdges with
  | [] => .next s
  | st :: rest => .next (takeRefEdge st (s.setFlight { s.flight with refEdges := rest }))

end Sys2Proof.Machine
end

