-- ==== Sys2Proof/Machine/Clients.lean ====
section
/-! DEFINITION. The client table (chapter 5): registration, samples and misses of presences, lapse, the loss of a port, and
the requests CLIENT-ADD, CLIENT-REMOVE and CLIENT-READ. -/

namespace Sys2Proof.Machine

/-! ## Presences and alerts -/

/-- A presence created afresh (R89). -/
def newPresence (el : Nat) : Presence := ⟨Filter.empty, 0, el⟩

/-- MEASURING or SERVED: the states that are asked (R87). -/
def ClientState.asked : ClientState → Bool
  | .measuring | .served => true
  | _ => false

/-- CLIENT toward agent 0 (R102). -/
def raiseClient (slot identity : Nat) (e : ClientEvent) (cause : Option ClientCause) (n : Option Net) (s : State) : State :=
  raiseTo .agent0 (.client ⟨slot, identity, e, cause, n⟩) s

/-- The presence of a slot on network `n` ends: its ask is ended without a miss (R64, R89), and misses of it that are still on
their way, and samples that no end of it has taken, are void (R93, R94, log entry 10). -/
def voidPresence (slot identity : Nat) (n : Net) (s : State) : State :=
  let s1 := endAskOn n (.client slot identity) s
  s1.setFlight { s1.flight with
    clientSamples := s1.flight.clientSamples.filter fun m => !(m.target == .client slot identity && m.net == n)
    clientMisses := s1.flight.clientMisses.filter fun m => !(m.target == .client slot identity && m.net == n) }

/-- Both presences of a slot end. -/
def voidPresences (slot identity : Nat) (s : State) : State := voidPresence slot identity .netB (voidPresence slot identity .netA s)

/-- Every presence of the record has a miss count of 4 or more (R94, R95). -/
def Client.silent (c : Client) : Bool :=
  let quiet : Option Presence → Bool := fun p =>
    match p with
    | none => true
    | some x => decide (4 ≤ x.miss)
  quiet c.presences.a && quiet c.presences.b

/-! ## Registration (R90 … R92) -/

/-- Slots with their numbers. -/
def slotsOf (t : ClientTable) : List (Option Client × Nat) := t.slots.zipIdx

/-- The slot that holds the identity (R87). -/
def findClient (t : ClientTable) (identity : Nat) : Option (Nat × Client) :=
  (slotsOf t).findSome? fun (c, i) =>
    match c with
    | some x => if x.identity = identity then some (i, x) else none
    | none => none

/-- The lowest-numbered free slot (R91, R99). -/
def freeSlot (t : ClientTable) : Option Nat :=
  (slotsOf t).findSome? fun (c, i) => if c.isNone then some i else none

/-- The ADMIT that answers a REGISTER, placed on the arriving port (R92). -/
def answerRegister (m : RegisterMsg) (st : Status) (slot : Nat) (s : State) : State :=
  s.setPort m.net (placeClass1 (.admission s.wire.part m.identity m.seq st slot) (s.port m.net)).1

/-- The record after a REGISTER (R90): in MEASURING and SERVED a presence is kept, otherwise the arriving one is afresh. -/
def Client.registered (m : RegisterMsg) (c : Client) : Client :=
  let fresh := some (newPresence m.stamp.el)
  let c1 := { c with regSeq := some m.seq, taken := bump32 c.taken }
  match c.state with
  | .expected | .lapsed =>
    { c1 with
      state := .measuring, lapsedSince := none
      presences := (⟨none, none⟩ : PerNet (Option Presence)).set m.net fresh }
  | _ =>
    match c.presences.get m.net with
    | some _ => c1
    | none => { c1 with presences := c.presences.set m.net fresh }

/-- A REGISTER of an identity that a slot holds (R90). -/
def registerKnown (slot : Nat) (c : Client) (m : RegisterMsg) (s : State) : State :=
  let s1 :=
    match c.state with
    | .expected => raiseClient slot c.identity .admitted (some .expected) (some m.net) s
    | .lapsed => raiseClient slot c.identity .admitted (some .back) (some m.net) (voidPresences slot c.identity s)
    | _ => s
  answerRegister m .ok slot (s1.setClient slot (some (c.registered m)))

/-- A record created by a REGISTER (R91). -/
def newClient (m : RegisterMsg) : Client where
  identity := m.identity
  state := .measuring
  by_ := .auto
  regSeq := some m.seq
  presences := (⟨none, none⟩ : PerNet (Option Presence)).set m.net (some (newPresence m.stamp.el))
  lapsedSince := none
  taken := 1

/-- A REGISTER of an identity that no slot holds (R91). -/
def registerUnknown (m : RegisterMsg) (s : State) : State :=
  match freeSlot s.cli with
  | none => answerRegister m .full 0 { s with cli := { s.cli with refusedFull := bump32 s.cli.refusedFull } }
  | some i =>
    if s.cli.autoAdmit then
      answerRegister m .ok i (raiseClient i m.identity .admitted (some .auto) (some m.net) (s.setClient i (some (newClient m))))
    else answerRegister m .closed 0 { s with cli := { s.cli with refusedClosed := bump32 s.cli.refusedClosed } }

/-- The client table takes a REGISTER; while its port is not UP it is not taken (R92). -/
def takeRegister (m : RegisterMsg) (s : State) : State :=
  if (s.port m.net).state = .up then
    match findClient s.cli m.identity with
    | some (i, c) => registerKnown i c m s
    | none => registerUnknown m s
  else s

/-! ## Samples and misses (R93, R94) -/

/-- The slot, record and presence that a sample or miss is for, when they are still asked (R93, R94). -/
def livePresence (t : Target) (n : Net) (s : State) : Option (Nat × Client × Presence) :=
  match t with
  | .path _ _ => none
  | .client i identity =>
    match s.client i with
    | none => none
    | some c =>
      match c.presences.get n with
      | none => none
      | some p => if c.identity = identity ∧ c.state.asked then some (i, c, p) else none

/-- The client table takes a delay sample (R93). -/
def takeClientSample (m : SampleMsg) (s : State) : State :=
  match livePresence m.target m.net s with
  | none => s
  | some (i, c, p) =>
    let f := filterTake s.echo.outlier p.filter m.sample
    let served := decide (c.state = .measuring) && decide (f.2 = .kept) && decide (4 ≤ f.1.count)
    s.setClient i (some { c with
      state := if served then .served else c.state
      presences := c.presences.set m.net (some { p with filter := f.1, miss := 0 }) })

/-! ## The end of a presence (R64, R94, R95) -/

/-- The samples on their way to the client table that `g` names are taken, oldest first: an ECHO-BACK that was taken before
the end of its target has its sample applied when the table takes that end (R64, log entry 10). -/
def settlePresences (g : SampleMsg → Bool) (s : State) : State :=
  let l := s.flight.clientSamples
  (l.filter g).foldl (fun u m => takeClientSample m u)
    (s.setFlight { s.flight with clientSamples := l.filter fun m => !g m })

/-- The samples of one client are taken. -/
def settleClient (slot identity : Nat) (s : State) : State :=
  settlePresences (fun m => m.target == .client slot identity) s

/-- The client of slot `slot`, whose record is `c`, enters LAPSED: its presences are kept, its asks ended (R64, R94, R95). -/
def lapse (slot : Nat) (c : Client) (cause : ClientCause) (el : Nat) (s : State) : State :=
  raiseClient slot c.identity .lapsed (some cause) none
    (endAsks (.client slot c.identity) (s.setClient slot (some { c with state := .lapsed, lapsedSince := some el })))

/-- The client table takes a miss, already counted by the engine; samples on their way are taken before a lapse (R64, R94). -/
def takeClientMiss (m : MissMsg) (s : State) : State :=
  match livePresence m.target m.net s with
  | none => s
  | some (i, c, _) =>
    if c.silent then
      let s1 := settleClient i c.identity s
      match s1.client i with
      | none => s1
      | some d => lapse i d .misses m.el s1
    else s

/-! ## The loss of a port (R95) -/

/-- The presence of slot `i` on network `n` is cleared; `c` is its record with the samples on their way taken (R95). -/
def clearPresence (n : Net) (i : Nat) (c : Client) (s : State) : State :=
  let c1 := { c with presences := c.presences.set n none }
  let s1 := voidPresence i c.identity n (s.setClient i (some c1))
  if c.state.asked && c1.silent then lapse i c1 .port s.ts.el s1 else s1

/-- One slot at the loss of the port of network `n`: samples on their way to a client with a presence there are taken, then
the presence is cleared (R64, R95). -/
def loseSlot (n : Net) (s : State) (i : Nat) : State :=
  match s.client i with
  | none => s
  | some c =>
    if (c.presences.get n).isSome then
      let s1 := settleClient i c.identity s
      match s1.client i with
      | none => s1
      | some d => clearPresence n i d s1
    else s

/-- The loss of a port: every presence on it is cleared (R95), in ascending order of the slots (DESIGN CHOICE, log entry
45). -/
def portLossClients (n : Net) (s : State) : State := (List.range Config.clientSlots).foldl (loseSlot n) s

/-! ## The lapse timer (R97, R98) -/

/-- 60 s of EL have passed since the client lapsed (R97). -/
def lapseDue (slot : Nat) (s : State) : Bool :=
  match s.client slot with
  | none => false
  | some c =>
    match c.lapsedSince with
    | none => false
    | some t => decide (c.state = .lapsed) && decide (t + Config.lapseTime ≤ s.ts.el)

/-- The lapse timer of a client runs out (R98). -/
def endLapse (slot : Nat) (s : State) : State :=
  match s.client slot with
  | none => s
  | some c =>
    if lapseDue slot s then
      let s1 := voidPresences slot c.identity s
      match c.by_ with
      | .auto => raiseClient slot c.identity .removed (some .timeout) none (s1.setClient slot none)
      | .agent =>
        raiseClient slot c.identity .released none none
          (s1.setClient slot (some { c with
            state := .expected, presences := ⟨none, none⟩, regSeq := none, lapsedSince := none }))
    else s

/-! ## The requests (R99 … R101) -/

/-- A record created by CLIENT-ADD (R99). -/
def expectedClient (identity : Nat) : Client := ⟨identity, .expected, .agent, none, ⟨none, none⟩, none, 0⟩

/-- CLIENT-ADD (R99). -/
def takeClientAdd (identity : Nat) (s : State) : Answer :=
  if (findClient s.cli identity).isSome then refuse .range s
  else
    match freeSlot s.cli with
    | none => refuse .full s
    | some i => accept (.slot i) (s.setClient i (some (expectedClient identity)))

/-- CLIENT-REMOVE (R100); a sample on its way would change the record that goes with it alone (R64). -/
def takeClientRemove (slot : Nat) (s : State) : Answer :=
  if Config.clientSlots ≤ slot then refuse .range s
  else
    match s.client slot with
    | none => refuse .noEntry s
    | some c =>
      accept (.identity c.identity)
        (raiseClient slot c.identity .removed (some .agent) none
          ((voidPresences slot c.identity s).setClient slot none))

/-- An ask of the target is outstanding on the port. -/
def hasAsk (t : Target) (p : NetPort) : Bool := p.asks.any fun a => a.target == t

/-- A slot in use in CLIENT-READ of ALL (R101). -/
def summaryOfClient (c : Client) : ClientSummary :=
  ⟨c.identity, c.state, c.by_,
    ⟨c.presences.a.map fun p => p.filter.value, c.presences.b.map fun p => p.filter.value⟩⟩

/-- CLIENT-READ (R101). -/
def takeClientRead (slot : Option Nat) (s : State) : Answer :=
  match slot with
  | none =>
    accept
      (.clients (s.cli.slots.map (Option.map summaryOfClient)) (s.cli.slots.countP Option.isSome) s.cli.autoAdmit
        s.cli.refusedFull s.cli.refusedClosed) s
  | some i =>
    if Config.clientSlots ≤ i then refuse .range s
    else
      match s.client i with
      | none => refuse .noEntry s
      | some c =>
        accept (.client i c ⟨hasAsk (.client i c.identity) s.ports.a, hasAsk (.client i c.identity) s.ports.b⟩) s

/-! ## The commands -/

def execClientAdd (ag : Agent) (o : Options) (identity : Nat) (s : State) : Host.Outcome State Fault Refusal :=
  .next (runRequest ag ⟨o, .clientAdd identity⟩ (takeClientAdd identity) s)

def execClientRemove (ag : Agent) (o : Options) (slot : Nat) (s : State) : Host.Outcome State Fault Refusal :=
  .next (runRequest ag ⟨o, .clientRemove slot⟩ (takeClientRemove slot) s)

def execClientRead (ag : Agent) (o : Options) (slot : Option Nat) (s : State) : Host.Outcome State Fault Refusal :=
  .next (runRequest ag ⟨o, .clientRead slot⟩ (takeClientRead slot) s)

/-- The client table takes the oldest REGISTER handed to it (R90 … R92). -/
def execRegisterTaken (s : State) : Host.Outcome State Fault Refusal :=
  match s.flight.registers with
  | [] => .next s
  | m :: rest => .next (takeRegister m (s.setFlight { s.flight with registers := rest }))

/-- The client table takes the oldest delay sample handed to it (R93). -/
def execClientSample (s : State) : Host.Outcome State Fault Refusal :=
  match s.flight.clientSamples with
  | [] => .next s
  | m :: rest => .next (takeClientSample m (s.setFlight { s.flight with clientSamples := rest }))

/-- The client table takes the oldest miss reported to it (R94). -/
def execClientMiss (s : State) : Host.Outcome State Fault Refusal :=
  match s.flight.clientMisses with
  | [] => .next s
  | m :: rest => .next (takeClientMiss m (s.setFlight { s.flight with clientMisses := rest }))

/-- The lapse timer of a slot (R97, R98). -/
def execLapseTimer (slot : Nat) (s : State) : Host.Outcome State Fault Refusal := .next (endLapse slot s)

end Sys2Proof.Machine
end

