-- ==== Sys2Proof/Machine/Mtx.lean ====
section
/-! DEFINITION. MTX frames (R179, R180): what a received frame says, and the bytes of a sent one. -/

namespace Sys2Proof.Machine

/-! ## Received frames -/

/-- The bodies the TD460 takes (R55, R180). -/
inductive MtxBody
  | origin (departure : Ticks) (cls accuracy : Nat) (exponent : Int) (utc : Int) (leap : Leap)
  | echoBack (t1 : TimeVal) (t2 t3 : Ticks)
  | register
deriving DecidableEq, Repr

/-- What the MTX tests of R55 make of a frame. -/
inductive MtxFate
  | badVersion
  | badFormat
  | taken (seq identity : Nat) (b : MtxBody)
deriving DecidableEq, Repr

/-- `w` bytes at an offset, as a number (R179). -/
def fieldAt (l : List Byte) (off w : Nat) : Nat := ofBe ((l.drop off).take w)

/-- L-form fields with their class (R179); none for a nanoseconds field that is neither below 10^9 nor reserved. -/
def timeOfFields (sec ns frac : Nat) : Option TimeVal :=
  if ns < nsPerSec then some (.valid (longTicks sec ns frac))
  else if ns = 4294967295 then some .unset
  else if ns = 4294967294 then some .saturated
  else none

/-- An L-form time of 12 bytes at an offset. -/
def longAt (l : List Byte) (off : Nat) : Option TimeVal :=
  timeOfFields (fieldAt l off 6) (fieldAt l (off + 6) 4) (fieldAt l (off + 10) 2)

/-- An L-form time that must be VALID (R179). -/
def validAt (l : List Byte) (off : Nat) : Option Ticks :=
  match longAt l off with
  | some (.valid t) => some t
  | _ => none

/-- The t1 of an ECHO-BACK: VALID or UNSET (R179). -/
def askTimeAt (l : List Byte) (off : Nat) : Option TimeVal :=
  match longAt l off with
  | some .saturated => none
  | x => x

/-- The 27 bytes of an ORIGIN (R180): a class of 0 … 15, a legal leap kind, a VALID departure (R55, R179). -/
def originBody (b : List Byte) : Option MtxBody :=
  match validAt b 0, leapOf (fieldAt b 20 1) (fieldAt b 21 6) with
  | some d, some leap =>
    if fieldAt b 12 1 ≤ 15 then
      some (.origin d (fieldAt b 12 1) (fieldAt b 13 4) (ofBeSigned 1 (fieldAt b 17 1)) (ofBeSigned 2 (fieldAt b 18 2)) leap)
    else none
  | _, _ => none

/-- The 36 bytes of an ECHO-BACK (R180). -/
def echoBackBody (b : List Byte) : Option MtxBody :=
  match askTimeAt b 0, validAt b 12, validAt b 24 with
  | some t1, some t2, some t3 => some (.echoBack t1 t2 t3)
  | _, _, _ => none

/-- The body of the kinds ORIGIN 1, ECHO-BACK 3 and REGISTER 5, whose lengths are 27, 36 and 0 (R55, R180). -/
def bodyOfKind (kind len : Nat) (b : List Byte) : Option MtxBody :=
  match kind with
  | 1 => if len = 27 ∧ len ≤ b.length then originBody b else none
  | 3 => if len = 36 ∧ len ≤ b.length then echoBackBody b else none
  | 5 => if len = 0 then some .register else none
  | _ => none

/-- The MTX tests of R55 in their order; a payload too short for the common header has no body length that agrees
(log entry 23). -/
def readMtx (l : List Byte) : MtxFate :=
  match l with
  | [] => .badFormat
  | v :: _ =>
    if v ≠ 1#8 then .badVersion
    else if l.length < 13 then .badFormat
    else
      match bodyOfKind (fieldAt l 1 1) (fieldAt l 11 2) (l.drop 13) with
      | some b => .taken (fieldAt l 3 2) (fieldAt l 5 6) b
      | none => .badFormat

/-! ## Sent frames -/

/-- The 13 bytes of the common header (R180). -/
def mtxHeader (kind seq identity len : Nat) : List Byte := be 1 1 ++ be 1 kind ++ be 1 0 ++ be 2 seq ++ be 6 identity ++ be 2 len

/-- An L-form time with its class in 12 bytes (R179). -/
def longBytes : TimeVal → List Byte
  | .valid t => rawBytes (rawOfTicks t)
  | .unset => be 6 0 ++ be 4 4294967295 ++ be 2 0
  | .saturated => be 6 0 ++ be 4 4294967294 ++ be 2 0

/-- An announcement: kind, then midnight (R179, R180). -/
def leapBytes (l : Leap) : List Byte := be 1 (leapCode l).1 ++ be 6 (leapCode l).2

/-- A presence byte and the field, which is zeros when absent (R179). -/
def optBytes (w : Nat) : Option Nat → List Byte
  | none => be 1 0 ++ be w 0
  | some n => be 1 1 ++ be w n

/-- An entry of a correction list: slot, delay in ns, fraction (R180). -/
def correctionBytes (c : Nat × Ticks) : List Byte := be 1 c.1 ++ be 4 (c.2 / ticksPerNs) ++ be 2 (c.2 % ticksPerNs)

/-- The body of an EPOCH (R180). -/
def epochBody (f : EpochFrame) (departure : TimeVal) : List Byte :=
  longBytes departure ++ beSigned 2 f.utc ++ leapBytes f.leap ++ be 1 f.quality ++ be 1 (codeIn servoList f.servo) ++
    optBytes 6 f.selected ++ optBytes 4 f.holdAge ++ be 1 f.corrections.length ++ f.corrections.flatMap correctionBytes

/-- An MTX frame that the TD460 sends (R180), with the departure written into it (R51). -/
def mtxBytes (f : TxFrame) (departure : TimeVal) : List Byte :=
  match f with
  | .epoch e => mtxHeader 4 e.seq e.origin (36 + 7 * e.corrections.length) ++ epochBody e departure
  | .class1 (.ask origin seq target) => mtxHeader 2 seq origin 18 ++ longBytes departure ++ be 6 target
  | .class1 (.admission origin client seq st slot) =>
    mtxHeader 6 seq origin 8 ++ be 6 client ++ be 1 (codeIn statusList st) ++ be 1 slot

/-- The Ethernet frame on the wire of network `n` once it has departed, with its source address: sent to the broadcast
address from the station address of the port (R180, log entry 6). A PART-CONFIG that changes the station address before the
transmission ends shows in the frame: it carries the address that stands when the wire is looked at (DESIGN CHOICE, log entry
53). -/
def State.onWire (s : State) (n : Net) : Option (Nat × EthFrame) :=
  match (s.port n).tx with
  | none => none
  | some t =>
    t.egress.map fun e =>
      (s.wire.station.get n, ⟨true, Config.broadcastAddress, Config.mtxType, mtxBytes t.frame (e.field.getD .unset)⟩)

end Sys2Proof.Machine
end

