-- ==== Sys2Proof/Machine/Ports.lean ====
section
/-! DEFINITION. The network ports and the echo exchange (chapter 3): states, stamps, the receive tests, transmission, the
echo engine, and the requests PORT-ENABLE, PORT-DISABLE and PORT-READ. -/

namespace Sys2Proof.Machine

/-! ## Port states (R46 … R49) -/

/-- DT and EL as a frame or edge is stamped (R50, R51, R151). -/
def State.stampNow (s : State) : Stamp := ⟨s.ts.dt, s.ts.el⟩

/-- The port enters UP: queue and asks empty, an echo cycle begun at slot 0 with the settings in force (R49, R58, R59). -/
def enterUp (n : Net) (s : State) : State :=
  s.setPort n { s.port n with
    state := .up, class0 := none, class1 := [], tx := none, asks := [], cycleStart := s.ts.el, nextSlot := 0
    cycleInterval := s.echo.interval, cycleWait := s.echo.wait }

/-- The port leaves UP: queue, transmission and asks are dropped, and both tables take the loss (R48). -/
def leaveUp (n : Net) (st : PortState) (s : State) : State :=
  portLossClients n
    (portLossSources n
      (s.setPort n { s.port n with state := st, class0 := none, class1 := [], tx := none, asks := [] }))

/-- PORT-ENABLE (R46, R47). -/
def takePortEnable (n : Net) (s : State) : Answer :=
  let s1 :=
    match (s.port n).state with
    | .disabled => if (s.port n).link then enterUp n s else s.setPort n { s.port n with state := .down }
    | _ => s
  accept (.portState (s1.port n).state) s1

/-- PORT-DISABLE (R46, R47). -/
def takePortDisable (n : Net) (s : State) : Answer :=
  let s1 :=
    match (s.port n).state with
    | .up => leaveUp n .disabled s
    | .down => s.setPort n { s.port n with state := .disabled }
    | .disabled => s
  accept (.portState (s1.port n).state) s1

/-- PORT-READ (R57). -/
def takePortRead (n : Net) (s : State) : Answer :=
  let p := s.port n
  accept
    (.port ⟨p.state, p.link, if p.class0.isSome then 1 else 0, p.class1.length, p.tx.isSome, p.echoSeq, p.asks.length,
      p.counters⟩) s

/-- The link becomes present (R46). -/
def linkUp (n : Net) (s : State) : State :=
  let s1 := s.setPort n { s.port n with link := true }
  if (s.port n).state = .down then enterUp n s1 else s1

/-- The link is lost (R46, R48). -/
def linkDown (n : Net) (s : State) : State :=
  let s1 := s.setPort n { s.port n with link := false }
  if (s.port n).state = .up then leaveUp n .down s1 else s1

/-! ## The echo engine's answers (R61, R62) -/

/-- A change of the counters of a port. -/
def State.recount (s : State) (n : Net) (f : PortCounters → PortCounters) : State :=
  s.setPort n { s.port n with counters := f (s.port n).counters }

/-- A change of the target's miss count on network `n`, in the record of its table (R61, R63). -/
def State.recountMiss (s : State) (n : Net) (t : Target) (f : Nat → Nat) : State :=
  match t with
  | .path i identity =>
    match s.path i with
    | some p => if p.identity = identity then s.setPath i (some { p with miss := p.miss.map f }) else s
    | none => s
  | .client i identity =>
    match s.client i with
    | none => s
    | some c =>
      match c.presences.get n with
      | none => s
      | some p =>
        if c.identity = identity then
          s.setClient i (some { c with presences := c.presences.set n (some { p with miss := f p.miss }) })
        else s

/-- A delay sample is handed to the table that owns the target (R61). -/
def handSample (m : SampleMsg) (s : State) : State :=
  match m.target with
  | .path _ _ => s.setFlight { s.flight with sourceSamples := s.flight.sourceSamples ++ [m] }
  | .client _ _ => s.setFlight { s.flight with clientSamples := s.flight.clientSamples ++ [m] }

/-- A miss is reported to the table that owns the target (R63). -/
def handMiss (m : MissMsg) (s : State) : State :=
  match m.target with
  | .path _ _ => s.setFlight { s.flight with sourceMisses := s.flight.sourceMisses ++ [m] }
  | .client _ _ => s.setFlight { s.flight with clientMisses := s.flight.clientMisses ++ [m] }

/-- The identity of a target. -/
def Target.identity : Target → Nat
  | .path _ i => i
  | .client _ i => i

/-- The delay sample of an exchange (R62), in fraction units. -/
def delaySample (e1 e4 : Nat) (t2 t3 : Ticks) : Int :=
  divNearestEven (((e4 : Int) - (e1 : Int)) * (ticksPerNs : Int) - ((t3 : Int) - (t2 : Int))) 2

/-- The target and e1 of the ask that an ECHO-BACK matches (R61). -/
def Ask.answeredBy (seq identity : Nat) (t1 : TimeVal) (a : Ask) : Option (Target × Nat) :=
  match a.state with
  | .inFlight t e => if a.seq = seq ∧ a.target.identity = identity ∧ t = t1 then some (a.target, e) else none
  | _ => none

/-- The echo engine resolves an accepted ECHO-BACK (R61, R62). -/
def resolveEcho (n : Net) (seq identity : Nat) (t1 : TimeVal) (t2 t3 : Ticks) (s : State) : State :=
  match (s.port n).asks.findSome? (Ask.answeredBy seq identity t1) with
  | none => s.recount n fun c => { c with lateReplies := bump32 c.lateReplies }
  | some (t, e1) =>
    let s1 := s.setPort n (endAsksWhere (fun a => a.seq == seq) (s.port n))
    handSample ⟨n, t, delaySample e1 s.ts.el t2 t3⟩ (s1.recountMiss n t fun _ => 0)

/-! ## Receiving (R55, R56) -/

/-- An accepted frame is handed on with its stamp and network (R56). -/
def handOn (n : Net) (seq identity : Nat) (b : MtxBody) (s : State) : State :=
  match b with
  | .origin d cls acc k off l =>
    s.setFlight { s.flight with origins := s.flight.origins ++ [⟨n, s.stampNow, seq, identity, d, cls, acc, k, off, l⟩] }
  | .register => s.setFlight { s.flight with registers := s.flight.registers ++ [⟨n, s.stampNow, identity, seq⟩] }
  | .echoBack t1 t2 t3 => resolveEcho n seq identity t1 t2 t3 s

/-- A frame arrives at a port; the tests of R55 in their order. -/
def receive (n : Net) (f : EthFrame) (s : State) : State :=
  if (s.port n).state ≠ .up then s
  else if f.fcsOk = false then s.recount n fun c => { c with droppedFcs := bump32 c.droppedFcs }
  else if f.dest ≠ Config.broadcastAddress ∧ f.dest ≠ s.wire.station.get n then s
  else if f.etherType ≠ Config.mtxType then s
  else
    match readMtx f.payload with
    | .badVersion => s.recount n fun c => { c with droppedVersion := bump32 c.droppedVersion }
    | .badFormat => s.recount n fun c => { c with droppedFormat := bump32 c.droppedFormat }
    | .taken seq identity b =>
      handOn n seq identity b (s.recount n fun c => { c with accepted := bump32 c.accepted })

/-! ## Transmission (R51, R54) -/

/-- The frame in transmission ends, once it has departed, and the next one begins (R54, log entry 36). -/
def transmitEnd (n : Net) (s : State) : State :=
  match (s.port n).tx with
  | some t => if t.egress.isSome then s.setPort n (beginTx { s.port n with tx := none }) else s
  | none => s

/-- The departure field written into a frame (R51). -/
def departureField (t : Timescale) : TxFrame → Option TimeVal
  | .epoch _ => some (.valid t.dt)
  | .class1 (.ask _ _ _) => some (if t.timeSet then .valid t.dt else .unset)
  | .class1 (.admission ..) => none

/-- The ask of a departed ECHO-ASK becomes IN FLIGHT (R60). -/
def Ask.depart (seq : Nat) (t1 : TimeVal) (e1 : Nat) (a : Ask) : Ask :=
  if a.seq = seq then { a with state := .inFlight t1 e1 } else a

/-- The frame in transmission passes the stamping point (R51, R60). -/
def departs (n : Net) (s : State) : State :=
  let p := s.port n
  match p.tx with
  | none => s
  | some t =>
    if t.egress.isSome then s
    else
      let field := departureField s.ts t.frame
      let asks :=
        match t.frame with
        | .class1 (.ask _ seq _) => p.asks.map (Ask.depart seq (field.getD .unset) s.ts.el)
        | _ => p.asks
      s.setPort n { p with tx := some { t with egress := some ⟨s.stampNow, field⟩ }, asks := asks }

/-! ## Ask slots (R59, R60) -/

/-- The next slot instant of the port has been reached; slot 64 is the start of the next cycle (R59). -/
def slotDue (n : Net) (s : State) : Bool :=
  let p := s.port n
  decide (p.state = .up) && decide (64 * p.cycleStart + p.nextSlot * p.cycleInterval ≤ 64 * s.ts.el)

/-- A cycle that has no slot left is followed by the next, with the settings then in force (R58, R59). -/
def rollCycle (e : EchoSettings) (p : NetPort) : NetPort :=
  if 64 ≤ p.nextSlot then
    { p with cycleStart := p.cycleStart + p.cycleInterval, nextSlot := 0, cycleInterval := e.interval, cycleWait := e.wait }
  else p

/-- The target of slot `k`, when it is asked (R59). -/
def slotTarget (n : Net) (k : Nat) (s : State) : Option Target :=
  if k < 4 then
    match (pathsOf s.src n)[k]? with
    | some (i, p) => if p.state.live then some (.path i p.identity) else none
    | none => none
  else if k < 16 then none
  else
    match s.client (k - 16) with
    | some c => if c.state.asked && (c.presences.get n).isSome then some (.client (k - 16) c.identity) else none
    | none => none

/-- The first whole ns of EL at or after the instant of slot `k` (R59, log entry 35). -/
def slotInstant (p : NetPort) (k : Nat) : Nat := p.cycleStart + (k * p.cycleInterval + 63) / 64

/-- The engine issues an ask to a target (R60). -/
def issueAsk (origin k : Nat) (t : Target) (p : NetPort) : NetPort :=
  let seq := p.echoSeq
  let placed := placeClass1 (.ask origin seq t.identity) { p with echoSeq := next16 seq }
  let ask : Ask := ⟨seq, t, slotInstant p k, p.cycleWait, if placed.2 then .queued else .dropped⟩
  { placed.1 with asks := placed.1.asks ++ [ask] }

/-- An ask slot instant (R59): an ask is issued unless the slot is idle. -/
def echoSlot (n : Net) (s : State) : State :=
  if slotDue n s then
    let p := rollCycle s.echo (s.port n)
    let k := p.nextSlot
    let p1 := { p with nextSlot := k + 1 }
    match slotTarget n k s with
    | none => s.setPort n p1
    | some t => if hasAsk t p1 then s.setPort n p1 else s.setPort n (issueAsk s.wire.part k t p1)
  else s

/-- The reply wait of this ask has run out (R63). -/
def Ask.expired (seq el : Nat) (a : Ask) : Bool := a.seq == seq && decide (a.issue + a.wait ≤ el)

/-- The reply wait of an ask runs out: the ask is ended, the miss counted and reported (R63). -/
def replyWaitExpiry (n : Net) (seq : Nat) (s : State) : State :=
  match (s.port n).asks.find? (Ask.expired seq s.ts.el) with
  | none => s
  | some a =>
    let s1 := s.setPort n (endAsksWhere (fun b => b.seq == seq) (s.port n))
    handMiss ⟨n, a.target, a.issue + a.wait⟩ (s1.recountMiss n a.target bump8)

/-! ## The commands -/

def execPortEnable (ag : Agent) (o : Options) (n : Net) (s : State) : Host.Outcome State Fault Refusal :=
  .next (runRequest ag ⟨o, .portEnable n⟩ (takePortEnable n) s)

def execPortDisable (ag : Agent) (o : Options) (n : Net) (s : State) : Host.Outcome State Fault Refusal :=
  .next (runRequest ag ⟨o, .portDisable n⟩ (takePortDisable n) s)

def execPortRead (ag : Agent) (o : Options) (n : Net) (s : State) : Host.Outcome State Fault Refusal :=
  .next (runRequest ag ⟨o, .portRead n⟩ (takePortRead n) s)

/-- A link appears (R46, R49). -/
def execLinkUp (n : Net) (s : State) : Host.Outcome State Fault Refusal := .next (linkUp n s)

/-- A link is lost (R46, R48). -/
def execLinkDown (n : Net) (s : State) : Host.Outcome State Fault Refusal := .next (linkDown n s)

/-- A frame arrives at a port (R55, R56). -/
def execFrameArrival (n : Net) (f : EthFrame) (s : State) : Host.Outcome State Fault Refusal := .next (receive n f s)

/-- The frame in transmission finishes (R54). -/
def execTransmitEnd (n : Net) (s : State) : Host.Outcome State Fault Refusal := .next (transmitEnd n s)

/-- A sent frame passes the stamping point (R51). -/
def execFrameDeparts (n : Net) (s : State) : Host.Outcome State Fault Refusal := .next (departs n s)

/-- An ask slot instant of a port (R59). -/
def execEchoSlot (n : Net) (s : State) : Host.Outcome State Fault Refusal := .next (echoSlot n s)

/-- The reply wait of an outstanding ask runs out (R63). -/
def execReplyWaitExpiry (n : Net) (seq : Nat) (s : State) : Host.Outcome State Fault Refusal :=
  .next (replyWaitExpiry n seq s)

end Sys2Proof.Machine
end

