-- ==== Sys2Proof/Machine/Lines.lean ====
section
/-! DEFINITION. The line space (chapter 8): addressing, outputs and pulses, line requests, schedule actions, ownership and
configuration, inputs and capture queues. -/

namespace Sys2Proof.Machine

/-! ## Lines (R138 … R140) -/

/-- Kinds of lines with the number of the record that holds them (R138). -/
inductive LineKind
  | output (i : Nat)
  | input (i : Nat)
  | internal
  | absent
deriving DecidableEq, Repr

/-- The kind of a line (R138). -/
def lineKind (n : Nat) : LineKind :=
  if n < 24 then .output n
  else if n < 32 then .absent
  else if n < 48 then .input (n - 32)
  else if n < 56 then .absent
  else if n < 64 then .internal
  else .absent

/-- The effective line of a displacement, if it lies in 0 … 63 (R140). -/
def effectiveLine (base : Nat) (disp : Int) : Option Nat :=
  let l := (base : Int) + disp
  if 0 ≤ l ∧ l ≤ 63 then some l.toNat else none

/-- A count of 0 means 16; other counts run 1 … 16 (R140). LINE-LOAD and LINE-STORE refuse a count above 16 with RANGE (DESIGN
CHOICE, log entry 47). -/
def spanCount (c : Nat) : Option Nat := if c = 0 then some 16 else if c ≤ 16 then some c else none

/-- The lines of a span within 0 … 63 (R140). -/
def spanLines (base : Nat) (disp : Int) (count : Nat) : Option (List Nat) :=
  match effectiveLine base disp, spanCount count with
  | some l, some c => if l + c ≤ 64 then some ((List.range c).map (l + ·)) else none
  | _, _ => none

/-- Output `i` and input `i`. -/
def State.output (s : State) (i : Nat) : Output := s.lines.outputs.getD i Output.reset
def State.setOutput (s : State) (i : Nat) (o : Output) : State := s.setLines { s.lines with outputs := s.lines.outputs.set i o }
def State.input (s : State) (i : Nat) : Input := s.lines.inputs.getD i Input.reset
def State.setInput (s : State) (i : Nat) (x : Input) : State := s.setLines { s.lines with inputs := s.lines.inputs.set i x }

/-- The level of an internal line for the agent that reads it (R139). -/
def internalLevel (ag : Agent) (n : Nat) (s : State) : Bool :=
  match n with
  | 56 => decide (s.ts.servo = .locked)
  | 57 => decide (s.ts.servo = .holdover)
  | 58 => s.ts.timeSet
  | 59 => s.holdsGrant ag
  | 60 => decide (s.ports.a.state = .up)
  | 61 => decide (s.ports.b.state = .up)
  | 62 => decide (s.ts.leap ≠ .none)
  | 63 => decide (s.ts.servo = .fault)
  | _ => false

/-- The level of a line for the agent that reads it; an absent line has none (R138, R139). -/
def lineLevel (ag : Agent) (s : State) (n : Nat) : Bool :=
  match lineKind n with
  | .output i => (s.output i).level
  | .input i => (s.input i).level
  | .internal => internalLevel ag n s
  | .absent => false

/-- Levels of a span as a value, bit i the level of its line i (R145, R147). -/
def spanValue (ag : Agent) (s : State) (l : List Nat) : Nat :=
  l.foldr (fun n v => 2 * v + (if lineLevel ag s n then 1 else 0)) 0

/-! ## Operations on outputs (R142, R143) -/

/-- SET, CLEAR and PULSE (R142). -/
inductive LineOp | set | clear | pulse
deriving DecidableEq, Repr

/-- An output after an operation at EL `el` (R142). -/
def Output.drive (op : LineOp) (el : Nat) (o : Output) : Output :=
  match op with
  | .set => { o with level := true, pulseEnd := none }
  | .clear => { o with level := false, pulseEnd := none }
  | .pulse => { o with level := true, pulseEnd := some (el + o.width) }

/-- An operation on output `i`. -/
def driveLine (op : LineOp) (i : Nat) (s : State) : State := s.setOutput i ((s.output i).drive op s.ts.el)

/-- SET or CLEAR on each line of a span by the bits of a value (R145). -/
def loadLines (v : Nat) (l : List Nat) (s : State) : State :=
  l.zipIdx.foldl (fun s x => driveLine (if v.testBit x.2 then .set else .clear) x.1 s) s

/-- The line is an output. -/
def isOutput (n : Nat) : Bool := decide (n < Config.outputCount)

/-- The agent owns the output. -/
def ownsLine (ag : Agent) (s : State) (n : Nat) : Bool := (s.output n).owner == some ag

/-- The end of the pulse of output `i` has been reached (R143). -/
def pulseDue (i : Nat) (s : State) : Bool :=
  match (s.output i).pulseEnd with
  | none => false
  | some t => decide (t ≤ s.ts.el)

/-- A pulse ends (R143). -/
def endPulse (i : Nat) (s : State) : State :=
  if pulseDue i s then s.setOutput i { s.output i with level := false, pulseEnd := none } else s

/-! ## Schedule actions (R148) -/

/-- The lines an action names (R115). -/
def Action.lines : Action → List Nat
  | .pulse l => [l]
  | .set l => [l]
  | .clear l => [l]
  | .load b c _ => (List.range c).map (b + ·)
  | .alert _ _ => []

/-- The action performed on its lines. -/
def Action.act (a : Action) (s : State) : State :=
  match a with
  | .pulse l => driveLine .pulse l s
  | .set l => driveLine .set l s
  | .clear l => driveLine .clear l s
  | .load _ _ v => loadLines v a.lines s
  | .alert _ _ => s

/-- The line unit takes a schedule action for its owner, whole or not at all; it tells whether it was performed (R148). -/
def performAction (owner : Agent) (a : Action) (s : State) : State × Bool :=
  if a.lines.all (ownsLine owner s) then (a.act s, true) else (s, false)

/-! ## Line requests (R144 … R147) -/

/-- LINE-SET and LINE-CLEAR (R144). -/
def takeLineOp (ag : Agent) (op : LineOp) (disp : Int) (s : State) : Answer :=
  match effectiveLine (s.ctx ag).lineBase disp with
  | none => refuse .range s
  | some n =>
    if isOutput n = false then refuse .range s
    else if ownsLine ag s n = false then refuse .lineOwner s
    else
      let s1 := driveLine op n s
      accept (.line n (lineLevel ag s1 n)) s1

/-- LINE-LOAD (R145). -/
def takeLineLoad (ag : Agent) (disp : Int) (count value : Nat) (s : State) : Answer :=
  match spanLines (s.ctx ag).lineBase disp count with
  | none => refuse .range s
  | some l =>
    if l.all isOutput = false then refuse .range s
    else if l.all (ownsLine ag s) = false then refuse .lineOwner s
    else
      let s1 := loadLines value l s
      accept (.lineSpan (l.headD 0) l.length (spanValue ag s1 l)) s1

/-- The line is dedicated to the reference path (R151). -/
def dedicated (n : Nat) (s : State) : Bool := decide (n = 47) && s.src.settings.refMode

/-- LINE-TEST (R146). -/
def takeLineTest (ag : Agent) (disp : Int) (s : State) : Answer :=
  match effectiveLine (s.ctx ag).lineBase disp with
  | none => refuse .range s
  | some n =>
    match lineKind n with
    | .absent => refuse .range s
    | .output i => accept (.lineTest n (lineLevel ag s n) (.output (s.output i))) s
    | .input i => accept (.lineTest n (lineLevel ag s n) (.input (s.input i) (dedicated n s))) s
    | .internal => accept (.lineTest n (lineLevel ag s n) .internal) s

/-- LINE-STORE (R147). -/
def takeLineStore (ag : Agent) (disp : Int) (count : Nat) (s : State) : Answer :=
  match spanLines (s.ctx ag).lineBase disp count with
  | none => refuse .range s
  | some l =>
    if l.any (fun n => lineKind n == .absent) then refuse .range s else accept (.lineStore (spanValue ag s l)) s

/-! ## Ownership and configuration (R149, R150) -/

/-- LINE-OWN (R149). -/
def takeLineOwn (ag : Agent) (disp : Int) (owner : Option Agent) (s : State) : Answer :=
  match effectiveLine (s.ctx ag).lineBase disp with
  | none => refuse .range s
  | some n =>
    if isOutput n then accept (.lineOwner n (s.output n).owner owner) (s.setOutput n { s.output n with owner := owner })
    else refuse .range s

/-- An optional value within its bounds. -/
def optWithin (lo hi : Nat) : Option Nat → Bool
  | none => true
  | some n => decide (lo ≤ n) && decide (n ≤ hi)

/-- The settings name none of an input (R150). -/
def namesNoInput (c : LineSettings) : Bool := c.edge.isNone && c.route.isNone && c.level.isNone && c.holdOff.isNone

/-- An input after LINE-CONFIG; naming the edge or the hold-off makes the last-taken record absent (R150, R151). -/
def Input.configured (c : LineSettings) (x : Input) : Input where
  level := x.level
  edge := c.edge.getD x.edge
  route := c.route.getD x.route
  alertLevel := c.level.getD x.alertLevel
  holdOff := c.holdOff.getD x.holdOff
  lastTaken := if c.edge.isSome || c.holdOff.isSome then none else x.lastTaken

/-- LINE-CONFIG (R150). -/
def takeLineConfig (ag : Agent) (disp : Int) (c : LineSettings) (s : State) : Answer :=
  match effectiveLine (s.ctx ag).lineBase disp with
  | none => refuse .range s
  | some n =>
    match lineKind n with
    | .output i =>
      if namesNoInput c && optWithin 50 nsPerSec c.width then
        let o := { s.output i with width := c.width.getD (s.output i).width }
        accept (.outputSettings o.width) (s.setOutput i o)
      else refuse .range s
    | .input i =>
      if c.width.isNone && optWithin 1 15 c.level && optWithin 0 1000000 c.holdOff then
        let x := (s.input i).configured c
        accept (.inputSettings x.edge x.route x.alertLevel x.holdOff) (s.setInput i x)
      else refuse .range s
    | _ => refuse .range s

/-! ## Inputs and capture (R151 … R155) -/

/-- The edge matches the setting (R151). -/
def edgeMatches (x : EdgeSetting) (e : EdgeKind) : Bool :=
  match x, e with
  | .both, _ => true
  | .rise, .rise => true
  | .fall, .fall => true
  | _, _ => false

/-- The edge lies less than the hold-off after the last one taken (R151). -/
def Input.heldOff (el : Nat) (x : Input) : Bool :=
  match x.lastTaken with
  | none => false
  | some t => decide (el < t + x.holdOff)

/-- A capture queue takes a record; it tells whether CAPTURE is to be raised (R153). -/
def CaptureQueue.store (c : Capture) (q : CaptureQueue) : CaptureQueue × Bool :=
  if q.records.length < Config.captureRoom then
    (⟨q.records ++ [{ c with gap := q.gap }], 0⟩, q.records.isEmpty)
  else ({ q with gap := bump8 q.gap }, false)

/-- The record of an edge taken for capture (R152). -/
def captureOf (line : Nat) (e : EdgeKind) (t : Timescale) : Capture :=
  ⟨line, e, if t.timeSet then .valid t.dt else .unset, t.el, t.quality, 0⟩

/-- An edge is taken for capture (R151 … R153). -/
def takeCapture (i : Nat) (e : EdgeKind) (s : State) : State :=
  let x := s.input i
  let q := (s.captures x.route).store (captureOf (32 + i) e s.ts)
  let s1 := (s.setInput i { x with lastTaken := some s.ts.el }).setCaptures x.route q.1
  if q.2 then raiseTo x.route (.capture x.alertLevel (32 + i) e) s1 else s1

/-- Input `i` changes level: the rows of R151 in their order (log entry 40). -/
def takeEdge (i : Nat) (e : EdgeKind) (s : State) : State :=
  let s1 := s.setInput i { s.input i with level := decide (e = .rise) }
  if dedicated (32 + i) s then
    match e with
    | .rise => s1.setFlight { s1.flight with refEdges := s1.flight.refEdges ++ [s.stampNow] }
    | .fall => s1
  else if !edgeMatches (s.input i).edge e then s1
  else if (s.input i).heldOff s.ts.el then s1
  else takeCapture i e s1

/-- Step 3 of the taking of a time request, for the stamps of CAPTURE-READ (R154). -/
def viewCapture (o : Options) (c : Context) (r : Capture) : CaptureView × Flags :=
  let shape := fun v => shapeTime (effForm o c) (effRounding o c) c.base ⟨v, noFlags⟩
  let d := shape r.dt
  let e := shape (.valid (nsTicks r.el))
  (⟨r.line, r.edge, d.field, e.field, r.quality, r.gap⟩, Flags.or d.raised e.raised)

/-- CAPTURE-READ (R154): the record and update options have no effect on it. -/
def takeCaptureRead (ag : Agent) (o : Options) (s : State) : Answer :=
  let c := s.ctx ag
  let q := s.captures ag
  let views := (q.records.take Config.captureReadMax).map (viewCapture o c)
  let raised := views.foldl (fun f v => Flags.or f v.2) noFlags
  let e := finishContext Options.plain c raised c.compare none
  if e.2 then ⟨s.setCtx ag e.1, .exception, .empty⟩
  else accept (.captures q.records.length q.gap (views.map Prod.fst)) (s.setCtx ag e.1)

/-- The release of the `n` oldest records; none when there are fewer (R155). -/
def releaseCaptures (ag : Agent) (n : Nat) (s : State) : Option State :=
  let q := s.captures ag
  if q.records.length < n then none else some (s.setCaptures ag { q with records := q.records.drop n })

/-- CAPTURE-RELEASE (R155). -/
def takeCaptureRelease (ag : Agent) (n : Nat) (s : State) : Answer :=
  if 16 < n then refuse .range s
  else
    match releaseCaptures ag n s with
    | none => refuse .count s
    | some s1 => accept (.length (s1.captures ag).records.length) s1

/-- The line unit takes its part of an agent reset (R153, R169). -/
def lineAgentReset (ag : Agent) (s : State) : State :=
  if s.flight.lineResets.contains ag then
    (s.setFlight { s.flight with lineResets := s.flight.lineResets.erase ag }).setCaptures ag ⟨[], 0⟩
  else s

/-! ## The commands -/

def execLineSet (ag : Agent) (o : Options) (disp : Int) (s : State) : Host.Outcome State Fault Refusal :=
  .next (runRequest ag ⟨o, .lineSet disp⟩ (takeLineOp ag .set disp) s)

def execLineClear (ag : Agent) (o : Options) (disp : Int) (s : State) : Host.Outcome State Fault Refusal :=
  .next (runRequest ag ⟨o, .lineClear disp⟩ (takeLineOp ag .clear disp) s)

def execLineLoad (ag : Agent) (o : Options) (disp : Int) (count value : Nat) (s : State) :
    Host.Outcome State Fault Refusal :=
  .next (runRequest ag ⟨o, .lineLoad disp count value⟩ (takeLineLoad ag disp count value) s)

def execLineTest (ag : Agent) (o : Options) (disp : Int) (s : State) : Host.Outcome State Fault Refusal :=
  .next (runRequest ag ⟨o, .lineTest disp⟩ (takeLineTest ag disp) s)

def execLineStore (ag : Agent) (o : Options) (disp : Int) (count : Nat) (s : State) : Host.Outcome State Fault Refusal :=
  .next (runRequest ag ⟨o, .lineStore disp count⟩ (takeLineStore ag disp count) s)

def execLineOwn (ag : Agent) (o : Options) (disp : Int) (owner : Option Agent) (s : State) :
    Host.Outcome State Fault Refusal :=
  .next (runRequest ag ⟨o, .lineOwn disp owner⟩ (takeLineOwn ag disp owner) s)

def execLineConfig (ag : Agent) (o : Options) (disp : Int) (c : LineSettings) (s : State) :
    Host.Outcome State Fault Refusal :=
  .next (runRequest ag ⟨o, .lineConfig disp c⟩ (takeLineConfig ag disp c) s)

def execCaptureRead (ag : Agent) (o : Options) (s : State) : Host.Outcome State Fault Refusal :=
  .next (runRequest ag ⟨o, .captureRead⟩ (takeCaptureRead ag o) s)

def execCaptureRelease (ag : Agent) (o : Options) (n : Nat) (s : State) : Host.Outcome State Fault Refusal :=
  .next (runRequest ag ⟨o, .captureRelease n⟩ (takeCaptureRelease ag n) s)

/-- The pulse end of an output is reached (R143). -/
def execPulseEnd (line : Nat) (s : State) : Host.Outcome State Fault Refusal := .next (endPulse line s)

/-- An input changes level (R151). -/
def execInputEdge (k : Nat) (e : EdgeKind) (s : State) : Host.Outcome State Fault Refusal :=
  if k < Config.inputCount then .next (takeEdge k e s) else .next s

/-- The line unit takes its part of an agent reset (R153, R169). -/
def execLineAgentReset (ag : Agent) (s : State) : Host.Outcome State Fault Refusal := .next (lineAgentReset ag s)

end Sys2Proof.Machine
end

