-- ==== Sys2Proof/Machine/Alerts.lean ====
section
/-! DEFINITION. Alerts (chapter 10): pending flags, the schedule-alert FIFO, delivery and the return stack, and the requests
ALERT-READ, ALERT-RETURN and ALERT-MASK. The head of a return stack is its top. -/

namespace Sys2Proof.Machine

/-! ## Pending alerts (R171, R172) -/

/-- A raise sets the flag of its kind with the latest detail (R171). -/
def PendingAlerts.take (r : Raise) (p : PendingAlerts) : PendingAlerts :=
  match r with
  | .fault c => { p with fault := some c }
  | .grant d => { p with grant := some d }
  | .servo a b => { p with servo := some (a, b) }
  | .leap k o => { p with leap := some (k, o) }
  | .source d => { p with source := some d }
  | .slew e => { p with slew := some e }
  | .client d => { p with client := some d }
  | .capture level line e => { p with capture := some (level, line, e) }

/-- The flag of a kind is cleared with its detail (R174). -/
def PendingAlerts.drop (k : FlagKind) (p : PendingAlerts) : PendingAlerts :=
  match k with
  | .fault => { p with fault := none }
  | .grant => { p with grant := none }
  | .servo => { p with servo := none }
  | .leap => { p with leap := none }
  | .source => { p with source := none }
  | .slew => { p with slew := none }
  | .client => { p with client := none }
  | .capture => { p with capture := none }

/-- The pending flags as raises, in the order of R174. -/
def PendingAlerts.list (p : PendingAlerts) : List Raise :=
  (p.fault.map Raise.fault).toList ++ (p.grant.map Raise.grant).toList ++ (p.servo.map fun x => Raise.servo x.1 x.2).toList ++
    (p.leap.map fun x => Raise.leap x.1 x.2).toList ++ (p.source.map Raise.source).toList ++
    (p.slew.map Raise.slew).toList ++ (p.client.map Raise.client).toList ++
    (p.capture.map fun x => Raise.capture x.1 x.2.1 x.2.2).toList

/-- The levels of the kinds (chapter 10). -/
def Raise.level : Raise → Nat
  | .fault _ => 0
  | .grant _ => 3
  | .servo _ _ => 4
  | .leap _ _ => 5
  | .source _ => 5
  | .slew _ => 6
  | .client _ => 7
  | .capture level _ _ => level

def AlertRecord.level : AlertRecord → Nat
  | .flag r => r.level
  | .schedule a => a.level

/-- The agent unit takes the oldest raise of a kind on its way to it (R171). -/
def takeRaise (ag : Agent) (k : FlagKind) (s : State) : State :=
  let l := s.flight.raises.get ag
  match l.find? fun r => r.kind == k with
  | none => s
  | some r =>
    let s1 := s.setFlight { s.flight with raises := s.flight.raises.set ag (l.eraseP fun r => r.kind == k) }
    s1.setUnit ag { s1.unit ag with pending := (s1.unit ag).pending.take r }

/-- The FIFO takes a SCHEDULE record, or drops and counts it (R172). -/
def AgentUnit.queueSched (a : SchedAlert) (u : AgentUnit) : AgentUnit :=
  if u.fifo.length < Config.schedFifoRoom then { u with fifo := u.fifo ++ [{ a with gap := u.gap }], gap := 0 }
  else { u with gap := bump8 u.gap }

/-- The agent unit takes the oldest SCHEDULE on its way to it (R172). -/
def takeSchedRaise (ag : Agent) (s : State) : State :=
  match s.flight.schedRaises.get ag with
  | [] => s
  | a :: rest =>
    let s1 := s.setFlight { s.flight with schedRaises := s.flight.schedRaises.set ag rest }
    s1.setUnit ag ((s1.unit ag).queueSched a)

/-! ## Delivery (R173, R174) -/

/-- The candidates: the pending flags and the head of the FIFO, in the order of R174. -/
def AgentUnit.candidates (u : AgentUnit) : List AlertRecord :=
  u.pending.list.map AlertRecord.flag ++ (u.fifo.head?.map AlertRecord.schedule).toList

/-- Level and room (R173). -/
def AgentUnit.admits (u : AgentUnit) (level : Nat) : Bool :=
  if level = 0 then u.stack.all fun r => r.alert.level != 0
  else decide (level ≤ u.ctx.mask) && decide ((u.stack.countP fun r => r.alert.level != 0) < 4)

/-- The alert of lower level; of equal levels the earlier (R174). -/
def moreUrgent (best : Option AlertRecord) (a : AlertRecord) : Option AlertRecord :=
  match best with
  | none => some a
  | some b => if a.level < b.level then some a else some b

/-- The alert to deliver, if any is deliverable (R174). -/
def AgentUnit.chosen (u : AgentUnit) : Option AlertRecord :=
  (u.candidates.filter fun a => u.admits a.level).foldl moreUrgent none

/-- The alert leaves pending (R174). -/
def AgentUnit.withdraw (a : AlertRecord) (u : AgentUnit) : AgentUnit :=
  match a with
  | .flag r => { u with pending := u.pending.drop r.kind }
  | .schedule _ => { u with fifo := u.fifo.tail }

/-- A delivery (R174). -/
def AgentUnit.deliver (a : AlertRecord) (u : AgentUnit) : AgentUnit :=
  let u1 := u.withdraw a
  { u1 with
    stack := ⟨u.ctx.mask, u.ctx.form, a⟩ :: u.stack
    ctx := { u.ctx with mask := a.level - 1, form := if u.ctx.mixed then .long else u.ctx.form } }

/-- The agent unit delivers when an alert is deliverable (R174). -/
def deliverAlert (ag : Agent) (s : State) : State :=
  match (s.unit ag).chosen with
  | none => s
  | some a => s.setUnit ag ((s.unit ag).deliver a)

/-! ## Requests (R176 … R178) -/

/-- ALERT-READ (R176). -/
def takeAlertRead (ag : Agent) (s : State) : Answer :=
  match (s.unit ag).stack with
  | [] => refuse .notInAlert s
  | r :: rest => accept (.alertTop r (rest.length + 1)) s

/-- ALERT-RETURN (R177). -/
def takeAlertReturn (ag : Agent) (n : Nat) (s : State) : Answer :=
  if 16 < n then refuse .range s
  else
    match (s.unit ag).stack with
    | [] => refuse .notInAlert s
    | r :: rest =>
      match releaseCaptures ag n s with
      | none => refuse .count s
      | some s1 =>
        let u := s1.unit ag
        let s2 := s1.setUnit ag { u with stack := rest, ctx := { u.ctx with mask := r.mask, form := r.form } }
        accept (.alertReturned (s2.captures ag).records.length rest.length r.mask) s2

/-- ALERT-MASK (R178). -/
def takeAlertMask (ag : Agent) (m : Nat) (s : State) : Answer :=
  let c := s.ctx ag
  if 15 < m then refuse .range s else accept (.masks c.mask m) (s.setCtx ag { c with mask := m })

/-! ## The commands -/

def execAlertRead (ag : Agent) (o : Options) (s : State) : Host.Outcome State Fault Refusal :=
  .next (runRequest ag ⟨o, .alertRead⟩ (takeAlertRead ag) s)

def execAlertReturn (ag : Agent) (o : Options) (n : Nat) (s : State) : Host.Outcome State Fault Refusal :=
  .next (runRequest ag ⟨o, .alertReturn n⟩ (takeAlertReturn ag n) s)

def execAlertMask (ag : Agent) (o : Options) (mask : Nat) (s : State) : Host.Outcome State Fault Refusal :=
  .next (runRequest ag ⟨o, .alertMask mask⟩ (takeAlertMask ag mask) s)

def execAlertRaise (ag : Agent) (kind : FlagKind) (s : State) : Host.Outcome State Fault Refusal :=
  .next (takeRaise ag kind s)

def execScheduleAlertRaise (ag : Agent) (s : State) : Host.Outcome State Fault Refusal := .next (takeSchedRaise ag s)

def execAlertDelivery (ag : Agent) (s : State) : Host.Outcome State Fault Refusal := .next (deliverAlert ag s)

end Sys2Proof.Machine
end

