-- ==== Sys2Proof/Machine/Responses.lean ====
section
/-! DEFINITION. Response frames (R179, R181, R183): the bytes of a held response. The layouts of the result bodies follow
the general law of R181 (log entry 19). -/

namespace Sys2Proof.Machine

/-! ## Fields -/

/-- A time value in its form (R179). -/
def timeBytes : TimeField → List Byte
  | .long s n f => be 6 s ++ be 4 n ++ be 2 f
  | .short s n => be 2 s ++ be 4 n
  | .unset .long => be 6 0 ++ be 4 4294967295 ++ be 2 0
  | .unset .short => be 2 0 ++ be 4 4294967295
  | .saturated .long => be 6 0 ++ be 4 4294967294 ++ be 2 0
  | .saturated .short => be 2 0 ++ be 4 4294967294

/-- An interval (R179). -/
def intervalBytes : IntervalField → List Byte
  | .given neg s n f => be 1 (if neg then 1 else 0) ++ be 6 s ++ be 4 n ++ be 2 f
  | .unset => be 1 0 ++ be 6 0 ++ be 4 4294967295 ++ be 2 0
  | .saturated => be 1 0 ++ be 6 0 ++ be 4 4294967294 ++ be 2 0

/-- An amount in ns with fraction, as an interval (R181). -/
def amountBytes (d : Int) : List Byte := intervalBytes (intervalField d)

/-- A time at full precision. -/
def ticksBytes (t : Ticks) : List Byte := longBytes (.valid t)

/-- A yes-or-no field: 1 for yes. -/
def bitBytes (b : Bool) : List Byte := be 1 (if b then 1 else 0)

/-- An enumerated byte. -/
def enumBytes {α : Type} [BEq α] (l : List α) (x : α) : List Byte := be 1 (codeIn l x)

/-- An optional field of `w` bytes (R179). -/
def optField {α : Type} (w : Nat) (f : α → List Byte) : Option α → List Byte
  | none => be 1 0 ++ be w 0
  | some x => be 1 1 ++ f x

/-- A list: a count byte and the elements (R181). -/
def listBytes {α : Type} (f : α → List Byte) (l : List α) : List Byte := be 1 l.length ++ l.flatMap f

/-- Bits 6 … 0 of a flags byte: FX, IV, OV, IX, WR, LH, ST (R183). -/
def flagsByte (f : Flags) : Nat :=
  let bit := fun (b : Bool) (n : Nat) => if b then n else 0
  bit f.fx 64 + bit f.iv 32 + bit f.ov 16 + bit f.ix 8 + bit f.wr 4 + bit f.lh 2 + bit f.st 1

/-- The four trap-enables. -/
def trapBytes (t : Traps) : List Byte :=
  enumBytes onOffList t.iv ++ enumBytes onOffList t.ov ++ enumBytes onOffList t.wr ++ enumBytes onOffList t.st

def handleBytes (h : Handle) : List Byte := be 1 h.index ++ be 1 h.generation

/-! ## Records -/

/-- The slew record (R21). -/
def slewBytes (w : Slew) : List Byte :=
  amountBytes (if w.neg then -(w.mag : Int) else (w.mag : Int)) ++ be 2 w.ppm ++ optField 1 (enumBytes agentList) w.notify

/-- The settings of R23. -/
def timescaleSettingsBytes (s : TimescaleSettings) : List Byte :=
  be 4 s.stepThreshold ++ enumBytes onOffList s.stepEnable ++ be 4 s.lockWindow ++ be 2 s.maxSlew ++ be 8 s.holdLimit ++
    be 8 s.holdStep

/-- SERVO-READ (R45). Identity and class of the selected path share one presence byte, 0 with seven zero bytes when no path is
selected (DESIGN CHOICE, log entry 19). -/
def servoBytes (r : ServoReport) : List Byte :=
  longBytes r.dt ++ be 8 r.el ++ beSigned 4 r.rate ++ optField 17 slewBytes r.slew ++ beSigned 2 r.utc ++ leapBytes r.leap ++
    enumBytes trueFalseList r.timeSet ++ enumBytes trueFalseList r.rateBasis ++ enumBytes servoList r.servo ++
    be 1 r.inWindow ++ be 1 r.outCount ++ be 1 r.clamp ++ be 2 r.stepCount ++ be 1 r.holdEntry ++ be 4 r.holdAge ++
    be 1 r.quality ++ be 1 r.lockClass ++ optField 8 (be 8) r.snapAt ++ timescaleSettingsBytes r.settings ++
    optField 7 (fun (p : Nat × Nat) => be 6 p.1 ++ be 1 p.2) r.selected

/-- PORT-READ (R57). -/
def portBytes (r : PortReport) : List Byte :=
  enumBytes portStateList r.state ++ bitBytes r.link ++ be 1 r.queued0 ++ be 1 r.queued1 ++ bitBytes r.sending ++
    be 2 r.echoSeq ++ be 1 r.asks ++ be 4 r.counters.accepted ++ be 4 r.counters.droppedVersion ++
    be 4 r.counters.droppedFormat ++ be 4 r.counters.droppedFcs ++ be 4 r.counters.epochReplaced ++
    be 4 r.counters.lateReplies ++ be 4 r.counters.tableFull

/-- A delay filter (R65). -/
def filterBytes (f : Filter) : List Byte := optField 13 (fun (d : Ticks) => amountBytes d) f.value ++ be 2 f.count ++ be 1 f.run

/-- DT and EL parts of a stamp. -/
def stampBytes (s : Stamp) : List Byte := ticksBytes s.dt ++ be 8 s.el

/-- A source path record (R67). What a kind of path lacks is carried as absent, but for the delay filter, which an entry 8
carries empty; the stamp of the last arrival, and stamp and label of the edge record, share one presence byte each (DESIGN
CHOICE, log entry 19). -/
def pathBytes (p : SourcePath) : List Byte :=
  be 6 p.identity ++ optField 1 (enumBytes netList) p.net ++ enumBytes pathStateList p.state ++ be 1 p.cls ++
    be 4 p.accuracy ++ beSigned 1 p.exponent ++ optField 2 (be 2) p.lastSeq ++ optField 20 stampBytes p.lastArrival ++
    be 1 p.listenCount ++ filterBytes p.filter ++ optField 1 (be 1) p.miss ++ optField 13 amountBytes p.lastOffset ++ be 4 p.seen ++
    optField 8 (be 8) p.staleSince ++ optField 8 (be 8) p.deadline ++ optField 1 (be 1) p.barReason ++
    optField 21 (fun (e : EdgeRecord) => stampBytes e.stamp ++ enumBytes [true, false] e.labelled) p.edge

/-- What every SOURCE-READ carries besides (R86). -/
def tailBytes (t : SourceTail) : List Byte :=
  optField 1 (be 1) t.selected ++ bitBytes t.suspended ++ enumBytes preferenceList t.settings.preference ++
    enumBytes onOffList t.settings.refMode ++ be 1 t.settings.refClass ++ be 4 t.settings.refAccuracy

/-- An entry in SOURCE-READ of ALL (R86); presence bytes as in the record (DESIGN CHOICE, log entry 19). -/
def pathSummaryBytes (p : PathSummary) : List Byte :=
  be 6 p.identity ++ optField 1 (enumBytes netList) p.net ++ enumBytes pathStateList p.state ++ be 1 p.cls ++
    be 4 p.accuracy ++ optField 13 (fun (d : Ticks) => amountBytes d) p.delay ++ optField 1 (be 1) p.miss ++
    optField 13 amountBytes p.lastOffset

/-- A presence of CLIENT-READ, its last byte whether an ask is outstanding (R101; DESIGN CHOICE, log entry 19). -/
def presenceBytes (ask : Bool) (p : Presence) : List Byte :=
  filterBytes p.filter ++ be 1 p.miss ++ be 8 p.since ++ bitBytes ask

/-- A client record (R87, R101). -/
def clientBytes (slot : Nat) (c : Client) (asks : PerNet Bool) : List Byte :=
  be 1 slot ++ be 6 c.identity ++ enumBytes clientStateList c.state ++ enumBytes admittedByList c.by_ ++
    optField 2 (be 2) c.regSeq ++ optField 27 (presenceBytes asks.a) c.presences.a ++
    optField 27 (presenceBytes asks.b) c.presences.b ++ optField 8 (be 8) c.lapsedSince ++ be 4 c.taken

/-- A slot in CLIENT-READ of ALL (R101). The presences are interleaved, that of A with its delay and then that of B with its
delay, each an optional field that holds the delay as an optional field (DESIGN CHOICE, log entry 19). -/
def clientSummaryBytes (c : ClientSummary) : List Byte :=
  let presence := optField 14 (optField 13 (fun (d : Ticks) => amountBytes d))
  be 6 c.identity ++ enumBytes clientStateList c.state ++ enumBytes admittedByList c.by_ ++ presence c.presences.a ++
    presence c.presences.b

/-- EPOCH-READ (R114); the instant stands in L-form whatever the effective form, and cursor and list of A come before those of B
(DESIGN CHOICE, log entry 19). -/
def epochReportBytes (r : EpochReport) : List Byte :=
  be 1 r.exponent ++ be 4 r.periodNs ++ optField 12 ticksBytes r.next ++ be 2 r.seq ++ be 1 r.cursor.a ++
    listBytes (be 1) r.lastList.a ++ be 1 r.cursor.b ++ listBytes (be 1) r.lastList.b

/-- Action kind; line, base line or level; count; value or tag (R183). -/
def actionBytes : Action → List Byte
  | .pulse l => be 1 0 ++ be 1 l ++ be 1 0 ++ be 2 0
  | .set l => be 1 1 ++ be 1 l ++ be 1 0 ++ be 2 0
  | .clear l => be 1 2 ++ be 1 l ++ be 1 0 ++ be 2 0
  | .load b c v => be 1 3 ++ be 1 b ++ be 1 c ++ be 2 v
  | .alert l t => be 1 4 ++ be 1 l ++ be 1 0 ++ be 2 t

/-- A schedule entry of SCHED-READ, always in L-form (R183). -/
def entryBytes (e : Entry) : List Byte :=
  handleBytes e.handle ++ enumBytes agentList e.owner ++ enumBytes scaleList e.domain ++ ticksBytes e.due ++
    ticksBytes e.key ++ bitBytes e.shifted ++ actionBytes e.action ++
    optField 13 (fun (t : Train) => amountBytes t.period) e.train ++ be 2 ((e.train.map Train.remaining).getD 0) ++
    be 2 ((e.train.map Train.skip).getD 0) ++ optField 1 (be 1) e.notify ++ optField 1 (enumBytes outcomeList) e.last ++
    be 4 e.accept

/-- A capture record (R183). -/
def captureBytes (c : CaptureView) : List Byte :=
  be 1 c.line ++ enumBytes edgeList c.edge ++ timeBytes c.dt ++ timeBytes c.el ++ be 1 c.quality ++ be 1 c.gap

/-- CONTEXT-READ (R163); the sticky flags are one byte of the layout of R183, the trap-enables four enumerated bytes, and the
level of the top record, which an empty return stack does not have, is an optional field (DESIGN CHOICE, log entry 19). -/
def contextBytes (r : ContextReport) : List Byte :=
  enumBytes formList r.ctx.form ++ enumBytes onOffList r.ctx.mixed ++ be 4 r.ctx.base ++
    enumBytes roundingList r.ctx.rounding ++ trapBytes r.ctx.traps ++ be 1 (flagsByte r.ctx.flags) ++
    enumBytes compareList r.ctx.compare ++ longBytes r.ctx.cursor ++ be 1 r.ctx.lineBase ++ be 1 r.ctx.threshold ++
    be 1 r.ctx.mask ++ be 1 r.depth ++ optField 1 (be 1) r.topLevel ++ listBytes (enumBytes kindList) r.pending ++
    be 1 r.fifoLength ++ be 1 r.captureLength ++ be 1 r.captureGap ++ bitBytes r.overrun

/-- What LINE-TEST returns by the kind of the line (R146). -/
def lineDetailBytes : LineDetail → List Byte
  | .output o => enumBytes ownerList o.owner ++ be 4 o.width ++ optField 8 (be 8) o.pulseEnd
  | .input i d =>
    enumBytes edgeSettingList i.edge ++ enumBytes agentList i.route ++ be 1 i.alertLevel ++ be 4 i.holdOff ++ bitBytes d
  | .internal => []

/-! ## Alert records (R183) -/

/-- A cause or network that an event does not have is 255 (R183). -/
def orNone {α : Type} [BEq α] (l : List α) : Option α → List Byte
  | none => be 1 255
  | some x => enumBytes l x

/-- Entry and identity, 255 and 0 for none (R183). -/
def selectionBytes : Option (Nat × Nat) → List Byte
  | none => be 1 255 ++ be 6 0
  | some p => be 1 p.1 ++ be 6 p.2

/-- The detail of a raise (R183). -/
def raiseBytes : Raise → List Byte
  | .fault c => enumBytes faultCauseList c
  | .grant d => enumBytes grantDetailList d
  | .servo a b => enumBytes servoList a ++ enumBytes servoList b
  | .leap .insert o => be 1 1 ++ beSigned 2 o
  | .leap .delete o => be 1 2 ++ beSigned 2 o
  | .source d => selectionBytes d.prev ++ selectionBytes d.new ++ enumBytes sourceCauseList d.cause
  | .slew e => enumBytes slewEndList e
  | .client d =>
    be 1 d.slot ++ be 6 d.identity ++ enumBytes clientEventList d.event ++ orNone clientCauseList d.cause ++ orNone netList d.net
  | .capture _ line e => be 1 line ++ enumBytes edgeList e

/-- The detail of a SCHEDULE record (R183). -/
def schedAlertBytes (a : SchedAlert) : List Byte :=
  be 1 a.level ++ be 2 a.tag ++ handleBytes a.handle ++ enumBytes outcomeList a.outcome ++ be 1 a.gap

/-- A 15-byte detail: the fields, then zeros (R183). -/
def detailBytes (l : List Byte) : List Byte := l ++ List.replicate (15 - l.length) 0

/-- An alert record: kind, level, detail (R183). -/
def alertBytes : AlertRecord → List Byte
  | .flag r => enumBytes kindList r.kind ++ be 1 r.level ++ detailBytes (raiseBytes r)
  | .schedule a => be 1 8 ++ be 1 a.level ++ detailBytes (schedAlertBytes a)

/-! ## Bodies and frames -/

/-- The grant state (9.5). The spec gives no layout for FREE: one presence byte stands for holder and lease together, and FREE
is 0 with nine zero bytes (DESIGN CHOICE, log entry 19). -/
def grantBytes : GrantReport → List Byte
  | .free => be 1 0 ++ be 9 0
  | .held a n => be 1 1 ++ enumBytes agentList a ++ be 8 n

/-- The bytes of a result body (R181, R183). DESIGN CHOICE, log entry 19: the flags of FLAGS-READ and FLAGS-CLEAR are one byte
with the bits 6 … 0 of R183, the instant that EPOCH-CONFIG returns stands in L-form whatever the effective form, the skip
count and repeat remaining that SCHED-CANCEL returns share one presence byte, 0 with four zero bytes for a one-shot entry, and
SOURCE-READ and CLIENT-READ of ALL send 9 fields of 44 bytes and 48 fields of 38 bytes, each after a presence byte, without a
count byte. -/
def bodyBytes : Body → List Byte
  | .empty => []
  | .time t => timeBytes t
  | .interval i => intervalBytes i
  | .flags f => be 1 (flagsByte f)
  | .flagsAndTraps f t => be 1 (flagsByte f) ++ trapBytes t
  | .servo r => servoBytes r
  | .snapshot r => snapshotBytes r
  | .portState s => enumBytes portStateList s
  | .port r => portBytes r
  | .path p t => pathBytes p ++ tailBytes t
  | .paths l t => l.flatMap (optField 44 pathSummaryBytes) ++ tailBytes t
  | .labelled o s => amountBytes o ++ enumBytes pathStateList s
  | .slot n => be 1 n
  | .identity n => be 6 n
  | .client i c a => clientBytes i c a
  | .clients l n auto full closed =>
    l.flatMap (optField 38 clientSummaryBytes) ++ be 1 n ++ enumBytes onOffList auto ++ be 4 full ++ be 4 closed
  | .epochConfig p n => be 4 p ++ optField 12 ticksBytes n
  | .epoch r => epochReportBytes r
  | .quotas q u => be 1 q.a0 ++ be 1 q.a1 ++ be 1 q.a2 ++ be 1 u.a0 ++ be 1 u.a1 ++ be 1 u.a2
  | .added h d due key => handleBytes h ++ enumBytes scaleList d ++ ticksBytes due ++ ticksBytes key
  | .cancelled l t =>
    optField 1 (enumBytes outcomeList) l ++ optField 4 (fun (x : Nat × Nat) => be 2 x.1 ++ be 2 x.2) t
  | .entry e => entryBytes e
  | .entries u q l =>
    be 1 u ++ be 1 q ++
      listBytes (fun (x : Handle × Scale × Ticks) => handleBytes x.1 ++ enumBytes scaleList x.2.1 ++ ticksBytes x.2.2) l
  | .line n b => be 1 n ++ enumBytes levelList b
  | .lineSpan n c v => be 1 n ++ be 1 c ++ be 2 v
  | .lineTest n b d => be 1 n ++ enumBytes levelList b ++ lineDetailBytes d
  | .lineStore v => be 2 v
  | .lineOwner n a b => be 1 n ++ enumBytes ownerList a ++ enumBytes ownerList b
  | .outputSettings w => be 4 w
  | .inputSettings e r l h => enumBytes edgeSettingList e ++ enumBytes agentList r ++ be 1 l ++ be 4 h
  | .captures n g l => be 1 n ++ be 1 g ++ listBytes captureBytes l
  | .length n => be 1 n
  | .context r => contextBytes r
  | .grant g => grantBytes g
  | .alertTop r d => be 1 r.mask ++ enumBytes formList r.form ++ be 1 d ++ alertBytes r.alert
  | .alertReturned n d m => be 1 n ++ be 1 d ++ be 1 m
  | .masks a b => be 1 a ++ be 1 b

/-- A response frame before its check (R183). -/
def responseBody (r : Response) : List Byte :=
  let b := bodyBytes r.body
  be 2 (6 + b.length) ++ enumBytes statusList r.status ++ be 1 ((if r.overrun then 128 else 0) + flagsByte r.flags) ++ b

/-- A response frame (R183). -/
def responseBytes (r : Response) : List Byte := responseBody r ++ be 2 (crc16 (responseBody r))

end Sys2Proof.Machine
end

