-- ==== Sys2Proof/Machine/Timescale.lean ====
section
/-! DEFINITION. The timescale unit (chapter 2): restart, steering, the snapshot store, its reading, and its timed events. -/

namespace Sys2Proof.Machine

/-! ## Reading (R43, R45) -/

/-- SERVO-READ (R45): DT is UNSET while the time-set flag is false. -/
def takeServoRead (s : State) : Answer :=
  let t := s.ts
  accept
    (.servo
      { dt := if t.timeSet then .valid t.dt else .unset
        el := t.el, rate := t.rate, slew := t.slew, utc := t.utc, leap := t.leap, timeSet := t.timeSet
        rateBasis := t.rateBasis, servo := t.servo, inWindow := t.inWindow, outCount := t.outCount, clamp := t.clamp
        stepCount := t.stepCount, holdEntry := t.holdEntry, holdAge := t.holdAge, quality := t.quality
        lockClass := t.lockClass, snapAt := t.snapAt, settings := t.settings
        selected := s.selectedPath.map fun p => (p.identity, p.cls) }) s

/-- SNAPSHOT-READ (R43). -/
def takeSnapshotRead (s : State) : Answer :=
  match s.ts.store with
  | none => refuse .noEntry s
  | some r => accept (.snapshot r) s

/-! ## Restart and restore (R33, R44) -/

/-- What SERVO-RESTART does in FAULT (R33, R85). -/
def restartServo (s : State) : State :=
  let s1 := changeServo .freerun (endSlew .dropped s)
  let s2 := regrade (s1.setTs { s1.ts with rate := 0, rateBasis := false, inWindow := 0, outCount := 0, clamp := 0 })
  reexamine .restart { s2 with src := { s2.src with suspended := false } }

/-- SERVO-RESTART (R33). -/
def takeServoRestart (s : State) : Answer :=
  if s.ts.servo = .fault then accept .empty (restartServo s) else refuse .state s

/-- A record that SNAPSHOT-RESTORE takes (R44). -/
def snapshotValid (r : SnapshotRecord) : Bool :=
  decide (r.version = 1) && snapshotChecks r && decide (-Config.rateLimit ≤ r.rate) && decide (r.rate ≤ Config.rateLimit)

/-- SNAPSHOT-RESTORE (R44): a valid record is kept, without the fields that R179 has disregarded; an invalid one enters FAULT. -/
def takeSnapshotRestore (r : SnapshotRecord) (s : State) : Answer :=
  if s.ts.servo ≠ .freerun then refuse .state s
  else if snapshotValid r then
    accept .empty (s.setTs { s.ts with rate := r.rate, rateBasis := true, store := some (snapshotKept r), clamp := 0 })
  else ⟨enterFault .restore s, .range, .empty⟩

/-! ## Steering (R37 … R41) -/

/-- FREERUN and HOLDOVER, the states in which the unit takes steering (R37). -/
def steerable (s : State) : Bool := s.ts.servo == .freerun || s.ts.servo == .holdover

/-- An accepted steering request is reported for renewal (R37, R164). -/
def steered (ag : Agent) (s : State) : Answer := accept .empty (reportRenewal ag s)

/-- An absolute step sets the time (R38). -/
def setTime (new : Int) (s : State) : State :=
  let s1 := stepTo new.toNat 0 s
  s1.setTs { s1.ts with timeSet := true }

/-- The DT an absolute STEER-STEP names (R38). -/
def steerTarget (t : Timescale) (scale : SteerScale) (x : Ticks) : Int :=
  match scale with
  | .dt => x
  | .ut => (toDt t.utc t.leap x).1

/-- STEER-STEP (R37, R38). -/
def takeSteerStep (ag : Agent) (x : StepOperand) (s : State) : Answer :=
  if steerable s = false then refuse .state s
  else
    match x with
    | .absolute f scale =>
      if scale = .ut ∧ s.ts.timeSet = false then refuse .state s
      else
        match expand (s.ctx ag).base f with
        | .valid v =>
          let new := steerTarget s.ts scale v
          if inTimeRange new then steered ag (regrade (setTime new s)) else refuse .range s
        | _ => refuse .range s
    | .interval i =>
      if s.ts.timeSet = false then refuse .state s
      else
        match intervalVal i with
        | .valid d =>
          let new : Int := (s.ts.dt : Int) + d
          if inTimeRange new then steered ag (regrade (stepTo new.toNat s.ts.dtSub s)) else refuse .range s
        | _ => refuse .range s

/-- The slew a STEER-SLEW starts; magnitude zero completes at once (R39). -/
def steerSlew (ag : Agent) (d : Int) (ppm : Nat) (s : State) : State :=
  if d = 0 then raiseTo ag (.slew .completed) (endSlew .replaced s) else replaceSlew (slewOf d ppm (some ag)) s

/-- STEER-SLEW (R37, R39). -/
def takeSteerSlew (ag : Agent) (i : IntervalField) (rate : Option Nat) (s : State) : Answer :=
  if steerable s = false then refuse .state s
  else
    match intervalVal i with
    | .valid d =>
      let ppm := rate.getD s.ts.settings.maxSlew
      if ticksPerSec < d.natAbs ∨ ppm < 1 ∨ s.ts.settings.maxSlew < ppm then refuse .range s
      else if s.ts.timeSet = false then refuse .state s
      else steered ag (steerSlew ag d ppm s)
    | _ => refuse .range s

/-- STEER-RATE (R37, R40). -/
def takeSteerRate (ag : Agent) (rate : Int) (s : State) : Answer :=
  if steerable s = false then refuse .state s
  else if -Config.rateLimit ≤ rate ∧ rate ≤ Config.rateLimit then
    steered ag (s.setTs { s.ts with rate := rate, rateBasis := true })
  else refuse .range s

/-- The offset and announcement take new values, and a change is reported (R41). -/
def steerPair (off : Int) (l : Leap) (s : State) : State :=
  if (off, l) = (s.ts.utc, s.ts.leap) then s else reportChange none (s.setTs { s.ts with utc := off, leap := l })

/-- STEER-LEAP (R37, R41). -/
def takeSteerLeap (ag : Agent) (l : Leap) (off : Option Int) (s : State) : Answer :=
  let t := s.ts
  let new := off.getD t.utc
  if steerable s = false then refuse .state s
  else if insideInserted t.utc t.leap t.dt then refuse .state s
  else if l ≠ .none ∧ t.timeSet = false then refuse .state s
  else if l.midnightOk = false ∨ new < -32768 ∨ 32767 < new then refuse .range s
  else if leapDue new l t.dt then refuse .range s
  else steered ag (steerPair new l s)

/-! ## Offsets and pairs handed over (R25, R28, R35) -/

/-- Takes the oldest message of the source table, if it is an offset, as a measurement (R24, R25, R28). -/
def takeMeasurement (s : State) : State :=
  match s.flight.toTimescale with
  | .offset entry k o :: rest =>
    let s1 := s.setFlight { s.flight with toTimescale := rest }
    if s1.src.selected = some entry then takeOffset ((s1.selectedPath.map SourcePath.cls).getD 15) k o s1 else s1
  | _ => s

/-- Takes the oldest message of the source table, if it is a UTC pair (R35). -/
def takePair (s : State) : State :=
  match s.flight.toTimescale with
  | .pair entry off l arrival :: rest =>
    let s1 := s.setFlight { s.flight with toTimescale := rest }
    if s1.src.selected = some entry then adoptPair off l arrival s1 else s1
  | _ => s

/-! ## Timed events (R29, R31, R36, R42) -/

/-- The remaining offset has reached zero (R31). -/
def slewDone (t : Timescale) : Bool :=
  match t.slew with
  | some w => slewLeft w == 0
  | none => false

/-- The slew completes (R31). -/
def completeSlew (s : State) : State := if slewDone s.ts then endSlew .completed s else s

/-- DT has reached the instant of the standing announcement (R36). -/
def dueLeap (s : State) : State := if leapDue s.ts.utc s.ts.leap s.ts.dt then applyLeap s else s

/-- The quality class of HOLDOVER follows the age (R29). -/
def gradeHoldover (s : State) : State := if s.ts.servo = .holdover then regrade s else s

/-- The age has reached the holdover limit (R29). -/
def holdoverOver (t : Timescale) : Bool := decide (t.servo = .holdover) && decide (t.settings.holdLimit ≤ t.holdAge * nsPerSec)

/-- HOLDOVER expires (R29). -/
def overHoldover (s : State) : State := if holdoverOver s.ts then expireHoldover s else s

/-- The record of a save, its check word computed over the fields as they are carried (R42, log entry 39). -/
def snapshotOf (s : State) : SnapshotRecord :=
  let r : SnapshotRecord :=
    ⟨1, s.ts.rate, s.ts.lockClass, (s.selectedPath.map SourcePath.identity).getD 0, rawOfTicks s.ts.dt, 0⟩
  { r with check := crc32 (snapshotBody r) }

/-- 60 s of continuous LOCKED have passed since the entry or the last save (R42). -/
def saveDue (t : Timescale) : Bool :=
  match t.snapAt with
  | some x => decide (t.servo = .locked) && decide (x ≤ t.el)
  | none => false

/-- The snapshot store is replaced (R42). -/
def saveSnapshot (s : State) : State :=
  if saveDue s.ts then
    s.setTs { s.ts with store := some (snapshotOf s), snapAt := s.ts.snapAt.map (· + Config.snapshotInterval) }
  else s

/-- The slew record without an agent as its notify-agent (R21). -/
def Slew.without (ag : Agent) (w : Slew) : Slew := if w.notify = some ag then { w with notify := none } else w

/-- The timescale unit takes its part of an agent reset (R21, R169). -/
def slewNotifyReset (ag : Agent) (s : State) : State :=
  if s.flight.slewResets.contains ag then
    (s.setFlight { s.flight with slewResets := s.flight.slewResets.erase ag }).setTs
      { s.ts with slew := s.ts.slew.map (Slew.without ag) }
  else s

/-! ## The commands -/

def execServoRead (ag : Agent) (o : Options) (s : State) : Host.Outcome State Fault Refusal :=
  .next (runRequest ag ⟨o, .servoRead⟩ takeServoRead s)

def execSnapshotRead (ag : Agent) (o : Options) (s : State) : Host.Outcome State Fault Refusal :=
  .next (runRequest ag ⟨o, .snapshotRead⟩ takeSnapshotRead s)

def execServoRestart (ag : Agent) (o : Options) (s : State) : Host.Outcome State Fault Refusal :=
  .next (runRequest ag ⟨o, .servoRestart⟩ takeServoRestart s)

def execSnapshotRestore (ag : Agent) (o : Options) (r : SnapshotRecord) (s : State) :
    Host.Outcome State Fault Refusal :=
  .next (runRequest ag ⟨o, .snapshotRestore r⟩ (takeSnapshotRestore r) s)

def execSteerStep (ag : Agent) (o : Options) (x : StepOperand) (s : State) : Host.Outcome State Fault Refusal :=
  .next (runRequest ag ⟨o, .steerStep x⟩ (takeSteerStep ag x) s)

def execSteerSlew (ag : Agent) (o : Options) (i : IntervalField) (rate : Option Nat) (s : State) :
    Host.Outcome State Fault Refusal :=
  .next (runRequest ag ⟨o, .steerSlew i rate⟩ (takeSteerSlew ag i rate) s)

def execSteerRate (ag : Agent) (o : Options) (rate : Int) (s : State) : Host.Outcome State Fault Refusal :=
  .next (runRequest ag ⟨o, .steerRate rate⟩ (takeSteerRate ag rate) s)

def execSteerLeap (ag : Agent) (o : Options) (leap : Leap) (offset : Option Int) (s : State) :
    Host.Outcome State Fault Refusal :=
  .next (runRequest ag ⟨o, .steerLeap leap offset⟩ (takeSteerLeap ag leap offset) s)

def execMeasurement (s : State) : Host.Outcome State Fault Refusal := .next (takeMeasurement s)

def execUtcPairAdopt (s : State) : Host.Outcome State Fault Refusal := .next (takePair s)

def execSlewComplete (s : State) : Host.Outcome State Fault Refusal := .next (completeSlew s)

def execLeapApply (s : State) : Host.Outcome State Fault Refusal := .next (dueLeap s)

def execHoldoverGrade (s : State) : Host.Outcome State Fault Refusal := .next (gradeHoldover s)

def execHoldoverExpiry (s : State) : Host.Outcome State Fault Refusal := .next (overHoldover s)

def execSnapshotSave (s : State) : Host.Outcome State Fault Refusal := .next (saveSnapshot s)

def execSlewNotifyReset (ag : Agent) (s : State) : Host.Outcome State Fault Refusal := .next (slewNotifyReset ag s)

end Sys2Proof.Machine
end

