-- ==== Sys2Proof/Machine/Agents.lean ====
section
/-! DEFINITION. Agent ports, contexts, the steering grant and the resets (chapter 9): the select windows, CONTEXT-SET and
CONTEXT-READ, the grant requests and events, AGENT-RESET, PART-RESET, the reset inputs and power-on. -/

namespace Sys2Proof.Machine

/-! ## The agent context (R161 … R163) -/

/-- The values of CONTEXT-SET lie in their ranges; a VALID cursor lies in the L-form range (R161, R162, log entry 41). -/
def contextInRange (x : ContextSettings) (cursor : Option TimeVal) : Bool :=
  optWithin 0 4294967295 x.base && optWithin 0 63 x.lineBase && optWithin 0 15 x.threshold && optWithin 0 15 x.mask &&
  match cursor with
  | some (.valid t) => decide (t < timeEnd)
  | _ => true

/-- The cursor that CONTEXT-SET names, expanded with the base that stands after it (R162). -/
def namedCursor (x : ContextSettings) (c : Context) : Option TimeVal := x.cursor.map (expand (x.base.getD c.base))

/-- The context after CONTEXT-SET (R162). -/
def Context.written (x : ContextSettings) (c : Context) : Context :=
  { c with
    form := x.form.getD c.form, mixed := x.mixed.getD c.mixed, base := x.base.getD c.base
    rounding := x.rounding.getD c.rounding
    traps := ⟨x.trapIv.getD c.traps.iv, x.trapOv.getD c.traps.ov, x.trapWr.getD c.traps.wr, x.trapSt.getD c.traps.st⟩
    cursor := (namedCursor x c).getD c.cursor, lineBase := x.lineBase.getD c.lineBase
    threshold := x.threshold.getD c.threshold, mask := x.mask.getD c.mask }

/-- What CONTEXT-READ returns (R163). The pending kinds are those of the eight pending flags: SCHEDULE, whose alerts the FIFO
holds, is never among them, and the number of records shows it instead (DESIGN CHOICE, log entry 55). -/
def contextReport (ag : Agent) (s : State) : ContextReport :=
  let u := s.unit ag
  let q := s.captures ag
  { ctx := u.ctx
    depth := u.stack.length
    topLevel := u.stack.head?.map fun r => r.alert.level
    pending := u.pending.list.map Raise.kind
    fifoLength := u.fifo.length
    captureLength := q.records.length
    captureGap := q.gap
    overrun := u.overrun }

/-- CONTEXT-SET (R162). -/
def takeContextSet (ag : Agent) (x : ContextSettings) (s : State) : Answer :=
  if contextInRange x (namedCursor x (s.ctx ag)) then
    let s1 := s.setCtx ag ((s.ctx ag).written x)
    accept (.context (contextReport ag s1)) s1
  else refuse .range s

/-- CONTEXT-READ (R163). -/
def takeContextRead (ag : Agent) (s : State) : Answer := accept (.context (contextReport ag s)) s

/-! ## The steering grant (R164 … R167) -/

/-- The grant state as a grant request returns it (9.5). -/
def grantReport (s : State) : GrantReport :=
  match s.arbiter.grant with
  | .free => .free
  | .held a t => .held a (t - s.ts.el)

/-- The grant becomes the agent's, with a full lease (R165). -/
def giveGrant (ag : Agent) (s : State) : State :=
  { s with arbiter := { s.arbiter with grant := .held ag (s.ts.el + s.arbiter.lease) } }

/-- The grant becomes FREE (R166, R167, R169). -/
def freeGrant (s : State) : State := { voidRenewals s with arbiter := { s.arbiter with grant := .free } }

/-- An answer of the arbiter with the grant state after it (9.5). -/
def grantAnswer (st : Status) (s : State) : Answer := ⟨s, st, .grant (grantReport s)⟩

/-- GRANT-CLAIM (R165). -/
def takeGrantClaim (ag : Agent) (o : Options) (s : State) : Answer :=
  match s.arbiter.grant with
  | .free => grantAnswer .ok (giveGrant ag s)
  | .held a _ =>
    if a = ag then grantAnswer .ok (giveGrant ag s)
    else if o.preempt ∧ ag = .agent0 then grantAnswer .ok (giveGrant ag (voidRenewals (raiseTo a (.grant .preempted) s)))
    else grantAnswer .held s

/-- GRANT-RENEW (R166). -/
def takeGrantRenew (ag : Agent) (s : State) : Answer :=
  if s.holdsGrant ag then grantAnswer .ok (giveGrant ag s) else grantAnswer .grant s

/-- GRANT-RELEASE (R166). -/
def takeGrantRelease (ag : Agent) (s : State) : Answer :=
  if s.holdsGrant ag then grantAnswer .ok (freeGrant s) else grantAnswer .grant s

/-- The lease of a held grant has run out (R167). -/
def grantDue (s : State) : Bool :=
  match s.arbiter.grant with
  | .free => false
  | .held _ t => decide (t ≤ s.ts.el)

/-- The grant expires (R167). -/
def expireGrant (s : State) : State :=
  match s.arbiter.grant with
  | .free => s
  | .held a _ => if grantDue s then raiseTo a (.grant .expired) (freeGrant s) else s

/-- The arbiter takes the oldest renewal report, which extends the lease of a requester that has held the grant ever since
(R164). -/
def takeRenewal (s : State) : State :=
  match s.flight.renewals with
  | [] => s
  | r :: rest =>
    let s1 := s.setFlight { s.flight with renewals := rest }
    if r.stands && s1.holdsGrant r.by_ then giveGrant r.by_ s1 else s1

/-- The arbiter takes its part of an agent reset (R169). -/
def grantAgentReset (ag : Agent) (s : State) : State :=
  if s.flight.grantResets.contains ag then
    let s1 := s.setFlight { s.flight with grantResets := s.flight.grantResets.erase ag }
    if s1.holdsGrant ag then freeGrant s1 else s1
  else s

/-! ## Resets (R168 … R170) -/

/-- An agent unit after an agent reset; its pins stay, and so does the window open on it (R168). -/
def AgentUnit.afterReset (u : AgentUnit) : AgentUnit :=
  { AgentUnit.reset with resetIn := u.resetIn, dataOut := u.dataOut, window := u.window }

/-- The window open on the port is disregarded from here to its release (R168). -/
def AgentUnit.cutOff (u : AgentUnit) : AgentUnit := { u with window := u.window.map fun w => { w with cut := true } }

/-- The agent unit takes an agent reset and reports it to the four blocks that have a part in it (R168, R169). -/
def agentReset (ag : Agent) (s : State) : State :=
  let s1 := s.setUnit ag (s.unit ag).afterReset
  s1.setFlight { s1.flight with
    schedResets := s1.flight.schedResets ++ [ag], lineResets := s1.flight.lineResets ++ [ag]
    grantResets := s1.flight.grantResets ++ [ag], slewResets := s1.flight.slewResets ++ [ag] }

/-- A part reset: every block at its power-on state but for the snapshot store (R170); the pins driven from outside, the
model's span and the commands that wait stay. A window open on a port is disregarded from here on, as R168 has it for a port's
own reset input (DESIGN CHOICE, log entry 52). -/
def resetPart (s : State) : State :=
  { State.reset with
    ts := { Timescale.reset with store := s.ts.store }
    ports := ⟨{ NetPort.reset with link := s.ports.a.link }, { NetPort.reset with link := s.ports.b.link }⟩
    lines := { LineUnit.reset with inputs := s.lines.inputs.map fun x => { Input.reset with level := x.level } }
    units := ⟨s.units.a0.cutOff.afterReset, s.units.a1.cutOff.afterReset, s.units.a2.cutOff.afterReset⟩
    resetIn := s.resetIn, span := s.span, pending := s.pending }

/-- Power-on: a part reset that empties the snapshot store too (R170). -/
def powerOn (s : State) : State :=
  let s1 := resetPart s
  s1.setTs { s1.ts with store := none }

/-- The reset input of a port is asserted or released (R168). -/
def setResetIn (ag : Agent) (b : Bool) (s : State) : State := s.setUnit ag { s.unit ag with resetIn := b }

/-- PART-RESET, answered with no response (R170). -/
def runPartReset (ag : Agent) (q : Submitted) (s : State) : State :=
  let s1 := bringInHand ag q s
  if s1.inHand ag q then resetPart s1 else s1

/-! ## Select windows (R156 … R159, R168, R181) -/

/-- The port status byte (R181). -/
def statusByte : LinkState → Byte
  | .idle => 0x00#8
  | .busy _ => 0x01#8
  | .ready _ => 0x02#8

/-- `n` bytes of status IDLE (R168), which is also data out low (R156). -/
def idleBytes (n : Nat) : List Byte := List.replicate n (statusByte .idle)

/-- What data out shifts in the first `n` bytes after the direction byte, by the kind of the window and the status at the
direction byte: for SUBMIT the status repeated (R157); for COLLECT the status, then the held response, then zero bytes (R158);
for another window low (R156). -/
def windowOut (k : WindowKind) (link : LinkState) (n : Nat) : List Byte :=
  match k, link with
  | .other, _ => idleBytes n
  | .collect, .ready r => (statusByte link :: responseBytes r ++ idleBytes n).take n
  | _, _ => List.replicate n (statusByte link)

/-- A SUBMIT window ends (R157, R182): one that found the port BUSY is an overrun; otherwise a bad frame is answered at once,
and a good one goes on to rank and grant. The overrun flag is set here, at the release, so an answer that comes between the
direction byte and the release does not carry it and the next response does (DESIGN CHOICE, log entry 54). -/
def submitWindow (ag : Agent) (w : OpenWindow) (s : State) : State :=
  match w.link with
  | .busy _ => overrun ag s
  | _ =>
    match readFrame (s.ctx ag) w.bytes with
    | .error st => respond ag st .empty s
    | .ok q => acceptFrame ag q s

/-- A COLLECT window ends: the response is collected when its last byte has been shifted out (R158). -/
def collectWindow (ag : Agent) (w : OpenWindow) (s : State) : State :=
  match w.link with
  | .ready r => if (responseBytes r).length < w.bytes.length then s.setUnit ag { s.unit ag with link := .idle } else s
  | _ => s

/-- A window is released: a SUBMIT is taken, a COLLECT collects, and one that is neither, or that a reset has cut off, is
disregarded (R156, R168). -/
def endWindow (ag : Agent) (w : OpenWindow) (s : State) : State :=
  if w.cut then s
  else
    match windowKind w.direction with
    | .submit => submitWindow ag w s
    | .collect => collectWindow ag w s
    | .other => s

/-- The window at the end of its direction byte, where the status is read (R157, R158); under an asserted reset the port
disregards it (R168, R170). -/
def State.newWindow (s : State) (ag : Agent) (d : Option Byte) : OpenWindow := ⟨d, (s.unit ag).link, [], !s.takesWindows ag⟩

/-- The window that a stretch belongs to: the one open on the port, or a new one; a window whose direction byte was not complete
completes it now (R156). -/
def State.windowFor (s : State) (ag : Agent) (d : Option Byte) : OpenWindow :=
  match (s.unit ag).window with
  | none => s.newWindow ag d
  | some w => if w.cut || w.direction.isSome then w else s.newWindow ag d

/-- The window with a stretch of it shifted in. -/
def OpenWindow.extend (l : List Byte) (w : OpenWindow) : OpenWindow := { w with bytes := w.bytes ++ l }

/-- What data out shifts while `n` more bytes of the window are clocked: IDLE once it is cut off (R168). -/
def OpenWindow.out (n : Nat) (w : OpenWindow) : List Byte :=
  if w.cut then idleBytes n else (windowOut (windowKind w.direction) w.link (w.bytes.length + n)).drop w.bytes.length

/-- A stretch of a select window (R156 … R158, R181, log entry 52): the bytes are shifted in and out, and at a release the
window ends. `dataOut` is what data out has shifted since the direction byte of the window. -/
def selectWindow (ag : Agent) (d : Option Byte) (x : Stretch) (s : State) : State :=
  let u := s.unit ag
  let w := s.windowFor ag d
  let w1 := w.extend x.bytes
  let before := if u.window.isSome then u.dataOut else []
  let s1 := s.setUnit ag { u with
    dataOut := before ++ w.out x.bytes.length
    window := if x.released then none else some w1 }
  if x.released then endWindow ag w1 s1 else s1

/-! ## The commands -/

def execContextSet (ag : Agent) (o : Options) (c : ContextSettings) (s : State) : Host.Outcome State Fault Refusal :=
  .next (runRequest ag ⟨o, .contextSet c⟩ (takeContextSet ag c) s)

def execContextRead (ag : Agent) (o : Options) (s : State) : Host.Outcome State Fault Refusal :=
  .next (runRequest ag ⟨o, .contextRead⟩ (takeContextRead ag) s)

def execGrantClaim (ag : Agent) (o : Options) (s : State) : Host.Outcome State Fault Refusal :=
  .next (runRequest ag ⟨o, .grantClaim⟩ (takeGrantClaim ag o) s)

def execGrantRenew (ag : Agent) (o : Options) (s : State) : Host.Outcome State Fault Refusal :=
  .next (runRequest ag ⟨o, .grantRenew⟩ (takeGrantRenew ag) s)

def execGrantRelease (ag : Agent) (o : Options) (s : State) : Host.Outcome State Fault Refusal :=
  .next (runRequest ag ⟨o, .grantRelease⟩ (takeGrantRelease ag) s)

/-- AGENT-RESET: the reset, then an OK response with all flags clear (R168). -/
def execAgentReset (ag : Agent) (o : Options) (s : State) : Host.Outcome State Fault Refusal :=
  .next (runRequest ag ⟨o, .agentReset⟩ (fun s => accept .empty (agentReset ag s)) s)

def execPartReset (ag : Agent) (o : Options) (s : State) : Host.Outcome State Fault Refusal :=
  .next (runPartReset ag ⟨o, .partReset⟩ s)

/-- A SUBMIT window, or a stretch of one (R157, R181). -/
def execSubmitWindow (ag : Agent) (x : Stretch) (s : State) : Host.Outcome State Fault Refusal :=
  .next (selectWindow ag (some 0x5A#8) x s)

/-- A COLLECT window, or a stretch of one (R158, R181). -/
def execCollectWindow (ag : Agent) (x : Stretch) (s : State) : Host.Outcome State Fault Refusal :=
  .next (selectWindow ag (some 0xA5#8) x s)

/-- A window with another direction byte, or with none complete: disregarded whole, data out low (R156). One with a direction
byte of R181 is what that byte says. -/
def execOtherWindow (ag : Agent) (direction : Option Byte) (x : Stretch) (s : State) : Host.Outcome State Fault Refusal :=
  .next (selectWindow ag direction x s)

/-- The reset input of a port is asserted: the agent is reset, and the window open on the port is cut off (R168). -/
def execAgentResetInput (ag : Agent) (s : State) : Host.Outcome State Fault Refusal :=
  .next (agentReset ag (setResetIn ag true (s.setUnit ag (s.unit ag).cutOff)))

/-- The reset input of a port is released (R168). -/
def execAgentResetInputRelease (ag : Agent) (s : State) : Host.Outcome State Fault Refusal := .next (setResetIn ag false s)

/-- RESET is asserted (R170). -/
def execResetInput (s : State) : Host.Outcome State Fault Refusal := .next (resetPart { s with resetIn := true })

/-- RESET is released (R170). -/
def execResetInputRelease (s : State) : Host.Outcome State Fault Refusal := .next { s with resetIn := false }

def execPowerOn (s : State) : Host.Outcome State Fault Refusal := .next (powerOn s)

/-- The lease runs out (R167). -/
def execGrantExpiry (s : State) : Host.Outcome State Fault Refusal := .next (expireGrant s)

/-- The arbiter takes a renewal report (R164). -/
def execRenewalReport (s : State) : Host.Outcome State Fault Refusal := .next (takeRenewal s)

/-- The arbiter takes its part of an agent reset (R169). -/
def execGrantAgentReset (ag : Agent) (s : State) : Host.Outcome State Fault Refusal := .next (grantAgentReset ag s)

end Sys2Proof.Machine
end

