-- ==== Sys2Proof/Machine/Epoch.lean ====
section
/-! DEFINITION. The epoch unit (chapter 6): instants, assembly and rotation of the correction lists, step reports, and the
requests EPOCH-CONFIG and EPOCH-READ. -/

namespace Sys2Proof.Machine

/-- The epoch period 1 s ÷ 2^k in ns (R103). -/
def periodNs (k : Nat) : Nat := nsPerSec / 2 ^ k

/-- The first multiple of the period strictly after `d` (R106, R107), if it is a DT instant at all (log entry 8). -/
def firstEpochAfter (k : Nat) (d : Ticks) : Option Ticks :=
  let p := nsTicks (periodNs k)
  let t := (d / p + 1) * p
  if t < timeEnd then some t else none

/-! ## Assembly (R96, R109 … R112) -/

/-- What the client table offers for a network: ascending slots with their delay values (R96). -/
def offered (n : Net) (t : ClientTable) : List (Nat × Ticks) :=
  (slotsOf t).filterMap fun (c, i) =>
    match c with
    | none => none
    | some x =>
      if x.state = .served then ((x.presences.get n).bind fun p => p.filter.value).map fun d => (i, d) else none

/-- The correction list from the cursor, wrapping, at most 12 entries (R111). -/
def correctionList (cursor : Nat) (l : List (Nat × Ticks)) : List (Nat × Ticks) :=
  (l.filter (fun e => decide (cursor ≤ e.1)) ++ l.filter (fun e => decide (e.1 < cursor))).take Config.correctionRoom

/-- The cursor after a list: the slot after the last one taken (R111). -/
def cursorAfter (cursor : Nat) (l : List (Nat × Ticks)) : Nat :=
  match l.getLast? with
  | none => cursor
  | some e => (e.1 + 1) % Config.clientSlots

/-- The EPOCH assembled for a port (R109, R110). -/
def assemble (seq : Nat) (l : List (Nat × Ticks)) (s : State) : EpochFrame where
  origin := s.wire.part
  seq := seq
  utc := s.ts.utc
  leap := s.ts.leap
  quality := s.ts.quality
  servo := s.ts.servo
  selected := s.selectedPath.map SourcePath.identity
  holdAge := if s.ts.servo = .holdover then some s.ts.holdAge else none
  corrections := l

/-- The part of an epoch instant that concerns one port (R108): a frame is assembled and placed if the port is UP. -/
def epochFor (n : Net) (seq : Nat) (s : State) : State :=
  if (s.port n).state = .up then
    let l := correctionList (s.epoch.cursor.get n) (offered n s.cli)
    let s1 := s.setPort n (placeEpoch (assemble seq l s) (s.port n))
    { s1 with epoch := { s1.epoch with
      cursor := s1.epoch.cursor.set n (cursorAfter (s1.epoch.cursor.get n) l)
      lastList := s1.epoch.lastList.set n (l.map Prod.fst) } }
  else s

/-- DT as it bears on the next epoch instant: while step reports wait, the DT before the oldest of those steps. An instant that DT
had reached before that step may still be taken first, whichever way the step goes; what it and the later steps do to the
instants is left to their reports (R104, R106, log entry 12). -/
def State.epochDt (s : State) : Ticks :=
  match s.flight.toEpoch with
  | [] => s.ts.dt
  | (old, _) :: _ => old

/-- DT has reached the next epoch instant (R104). -/
def epochDue (s : State) : Bool :=
  match s.epoch.next with
  | none => false
  | some t => decide (t ≤ s.epochDt)

/-- An epoch instant is made (R108). -/
def makeInstant (s : State) : State :=
  match s.epoch.next with
  | none => s
  | some t =>
    if epochDue s then
      let seq := s.epoch.seq
      let s1 := epochFor .netB seq (epochFor .netA seq { s with epoch := { s.epoch with seq := next16 seq } })
      let next := t + nsTicks (periodNs s.epoch.exponent)
      { s1 with epoch := { s1.epoch with next := if next < timeEnd then some next else none } }
    else s

/-- The epoch unit takes a step report (R106). -/
def takeEpochStep (new : Ticks) (s : State) : State :=
  { s with epoch := { s.epoch with next := if s.ts.timeSet then firstEpochAfter s.epoch.exponent new else none } }

/-- EPOCH-CONFIG (R107). Step reports that wait are taken before it: what they set, it sets anew from the present DT (log entry
12). -/
def takeEpochConfig (k : Nat) (s : State) : Answer :=
  if 4 < k then refuse .range s
  else
    let next := if s.ts.timeSet then firstEpochAfter k s.ts.dt else none
    let s1 := s.setFlight { s.flight with toEpoch := [] }
    accept (.epochConfig (periodNs k) next) { s1 with epoch := { s1.epoch with exponent := k, next := next } }

/-- EPOCH-READ (R114). -/
def takeEpochRead (s : State) : Answer :=
  let e := s.epoch
  accept (.epoch ⟨e.exponent, periodNs e.exponent, e.next, e.seq, e.cursor, e.lastList⟩) s

/-! ## The commands -/

def execEpochConfig (ag : Agent) (o : Options) (k : Nat) (s : State) : Host.Outcome State Fault Refusal :=
  .next (runRequest ag ⟨o, .epochConfig k⟩ (takeEpochConfig k) s)

def execEpochRead (ag : Agent) (o : Options) (s : State) : Host.Outcome State Fault Refusal :=
  .next (runRequest ag ⟨o, .epochRead⟩ takeEpochRead s)

/-- DT reaches the next epoch instant (R108). -/
def execEpochInstant (s : State) : Host.Outcome State Fault Refusal := .next (makeInstant s)

/-- The epoch unit takes the oldest step report (R106). -/
def execEpochStepReport (s : State) : Host.Outcome State Fault Refusal :=
  match s.flight.toEpoch with
  | [] => .next s
  | (_, new) :: rest => .next (takeEpochStep new (s.setFlight { s.flight with toEpoch := rest }))

end Sys2Proof.Machine
end

