-- ==== Sys2Proof/Machine/PartConfig.lean ====
section
/-! DEFINITION. PART-CONFIG (R23): the ranges of the settings of every block and the effects of a change. -/

namespace Sys2Proof.Machine

/-- Every named value lies in its range (R23, R58, R78, R164, R180). -/
def settingsInRange (c : PartSettings) : Bool :=
  optWithin 10000 nsPerSec c.stepThreshold && optWithin 50 100000 c.lockWindow && optWithin 1 500 c.maxSlew &&
  optWithin 60000000000 259200000000000 c.holdLimit && optWithin 60000000000 3600000000000 c.holdStep &&
  optWithin 250000000 8000000000 c.echoInterval && optWithin 1000000 10000000 c.replyWait &&
  optWithin 100 1000000 c.outlierLimit && optWithin 0 15 c.refClass && optWithin 0 4294967295 c.refAccuracy &&
  optWithin nsPerSec 600000000000 c.lease && optWithin 0 (end48 - 1) c.partIdentity &&
  optWithin 0 (end48 - 1) c.stationA && optWithin 0 (end48 - 1) c.stationB

/-- The reply wait that would stand does not exceed the ask spacing that would stand (R58). -/
def echoFits (c : PartSettings) (e : EchoSettings) : Bool :=
  decide (64 * c.replyWait.getD e.wait ≤ c.echoInterval.getD e.interval)

/-- The settings of R23 after the request. -/
def timescaleSettings (c : PartSettings) (t : TimescaleSettings) : TimescaleSettings where
  stepThreshold := c.stepThreshold.getD t.stepThreshold
  stepEnable := c.stepEnable.getD t.stepEnable
  lockWindow := c.lockWindow.getD t.lockWindow
  maxSlew := c.maxSlew.getD t.maxSlew
  holdLimit := c.holdLimit.getD t.holdLimit
  holdStep := c.holdStep.getD t.holdStep

/-- The settings of R78 after the request. -/
def sourceSettings (c : PartSettings) (t : SourceSettings) : SourceSettings where
  preference := c.preference.getD t.preference
  refMode := c.refMode.getD t.refMode
  refClass := c.refClass.getD t.refClass
  refAccuracy := c.refAccuracy.getD t.refAccuracy

/-- Every named setting takes its value (R23). -/
def writeSettings (c : PartSettings) (s : State) : State :=
  { s with
    ts := { s.ts with settings := timescaleSettings c s.ts.settings }
    echo := ⟨c.echoInterval.getD s.echo.interval, c.replyWait.getD s.echo.wait, c.outlierLimit.getD s.echo.outlier⟩
    src := { s.src with settings := sourceSettings c s.src.settings }
    cli := { s.cli with autoAdmit := c.autoAdmit.getD s.cli.autoAdmit }
    arbiter := { s.arbiter with lease := c.lease.getD s.arbiter.lease }
    wire := ⟨c.partIdentity.getD s.wire.part, ⟨c.stationA.getD s.wire.station.a, c.stationB.getD s.wire.station.b⟩⟩ }

/-- Entry 8 after a change of the settings from `old` (R78, R81). -/
def referenceAfter (old new : SourceSettings) (el : Nat) : Option SourcePath → Option SourcePath
  | none => if new.refMode then some (newReference new el) else none
  | some p =>
    if new.refMode = false then none
    else
      let p1 := { p with cls := new.refClass, accuracy := new.refAccuracy }
      if new.refClass = old.refClass then some p1 else some (p1.refTested el)

/-- The effects of a change at the source table: mode and class bring about a choice, the others none (R78, R83). -/
def sourceEffects (old : SourceSettings) (s : State) : State :=
  let new := s.src.settings
  let s1 := s.setPath 8 (referenceAfter old new s.ts.el (s.path 8))
  if new.refMode = old.refMode ∧ new.refClass = old.refClass then s1 else reportClass 8 (reexamine .first s1)

/-- PART-CONFIG (R23): whole or not at all; the timescale's effects come first (log entry 28). -/
def takePartConfig (c : PartSettings) (s : State) : Answer :=
  if settingsInRange c && echoFits c s.echo then
    accept .empty (sourceEffects s.src.settings (overHoldover (gradeHoldover (writeSettings c s))))
  else refuse .range s

def execPartConfig (ag : Agent) (o : Options) (c : PartSettings) (s : State) : Host.Outcome State Fault Refusal :=
  .next (runRequest ag ⟨o, .partConfig c⟩ (takePartConfig c) s)

end Sys2Proof.Machine
end

