-- ==== Sys2Proof/Machine/Schedule.lean ====
section
/-! DEFINITION. The schedule (chapter 7): entries, lists, acceptance, firing, steps, re-keying, and the requests SCHED-ADD,
SCHED-CANCEL, SCHED-READ and QUOTA-SET. -/

namespace Sys2Proof.Machine

/-! ## Lists (R115, R118) -/

/-- All live entries in firing order of the lists: the timescale list, then the elapsed list (R130). -/
def Schedule.entries (c : Schedule) : List Entry := c.timescale ++ c.elapsed

/-- The list a domain's entries stand in (R118). -/
def listOfDomain : Scale → ListId
  | .el => .elapsed
  | _ => .timescale

/-- The entry stands before another of its list: key, then acceptance sequence (R118). -/
def Entry.before (a b : Entry) : Bool := decide (a.key < b.key) || (a.key == b.key && decide (a.accept < b.accept))

/-- An entry takes its place in a list (R118). -/
def placeEntry (e : Entry) : List Entry → List Entry
  | [] => [e]
  | x :: l => if e.before x then e :: x :: l else x :: placeEntry e l

/-- An entry joins the list of its domain. -/
def Schedule.join (e : Entry) (c : Schedule) : Schedule :=
  match listOfDomain e.domain with
  | .timescale => { c with timescale := placeEntry e c.timescale }
  | .elapsed => { c with elapsed := placeEntry e c.elapsed }

/-- The entries for which `p` holds stay. -/
def Schedule.keep (p : Entry → Bool) (c : Schedule) : Schedule :=
  { c with timescale := c.timescale.filter p, elapsed := c.elapsed.filter p }

/-- The entry at an index leaves its list. -/
def Schedule.leave (i : Nat) (c : Schedule) : Schedule := c.keep fun e => e.handle.index != i

/-- The number of live entries an agent owns (R117). -/
def Schedule.use (c : Schedule) (ag : Agent) : Nat := c.entries.countP fun e => e.owner == ag

/-- The live entry at an index. -/
def Schedule.at (c : Schedule) (i : Nat) : Option Entry := c.entries.find? fun e => e.handle.index == i

/-! ## Keys (R119) -/

/-- The key of a due under an offset and announcement, with the shifted mark; none when it cannot be keyed (R119, R127). A UT
due of 2^48 s or more has no key, whatever its DT instant (DESIGN CHOICE, log entry 46). -/
def keyOf (off : Int) (l : Leap) (d : Scale) (due : Ticks) : Option (Ticks × Bool) :=
  match d with
  | .dt => if due < timeEnd then some (due, false) else none
  | .el => if due ≤ nsTicks Config.elMax then some (due, false) else none
  | .ut =>
    let k := toDt off l due
    if decide (due < timeEnd) && inTimeRange k.1 then some (k.1.toNat, k.2) else none

/-- The present time on the scale of a domain's list (R123). -/
def listNow (d : Scale) (t : Timescale) : Ticks :=
  match d with
  | .el => nsTicks t.el
  | _ => t.dt

/-! ## Firing (R125 … R127, R132) -/

/-- How many occurrences of a train of period `p` a firing accounts for: its own and each later one whose key lies at or
before `bound` (R127, R132). -/
def occurrences (off : Int) (l : Leap) (bound : Ticks) (p : Ticks) (e : Entry) : Nat :=
  let last : Int := if e.domain = .ut then lastUtAt off l bound else bound
  max 1 ((last - (e.due : Int)) / (p : Int) + 1).toNat

/-- The entry after a firing, none when it is freed (R127, R132). -/
def Entry.after (off : Int) (l : Leap) (bound : Ticks) (e : Entry) : Option Entry :=
  match e.train with
  | none => none
  | some t =>
    let n := occurrences off l bound t.period e
    if t.remaining ≠ 0 ∧ t.remaining ≤ n then none
    else
      match keyOf off l e.domain (e.due + n * t.period) with
      | none => none
      | some k =>
        some { e with
          due := e.due + n * t.period, key := k.1, shifted := k.2
          train := some { t with remaining := t.remaining - n, skip := min (t.skip + (n - 1)) 65535 } }

/-- The outcome of a firing (R125): `late` for a firing made by a step, a re-key or late-ok, `applied` for one made by the
application of the DELETE leap that removed the second of the key. -/
def outcomeOf (performed late applied shifted : Bool) : FireOutcome :=
  if performed = false then .suppressed
  else if applied && shifted then .shifted
  else if late then .late
  else if shifted then .shifted
  else .onTime

/-- The tag of an action; 0 for a line action (R126). -/
def Action.tag : Action → Nat
  | .alert _ t => t
  | _ => 0

/-- SCHEDULE of an ALERT action (R126). -/
def raiseAction (e : Entry) (x : FireOutcome) (s : State) : State :=
  match e.action with
  | .alert level tag => raiseSched e.owner ⟨level, tag, e.handle, x, 0⟩ s
  | _ => s

/-- SCHEDULE of the notify level, when the entry is freed by its own firing (R126). -/
def raiseNotify (e : Entry) (x : FireOutcome) (s : State) : State :=
  match e.notify with
  | some level => raiseSched e.owner ⟨level, e.action.tag, e.handle, x, 0⟩ s
  | none => s

/-- A firing (R125 … R127): action, outcome, alerts; the entry goes on past `bound` or is freed. -/
def fire (late applied : Bool) (bound : Ticks) (e : Entry) (s : State) : State :=
  let done := performAction e.owner e.action (s.setSched (s.sched.leave e.handle.index))
  let x := outcomeOf done.2 late applied e.shifted
  let s1 := raiseAction e x done.1
  match e.after s.ts.utc s.ts.leap bound with
  | some e1 => s1.setSched (s1.sched.join { e1 with last := some x })
  | none => raiseNotify e x s1

/-- The key is that of the second which the DELETE leap of the reported event removed (R135). -/
def Entry.atRemoved (removed : Option Ticks) (e : Entry) : Bool := removed == some e.key

/-- Entries fire one after another in an event of a step or re-key, which may have applied a DELETE leap (R125). -/
def fireAll (removed : Option Ticks) (bound : Ticks) (l : List Entry) (s : State) : State :=
  l.foldl (fun s e => fire true (e.atRemoved removed) bound e s) s

/-! ## Keys reached, steps, re-keys (R125, R128, R131 … R135) -/

/-- The DT before a reported step that found the entry of index `i` with its key; none for a step after which the entry took its
key, and for a change (R131, log entry 12). -/
def ScheduleMsg.dtBefore (i : Nat) : ScheduleMsg → Option Ticks
  | .step old _ _ later => if later.contains i then none else some old
  | .change _ => none

/-- DT as it bears on the key of an entry: while step reports wait, the DT before the oldest of those steps that found the entry
with its key, so that a key reached before a step may still be taken first, whichever way the step goes (R131, log entry 12). -/
def State.schedDt (s : State) (e : Entry) : Ticks :=
  (s.flight.toSchedule.findSome? (ScheduleMsg.dtBefore e.handle.index)).getD s.ts.dt

/-- The first entry of a list whose key has been reached (R119, R128). It is the head, but in the timescale list while step reports
wait: there an entry that took its key after a step may stand before one reached before the step (log entry 12). -/
def keyDue (l : ListId) (s : State) : Option Entry :=
  match l with
  | .timescale => s.sched.timescale.find? fun e => decide (e.key ≤ s.schedDt e)
  | .elapsed => s.sched.elapsed.head?.filter fun e => decide (e.key ≤ nsTicks s.ts.el)

/-- A key is reached, and its entry fires (R125, R128). -/
def keyReached (l : ListId) (s : State) : State :=
  match keyDue l s with
  | none => s
  | some e => fire false false e.key e s

/-- Entries at these indices take their keys now, after every step whose report still waits (R131, log entry 12). -/
def ScheduleMsg.keyedLater (l : List Nat) : ScheduleMsg → ScheduleMsg
  | .step old new removed later => .step old new removed (l ++ later)
  | .change removed => .change removed

/-- The steps that wait had not reached the keys that entries at these indices now take. -/
def noteKeyed (l : List Nat) (s : State) : State :=
  s.setFlight { s.flight with toSchedule := s.flight.toSchedule.map (ScheduleMsg.keyedLater l) }

/-- DT had reached the entry's key when it stood at `d`, before the step: a key taken after the step (`later`) it had not
(R131). -/
def Entry.reachedBy (d : Ticks) (later : List Nat) (e : Entry) : Bool :=
  decide (e.key ≤ d) && !later.contains e.handle.index

/-- How many firings the entries of the timescale list whose keys DT had reached at `d` have up to it: a bound for
`fireReached`. -/
def reachedFirings (d : Ticks) (later : List Nat) (s : State) : Nat :=
  (s.sched.timescale.map fun e =>
    if e.reachedBy d later then
      match e.train with
      | none => 1
      | some t => occurrences s.ts.utc s.ts.leap d t.period e
    else 0).sum

/-- The entries of the timescale list whose keys DT had reached at `d` fire ON_TIME in list order, each at its own key, at most
`n` of them. -/
def fireReached : Nat → Ticks → List Nat → State → State
  | 0, _, _, s => s
  | n + 1, d, later, s =>
    match s.sched.timescale.find? (Entry.reachedBy d later) with
    | none => s
    | some e => fireReached n d later (fire false false e.key e s)

/-- The schedule takes a step report (R131 … R133). A backward step fires nothing. At a forward one the keys that DT had
reached before the step fire first, ON_TIME (log entry 12); then the overtaken entries fire LATE, and one whose second the
step's DELETE removed SHIFTED (R125, log entry 13). -/
def takeStep (old new : Ticks) (removed : Option Ticks) (later : List Nat) (s : State) : State :=
  if old < new then
    let s1 := fireReached (reachedFirings old later s) old later s
    fireAll removed new (s1.sched.timescale.filter fun e => decide (old < e.key) && decide (e.key ≤ new)) s1
  else s

/-- An entry with the key that its due has under an offset and announcement (R134); a key below the range counts as
reached and one beyond it is never reached (log entry 38). -/
def Entry.rekeyed (off : Int) (l : Leap) (e : Entry) : Entry :=
  let k := toDt off l e.due
  { e with key := k.1.toNat, shifted := k.2 }

/-- A UT entry takes its new key and place (R134). -/
def rekeyEntry (s : State) (e : Entry) : State :=
  s.setSched ((s.sched.leave e.handle.index).join (e.rekeyed s.ts.utc s.ts.leap))

/-- The re-keyed entries whose key changed and lies at or before the present DT, in the order of the new keys (R134). -/
def rekeyedLate (t : Timescale) (l : List Entry) : List Entry :=
  ((l.filter fun e => let k := (e.rekeyed t.utc t.leap).key; decide (k ≠ e.key) && decide (k ≤ t.dt)).map
    (Entry.rekeyed t.utc t.leap)).foldr placeEntry []

/-- The indices of the entries whose keys a re-key changes (R134). -/
def rekeyedIndices (t : Timescale) (l : List Entry) : List Nat :=
  (l.filter fun e => decide ((e.rekeyed t.utc t.leap).key ≠ e.key)).map fun e => e.handle.index

/-- The shifted entries of the removed second fire SHIFTED at the application of their DELETE and move on from their key (R135,
log entry 27). -/
def fireShifted (l : List Entry) (s : State) : State := l.foldl (fun s e => fire true true e.key e s) s

/-- The schedule takes a change of offset or announcement (R134, R135). -/
def takeChange (removed : Option Ticks) (s : State) : State :=
  let ut := s.sched.timescale.filter fun e => e.domain == .ut
  let rest := ut.filter fun e => !(e.shifted && e.atRemoved removed)
  let s1 := fireShifted (ut.filter fun e => e.shifted && e.atRemoved removed) s
  fireAll none s.ts.dt (rekeyedLate s.ts rest) (noteKeyed (rekeyedIndices s.ts rest) (rest.foldl rekeyEntry s1))

/-! ## Adding an entry (R116, R118, R121 … R124) -/

/-- The present time on a domain's scale (R121); a UT outside the range is SATURATED (R2, R6), no number to add to. -/
def dueNow (d : Scale) (t : Timescale) : TimeVal :=
  match d with
  | .dt => .valid t.dt
  | .el => .valid (nsTicks t.el)
  | .ut => (exactTime (toUt t.utc t.leap t.dt).1 false).val

/-- A sum within the range, or none: both operands must be VALID (R121). -/
def sumOf (t : TimeVal) (i : IntervalField) : Option Ticks :=
  match t, intervalVal i with
  | .valid x, .valid d => if inTimeRange ((x : Int) + d) then some ((x : Int) + d).toNat else none
  | _, _ => none

/-- The due of a SCHED-ADD, none when it cannot be resolved (R121). -/
def resolveDue (c : Context) (d : Scale) (t : Timescale) : DueSpec → Option Ticks
  | .absolute f =>
    match expand c.base f with
    | .valid x => some x
    | _ => none
  | .cursorPlus i => sumOf c.cursor i
  | .nowPlus i => sumOf (dueNow d t) i

/-- A displacement that names an output (R122). -/
def outputLine (base : Nat) (disp : Int) : Option Nat := (effectiveLine base disp).filter isOutput

/-- The action with its lines resolved, none when a line or field is out of range (R122). -/
def resolveAction (base : Nat) : ActionSpec → Option Action
  | .pulse d => (outputLine base d).map .pulse
  | .set d => (outputLine base d).map .set
  | .clear d => (outputLine base d).map .clear
  | .load d c v =>
    match spanLines base d c with
    | some l => if l.all isOutput && decide (v < 65536) then some (.load (l.headD 0) l.length v) else none
    | none => none
  | .alert level tag => if 1 ≤ level ∧ level ≤ 15 ∧ tag < 65536 then some (.alert level tag) else none

/-- The period and repeat count of a SCHED-ADD: none when out of range, `some none` when the entry is one-shot (R122,
log entry 20). -/
def resolveTrain (r : AddRequest) : Option (Option Train) :=
  match r.period with
  | none => if r.repeatCount.isSome then none else some none
  | some i =>
    match intervalVal i with
    | .valid d =>
      if (655360000 : Int) ≤ d ∧ d ≤ secTicks 86400 ∧ r.repeatCount.getD 0 < 65536 then
        some (some ⟨d.toNat, r.repeatCount.getD 0, 0⟩)
      else none
    | _ => none

/-- What the RANGE row of R123 leaves of a request: due, key, shifted mark, action and train. -/
structure Resolved where
  due : Ticks
  key : Ticks
  shifted : Bool
  action : Action
  train : Option Train
deriving DecidableEq, Repr

/-- The checks of the RANGE row (R123). -/
def resolveAdd (c : Context) (r : AddRequest) (t : Timescale) : Option Resolved :=
  match resolveDue c r.domain t r.due, resolveAction c.lineBase r.action, resolveTrain r with
  | some due, some a, some tr =>
    match keyOf t.utc t.leap r.domain due with
    | some k =>
      if optWithin 1 15 r.notify && decide (k.1 ≤ listNow r.domain t + Config.schedHorizon) then some ⟨due, k.1, k.2, a, tr⟩
      else none
    | none => none
  | _, _, _ => none

/-- The lowest-numbered free index (R116). -/
def Schedule.freeIndex (c : Schedule) : Option Nat := (List.range Config.schedIndices).find? fun i => (c.at i).isNone

/-- The rank of an entry in the order of acceptance: 1 for the oldest (R118). -/
def Schedule.acceptRank (c : Schedule) (e : Entry) : Nat := c.entries.countP fun x => decide (x.accept ≤ e.accept)

/-- The live entries renumbered 1 … n before an acceptance that finds the counter at its end (R118). -/
def Schedule.renumbered (c : Schedule) : Schedule :=
  if c.counter < Config.counterMax then c
  else
    { c with
      timescale := c.timescale.map fun e => { e with accept := c.acceptRank e }
      elapsed := c.elapsed.map fun e => { e with accept := c.acceptRank e }
      counter := c.entries.length + 1 }

/-- The entry that an acceptance makes at index `i` (R116, R118, R124). -/
def newEntry (ag : Agent) (r : AddRequest) (x : Resolved) (i : Nat) (c : Schedule) : Entry where
  handle := ⟨i, (c.generations.getD i 0 + 1) % 256⟩
  owner := ag
  domain := r.domain
  due := x.due
  key := x.key
  shifted := x.shifted
  action := x.action
  train := x.train
  notify := r.notify
  last := none
  accept := c.counter

/-- The schedule with an entry accepted (R116, R118, R124). -/
def Schedule.accepted (e : Entry) (c : Schedule) : Schedule :=
  let c1 := c.join e
  { c1 with generations := c1.generations.set e.handle.index e.handle.generation, counter := c1.counter + 1 }

/-- The acceptance of an entry, with the firing of late-ok (R124): the key itself and the later keys at or before the present
time are overtaken, so a train goes on past the later of the two (R127, R128). The spec does not say whether the due and key
returned for a train that late-ok has fired are those accepted or those after the firing: the model returns those accepted, as it
writes the accepted key to the cursor (DESIGN CHOICE, log entry 50). -/
def acceptEntry (ag : Agent) (o : Options) (e : Entry) (s : State) : Answer :=
  let s1 := noteKeyed [e.handle.index] (s.setSched (s.sched.renumbered.accepted e))
  let s2 := if o.update then s1.setCtx ag { s1.ctx ag with cursor := .valid e.key } else s1
  let now := listNow e.domain s.ts
  let s3 := if e.key < now + Config.schedLead then fire true false (max now e.key) e s2 else s2
  accept (.added e.handle e.domain e.due e.key) s3

/-- SCHED-ADD: the checks of R123 in their order. -/
def addEntry (ag : Agent) (o : Options) (r : AddRequest) (s : State) : Answer :=
  let c := s.ctx ag
  if o.condition.isSome ∧ o.condition ≠ some c.compare then refuse .condition s
  else if r.domain ≠ .el ∧ s.ts.timeSet = false then refuse .state s
  else
    match resolveAdd c r s.ts with
    | none => refuse .range s
    | some x =>
      if x.action.lines.all (ownsLine ag s) = false then refuse .lineOwner s
      else if s.sched.quotas.get ag ≤ s.sched.use ag then refuse .full s
      else if x.key < listNow r.domain s.ts + Config.schedLead ∧ o.lateOk = false then refuse .tooLate s
      else
        match s.sched.freeIndex with
        | none => refuse .full s
        | some i => acceptEntry ag o (newEntry ag r x i s.sched.renumbered) s

/-- The arbiter has served the agent (R120). -/
def served (ag : Agent) (s : State) : State := s.setSched { s.sched with lastServed := ag }

/-- SCHED-ADD (R121 … R124). -/
def takeSchedAdd (ag : Agent) (o : Options) (r : AddRequest) (s : State) : Answer := addEntry ag o r (served ag s)

/-! ## Cancelling and reading (R116, R129, R130) -/

/-- The entry a handle of the requester names, or the refusal (R116). -/
def namedEntry (ag : Agent) (h : Handle) (c : Schedule) : Except Status Entry :=
  if Config.schedIndices ≤ h.index then .error .range
  else
    match c.at h.index with
    | none => .error .noEntry
    | some e => if e.handle.generation = h.generation ∧ e.owner = ag then .ok e else .error .noEntry

/-- SCHED-CANCEL (R129). -/
def takeSchedCancel (ag : Agent) (h : Handle) (s : State) : Answer :=
  let s1 := served ag s
  match namedEntry ag h s1.sched with
  | .error st => refuse st s1
  | .ok e =>
    accept (.cancelled e.last (e.train.map fun t => (t.skip, t.remaining))) (s1.setSched (s1.sched.leave e.handle.index))

/-- SCHED-READ (R130). -/
def takeSchedRead (ag : Agent) (h : Option Handle) (s : State) : Answer :=
  let s1 := served ag s
  match h with
  | none =>
    accept
      (.entries (s1.sched.use ag) (s1.sched.quotas.get ag)
        ((s1.sched.entries.filter fun e => e.owner == ag).map fun e => (e.handle, e.domain, e.key))) s1
  | some x =>
    match namedEntry ag x s1.sched with
    | .error st => refuse st s1
    | .ok e => accept (.entry e) s1

/-- Quotas and uses as a QUOTA-SET returns them (R117). -/
def quotaBody (c : Schedule) : Body := .quotas c.quotas ⟨c.use .agent0, c.use .agent1, c.use .agent2⟩

/-- QUOTA-SET (R117): its body stands for RANGE too. -/
def takeQuotaSet (ag : Agent) (q0 q1 q2 : Nat) (s : State) : Answer :=
  let s1 := served ag s
  let c := s1.sched
  if 64 < q0 + q1 + q2 ∨ q0 < c.use .agent0 ∨ q1 < c.use .agent1 ∨ q2 < c.use .agent2 then ⟨s1, .range, quotaBody c⟩
  else
    let c1 := { c with quotas := ⟨q0, q1, q2⟩ }
    accept (quotaBody c1) (s1.setSched c1)

/-- The schedule takes its part of an agent reset (R137). -/
def schedAgentReset (ag : Agent) (s : State) : State :=
  if s.flight.schedResets.contains ag then
    (s.setFlight { s.flight with schedResets := s.flight.schedResets.erase ag }).setSched
      (s.sched.keep fun e => e.owner != ag)
  else s

/-! ## The commands -/

def execQuotaSet (ag : Agent) (o : Options) (q0 q1 q2 : Nat) (s : State) : Host.Outcome State Fault Refusal :=
  .next (runRequest ag ⟨o, .quotaSet q0 q1 q2⟩ (takeQuotaSet ag q0 q1 q2) s)

def execSchedAdd (ag : Agent) (o : Options) (r : AddRequest) (s : State) : Host.Outcome State Fault Refusal :=
  .next (runRequest ag ⟨o, .schedAdd r⟩ (takeSchedAdd ag o r) s)

def execSchedCancel (ag : Agent) (o : Options) (h : Handle) (s : State) : Host.Outcome State Fault Refusal :=
  .next (runRequest ag ⟨o, .schedCancel h⟩ (takeSchedCancel ag h) s)

def execSchedRead (ag : Agent) (o : Options) (h : Option Handle) (s : State) : Host.Outcome State Fault Refusal :=
  .next (runRequest ag ⟨o, .schedRead h⟩ (takeSchedRead ag h) s)

/-- The schedule takes its part of an agent reset (R137). -/
def execSchedAgentReset (ag : Agent) (s : State) : Host.Outcome State Fault Refusal := .next (schedAgentReset ag s)

/-- The schedule takes the oldest report of the timescale unit, if it is a step (R131). -/
def execStepReport (s : State) : Host.Outcome State Fault Refusal :=
  match s.flight.toSchedule with
  | .step old new removed later :: rest =>
    .next (takeStep old new removed later (s.setFlight { s.flight with toSchedule := rest }))
  | _ => .next s

/-- The schedule takes the oldest report of the timescale unit, if it is a change of offset or announcement (R134). -/
def execRekey (s : State) : Host.Outcome State Fault Refusal :=
  match s.flight.toSchedule with
  | .change removed :: rest => .next (takeChange removed (s.setFlight { s.flight with toSchedule := rest }))
  | _ => .next s

/-- A key of a list is reached (R125, R128). -/
def execKeyReached (l : ListId) (s : State) : Host.Outcome State Fault Refusal := .next (keyReached l s)

end Sys2Proof.Machine
end

