-- ==== Sys2Proof/Machine/TimeRequests.lean ====
section
/-! DEFINITION. The requests of chapter 1: TIME-READ, TIME-CONVERT, TIME-DIFF, TIME-OFFSET (R13 … R18), FLAGS-READ and
FLAGS-CLEAR (R19, R20). -/

namespace Sys2Proof.Machine

/-- Steps 4 to 6 of R13 for a time result: flags, trap, record and update options, answer. -/
def finishTime (ag : Agent) (o : Options) (r : ShapedTime) (s : State) : Answer :=
  let c := s.ctx ag
  let e := finishContext o c r.raised (compareTimes r.full c.cursor) (some r.full)
  if e.2 then ⟨s.setCtx ag e.1, .exception, .empty⟩ else ⟨s.setCtx ag e.1, .ok, .time r.field⟩

/-- Steps 4 to 6 of R13 for an interval result: it has no place in the cursor, and its sign is recorded (R11, R17). -/
def finishInterval (ag : Agent) (o : Options) (r : ShapedInterval) (s : State) : Answer :=
  let e := finishContext o (s.ctx ag) r.raised (compareSign r.val) none
  if e.2 then ⟨s.setCtx ag e.1, .exception, .empty⟩ else ⟨s.setCtx ag e.1, .ok, .interval r.field⟩

/-- A time result shaped for the requester (R4, R7, R8). -/
def shapeFor (o : Options) (c : Context) (r : TimeResult) : ShapedTime :=
  shapeTime (effForm o c) (effRounding o c) c.base r

/-- The current time on a scale before shaping (R14), with IV while the time is unset and ST by the threshold. -/
def currentTime (t : Timescale) (threshold : Nat) (scale : Scale) : TimeResult :=
  let st := decide (threshold < t.quality)
  match scale with
  | .el => ⟨.valid (nsTicks t.el), noFlags⟩
  | .dt => if t.timeSet then ⟨.valid t.dt, { noFlags with st := st }⟩ else ⟨.unset, { noFlags with iv := true }⟩
  | .ut =>
    if t.timeSet then
      let u := toUt t.utc t.leap t.dt
      let r := exactTime u.1 u.2
      { r with raised := { r.raised with st := st } }
    else ⟨.unset, { noFlags with iv := true }⟩

/-- TIME-READ (R14). -/
def takeTimeRead (ag : Agent) (o : Options) (scale : Scale) (s : State) : Answer :=
  finishTime ag o (shapeFor o (s.ctx ag) (currentTime s.ts (s.ctx ag).threshold scale)) s

/-- TIME-CONVERT (R16): EL is converted to no other scale, nor another to it. -/
def takeTimeConvert (ag : Agent) (o : Options) (source target : Scale) (x : Operand) (s : State) : Answer :=
  if (source = .el) ≠ (target = .el) then refuse .range s
  else
    finishTime ag o
      (shapeFor o (s.ctx ag) (convertTime s.ts.utc s.ts.leap source target (operandVal (s.ctx ag) x))) s

/-- TIME-DIFF (R17): with the update option it is refused. -/
def takeTimeDiff (ag : Agent) (o : Options) (a b : Operand) (s : State) : Answer :=
  if o.update then refuse .range s
  else
    let c := s.ctx ag
    let d := diffTimes (operandVal c a) (operandVal c b)
    finishInterval ag o (shapeInterval (effForm o c) (effRounding o c) d.1 d.2) s

/-- TIME-OFFSET (R18). -/
def takeTimeOffset (ag : Agent) (o : Options) (t : Operand) (i : IntervalField) (s : State) : Answer :=
  finishTime ag o (shapeFor o (s.ctx ag) (offsetTime (operandVal (s.ctx ag) t) (intervalVal i))) s

/-- FLAGS-READ (R19). -/
def takeFlagsRead (ag : Agent) (s : State) : Answer :=
  accept (.flagsAndTraps (s.ctx ag).flags (s.ctx ag).traps) s

/-- FLAGS-CLEAR (R20): the flags as they stood are returned, the named ones cleared. -/
def takeFlagsClear (ag : Agent) (m : Flags) (s : State) : Answer :=
  let c := s.ctx ag
  accept (.flags c.flags) (s.setCtx ag { c with flags := clearFlags c.flags m })

def execTimeRead (ag : Agent) (o : Options) (scale : Scale) (s : State) : Host.Outcome State Fault Refusal :=
  .next (runRequest ag ⟨o, .timeRead scale⟩ (takeTimeRead ag o scale) s)

def execTimeConvert (ag : Agent) (o : Options) (source target : Scale) (form : Form) (x : Operand) (s : State) :
    Host.Outcome State Fault Refusal :=
  .next (runRequest ag ⟨o, .timeConvert source target form x⟩ (takeTimeConvert ag o source target x) s)

def execTimeDiff (ag : Agent) (o : Options) (a b : Operand) (s : State) : Host.Outcome State Fault Refusal :=
  .next (runRequest ag ⟨o, .timeDiff a b⟩ (takeTimeDiff ag o a b) s)

def execTimeOffset (ag : Agent) (o : Options) (t : Operand) (i : IntervalField) (s : State) :
    Host.Outcome State Fault Refusal :=
  .next (runRequest ag ⟨o, .timeOffset t i⟩ (takeTimeOffset ag o t i) s)

def execFlagsRead (ag : Agent) (o : Options) (s : State) : Host.Outcome State Fault Refusal :=
  .next (runRequest ag ⟨o, .flagsRead⟩ (takeFlagsRead ag) s)

def execFlagsClear (ag : Agent) (o : Options) (mask : Flags) (s : State) : Host.Outcome State Fault Refusal :=
  .next (runRequest ag ⟨o, .flagsClear mask⟩ (takeFlagsClear ag mask) s)

end Sys2Proof.Machine
end

