-- ==== Sys2Proof/Machine/Due.lean ====
section
/-! DEFINITION. The part's own events that are due in a state, in the order in which an idle step takes them (log entry 3):
messages between the blocks, alerts, requests in hand, instants reached, the transmitters. -/

namespace Sys2Proof.Machine

/-- The command of a request in hand. -/
def requestCommand (ag : Agent) (q : Submitted) : Instr :=
  let o := q.opts
  match q.req with
  | .timeRead x => .timeRead ag o x
  | .timeConvert a b f x => .timeConvert ag o a b f x
  | .timeDiff a b => .timeDiff ag o a b
  | .timeOffset t i => .timeOffset ag o t i
  | .flagsRead => .flagsRead ag o
  | .flagsClear m => .flagsClear ag o m
  | .partConfig c => .partConfig ag o c
  | .servoRead => .servoRead ag o
  | .snapshotRead => .snapshotRead ag o
  | .servoRestart => .servoRestart ag o
  | .snapshotRestore r => .snapshotRestore ag o r
  | .steerStep x => .steerStep ag o x
  | .steerSlew i r => .steerSlew ag o i r
  | .steerRate r => .steerRate ag o r
  | .steerLeap l x => .steerLeap ag o l x
  | .portEnable n => .portEnable ag o n
  | .portDisable n => .portDisable ag o n
  | .portRead n => .portRead ag o n
  | .sourceBar e r => .sourceBar ag o e r
  | .sourceUnbar e => .sourceUnbar ag o e
  | .sourceRead e => .sourceRead ag o e
  | .refLabel x off l => .refLabel ag o x off l
  | .clientAdd i => .clientAdd ag o i
  | .clientRemove i => .clientRemove ag o i
  | .clientRead i => .clientRead ag o i
  | .epochConfig k => .epochConfig ag o k
  | .epochRead => .epochRead ag o
  | .quotaSet a b c => .quotaSet ag o a b c
  | .schedAdd r => .schedAdd ag o r
  | .schedCancel h => .schedCancel ag o h
  | .schedRead h => .schedRead ag o h
  | .lineSet d => .lineSet ag o d
  | .lineClear d => .lineClear ag o d
  | .lineLoad d c v => .lineLoad ag o d c v
  | .lineTest d => .lineTest ag o d
  | .lineStore d c => .lineStore ag o d c
  | .lineOwn d x => .lineOwn ag o d x
  | .lineConfig d c => .lineConfig ag o d c
  | .captureRead => .captureRead ag o
  | .captureRelease n => .captureRelease ag o n
  | .contextSet c => .contextSet ag o c
  | .contextRead => .contextRead ag o
  | .grantClaim => .grantClaim ag o
  | .grantRenew => .grantRenew ag o
  | .grantRelease => .grantRelease ag o
  | .agentReset => .agentReset ag o
  | .partReset => .partReset ag o
  | .alertRead => .alertRead ag o
  | .alertReturn n => .alertReturn ag o n
  | .alertMask m => .alertMask ag o m

/-- A command when a condition holds. -/
def dueIf (b : Bool) (i : Instr) : List Instr := if b then [i] else []

def netsAll : List Net := [.netA, .netB]

/-- Messages on their way to the source table, the client table, the timescale unit, the schedule, the epoch unit and the
grant arbiter. -/
def dueMessages (f : InFlight) : List Instr :=
  dueIf (!f.origins.isEmpty) .originTaken ++ dueIf (!f.sourceSamples.isEmpty) .sourceSample ++
  dueIf (!f.sourceMisses.isEmpty) .sourceMiss ++ dueIf (!f.refEdges.isEmpty) .refEdge ++
  (match f.toTimescale with
    | .offset .. :: _ => [.measurement]
    | .pair .. :: _ => [.utcPairAdopt]
    | [] => []) ++
  (match f.toSchedule with
    | .step .. :: _ => [.stepReport]
    | .change .. :: _ => [.rekey]
    | [] => []) ++
  dueIf (!f.toEpoch.isEmpty) .epochStepReport ++ dueIf (!f.registers.isEmpty) .registerTaken ++
  dueIf (!f.clientSamples.isEmpty) .clientSample ++ dueIf (!f.clientMisses.isEmpty) .clientMiss ++
  dueIf (!f.renewals.isEmpty) .renewalReport ++ f.schedResets.map .schedAgentReset ++ f.lineResets.map .lineAgentReset ++
  f.grantResets.map .grantAgentReset ++ f.slewResets.map .slewNotifyReset

/-- Raises on their way to an agent unit, and a delivery there. -/
def dueAlerts (s : State) (ag : Agent) : List Instr :=
  (s.flight.raises.get ag).map (fun r => .alertRaise ag r.kind) ++
  dueIf (!(s.flight.schedRaises.get ag).isEmpty) (.scheduleAlertRaise ag) ++
  dueIf (s.unit ag).chosen.isSome (.alertDelivery ag)

/-- The request in hand at a port, when its block takes it next. -/
def dueRequest (s : State) (ag : Agent) : List Instr :=
  match (s.unit ag).link with
  | .busy q => dueIf (s.inHand ag q) (requestCommand ag q)
  | _ => []

/-- Instants of the timescale unit, the epoch unit, the schedule and the grant arbiter that have been reached. -/
def dueInstants (s : State) : List Instr :=
  dueIf (leapDue s.ts.utc s.ts.leap s.ts.dt) .leapApply ++ dueIf (epochDue s) .epochInstant ++
  dueIf (keyDue .timescale s).isSome (.keyReached .timescale) ++ dueIf (keyDue .elapsed s).isSome (.keyReached .elapsed) ++
  dueIf (slewDone s.ts) .slewComplete ++ dueIf (holdoverOver s.ts) .holdoverExpiry ++
  dueIf (decide (s.ts.servo = .holdover) && decide (s.ts.quality ≠ gradeOf s.ts none)) .holdoverGrade ++
  dueIf (saveDue s.ts) .snapshotSave ++ dueIf (grantDue s) .grantExpiry

/-- Deadline of entry `i` of the source table reached. -/
def deadlineDue (s : State) (i : Nat) : Bool :=
  match s.path i with
  | none => false
  | some p => p.state.live && p.deadline.any (fun d => decide (d ≤ s.ts.el))

/-- Timers of the tables and of the line unit that have run out. -/
def dueTimers (s : State) : List Instr :=
  (List.range Config.outputCount).flatMap (fun i => dueIf (pulseDue i s) (.pulseEnd i)) ++
  (List.range 8).flatMap (fun i => dueIf (deadlineDue s i) (.staleDeadline i)) ++
  dueIf (deadlineDue s 8) .refDeadline ++
  (List.range 8).flatMap (fun i => dueIf (removalDue i s) (.staleRemoval i)) ++
  (List.range Config.clientSlots).flatMap (fun i => dueIf (lapseDue i s) (.lapseTimer i))

/-- Reply waits, ask slots and the transmitter of a port. -/
def duePort (s : State) (n : Net) : List Instr :=
  let p := s.port n
  ((p.asks.filter fun a => a.expired a.seq s.ts.el).map fun a => .replyWaitExpiry n a.seq) ++
  dueIf (slotDue n s) (.echoSlot n) ++
  match p.tx with
  | none => []
  | some t => if t.egress.isSome then [.transmitEnd n] else [.frameDeparts n]

/-- The events that are due, in the order in which they are taken. -/
def dueEvents (s : State) : List Instr :=
  dueMessages s.flight ++ agentList.flatMap (dueAlerts s) ++ agentList.flatMap (dueRequest s) ++ dueInstants s ++
    dueTimers s ++ netsAll.flatMap (duePort s)

end Sys2Proof.Machine
end

