-- ==== Sys2Proof/Machine/Dispatch.lean ====
section
/-! DEFINITION. The meaning of every command: one arm per constructor of Instr. -/

namespace Sys2Proof.Machine

def exec (i : Instr) (s : State) : Host.Outcome State Fault Refusal :=
  match i with
  | .timeRead ag o scale => Sys2Proof.Machine.execTimeRead ag o scale s
  | .timeConvert ag o source target form x => Sys2Proof.Machine.execTimeConvert ag o source target form x s
  | .timeDiff ag o a b => Sys2Proof.Machine.execTimeDiff ag o a b s
  | .timeOffset ag o t d => Sys2Proof.Machine.execTimeOffset ag o t d s
  | .flagsRead ag o => Sys2Proof.Machine.execFlagsRead ag o s
  | .flagsClear ag o mask => Sys2Proof.Machine.execFlagsClear ag o mask s
  | .partConfig ag o c => Sys2Proof.Machine.execPartConfig ag o c s
  | .servoRead ag o => Sys2Proof.Machine.execServoRead ag o s
  | .snapshotRead ag o => Sys2Proof.Machine.execSnapshotRead ag o s
  | .servoRestart ag o => Sys2Proof.Machine.execServoRestart ag o s
  | .snapshotRestore ag o r => Sys2Proof.Machine.execSnapshotRestore ag o r s
  | .steerStep ag o x => Sys2Proof.Machine.execSteerStep ag o x s
  | .steerSlew ag o d rate => Sys2Proof.Machine.execSteerSlew ag o d rate s
  | .steerRate ag o rate => Sys2Proof.Machine.execSteerRate ag o rate s
  | .steerLeap ag o leap offset => Sys2Proof.Machine.execSteerLeap ag o leap offset s
  | .portEnable ag o n => Sys2Proof.Machine.execPortEnable ag o n s
  | .portDisable ag o n => Sys2Proof.Machine.execPortDisable ag o n s
  | .portRead ag o n => Sys2Proof.Machine.execPortRead ag o n s
  | .sourceBar ag o entry reason => Sys2Proof.Machine.execSourceBar ag o entry reason s
  | .sourceUnbar ag o entry => Sys2Proof.Machine.execSourceUnbar ag o entry s
  | .sourceRead ag o entry => Sys2Proof.Machine.execSourceRead ag o entry s
  | .refLabel ag o label offset leap => Sys2Proof.Machine.execRefLabel ag o label offset leap s
  | .clientAdd ag o identity => Sys2Proof.Machine.execClientAdd ag o identity s
  | .clientRemove ag o slot => Sys2Proof.Machine.execClientRemove ag o slot s
  | .clientRead ag o slot => Sys2Proof.Machine.execClientRead ag o slot s
  | .epochConfig ag o k => Sys2Proof.Machine.execEpochConfig ag o k s
  | .epochRead ag o => Sys2Proof.Machine.execEpochRead ag o s
  | .quotaSet ag o q0 q1 q2 => Sys2Proof.Machine.execQuotaSet ag o q0 q1 q2 s
  | .schedAdd ag o r => Sys2Proof.Machine.execSchedAdd ag o r s
  | .schedCancel ag o h => Sys2Proof.Machine.execSchedCancel ag o h s
  | .schedRead ag o h => Sys2Proof.Machine.execSchedRead ag o h s
  | .lineSet ag o disp => Sys2Proof.Machine.execLineSet ag o disp s
  | .lineClear ag o disp => Sys2Proof.Machine.execLineClear ag o disp s
  | .lineLoad ag o disp count value => Sys2Proof.Machine.execLineLoad ag o disp count value s
  | .lineTest ag o disp => Sys2Proof.Machine.execLineTest ag o disp s
  | .lineStore ag o disp count => Sys2Proof.Machine.execLineStore ag o disp count s
  | .lineOwn ag o disp owner => Sys2Proof.Machine.execLineOwn ag o disp owner s
  | .lineConfig ag o disp c => Sys2Proof.Machine.execLineConfig ag o disp c s
  | .captureRead ag o => Sys2Proof.Machine.execCaptureRead ag o s
  | .captureRelease ag o n => Sys2Proof.Machine.execCaptureRelease ag o n s
  | .contextSet ag o c => Sys2Proof.Machine.execContextSet ag o c s
  | .contextRead ag o => Sys2Proof.Machine.execContextRead ag o s
  | .grantClaim ag o => Sys2Proof.Machine.execGrantClaim ag o s
  | .grantRenew ag o => Sys2Proof.Machine.execGrantRenew ag o s
  | .grantRelease ag o => Sys2Proof.Machine.execGrantRelease ag o s
  | .agentReset ag o => Sys2Proof.Machine.execAgentReset ag o s
  | .partReset ag o => Sys2Proof.Machine.execPartReset ag o s
  | .alertRead ag o => Sys2Proof.Machine.execAlertRead ag o s
  | .alertReturn ag o n => Sys2Proof.Machine.execAlertReturn ag o n s
  | .alertMask ag o mask => Sys2Proof.Machine.execAlertMask ag o mask s
  | .submitWindow ag x => Sys2Proof.Machine.execSubmitWindow ag x s
  | .collectWindow ag x => Sys2Proof.Machine.execCollectWindow ag x s
  | .otherWindow ag direction x => Sys2Proof.Machine.execOtherWindow ag direction x s
  | .agentResetInput ag => Sys2Proof.Machine.execAgentResetInput ag s
  | .resetInput => Sys2Proof.Machine.execResetInput s
  | .powerOn => Sys2Proof.Machine.execPowerOn s
  | .schedAgentReset ag => Sys2Proof.Machine.execSchedAgentReset ag s
  | .lineAgentReset ag => Sys2Proof.Machine.execLineAgentReset ag s
  | .grantAgentReset ag => Sys2Proof.Machine.execGrantAgentReset ag s
  | .slewNotifyReset ag => Sys2Proof.Machine.execSlewNotifyReset ag s
  | .linkUp n => Sys2Proof.Machine.execLinkUp n s
  | .linkDown n => Sys2Proof.Machine.execLinkDown n s
  | .frameArrival n f => Sys2Proof.Machine.execFrameArrival n f s
  | .transmitEnd n => Sys2Proof.Machine.execTransmitEnd n s
  | .frameDeparts n => Sys2Proof.Machine.execFrameDeparts n s
  | .echoSlot n => Sys2Proof.Machine.execEchoSlot n s
  | .replyWaitExpiry n seq => Sys2Proof.Machine.execReplyWaitExpiry n seq s
  | .originTaken => Sys2Proof.Machine.execOriginTaken s
  | .sourceSample => Sys2Proof.Machine.execSourceSample s
  | .sourceMiss => Sys2Proof.Machine.execSourceMiss s
  | .staleDeadline entry => Sys2Proof.Machine.execStaleDeadline entry s
  | .refDeadline => Sys2Proof.Machine.execRefDeadline s
  | .staleRemoval entry => Sys2Proof.Machine.execStaleRemoval entry s
  | .refEdge => Sys2Proof.Machine.execRefEdge s
  | .measurement => Sys2Proof.Machine.execMeasurement s
  | .utcPairAdopt => Sys2Proof.Machine.execUtcPairAdopt s
  | .slewComplete => Sys2Proof.Machine.execSlewComplete s
  | .leapApply => Sys2Proof.Machine.execLeapApply s
  | .holdoverGrade => Sys2Proof.Machine.execHoldoverGrade s
  | .holdoverExpiry => Sys2Proof.Machine.execHoldoverExpiry s
  | .snapshotSave => Sys2Proof.Machine.execSnapshotSave s
  | .registerTaken => Sys2Proof.Machine.execRegisterTaken s
  | .clientSample => Sys2Proof.Machine.execClientSample s
  | .clientMiss => Sys2Proof.Machine.execClientMiss s
  | .lapseTimer slot => Sys2Proof.Machine.execLapseTimer slot s
  | .epochInstant => Sys2Proof.Machine.execEpochInstant s
  | .epochStepReport => Sys2Proof.Machine.execEpochStepReport s
  | .stepReport => Sys2Proof.Machine.execStepReport s
  | .rekey => Sys2Proof.Machine.execRekey s
  | .keyReached l => Sys2Proof.Machine.execKeyReached l s
  | .pulseEnd line => Sys2Proof.Machine.execPulseEnd line s
  | .inputEdge k e => Sys2Proof.Machine.execInputEdge k e s
  | .grantExpiry => Sys2Proof.Machine.execGrantExpiry s
  | .renewalReport => Sys2Proof.Machine.execRenewalReport s
  | .alertRaise ag kind => Sys2Proof.Machine.execAlertRaise ag kind s
  | .scheduleAlertRaise ag => Sys2Proof.Machine.execScheduleAlertRaise ag s
  | .alertDelivery ag => Sys2Proof.Machine.execAlertDelivery ag s
  | .resetInputRelease => Sys2Proof.Machine.execResetInputRelease s
  | .agentResetInputRelease ag => Sys2Proof.Machine.execAgentResetInputRelease ag s

end Sys2Proof.Machine
end

