-- ==== Sys2Proof/Safety.lean ====
section
/-! DEFINITION. The predicates that the statements speak of: when a request is taken at once, what a state must satisfy in
every step (the selection and the servo agree, the schedule is in order, the queues keep their room), and what a command
leaves as it was. -/

namespace Sys2Proof.Machine

/-! ## When a request is taken -/

/-- The request waits in hand at the agent's port. -/
def State.holdsRequest (s : State) (ag : Agent) (q : Submitted) : Bool := (s.unit ag).link == .busy q

/-- No request is in hand at the agent's port. -/
def State.portFree (s : State) (ag : Agent) : Bool :=
  match (s.unit ag).link with
  | .busy _ => false
  | _ => true

/-- A frame with the request is taken at the agent's port and passes the checks of encoding, rank and grant (R157, R160,
R182). -/
def State.acceptsRequest (s : State) (ag : Agent) (q : Submitted) : Bool :=
  s.takesFrames ag && s.portFree ag && q.encodingOk (s.ctx ag) && (!q.req.rankZero || ag == .agent0) &&
    (!q.req.needsGrant || s.holdsGrant ag)

/-- The port with the request in hand. -/
def State.withRequest (s : State) (ag : Agent) (q : Submitted) : State := s.setUnit ag { s.unit ag with link := .busy q }

/-- The request is in hand or accepted, and its block takes it next: a request of the schedule has its turn (R120). -/
def State.takesNow (s : State) (ag : Agent) (q : Submitted) : Bool :=
  (s.holdsRequest ag q || s.acceptsRequest ag q) && (!q.req.atArbiter || (s.withRequest ag q).arbiterChoice == some ag)

/-! ## What every step keeps -/

/-- The servo is in ACQUIRE or LOCKED (R24). -/
def ServoState.follows : ServoState → Bool
  | .acquire | .locked => true
  | _ => false

/-- Selection and servo agree: a path is SELECTED exactly when its entry is the selected entry (R68), the selected entry is
present, the servo is in ACQUIRE or LOCKED exactly when an entry is selected (R24), selection is suspended exactly in FAULT
(R85), and entry 8 is present exactly while reference mode is on (R67). -/
structure SelectionAgrees (s : State) : Prop where
  size : s.src.entries.length = Config.sourceEntries
  selected : ∀ i p, s.path i = some p → (p.state = .selected ↔ s.src.selected = some i)
  present : ∀ i, s.src.selected = some i → (s.path i).isSome = true
  servo : s.ts.servo.follows = s.src.selected.isSome
  suspended : s.src.suspended = decide (s.ts.servo = .fault)
  reference : (s.path 8).isSome = s.src.settings.refMode

/-- The entry `a` may stand before the entry `b` in a list (R118). -/
def Entry.notAfter (a b : Entry) : Prop := b.before a = false

/-- The schedule is in order (R117, R118): each list ordered by key and acceptance sequence and holding the entries of its
own domains, no two live entries of one index, every index in range and every period positive (R115), no agent over its
quota, and the quotas summing to at most 64. -/
structure ScheduleInOrder (c : Schedule) : Prop where
  timescale : c.timescale.Pairwise Entry.notAfter
  elapsed : c.elapsed.Pairwise Entry.notAfter
  timescaleDomain : ∀ e ∈ c.timescale, e.domain ≠ .el
  elapsedDomain : ∀ e ∈ c.elapsed, e.domain = .el
  indices : c.entries.Pairwise fun a b => a.handle.index ≠ b.handle.index
  range : ∀ e ∈ c.entries, e.handle.index < Config.schedIndices
  periods : ∀ e ∈ c.entries, ∀ t, e.train = some t → 0 < t.period
  use : ∀ ag, c.use ag ≤ c.quotas.get ag
  quotas : c.quotas.a0 + c.quotas.a1 + c.quotas.a2 ≤ 64

/-- The room of the queues is kept: at most 7 class-1 frames queued (R53), 16 capture records of an agent (R153), 8 records
in a schedule-alert FIFO (R172), and on a return stack four records of levels 1 … 15 and one of level 0 (R173). -/
structure RoomKept (s : State) : Prop where
  class1 : ∀ n, (s.port n).class1.length ≤ Config.class1Room
  captures : ∀ ag, (s.captures ag).records.length ≤ Config.captureRoom
  fifo : ∀ ag, (s.unit ag).fifo.length ≤ Config.schedFifoRoom
  urgent : ∀ ag, ((s.unit ag).stack.countP fun r => r.alert.level == 0) ≤ 1
  nested : ∀ ag, ((s.unit ag).stack.countP fun r => r.alert.level != 0) ≤ 4

/-! ## Answers -/

/-- The answer of a time request whose result is `r` (R9 … R13): the raised flags are set; if one is trap-enabled the
request ends EXCEPTION without a body, otherwise compare field and cursor follow the options and the result is returned. -/
def timeAnswered (ag : Agent) (o : Options) (r : ShapedTime) (s : State) : State :=
  let c := s.ctx ag
  if trapped c.traps r.raised then
    respond ag .exception .empty (s.setCtx ag { c with flags := raiseFlags c.flags r.raised })
  else
    respond ag .ok (.time r.field)
      (s.setCtx ag { c with
        flags := raiseFlags c.flags r.raised
        compare := if o.record then compareTimes r.full c.cursor else c.compare
        cursor := if o.update then r.full else c.cursor })

/-- The answer of a TIME-DIFF whose result is `r` (R9 … R13, R17): the sign of the result is what is recorded. -/
def intervalAnswered (ag : Agent) (o : Options) (r : ShapedInterval) (s : State) : State :=
  let c := s.ctx ag
  if trapped c.traps r.raised then
    respond ag .exception .empty (s.setCtx ag { c with flags := raiseFlags c.flags r.raised })
  else
    respond ag .ok (.interval r.field)
      (s.setCtx ag { c with
        flags := raiseFlags c.flags r.raised
        compare := if o.record then compareSign r.val else c.compare })

/-! ## Alerts and reports on their way -/

/-- The raises on their way when a block has raised `f ag` toward each agent, oldest first, after those already there. -/
def State.raisesWith (s : State) (f : Agent → List Raise) : PerAgent (List Raise) :=
  ⟨s.flight.raises.a0 ++ f .agent0, s.flight.raises.a1 ++ f .agent1, s.flight.raises.a2 ++ f .agent2⟩

/-- What the end of a slew record raises toward an agent: SLEW with its end, toward its notify-agent alone (R31). -/
def slewRaise (w : Option Slew) (e : SlewEnd) (ag : Agent) : List Raise :=
  if (w.bind Slew.notify) = some ag then [.slew e] else []

/-- The pair of UTC offset and announcement once DT has reached `d`, with the LEAP that it raises (R36). -/
def leapTaken (t : Timescale) (d : Ticks) : Int × Leap × List Raise :=
  match t.leap with
  | .none => (t.utc, .none, [])
  | .insert m =>
    if secTicks (m + t.utc + 1) ≤ (d : Int) then (addOffset t.utc 1, .none, [.leap .insert (addOffset t.utc 1)])
    else (t.utc, t.leap, [])
  | .delete m =>
    if secTicks (m - 1 + t.utc) ≤ (d : Int) then (addOffset t.utc (-1), .none, [.leap .delete (addOffset t.utc (-1))])
    else (t.utc, t.leap, [])

/-- The part after a step of DT to `new` (R30, R36): the slew record dropped, the step counted and reported to schedule and
epoch unit, a leap whose instant DT has reached applied and reported, the step before the change (log entry 51). -/
def stepped (new : Ticks) (sub : Nat) (s : State) : State :=
  let l := leapTaken s.ts new
  let applied := l.2.2 ≠ []
  let removed := if applied then removedAt s.ts.utc s.ts.leap else none
  { s with
    ts := { s.ts with
      dt := new, dtSub := sub, slew := none, stepCount := min (s.ts.stepCount + 1) 65535, utc := l.1, leap := l.2.1 }
    flight := { s.flight with
      toSchedule := s.flight.toSchedule ++ [.step s.ts.dt new removed []] ++
        (if applied then [.change removed] else [])
      toEpoch := s.flight.toEpoch ++ [(s.ts.dt, new)]
      raises := s.raisesWith fun ag => slewRaise s.ts.slew .dropped ag ++ l.2.2 } }

/-! ## What a command leaves as it was -/

/-- Only the agent's unit differs. -/
def onlyUnit (ag : Agent) (s t : State) : Prop := t = { s with units := s.units.set ag (t.unit ag) }

/-- Only the timescale record differs. -/
def onlyTimescale (s t : State) : Prop := t = { s with ts := t.ts }

/-- Only the messages between the blocks, the timescale record and the source table differ. -/
def onlySelection (s t : State) : Prop := t = { s with ts := t.ts, src := t.src, flight := t.flight }

end Sys2Proof.Machine
end

