-- ==== Sys2Proof/Certificates/Slice0/Obligations.lean ====
section
/-! DEFINITION. The statements for the provers. `takesNow` says that a request is in hand or accepted and that its turn has
come; `respond ag st b s` is s with the answer held at the port of `ag` and nothing else changed (Laws/Ops.lean, respond_eq). -/

open Sys2Proof Sys2Proof.Machine

/-! ## Steps and time -/

/-- A step takes the command at the front of the queue: it is the command's meaning on the state with the queue's rest. -/
def Obligations.StepRunsTheFrontCommand : Prop :=
  ∀ (c : Instr) (rest : List Instr) (s : State), step { s with pending := c :: rest } = exec c { s with pending := rest }

/-- On an empty queue a step takes the first of the part's own events that is due, and lets time pass when none is (the
model's choice, log entry 3). The passing of time changes the timescale record and nothing else. -/
def Obligations.IdleStepTakesADueEventOrTime : Prop :=
  (∀ s : State, s.pending = [] →
    (∀ c l, dueEvents s = c :: l → step s = exec c s) ∧ (dueEvents s = [] → step s = .next (advance s.span s))) ∧
  (∀ (n : Nat) (s : State), advance n s = { s with ts := advanceTs n s.ts })

/-- Time passes at the corrected rate (R22): with correction c, n ns of the oscillator advance DT and EL by n × (1 - c/256
10^-9) ns each, counted with their residues in units of 1/(256 · 10^15) ns (log entry 7); a slew adds its share to DT alone,
in the direction of its sign, and shrinks by as much (R31); the holdover age counts the whole seconds of EL since the entry
to HOLDOVER (R29). EL advances whatever DT does (R1); each of them holds at the end of its own range alone (the model's
choice, log entry 8). -/
def Obligations.TimeAdvancesAtTheCorrectedRate : Prop :=
  ∀ (n : Nat) (t : Timescale), -Config.rateLimit ≤ t.rate → t.rate ≤ Config.rateLimit →
    t.dtSub < Config.subPerTick → t.elSub < Config.subPerNs → (∀ w, t.slew = some w → w.ppm ≤ 500) →
    let u := advanceTs n t
    let a : Int := n * (256000000000 - t.rate)
    let used := fun w : Slew => min (a * w.ppm) (slewLeft w)
    let share : Int := match t.slew with
      | none => 0
      | some w => if w.neg then -used w else used w
    let el : Int := t.el * Config.subPerNs + t.elSub + a * 1000000
    let dt : Int := t.dt * Config.subPerTick + t.dtSub + a * 1000000 + share
    (el < (Config.elMax + 1 : Nat) * Config.subPerNs → ((u.el * Config.subPerNs + u.elSub : Nat) : Int) = el) ∧
    ((Config.elMax + 1 : Nat) * Config.subPerNs ≤ el → u.el = Config.elMax ∧ u.elSub = Config.subPerNs - 1) ∧
    (dt < timeEnd * Config.subPerTick → ((u.dt * Config.subPerTick + u.dtSub : Nat) : Int) = dt) ∧
    (timeEnd * Config.subPerTick ≤ dt → u.dt = timeEnd - 1 ∧ u.dtSub = Config.subPerTick - 1) ∧
    (t.slew = none → u.slew = none) ∧
    (∀ w, t.slew = some w → ∃ w' : Slew, u.slew = some w' ∧ (slewLeft w' : Int) = slewLeft w - used w ∧
      w'.neg = w.neg ∧ w'.ppm = w.ppm ∧ w'.notify = w.notify) ∧
    u.holdAge = (if t.servo = .holdover then min ((u.el - t.holdSince) / nsPerSec) 259200 else t.holdAge) ∧
    u = { t with dt := u.dt, dtSub := u.dtSub, el := u.el, elSub := u.elSub, slew := u.slew, holdAge := u.holdAge }

/-! ## Taking a request -/

/-- The checks of R160 at a port that takes frames: a frame that finds it BUSY with another request sets the overrun flag
and nothing else (R157); otherwise a field without a legal encoding (for an inline time also one of another form, log entry
22) is answered FORMAT, a rank-0 request of agent 1 or 2 RANK, a grant request of an agent without the grant GRANT; and a
steering request that passes them in ACQUIRE, LOCKED or FAULT is refused with STATE (R37). None of them changes anything
else. A port that is held by a reset (R168, R170), or on which a window is open (log entry 52), takes no frame, and nothing
changes.

An answer (R159, R160) is held at the port with its status and body, the overrun flag, which is thereby cleared, and the
requester's flags as they stand; nothing else changes. -/
def Obligations.RequestChecksRefuse : Prop :=
  (∀ (ag : Agent) (st : Status) (b : Body) (s : State),
    let x := s.unit ag
    respond ag st b s =
      { s with units := s.units.set ag { x with link := .ready ⟨x.overrun, x.ctx.flags, st, b⟩, overrun := false } }) ∧
  (∀ (ag : Agent) (q : Submitted) (s : State), s.takesFrames ag = false → s.holdsRequest ag q = false →
    exec (requestCommand ag q) s = .next s) ∧
  (∀ (ag : Agent) (q : Submitted) (s : State), s.takesFrames ag = true →
    (∀ q', (s.unit ag).link = .busy q' → q' ≠ q →
      exec (requestCommand ag q) s = .next (s.setUnit ag { s.unit ag with overrun := true })) ∧
    (s.portFree ag = true → q.encodingOk (s.ctx ag) = false →
      exec (requestCommand ag q) s = .next (respond ag .format .empty s)) ∧
    (s.portFree ag = true → q.encodingOk (s.ctx ag) = true → q.req.rankZero = true → ag ≠ .agent0 →
      exec (requestCommand ag q) s = .next (respond ag .rank .empty s)) ∧
    (s.portFree ag = true → q.encodingOk (s.ctx ag) = true → q.req.needsGrant = true → s.holdsGrant ag = false →
      exec (requestCommand ag q) s = .next (respond ag .grant .empty s)) ∧
    (s.takesNow ag q = true → q.req.needsGrant = true → (∀ x off l, q.req ≠ .refLabel x off l) →
      s.ts.servo = .acquire ∨ s.ts.servo = .locked ∨ s.ts.servo = .fault →
      exec (requestCommand ag q) s = .next (respond ag .state .empty s)))

/-! ## Times and flags (chapter 1) -/

/-- TIME-READ (R14) ends with the time of the named scale, shaped for the requester: EL always VALID; DT or UT UNSET with IV
while the time is unset, otherwise DT, or DT converted by R2, with ST when the quality class exceeds the threshold.

TIME-CONVERT (R16): DT to UT by R2, UT to DT by R3, the same scale unchanged, operands that are not VALID by R6; between EL
and another scale it is refused with RANGE.

TIME-OFFSET (R18) gives t + i and TIME-DIFF (R17) a - b at full precision, or by the rows of R6 for operands that are UNSET
or SATURATED, shaped for the requester; TIME-DIFF with the update option is refused with RANGE.

Operands and results (R4, R6, R7, R8): inline times and intervals at full precision, S-form times read against the seconds
base; a result outside the range is SATURATED with OV; the four rounding modes; L-form as it is, S-form rounded to the ns
with IX where that lost a fraction, SATURATED with OV where the rounding carries past the range, and WR where the upper
seconds differ from the base.

Flags, traps and compare field: raised flags are set, and FX when one goes from clear to set (R9); IV, OV, WR and ST end a
request EXCEPTION where their trap-enable is on, IX and LH have none (R10); the compare outcome of two VALID times and the
sign of a VALID interval, UNORDERED in every other case (R11). -/
def Obligations.TimeRequestsAnswer : Prop :=
  (∀ (ag : Agent) (o : Options) (sc : Scale) (s : State), s.takesNow ag ⟨o, .timeRead sc⟩ = true →
    let c := s.ctx ag
    let st := decide (c.threshold < s.ts.quality)
    (sc = .el →
      exec (.timeRead ag o sc) s = .next (timeAnswered ag o (shapeFor o c ⟨.valid (nsTicks s.ts.el), noFlags⟩) s)) ∧
    (sc ≠ .el → s.ts.timeSet = false →
      exec (.timeRead ag o sc) s = .next (timeAnswered ag o (shapeFor o c ⟨.unset, { noFlags with iv := true }⟩) s)) ∧
    (sc = .dt → s.ts.timeSet = true →
      exec (.timeRead ag o sc) s = .next (timeAnswered ag o (shapeFor o c ⟨.valid s.ts.dt, { noFlags with st := st }⟩) s)) ∧
    (sc = .ut → s.ts.timeSet = true →
      exec (.timeRead ag o sc) s =
        .next (timeAnswered ag o
          (shapeFor o c
            (let u := toUt s.ts.utc s.ts.leap s.ts.dt
             if inTimeRange u.1 then ⟨.valid u.1.toNat, { noFlags with lh := u.2, st := st }⟩
             else ⟨.saturated, { noFlags with ov := true, st := st }⟩)) s))) ∧
  (∀ (ag : Agent) (o : Options) (a b : Scale) (f : Form) (x : Operand) (s : State),
    s.takesNow ag ⟨o, .timeConvert a b f x⟩ = true →
    let c := s.ctx ag
    let answered := fun (r : TimeResult) => exec (.timeConvert ag o a b f x) s = .next (timeAnswered ag o (shapeFor o c r) s)
    ((a = .el ∧ b ≠ .el) ∨ (a ≠ .el ∧ b = .el) →
      exec (.timeConvert ag o a b f x) s = .next (respond ag .range .empty s)) ∧
    ((a = .el ↔ b = .el) → operandVal c x = .unset → answered ⟨.unset, { noFlags with iv := true }⟩) ∧
    ((a = .el ↔ b = .el) → operandVal c x = .saturated → answered ⟨.saturated, noFlags⟩) ∧
    (∀ t, operandVal c x = .valid t → a = b → answered (exactTime t false)) ∧
    (∀ t, operandVal c x = .valid t → a = .dt → b = .ut →
      answered (exactTime (toUt s.ts.utc s.ts.leap t).1 (toUt s.ts.utc s.ts.leap t).2)) ∧
    (∀ t, operandVal c x = .valid t → a = .ut → b = .dt → answered (exactTime (toDt s.ts.utc s.ts.leap t).1 false))) ∧
  ((∀ (ag : Agent) (o : Options) (x : Operand) (i : IntervalField) (s : State), s.takesNow ag ⟨o, .timeOffset x i⟩ = true →
    let t := operandVal (s.ctx ag) x
    let d := intervalVal i
    let answered := fun (r : TimeResult) =>
      exec (.timeOffset ag o x i) s = .next (timeAnswered ag o (shapeFor o (s.ctx ag) r) s)
    (∀ a b, t = .valid a → d = .valid b → answered (exactTime (a + b) false)) ∧
    (t = .unset ∨ d = .unset ∨ (t = .saturated ∧ d = .saturated) → answered ⟨.unset, { noFlags with iv := true }⟩) ∧
    (∀ a b, (t = .saturated ∧ d = .valid b) ∨ (t = .valid a ∧ d = .saturated) → answered ⟨.saturated, noFlags⟩)) ∧
  (∀ (ag : Agent) (o : Options) (x y : Operand) (s : State), s.takesNow ag ⟨o, .timeDiff x y⟩ = true →
    let c := s.ctx ag
    let t := operandVal c x
    let u := operandVal c y
    let answered := fun (v : IntervalVal) (r : Flags) =>
      exec (.timeDiff ag o x y) s = .next (intervalAnswered ag o (shapeInterval (effForm o c) (effRounding o c) v r) s)
    (o.update = false → ∀ a b, t = .valid a → u = .valid b → answered (.valid ((a : Int) - b)) noFlags) ∧
    (o.update = false → t = .unset ∨ u = .unset ∨ (t = .saturated ∧ u = .saturated) →
      answered .unset { noFlags with iv := true }) ∧
    (o.update = false → ∀ a, (t = .saturated ∧ u = .valid a) ∨ (t = .valid a ∧ u = .saturated) →
      answered .saturated noFlags) ∧
    (o.update = true → exec (.timeDiff ag o x y) s = .next (respond ag .range .empty s)))) ∧
  (∀ (c : Context) (o : Options) (base sec ns frac : Nat) (neg : Bool) (f : Form),
    let t := (sec * 1000000000 + ns) * 65536 + frac
    operandVal c .cursor = c.cursor ∧ (∀ v, operandVal c (.given v) = expand c.base v) ∧
    expand base (.long sec ns frac) = .valid t ∧
    expand base (.short sec ns) = .valid (((base * 65536 + sec) * 1000000000 + ns) * 65536) ∧
    expand base (.unset f) = .unset ∧ expand base (.saturated f) = .saturated ∧
    intervalVal (.given neg sec ns frac) = .valid (if neg then -(t : Int) else t) ∧
    intervalVal .unset = .unset ∧ intervalVal .saturated = .saturated ∧
    effForm o c = (match o.form with | some x => x | none => c.form) ∧
    effRounding o c = (match o.rounding with | some x => x | none => c.rounding)) ∧
  (∀ (t : Int) (lh : Bool),
    (0 ≤ t → t < timeEnd → exactTime t lh = ⟨.valid t.toNat, { noFlags with lh := lh }⟩) ∧
    (t < 0 ∨ timeEnd ≤ t → exactTime t lh = ⟨.saturated, { noFlags with ov := true }⟩)) ∧
  (∀ (neg : Bool) (q f : Nat), f < 65536 →
    let up := if f = 0 then q else q + 1
    let t := q * 65536 + f
    roundNs .zero neg t = q ∧ roundNs .up neg t = (if neg then q else up) ∧ roundNs .down neg t = (if neg then up else q) ∧
    (f < 32768 → roundNs .nearest neg t = q) ∧ (32768 < f → roundNs .nearest neg t = q + 1) ∧
    (f = 32768 → roundNs .nearest neg t = if q % 2 = 0 then q else q + 1)) ∧
  (∀ (f : Form) (m : Rounding) (base : Nat) (raised : Flags),
    shapeTime f m base ⟨.unset, raised⟩ = ⟨.unset f, .unset, raised⟩ ∧
    shapeTime f m base ⟨.saturated, raised⟩ = ⟨.saturated f, .saturated, raised⟩ ∧
    (∀ sec ns frac : Nat, ns < 1000000000 → frac < 65536 →
      let t := (sec * 1000000000 + ns) * 65536 + frac
      shapeTime .long m base ⟨.valid t, raised⟩ = ⟨.long sec ns frac, .valid t, raised⟩) ∧
    (∀ t : Ticks,
      let n := roundNs m false t
      (281474976710656 * 1000000000 ≤ n →
        shapeTime .short m base ⟨.valid t, raised⟩ = ⟨.saturated .short, .saturated, { raised with ov := true, lh := false }⟩) ∧
      (n < 281474976710656 * 1000000000 →
        shapeTime .short m base ⟨.valid t, raised⟩ =
          ⟨.short (n / 1000000000 % 65536) (n % 1000000000), .valid (n * 65536),
            { raised with
              ix := raised.ix || decide (t % 65536 ≠ 0), wr := raised.wr || decide (n / 1000000000 / 65536 ≠ base) }⟩))) ∧
  (∀ (f : Form) (m : Rounding) (raised : Flags),
    shapeInterval f m .unset raised = ⟨.unset, .unset, raised⟩ ∧
    shapeInterval f m .saturated raised = ⟨.saturated, .saturated, raised⟩ ∧
    (∀ (neg : Bool) (sec ns frac : Nat), ns < 1000000000 → frac < 65536 →
      let t : Int := (((sec * 1000000000 + ns) * 65536 + frac : Nat) : Int)
      (t = 0 → neg = false) →
      let d := if neg then -t else t
      shapeInterval .long m (.valid d) raised = ⟨.given neg sec ns frac, .valid d, raised⟩) ∧
    (∀ d : Int,
      let n := roundNs m (decide (d < 0)) d.natAbs
      let r : Int := if d < 0 then -((n * 65536 : Nat) : Int) else ((n * 65536 : Nat) : Int)
      (281474976710656 * 1000000000 ≤ n →
        shapeInterval .short m (.valid d) raised = ⟨.saturated, .saturated, { raised with ov := true }⟩) ∧
      (n < 281474976710656 * 1000000000 →
        shapeInterval .short m (.valid d) raised =
          ⟨.given (decide (d < 0 ∧ n ≠ 0)) (n / 1000000000) (n % 1000000000) 0, .valid r,
            { raised with ix := raised.ix || decide (d.natAbs % 65536 ≠ 0) }⟩))) ∧
  (∀ (f r : Flags) (e : Traps),
    let new := (r.iv && !f.iv) || (r.ov && !f.ov) || (r.ix && !f.ix) || (r.wr && !f.wr) || (r.lh && !f.lh) || (r.st && !f.st)
    raiseFlags f r =
      ⟨f.iv || r.iv, f.ov || r.ov, f.ix || r.ix, f.wr || r.wr, f.lh || r.lh, f.st || r.st, f.fx || new⟩ ∧
    trapped e r = ((r.iv && e.iv) || (r.ov && e.ov) || (r.wr && e.wr) || (r.st && e.st))) ∧
  (∀ (a b : Ticks),
    (a < b → compareTimes (.valid a) (.valid b) = .less) ∧ (a = b → compareTimes (.valid a) (.valid b) = .equal) ∧
    (b < a → compareTimes (.valid a) (.valid b) = .greater)) ∧
  (∀ (x y : TimeVal), (∀ a, x ≠ .valid a) ∨ (∀ b, y ≠ .valid b) → compareTimes x y = .unordered) ∧
  (∀ d : Int,
    (d < 0 → compareSign (.valid d) = .less) ∧ (d = 0 → compareSign (.valid d) = .equal) ∧
    (0 < d → compareSign (.valid d) = .greater)) ∧
  compareSign .unset = .unordered ∧ compareSign .saturated = .unordered

/-- R3 inverts R2: a DT instant converted to UT and back is itself unless LH marks it, and LH marks exactly the instants of
the inserted second, whose way back gives the first occurrence one second before. -/
def Obligations.CivilTimeIsInverted : Prop :=
  ∀ (off : Int) (l : Leap) (d : Int),
    ((toUt off l d).2 = false → (toDt off l (toUt off l d).1).1 = d) ∧
    ((toUt off l d).2 = true ↔ ∃ m, l = .insert m ∧ secTicks (m + off) ≤ d ∧ d < secTicks (m + off + 1)) ∧
    ((toUt off l d).2 = true → (toDt off l (toUt off l d).1).1 = d - secTicks 1)

/-- FLAGS-READ (R19) and FLAGS-CLEAR (R20). -/
def Obligations.FlagsRequestsAnswer : Prop :=
  (∀ (ag : Agent) (o : Options) (s : State), s.takesNow ag ⟨o, .flagsRead⟩ = true →
    exec (.flagsRead ag o) s = .next (respond ag .ok (.flagsAndTraps (s.ctx ag).flags (s.ctx ag).traps) s)) ∧
  (∀ (ag : Agent) (o : Options) (m : Flags) (s : State), s.takesNow ag ⟨o, .flagsClear m⟩ = true →
    let f := (s.ctx ag).flags
    exec (.flagsClear ag o m) s =
      .next (respond ag .ok (.flags f)
        (s.setCtx ag { s.ctx ag with
          flags := ⟨f.iv && !m.iv, f.ov && !m.ov, f.ix && !m.ix, f.wr && !m.wr, f.lh && !m.lh, f.st && !m.st,
            f.fx && !m.fx⟩ })))

/-! ## The timescale and its servo (chapter 2) -/

/-- SERVO-READ (R45) and SNAPSHOT-READ (R43) return the record and the store as they stand and change nothing. -/
def Obligations.TimescaleIsRead : Prop :=
  (∀ (ag : Agent) (o : Options) (s : State), s.takesNow ag ⟨o, .servoRead⟩ = true →
    let t := s.ts
    exec (.servoRead ag o) s = .next (respond ag .ok
      (.servo
        ⟨if t.timeSet then .valid t.dt else .unset, t.el, t.rate, t.slew, t.utc, t.leap, t.timeSet, t.rateBasis, t.servo,
          t.inWindow, t.outCount, t.clamp, t.stepCount, t.holdEntry, t.holdAge, t.quality, t.lockClass, t.snapAt, t.settings,
          s.selectedPath.map fun p => (p.identity, p.cls)⟩) s)) ∧
  (∀ (ag : Agent) (o : Options) (s : State), s.takesNow ag ⟨o, .snapshotRead⟩ = true →
    (∀ r, s.ts.store = some r → exec (.snapshotRead ag o) s = .next (respond ag .ok (.snapshot r) s)) ∧
    (s.ts.store = none → exec (.snapshotRead ag o) s = .next (respond ag .noEntry .empty s)))

/-- SERVO-RESTART in FAULT (R33): FREERUN at rate 0 with the counts at 0, the slew dropped, selection made again; a path
that is then selected moves the servo on to ACQUIRE (R24, R85), what was handed over before being void (the model's choice,
log entry 11). In another state it is refused with STATE.

SNAPSHOT-RESTORE (R44): refused with STATE outside FREERUN; a valid record gives the rate, the rate basis and the store; an
invalid one enters FAULT of cause RESTORE (R32) and ends RANGE. What else an UNSET or SATURATED DT at save carries is
disregarded and kept as zeros (R179), with the check word taken anew (log entry 39). -/
def Obligations.FaultIsLeftAndEnteredByRequest : Prop :=
  (∀ (ag : Agent) (o : Options) (s : State), s.takesNow ag ⟨o, .servoRestart⟩ = true →
    (s.ts.servo ≠ .fault → exec (.servoRestart ag o) s = .next (respond ag .state .empty s)) ∧
    (s.ts.servo = .fault → s.src.selected = none → ∃ u : State,
      exec (.servoRestart ag o) s = .next (respond ag .ok .empty u) ∧
      (bestCandidate s.src = none →
        u = { s with
          ts := { s.ts with
            servo := .freerun, rate := 0, rateBasis := false, slew := none, inWindow := 0, outCount := 0, clamp := 0
            quality := if s.ts.timeSet then 14 else 15 }
          src := { s.src with suspended := false }
          flight := { s.flight with
            raises := s.raisesWith fun b => slewRaise s.ts.slew .dropped b ++ [.servo .fault .freerun] } }) ∧
      (∀ i p, bestCandidate s.src = some (i, p) →
        u = { s with
          ts := { s.ts with
            servo := .acquire, rate := 0, rateBasis := false, slew := none, inWindow := 0, outCount := 0, clamp := 0
            snapAt := none, holdAge := 0, quality := if s.ts.timeSet then min (p.cls + 4) 14 else 15 }
          src := { s.src with
            suspended := false, selected := some i, entries := s.src.entries.set i (some { p with state := .selected }) }
          flight := { s.flight with
            toTimescale := []
            raises := s.raisesWith fun b => slewRaise s.ts.slew .dropped b ++
              [.servo .fault .freerun, .servo .freerun .acquire, .source ⟨none, some (i, p.identity), .restart⟩] } }))) ∧
  (∀ (ag : Agent) (o : Options) (r : SnapshotRecord) (s : State), s.takesNow ag ⟨o, .snapshotRestore r⟩ = true →
    let valid := r.version = 1 ∧ crc32 (snapshotBody r) = r.check ∧ -128000000 ≤ r.rate ∧ r.rate ≤ 128000000
    let zeros := { r with dtAtSave := ⟨0, r.dtAtSave.ns, 0⟩ }
    let kept := if r.dtAtSave.ns < 1000000000 then r else { zeros with check := crc32 (snapshotBody zeros) }
    (s.ts.servo ≠ .freerun → exec (.snapshotRestore ag o r) s = .next (respond ag .state .empty s)) ∧
    (s.ts.servo = .freerun → valid →
      exec (.snapshotRestore ag o r) s =
        .next (respond ag .ok .empty
          { s with ts := { s.ts with rate := r.rate, rateBasis := true, store := some kept, clamp := 0 } })) ∧
    (s.ts.servo = .freerun → s.src.selected = none → ¬valid →
      exec (.snapshotRestore ag o r) s =
        .next (respond ag .range .empty
          { s with
            ts := { s.ts with servo := .fault, slew := none, snapAt := none, quality := 15 }
            src := { s.src with suspended := true }
            flight := { s.flight with
              raises := s.raisesWith fun b => slewRaise s.ts.slew .dropped b ++ [.fault .restore] } })))

/-- An accepted STEER-STEP (R38) in FREERUN or HOLDOVER moves DT to the time it names, or by the interval, as one step of
R30, sets the time when it is absolute, recomputes the class and is reported for renewal (R37). What the residue of DT
becomes, 0 after an absolute step and unchanged after an interval, is the model's choice (log entry 7), and so is that a
step which applies a leap is reported to the schedule before the change it brings (log entry 51). -/
def Obligations.SteerStepMovesDeviceTime : Prop :=
  ∀ (ag : Agent) (o : Options) (x : StepOperand) (new : Int) (s : State), s.takesNow ag ⟨o, .steerStep x⟩ = true →
    s.ts.servo = .freerun ∨ s.ts.servo = .holdover → 0 ≤ new → new < timeEnd →
    (match x with
      | .absolute f scale => (∃ v, expand (s.ctx ag).base f = .valid v ∧
          new = (match scale with | .dt => (v : Int) | .ut => (toDt s.ts.utc s.ts.leap v).1)) ∧
        (scale = .ut → s.ts.timeSet = true)
      | .interval i => s.ts.timeSet = true ∧ ∃ d, intervalVal i = .valid d ∧ new = s.ts.dt + d) →
    let sub := match x with | .absolute _ _ => 0 | .interval _ => s.ts.dtSub
    let u := stepped new.toNat sub s
    exec (.steerStep ag o x) s =
      .next (respond ag .ok .empty
        { u with
          ts := { u.ts with
            timeSet := true
            quality := if s.ts.servo = .holdover then
              min (s.ts.holdEntry + 1 + s.ts.holdAge * nsPerSec / s.ts.settings.holdStep) 14 else 14 }
          flight := { u.flight with renewals := u.flight.renewals ++ [⟨ag, s.holdsGrant ag⟩] } })

/-- An accepted STEER-SLEW (R39) in FREERUN or HOLDOVER replaces the slew record by one of the interval, at the given rate
or the max slew rate, with the requester as notify-agent; a magnitude of zero leaves none and completes at once.

An accepted STEER-RATE (R40) sets rate correction and rate basis, and leaves counts, holdover fields and class.

An accepted STEER-LEAP (R41) applies the offset and replaces the announcement; a change of either is reported to the
schedule once (R134); no alert is raised.

The refusals of the steering requests in FREERUN and HOLDOVER (R38, R39, R41), with nothing changed; where a request falls
under a STATE and a RANGE row, the first row of its table decides (log entry 15). -/
def Obligations.SteeringSetsSlewRateAndLeap : Prop :=
  (∀ (ag : Agent) (o : Options) (i : IntervalField) (r : Option Nat) (d : Int) (s : State),
    s.takesNow ag ⟨o, .steerSlew i r⟩ = true → s.ts.servo = .freerun ∨ s.ts.servo = .holdover → s.ts.timeSet = true →
    intervalVal i = .valid d → d.natAbs ≤ ticksPerSec →
    1 ≤ r.getD s.ts.settings.maxSlew → r.getD s.ts.settings.maxSlew ≤ s.ts.settings.maxSlew →
    exec (.steerSlew ag o i r) s =
      .next (respond ag .ok .empty
        { s with
          ts := { s.ts with
            slew := if d = 0 then none
              else some ⟨decide (d < 0), d.natAbs, 0, r.getD s.ts.settings.maxSlew, some ag⟩ }
          flight := { s.flight with
            renewals := s.flight.renewals ++ [⟨ag, s.holdsGrant ag⟩]
            raises := s.raisesWith fun b =>
              slewRaise s.ts.slew .replaced b ++ (if d = 0 ∧ b = ag then [.slew .completed] else []) } })) ∧
  (∀ (ag : Agent) (o : Options) (r : Int) (s : State), s.takesNow ag ⟨o, .steerRate r⟩ = true →
    s.ts.servo = .freerun ∨ s.ts.servo = .holdover →
    (-128000000 ≤ r → r ≤ 128000000 →
      exec (.steerRate ag o r) s =
        .next (respond ag .ok .empty
          { s with
            ts := { s.ts with rate := r, rateBasis := true }
            flight := { s.flight with renewals := s.flight.renewals ++ [⟨ag, s.holdsGrant ag⟩] } })) ∧
    (r < -128000000 ∨ 128000000 < r → exec (.steerRate ag o r) s = .next (respond ag .range .empty s))) ∧
  (∀ (ag : Agent) (o : Options) (l : Leap) (off : Option Int) (s : State), s.takesNow ag ⟨o, .steerLeap l off⟩ = true →
    s.ts.servo = .freerun ∨ s.ts.servo = .holdover →
    let new := off.getD s.ts.utc
    insideInserted s.ts.utc s.ts.leap s.ts.dt = false → (l = .none ∨ s.ts.timeSet = true) → l.midnightOk = true →
    -32768 ≤ new → new ≤ 32767 → (∀ i, leapInstant new l = some i → (s.ts.dt : Int) < secTicks i) →
    exec (.steerLeap ag o l off) s =
      .next (respond ag .ok .empty
        { s with
          ts := { s.ts with utc := new, leap := l }
          flight := { s.flight with
            renewals := s.flight.renewals ++ [⟨ag, s.holdsGrant ag⟩]
            toSchedule := s.flight.toSchedule ++
              (if new = s.ts.utc ∧ l = s.ts.leap then [] else [.change none]) } })) ∧
  ((∀ (ag : Agent) (o : Options) (x : StepOperand) (s : State), s.takesNow ag ⟨o, .steerStep x⟩ = true →
    s.ts.servo = .freerun ∨ s.ts.servo = .holdover →
    let refused := fun st => exec (.steerStep ag o x) s = .next (respond ag st .empty s)
    (∀ i, x = .interval i → s.ts.timeSet = false → refused .state) ∧
    (∀ f, x = .absolute f .ut → s.ts.timeSet = false → refused .state) ∧
    (∀ i, x = .interval i → s.ts.timeSet = true → (∀ d, intervalVal i ≠ .valid d) → refused .range) ∧
    (∀ i d, x = .interval i → s.ts.timeSet = true → intervalVal i = .valid d →
      (s.ts.dt : Int) + d < 0 ∨ (timeEnd : Int) ≤ s.ts.dt + d → refused .range) ∧
    (∀ f, x = .absolute f .dt → (∀ v, expand (s.ctx ag).base f ≠ .valid v) → refused .range) ∧
    (∀ f, x = .absolute f .ut → s.ts.timeSet = true → (∀ v, expand (s.ctx ag).base f ≠ .valid v) → refused .range) ∧
    (∀ f v, x = .absolute f .ut → s.ts.timeSet = true → expand (s.ctx ag).base f = .valid v →
      (toDt s.ts.utc s.ts.leap v).1 < 0 ∨ (timeEnd : Int) ≤ (toDt s.ts.utc s.ts.leap v).1 → refused .range)) ∧
  (∀ (ag : Agent) (o : Options) (i : IntervalField) (r : Option Nat) (s : State), s.takesNow ag ⟨o, .steerSlew i r⟩ = true →
    s.ts.servo = .freerun ∨ s.ts.servo = .holdover →
    let refused := fun st => exec (.steerSlew ag o i r) s = .next (respond ag st .empty s)
    ((∀ d, intervalVal i ≠ .valid d) → refused .range) ∧
    (∀ d, intervalVal i = .valid d → ticksPerSec < d.natAbs → refused .range) ∧
    let p := r.getD s.ts.settings.maxSlew
    (∀ d, intervalVal i = .valid d → p < 1 ∨ s.ts.settings.maxSlew < p → refused .range) ∧
    (∀ d, intervalVal i = .valid d → d.natAbs ≤ ticksPerSec → 1 ≤ p → p ≤ s.ts.settings.maxSlew →
      s.ts.timeSet = false → refused .state)) ∧
  (∀ (ag : Agent) (o : Options) (l : Leap) (off : Option Int) (s : State), s.takesNow ag ⟨o, .steerLeap l off⟩ = true →
    s.ts.servo = .freerun ∨ s.ts.servo = .holdover →
    let refused := fun st => exec (.steerLeap ag o l off) s = .next (respond ag st .empty s)
    let inside := insideInserted s.ts.utc s.ts.leap s.ts.dt
    let new := off.getD s.ts.utc
    (inside = true → refused .state) ∧
    (inside = false → l ≠ .none → s.ts.timeSet = false → refused .state) ∧
    (inside = false → (l = .none ∨ s.ts.timeSet = true) → l.midnightOk = false ∨ new < -32768 ∨ 32767 < new →
      refused .range) ∧
    (inside = false → (l = .none ∨ s.ts.timeSet = true) → (∃ i, leapInstant new l = some i ∧ secTicks i ≤ (s.ts.dt : Int)) →
      refused .range)))

/-- Selection is re-examined by the table of R83 with the reports of R24 and the alerts of R84. While suspended nothing is
selected. The best CANDIDATE is selected where no path was, or where the selected one left SELECTED or was removed (entry 8,
of identity 0); one of strictly lower class takes over; without one the selection is lost. The timescale unit takes the
report, what was handed over for the former path is void (the model's choice, log entry 11), and the quality class is
recomputed by the table of R34 with the new path's class. SOURCE is the last alert raised; the other paths keep their
records, and so does the one that has left SELECTED. A new class of the path that stays selected is reported (R24, R84). -/
def Obligations.SelectionIsReexamined : Prop :=
  (∀ (fresh : SourceCause) (s : State),
    let u := reexamine fresh s
    let best := bestCandidate s.src
    let told := fun (report : State → State) (cls : Option Nat) (r : Raise) =>
      u.ts = { (report s).ts with quality := gradeOf (report s).ts cls } ∧
      u.flight = { s.flight with toTimescale := [], raises := (report s).raisesWith fun _ => [r] }
    let chosen := fun (i : Nat) (p : SourcePath) (prev : Option (Nat × Nat)) (cause : SourceCause) (report : State → State) =>
      u.src.selected = some i ∧ u.path i = some { p with state := .selected } ∧
      (∀ j, j ≠ i → s.src.selected ≠ some j → u.path j = s.path j) ∧
      told report (some p.cls) (.source ⟨prev, some (i, p.identity), cause⟩)
    let lost := fun (prev : Nat × Nat) (cause : SourceCause) =>
      u.src = { s.src with selected := none } ∧ told takeLost none (.source ⟨some prev, none, cause⟩)
    let cause := fun q : SourcePath => (match q.state with | .stale => .stale | .barred => .barred | _ => .listen : SourceCause)
    let unchanged := u = s
    (s.src.suspended = true → unchanged) ∧
    (s.src.suspended = false → s.src.selected = none → best = none → unchanged) ∧
    (∀ i p, s.src.suspended = false → s.src.selected = none → best = some (i, p) → chosen i p none fresh takeSelected) ∧
    (∀ j q, s.src.suspended = false → s.src.selected = some j → s.path j = some q → q.state = .selected →
      (∀ i p, best = some (i, p) → q.cls ≤ p.cls) → unchanged) ∧
    (∀ j q i p, s.src.suspended = false → s.src.selected = some j → s.path j = some q → q.state = .selected →
      best = some (i, p) → p.cls < q.cls →
      chosen i p (some (j, q.identity)) .better (takeMoved p.cls p.lastOffset) ∧ u.path j = some { q with state := .candidate }) ∧
    (∀ j q i p, s.src.suspended = false → s.src.selected = some j → s.path j = some q → q.state ≠ .selected →
      best = some (i, p) →
      chosen i p (some (j, q.identity)) (cause q) (takeMoved p.cls p.lastOffset) ∧ (i ≠ j → u.path j = some q)) ∧
    (∀ j q, s.src.suspended = false → s.src.selected = some j → s.path j = some q → q.state ≠ .selected → best = none →
      lost (j, q.identity) (cause q)) ∧
    (∀ j i p, s.src.suspended = false → s.src.selected = some j → s.path j = none → best = some (i, p) →
      chosen i p (some (j, 0)) .removed (takeMoved p.cls p.lastOffset)) ∧
    (∀ j, s.src.suspended = false → s.src.selected = some j → s.path j = none → best = none → lost (j, 0) .removed) ∧
    onlySelection s u) ∧
  (∀ (t : Timescale) (cls : Nat),
    (t.timeSet = false → ∀ c, gradeOf t c = 15) ∧
    (t.timeSet = true →
      (t.servo = .fault → ∀ c, gradeOf t c = 15) ∧ (t.servo = .locked → ∀ c, gradeOf t c = t.lockClass) ∧
      (t.servo = .acquire → gradeOf t (some cls) = min (cls + 4) 14) ∧
      (t.servo = .holdover → ∀ c, gradeOf t c = min (t.holdEntry + 1 + t.holdAge * nsPerSec / t.settings.holdStep) 14) ∧
      (t.servo = .freerun → ∀ c, gradeOf t c = 14))) ∧
  (∀ (i : Nat) (p : SourcePath) (s : State), s.path i = some p →
    (s.src.selected ≠ some i → reportClass i s = s) ∧
    (s.src.selected = some i →
      let t := if s.ts.servo = .locked then { s.ts with lockClass := p.cls } else s.ts
      reportClass i s = { s with ts := { t with quality := gradeOf t (some p.cls) } }))

/-- The best CANDIDATE of a table (R82): none exactly when there is no CANDIDATE; otherwise a CANDIDATE whose key is below
that of every other one, the parts in order being class, accuracy (the setting for entry 8), whether the path is off the
preferred network, identity and number, the lower better. -/
def Obligations.BestCandidateHasTheLeastKey : Prop :=
  ∀ t : SourceTable,
    (bestCandidate t = none ↔ ∀ (i : Nat) (p : SourcePath), t.entries[i]? = some (some p) → p.state ≠ .candidate) ∧
    (∀ i p, bestCandidate t = some (i, p) →
      t.entries[i]? = some (some p) ∧ p.state = .candidate ∧
      ∀ (j : Nat) (q : SourcePath), t.entries[j]? = some (some q) → q.state = .candidate → j ≠ i →
        let worse := fun (x : SourcePath) =>
          match t.settings.preference with
          | .none => 0
          | .netA => if x.net = some .netA then 0 else 1
          | .netB => if x.net = some .netB then 0 else 1
        let key := fun (k : Nat) (x : SourcePath) =>
          [x.cls, if k = 8 then t.settings.refAccuracy else x.accuracy, worse x, x.identity, k]
        key i p < key j q)

/-- The timescale unit takes the reports of selection by the table of R24: a first selection enters ACQUIRE from FREERUN and
HOLDOVER; a move restarts ACQUIRE, and keeps LOCKED, with the new class, exactly when the new path's last offset is present
and within the lock window; a loss gives HOLDOVER with rate basis and time set, otherwise FREERUN. SERVO is raised for each
change of state (R34); entering HOLDOVER drops the slew and takes the class as it stood (R29). -/
def Obligations.SelectionReportsMoveTheServo : Prop :=
  ∀ (cls : Nat) (last : Option Int) (s : State),
    let t := s.ts
    let acquired : State :=
      { s with
        ts := { t with servo := .acquire, inWindow := 0, outCount := 0, clamp := 0, snapAt := none, holdAge := 0 }
        flight := { s.flight with
          raises := s.raisesWith fun _ => if t.servo = .acquire then [] else [.servo t.servo .acquire] } }
    let within := ∃ o, last = some o ∧ o.natAbs ≤ nsTicks t.settings.lockWindow
    (t.servo = .freerun ∨ t.servo = .holdover → takeSelected s = acquired) ∧
    (t.servo = .acquire → takeMoved cls last s = acquired) ∧
    (t.servo = .locked → ¬within → takeMoved cls last s = acquired) ∧
    (t.servo = .locked → within → takeMoved cls last s = { s with ts := { t with lockClass := cls, outCount := 0 } }) ∧
    (t.servo = .acquire ∨ t.servo = .locked → t.rateBasis = true → t.timeSet = true →
      takeLost s =
        { s with
          ts := { t with
            servo := .holdover, slew := none, holdEntry := t.quality, holdAge := 0, holdSince := t.el, snapAt := none }
          flight := { s.flight with
            raises := s.raisesWith fun ag => slewRaise t.slew .dropped ag ++ [.servo t.servo .holdover] } }) ∧
    (t.servo = .acquire ∨ t.servo = .locked → t.rateBasis = false ∨ t.timeSet = false →
      takeLost s =
        { s with
          ts := { t with servo := .freerun, snapAt := none }
          flight := { s.flight with raises := s.raisesWith fun _ => [.servo t.servo .freerun] } })

/-- PART-CONFIG (R23, R58, R78, R164, R180) is taken whole: refused with RANGE, with nothing changed, exactly when a named
value is out of range or the reply wait would exceed the ask spacing. Otherwise every named setting takes its value. While
reference mode and class stay, nothing else changes but entry 8's accuracy and, in HOLDOVER, what the new step and limit
bring about at once (R23): the class recomputed, or the expiry of R29.

A change of reference mode or class by an accepted PART-CONFIG (R78, R81): turned on, entry 8 is created in LISTEN with its
3 s deadline; turned off, it is removed; a class of 14 or 15 returns a CANDIDATE or SELECTED path to LISTEN, one of 13 or
below leaves it and makes a LISTEN path with listen count 2 a candidate; STALE and BARRED paths take the class alone; then
selection is re-examined (R83) and a new class of the path that stays selected reported (R84). The effects at the timescale
unit come before those at the source table (the model's choice, log entry 28). -/
def Obligations.SettingsActAtOnce : Prop :=
  (∀ (ag : Agent) (o : Options) (c : PartSettings) (s : State), s.takesNow ag ⟨o, .partConfig c⟩ = true →
    let inRange := fun (lo hi : Nat) (x : Option Nat) => ∀ v, x = some v → lo ≤ v ∧ v ≤ hi
    let legal :=
      inRange 10000 1000000000 c.stepThreshold ∧ inRange 50 100000 c.lockWindow ∧ inRange 1 500 c.maxSlew ∧
      inRange 60000000000 259200000000000 c.holdLimit ∧ inRange 60000000000 3600000000000 c.holdStep ∧
      inRange 250000000 8000000000 c.echoInterval ∧ inRange 1000000 10000000 c.replyWait ∧
      inRange 100 1000000 c.outlierLimit ∧ inRange 0 15 c.refClass ∧ inRange 0 4294967295 c.refAccuracy ∧
      inRange 1000000000 600000000000 c.lease ∧ inRange 0 281474976710655 c.partIdentity ∧
      inRange 0 281474976710655 c.stationA ∧ inRange 0 281474976710655 c.stationB ∧
      64 * c.replyWait.getD s.echo.wait ≤ c.echoInterval.getD s.echo.interval
    let set : TimescaleSettings :=
      ⟨c.stepThreshold.getD s.ts.settings.stepThreshold, c.stepEnable.getD s.ts.settings.stepEnable,
        c.lockWindow.getD s.ts.settings.lockWindow, c.maxSlew.getD s.ts.settings.maxSlew,
        c.holdLimit.getD s.ts.settings.holdLimit, c.holdStep.getD s.ts.settings.holdStep⟩
    let src : SourceSettings :=
      ⟨c.preference.getD s.src.settings.preference, c.refMode.getD s.src.settings.refMode,
        c.refClass.getD s.src.settings.refClass, c.refAccuracy.getD s.src.settings.refAccuracy⟩
    let expired := set.holdLimit ≤ s.ts.holdAge * nsPerSec
    (¬legal → exec (.partConfig ag o c) s = .next (respond ag .range .empty s)) ∧
    (legal → ∃ u : State, exec (.partConfig ag o c) s = .next (respond ag .ok .empty u) ∧
      u = { s with
        ts := u.ts, src := u.src, flight := u.flight
        echo := ⟨c.echoInterval.getD s.echo.interval, c.replyWait.getD s.echo.wait, c.outlierLimit.getD s.echo.outlier⟩
        cli := { s.cli with autoAdmit := c.autoAdmit.getD s.cli.autoAdmit }
        arbiter := { s.arbiter with lease := c.lease.getD s.arbiter.lease }
        wire := ⟨c.partIdentity.getD s.wire.part, ⟨c.stationA.getD s.wire.station.a, c.stationB.getD s.wire.station.b⟩⟩ } ∧
      u.ts.settings = set ∧ u.src.settings = src) ∧
    (legal → src.refMode = s.src.settings.refMode → src.refClass = s.src.settings.refClass →
      (s.path 8).isSome = src.refMode → ∃ u : State, exec (.partConfig ag o c) s = .next (respond ag .ok .empty u) ∧
      u.src = { s.src with
        settings := src
        entries := s.src.entries.set 8
          ((s.path 8).map fun p => { p with cls := src.refClass, accuracy := src.refAccuracy }) } ∧
      (s.ts.servo ≠ .holdover → u.ts = { s.ts with settings := set } ∧ u.flight = s.flight) ∧
      (s.ts.servo = .holdover → s.ts.timeSet = true → ¬expired →
        u.ts = { s.ts with
          settings := set, quality := min (s.ts.holdEntry + 1 + s.ts.holdAge * nsPerSec / set.holdStep) 14 } ∧
        u.flight = s.flight) ∧
      (s.ts.servo = .holdover → s.ts.timeSet = true → expired →
        u.ts = { s.ts with
          settings := set, servo := .freerun, rateBasis := false, holdAge := 0, quality := 14 } ∧
        u.flight = { s.flight with raises := s.raisesWith fun _ => [.servo .holdover .freerun] }))) ∧
  (∀ (ag : Agent) (o : Options) (c : PartSettings) (s : State), s.takesNow ag ⟨o, .partConfig c⟩ = true →
    settingsInRange c = true → echoFits c s.echo = true → s.src.entries.length = 9 →
    let old := s.src.settings
    let src := sourceSettings c old
    let written : State := { s with
      ts := { s.ts with settings := timescaleSettings c s.ts.settings }
      echo := ⟨c.echoInterval.getD s.echo.interval, c.replyWait.getD s.echo.wait, c.outlierLimit.getD s.echo.outlier⟩
      src := { s.src with settings := src }
      cli := { s.cli with autoAdmit := c.autoAdmit.getD s.cli.autoAdmit }
      arbiter := { s.arbiter with lease := c.lease.getD s.arbiter.lease }
      wire := ⟨c.partIdentity.getD s.wire.part, ⟨c.stationA.getD s.wire.station.a, c.stationB.getD s.wire.station.b⟩⟩ }
    let fresh : SourcePath :=
      ⟨0, none, .listen, src.refClass, src.refAccuracy, 0, none, none, 0, ⟨none, 0, 0, 0⟩, none, none, 0, none,
        some (s.ts.el + 3000000000), none, none⟩
    ∃ (graded expired u : State) (entry : Option SourcePath),
      exec .holdoverGrade written = .next graded ∧ exec .holdoverExpiry graded = .next expired ∧
      exec (.partConfig ag o c) s = .next (respond ag .ok .empty u) ∧
      (let set : State := { expired with src := { expired.src with entries := s.src.entries.set 8 entry } }
       (src.refMode = old.refMode ∧ src.refClass = old.refClass → u = set) ∧
       (src.refMode ≠ old.refMode ∨ src.refClass ≠ old.refClass → u = reportClass 8 (reexamine .first set))) ∧
      (src.refMode = false → entry = none) ∧
      (src.refMode = true → s.path 8 = none → entry = some fresh) ∧
      (∀ p, s.path 8 = some p → src.refMode = true →
        let q := { p with cls := src.refClass, accuracy := src.refAccuracy }
        (src.refClass = old.refClass → entry = some q) ∧
        (src.refClass ≠ old.refClass →
          (p.state = .candidate ∨ p.state = .selected → src.refClass ≤ 13 → entry = some q) ∧
          (p.state = .candidate ∨ p.state = .selected → 14 ≤ src.refClass → entry = some
            { q with state := .listen, listenCount := 0, lastOffset := none, deadline := some (s.ts.el + 3000000000) }) ∧
          (p.state = .listen → entry = some
            { q with state := if src.refClass ≤ 13 ∧ 2 ≤ p.listenCount then .candidate else .listen }) ∧
          (p.state = .stale ∨ p.state = .barred → entry = some q))) ∧
      (s.path 8 = none → src.refMode = true → u.path 8 = some fresh) ∧
      (src.refMode = false → u.path 8 = none) ∧
      (∀ p, s.path 8 = some p → src.refMode = true → src.refClass ≠ old.refClass →
        (p.state = .candidate ∨ p.state = .selected → 14 ≤ src.refClass → u.path 8 = some
          { p with
            cls := src.refClass, accuracy := src.refAccuracy, state := .listen, listenCount := 0, lastOffset := none
            deadline := some (s.ts.el + 3000000000) }) ∧
        (p.state = .listen → p.listenCount = 2 → src.refClass ≤ 13 → ∃ x, u.path 8 = some
          { p with cls := src.refClass, accuracy := src.refAccuracy, state := x } ∧ (x = .candidate ∨ x = .selected)) ∧
        (p.state = .stale ∨ p.state = .barred → u.path 8 = some
          { p with cls := src.refClass, accuracy := src.refAccuracy })))

/-- A measurement of ACQUIRE (R25, R26, R27): DT is stepped by -o while the time is unset or where the offset is large and
stepping is on, otherwise the slew record is replaced; the rate law applies but to the measurement that sets the time; the
in-window count follows the lock window; a clamp count of 4 enters FAULT of cause CLAMP, an in-window count of 8 otherwise
LOCKED. A step that would leave the range of DT discards the measurement whole. That what was handed over before an entry
to FAULT is void (log entry 11), that a step of the servo keeps the residue of DT (log entry 7), and that a step is reported to
the schedule before a leap it applies (log entry 51), is the model's choice. -/
def Obligations.AcquireTakesAMeasurement : Prop :=
  ∀ (s : State) (i : Nat) (k o : Int) (rest : List TimescaleMsg) (p : SourcePath),
    s.flight.toTimescale = .offset i k o :: rest → s.src.selected = some i → s.path i = some p → p.state = .selected →
    s.ts.servo = .acquire → s.src.suspended = false →
    let t := s.ts
    let new : Int := t.dt - o
    let steps := t.timeSet = false ∨ (nsTicks t.settings.stepThreshold < o.natAbs ∧ t.settings.stepEnable = true)
    let inRange := 0 ≤ new ∧ new < (timeEnd : Int)
    let sum := t.rate + Int.tdiv (o * 16 * 2 ^ (4 - k).toNat) (16 * 65536)
    let rate := if t.timeSet = false then t.rate else max (-128000000) (min 128000000 sum)
    let clamp := if t.timeSet = false then t.clamp else if sum < -128000000 ∨ 128000000 < sum then t.clamp + 1 else 0
    let inWindow := if o.natAbs ≤ nsTicks t.settings.lockWindow then t.inWindow + 1 else 0
    let fault := 4 ≤ clamp
    let locked := clamp < 4 ∧ 8 ≤ inWindow
    let l := if steps then leapTaken t new.toNat else (t.utc, t.leap, [])
    let removed := if l.2.2 ≠ [] then removedAt t.utc t.leap else none
    (steps → ¬inRange → t.quality = (if t.timeSet then min (p.cls + 4) 14 else 15) →
      exec .measurement s = .next { s with flight := { s.flight with toTimescale := rest } }) ∧
    ((steps → inRange) → ∃ u : State, exec .measurement s = .next u ∧ onlySelection s u ∧
      u.ts = { t with
        dt := if steps then new.toNat else t.dt
        slew := if steps ∨ fault then none else some ⟨decide (0 < o), o.natAbs, 0, t.settings.maxSlew, none⟩
        stepCount := if steps then min (t.stepCount + 1) 65535 else t.stepCount
        timeSet := true, utc := l.1, leap := l.2.1, rate := rate, clamp := clamp, inWindow := inWindow
        servo := if fault then .fault else if locked then .locked else .acquire
        rateBasis := if locked then true else t.rateBasis
        lockClass := if locked then p.cls else t.lockClass
        outCount := if locked then 0 else t.outCount
        snapAt := if fault then none else if locked then some (t.el + 60000000000) else t.snapAt
        quality := if fault then 15 else if locked then p.cls else min (p.cls + 4) 14 } ∧
      u.src = (if fault then { s.src with
          selected := none, suspended := true, entries := s.src.entries.set i (some { p with state := .candidate }) }
        else s.src) ∧
      u.flight = { s.flight with
        toTimescale := if fault then [] else rest
        toSchedule := s.flight.toSchedule ++
          (if steps then [.step t.dt new.toNat removed []] else []) ++ (if l.2.2 ≠ [] then [.change removed] else [])
        toEpoch := s.flight.toEpoch ++ (if steps then [(t.dt, new.toNat)] else [])
        raises := s.raisesWith fun ag =>
          slewRaise t.slew (if steps then .dropped else .replaced) ag ++ l.2.2 ++
            (if fault then [.fault .clamp, .source ⟨some (i, p.identity), none, .fault⟩]
              else if locked then [.servo .acquire .locked] else []) })

/-- A measurement of LOCKED (R28, R26) never steps: the slew record is replaced, the rate law applies, the out count
follows the lock window; a clamp count of 4 enters FAULT, an out count of 4 otherwise returns to ACQUIRE with the counts
at 0. An offset of a path that is no longer selected is discarded (R24). That FAULT comes first where both counts reach 4 (log
entry 43), and that what was handed over before an entry to FAULT is void (log entry 11), is the model's choice. -/
def Obligations.LockedTakesAMeasurement : Prop :=
  ∀ (s : State) (i : Nat) (k o : Int) (rest : List TimescaleMsg), s.flight.toTimescale = .offset i k o :: rest →
    (s.src.selected ≠ some i →
      exec .measurement s = .next { s with flight := { s.flight with toTimescale := rest } }) ∧
    (∀ p, s.src.selected = some i → s.path i = some p → p.state = .selected → s.ts.servo = .locked →
      s.src.suspended = false → s.ts.timeSet = true →
      let t := s.ts
      let sum := t.rate + Int.tdiv (o * 16 * 2 ^ (4 - k).toNat) (16 * 65536)
      let clamp := if sum < -128000000 ∨ 128000000 < sum then t.clamp + 1 else 0
      let out := if o.natAbs ≤ nsTicks t.settings.lockWindow then 0 else t.outCount + 1
      let fault := 4 ≤ clamp
      let back := clamp < 4 ∧ 4 ≤ out
      ∃ u : State, exec .measurement s = .next u ∧ onlySelection s u ∧
      u.ts = { t with
        slew := if fault then none else some ⟨decide (0 < o), o.natAbs, 0, t.settings.maxSlew, none⟩
        rate := max (-128000000) (min 128000000 sum)
        clamp := if back then 0 else clamp
        outCount := if back then 0 else out
        inWindow := if back then 0 else t.inWindow
        holdAge := if back then 0 else t.holdAge
        servo := if fault then .fault else if back then .acquire else .locked
        snapAt := if fault ∨ back then none else t.snapAt
        quality := if fault then 15 else if back then min (p.cls + 4) 14 else t.lockClass } ∧
      u.src = (if fault then { s.src with
          selected := none, suspended := true, entries := s.src.entries.set i (some { p with state := .candidate }) }
        else s.src) ∧
      u.flight = { s.flight with
        toTimescale := if fault then [] else rest
        raises := s.raisesWith fun ag => slewRaise t.slew .replaced ag ++
          (if fault then [.fault .clamp, .source ⟨some (i, p.identity), none, .fault⟩]
            else if back then [.servo .locked .acquire] else []) })

/-- A UTC pair of the selected path (R35), read as applied where its instant lies at or before the later of its arrival and
DT, and as NONE where its midnight is no multiple of 86,400, is adopted where it differs, and reported to the schedule; in
other servo states and inside an inserted second it is dropped. Two clauses are the model's choice: that an ill-formed midnight
is read as NONE before the test whether its instant has come, which leaves the offset as it is (log entry 16), and that the part
of a pair that a REF-LABEL lacks is the unit's own (log entry 25).

A leap falls due when DT reaches the instant of the standing announcement (R36): the offset moves by one (a value beyond its
range is free, log entry 4), the announcement becomes NONE, LEAP is raised toward all agents and the schedule told; before
that instant, and without an announcement, nothing happens. -/
def Obligations.PairsAreAdoptedAndLeapsApplied : Prop :=
  (∀ (s : State) (i : Nat) (off : Option Int) (l : Option Leap) (arrival : Ticks) (rest : List TimescaleMsg),
    s.flight.toTimescale = .pair i off l arrival :: rest →
    let t := s.ts
    let follows := s.src.selected = some i ∧ (t.servo = .acquire ∨ t.servo = .locked)
    let inside := ∃ m : Nat, t.leap = .insert m ∧ secTicks (m + t.utc) ≤ (t.dt : Int) ∧ (t.dt : Int) < secTicks (m + t.utc + 1)
    let instant : Int := ((max arrival t.dt : Nat) : Int)
    let off0 := off.getD t.utc
    let pair : Int × Leap :=
      match l.getD t.leap with
      | .none => (off0, .none)
      | .insert m =>
        if m % 86400 ≠ 0 then (off0, .none)
        else if secTicks (m + off0 + 1) ≤ instant then (addOffset off0 1, .none) else (off0, .insert m)
      | .delete m =>
        if m % 86400 ≠ 0 then (off0, .none)
        else if secTicks (m - 1 + off0) ≤ instant then (addOffset off0 (-1), .none) else (off0, .delete m)
    let u : State := { s with flight := { s.flight with toTimescale := rest } }
    (¬follows ∨ inside ∨ pair = (t.utc, t.leap) → exec .utcPairAdopt s = .next u) ∧
    (follows → ¬inside → pair ≠ (t.utc, t.leap) →
      exec .utcPairAdopt s =
        .next { u with
          ts := { t with utc := pair.1, leap := pair.2 }
          flight := { u.flight with toSchedule := s.flight.toSchedule ++ [.change none] } })) ∧
  (∀ s : State,
    (s.ts.leap = .none → exec .leapApply s = .next s) ∧
    (∀ m : Nat, s.ts.leap = .insert m → (s.ts.dt : Int) < secTicks (m + s.ts.utc + 1) → exec .leapApply s = .next s) ∧
    (∀ m : Nat, s.ts.leap = .delete m → (s.ts.dt : Int) < secTicks (m - 1 + s.ts.utc) → exec .leapApply s = .next s) ∧
    (∀ m : Nat, s.ts.leap = .insert m → secTicks (m + s.ts.utc + 1) ≤ (s.ts.dt : Int) →
      let off := addOffset s.ts.utc 1
      exec .leapApply s =
        .next { s with
          ts := { s.ts with utc := off, leap := .none }
          flight := { s.flight with
            toSchedule := s.flight.toSchedule ++ [.change none], raises := s.raisesWith fun _ => [.leap .insert off] } } ∧
      (s.ts.utc < 32767 → -32768 ≤ s.ts.utc → off = s.ts.utc + 1)) ∧
    (∀ m : Nat, s.ts.leap = .delete m → secTicks (m - 1 + s.ts.utc) ≤ (s.ts.dt : Int) →
      let off := addOffset s.ts.utc (-1)
      exec .leapApply s =
        .next { s with
          ts := { s.ts with utc := off, leap := .none }
          flight := { s.flight with
            toSchedule := s.flight.toSchedule ++ [.change (some (secTicks (m - 1 + s.ts.utc)).toNat)]
            raises := s.raisesWith fun _ => [.leap .delete off] } } ∧
      (s.ts.utc ≤ 32767 → -32768 < s.ts.utc → off = s.ts.utc - 1)))

/-- The timers of the timescale unit: a slew of no remaining offset completes (R31); HOLDOVER is graded by age and expires
at its limit (R29, R34); a due save replaces the store and the next one is due 60 s later (R42); the unit's part of an agent
reset removes the agent as notify-agent (R21). -/
def Obligations.TimescaleTimersAct : Prop :=
  ∀ s : State,
    (∀ w, s.ts.slew = some w → w.mag = 0 → w.sub = 0 →
      exec .slewComplete s =
        .next { s with
          ts := { s.ts with slew := none }
          flight := { s.flight with raises := s.raisesWith (slewRaise (some w) .completed) } }) ∧
    (s.ts.slew = none ∨ (∃ w, s.ts.slew = some w ∧ 0 < slewLeft w) → exec .slewComplete s = .next s) ∧
    (s.ts.servo = .holdover → s.ts.timeSet = true →
      exec .holdoverGrade s =
        .next { s with ts := { s.ts with
          quality := min (s.ts.holdEntry + 1 + s.ts.holdAge * nsPerSec / s.ts.settings.holdStep) 14 } }) ∧
    (s.ts.servo ≠ .holdover → exec .holdoverGrade s = .next s ∧ exec .holdoverExpiry s = .next s) ∧
    (s.ts.holdAge * nsPerSec < s.ts.settings.holdLimit → exec .holdoverExpiry s = .next s) ∧
    (s.ts.servo = .holdover → s.ts.timeSet = true → s.ts.settings.holdLimit ≤ s.ts.holdAge * nsPerSec →
      exec .holdoverExpiry s =
        .next { s with
          ts := { s.ts with servo := .freerun, rateBasis := false, holdAge := 0, quality := 14 }
          flight := { s.flight with raises := s.raisesWith fun _ => [.servo .holdover .freerun] } }) ∧
    (∀ x, s.ts.snapAt = some x → s.ts.servo = .locked → x ≤ s.ts.el →
      let r : SnapshotRecord :=
        ⟨1, s.ts.rate, s.ts.lockClass, (s.selectedPath.map SourcePath.identity).getD 0,
          ⟨s.ts.dt / ticksPerSec, s.ts.dt % ticksPerSec / ticksPerNs, s.ts.dt % ticksPerNs⟩, 0⟩
      exec .snapshotSave s =
        .next { s with ts := { s.ts with
          store := some { r with check := crc32 (snapshotBody r) }, snapAt := some (x + 60000000000) } }) ∧
    ((∀ x, s.ts.snapAt = some x → s.ts.servo = .locked → s.ts.el < x) → exec .snapshotSave s = .next s) ∧
    (∀ ag, ag ∈ s.flight.slewResets →
      exec (.slewNotifyReset ag) s =
        .next { s with
          ts := { s.ts with
            slew := s.ts.slew.map fun w => if w.notify = some ag then { w with notify := none } else w }
          flight := { s.flight with slewResets := s.flight.slewResets.erase ag } }) ∧
    (∀ ag, ag ∉ s.flight.slewResets → exec (.slewNotifyReset ag) s = .next s)

/-! ## Network ports and the echo exchange (chapter 3) -/

/-- PORT-ENABLE, PORT-DISABLE, a link that appears and a link that is lost move a port by the table of R46, and the two
requests return its state (R47). A port that leaves UP loses queue, transmission and asks, and both tables take the loss
(R48, R75, R95); one that enters UP begins an echo cycle at slot 0 with the settings in force (R49, R59).

The loss of a port at the tables (R48, R75, R95): every path of its network in LISTEN, CANDIDATE or SELECTED goes STALE with
its last offset and deadline absent, and selection is re-examined (a STALE path keeps its stale since: log entry 44); every
client's presence on the network is cleared and its ask ended, and a client in MEASURING or SERVED left without a presence
that answers lapses, both its asks ended, with CLIENT of cause PORT (R102). Samples on their way are taken first (R64, log
entry 10), and the clients are taken in ascending order of their slots (log entry 45). -/
def Obligations.PortsEnterAndLeaveUp : Prop :=
  (∀ (n : Net) (s : State),
    let p := s.port n
    let up := fun (link : Bool) (s : State) => s.setPort n { p with
      state := .up, link := link, class0 := none, class1 := [], tx := none, asks := []
      cycleStart := s.ts.el, nextSlot := 0, cycleInterval := s.echo.interval, cycleWait := s.echo.wait }
    let left := fun (link : Bool) (st : PortState) (s : State) =>
      portLossClients n (portLossSources n
        (s.setPort n { p with state := st, link := link, class0 := none, class1 := [], tx := none, asks := [] }))
    (∀ (ag : Agent) (o : Options), s.takesNow ag ⟨o, .portEnable n⟩ = true →
      let answered := fun (st : PortState) (u : State) =>
        exec (.portEnable ag o n) s = .next (respond ag .ok (.portState st) u)
      (p.state = .disabled → p.link = false → answered .down (s.setPort n { p with state := .down })) ∧
      (p.state = .disabled → p.link = true → answered .up (up true s)) ∧
      (p.state ≠ .disabled → answered p.state s)) ∧
    (∀ (ag : Agent) (o : Options), s.takesNow ag ⟨o, .portDisable n⟩ = true →
      let answered := fun (u : State) => exec (.portDisable ag o n) s = .next (respond ag .ok (.portState .disabled) u)
      (p.state = .disabled → answered s) ∧
      (p.state = .down → answered (s.setPort n { p with state := .disabled })) ∧
      (p.state = .up → answered (left p.link .disabled s))) ∧
    (p.state = .down → exec (.linkUp n) s = .next (up true s)) ∧
    (p.state ≠ .down → exec (.linkUp n) s = .next (s.setPort n { p with link := true })) ∧
    (p.state = .up → exec (.linkDown n) s = .next (left false .down s)) ∧
    (p.state ≠ .up → exec (.linkDown n) s = .next (s.setPort n { p with link := false }))) ∧
  (∀ (n : Net) (s : State),
    let aged : SourcePath → SourcePath := fun p =>
      if p.net = some n ∧ (p.state = .listen ∨ p.state = .candidate ∨ p.state = .selected) then
        { p with state := .stale, staleSince := some s.ts.el, deadline := none, lastOffset := none }
      else p
    let v := settleSamples (fun m => m.net == n) s
    (portLossSources n s =
      reexamine .first { v with src := { v.src with entries := v.src.entries.map fun e => e.map aged } }) ∧
    (let u := portLossClients n s
     let settled := fun (i : Nat) (c : Client) => (settleClient i c.identity s).client i
     let held := fun c : Client => (c.presences.get n).isSome
     let kept := fun d : Client => d.presences.set n none
     let answers := fun x : Option Presence => x.any fun p => decide (p.miss < 4)
     let lapses := fun d : Client =>
       (d.state == .measuring || d.state == .served) && !answers (kept d).a && !answers (kept d).b
     let lost := fun i : Nat =>
       match s.client i with
       | none => none
       | some c => if held c && (settled i c).any lapses then some (Raise.client ⟨i, c.identity, .lapsed, some .port, none⟩)
         else none
     s.cli.slots.length = 48 →
     (∀ i, s.client i = none → u.client i = none) ∧
     (∀ i c, s.client i = some c → held c = false → u.client i = some c) ∧
     (∀ i c, s.client i = some c → held c = true → ∃ d, settled i c = some d ∧ d.identity = c.identity ∧
       (lapses d = true → u.client i = some { d with
         presences := kept d, state := .lapsed, lapsedSince := some s.ts.el }) ∧
       (lapses d = false → u.client i = some { d with presences := kept d })) ∧
     u.flight.raises.get .agent0 = s.flight.raises.get .agent0 ++ (List.range 48).filterMap lost ∧
     (∀ ag, ag ≠ .agent0 → u.flight.raises.get ag = s.flight.raises.get ag) ∧
     (∀ m a, a ∈ (u.port m).asks ↔ a ∈ (s.port m).asks ∧
       ∀ i c, s.client i = some c → held c = true → a.target = .client i c.identity →
         m ≠ n ∧ (settled i c).any lapses = false)))

/-- PORT-READ (R57) and SOURCE-READ (R86) return what they name as it stands and change nothing; SOURCE-READ of an absent
entry is refused with NO_ENTRY, and of a number above 8, for which no status is given, with NO_ENTRY or RANGE (log entry 5). That
SOURCE-READ of ALL gives the delay of the reference path as present and 0, where R67 has its delay filter absent and its delay
0, is the model's choice (log entry 19). -/
def Obligations.PortsAndSourcesAreRead : Prop :=
  (∀ (ag : Agent) (o : Options) (n : Net) (s : State), s.takesNow ag ⟨o, .portRead n⟩ = true →
    let p := s.port n
    exec (.portRead ag o n) s = .next (respond ag .ok
      (.port ⟨p.state, p.link, if p.class0.isSome then 1 else 0, p.class1.length, p.tx.isSome, p.echoSeq, p.asks.length,
        p.counters⟩) s)) ∧
  (∀ (ag : Agent) (o : Options) (e : Option Nat) (s : State), s.takesNow ag ⟨o, .sourceRead e⟩ = true →
    let tail : SourceTail := ⟨s.src.selected, s.src.suspended, s.src.settings⟩
    (e = none → exec (.sourceRead ag o e) s = .next (respond ag .ok
      (.paths
        (s.src.entries.map fun x => x.map fun p =>
          ⟨p.identity, p.net, p.state, p.cls, p.accuracy, if p.net = none then some 0 else p.filter.value, p.miss,
            p.lastOffset⟩) tail) s)) ∧
    (∀ i p, e = some i → s.path i = some p → exec (.sourceRead ag o e) s = .next (respond ag .ok (.path p tail) s)) ∧
    (∀ i, e = some i → i ≤ 8 → s.path i = none → exec (.sourceRead ag o e) s = .next (respond ag .noEntry .empty s)) ∧
    (∀ i, e = some i → 8 < i → s.path i = none → ∃ st, (st = .noEntry ∨ st = .range) ∧
      exec (.sourceRead ag o e) s = .next (respond ag st .empty s)))

/-- A frame that arrives at a port (R55, R56): not received while the port is not UP; the tests in their order, each with
its counter; an accepted frame is counted and handed on with its stamp and network, an ECHO-BACK to the port's own engine.

The MTX tests of R55 on the bytes of a frame: version, kind, body length, and what the fields of a body may hold (R179,
R180); the t1 of an ECHO-BACK is VALID or UNSET, and one that is SATURATED or illegal makes the frame a bad format. -/
def Obligations.ArrivingFramesAreTested : Prop :=
  (∀ (n : Net) (f : EthFrame) (s : State),
    let p := s.port n
    let counted := fun (c : PortCounters) => exec (.frameArrival n f) s = .next (s.setPort n { p with counters := c })
    let mine := f.dest = Config.broadcastAddress ∨ f.dest = s.wire.station.get n
    let reaches := p.state = .up ∧ f.fcsOk = true ∧ mine ∧ f.etherType = 39485
    let stamp : Stamp := ⟨s.ts.dt, s.ts.el⟩
    (p.state ≠ .up → exec (.frameArrival n f) s = .next s) ∧
    (p.state = .up → f.fcsOk = false → counted { p.counters with droppedFcs := bump32 p.counters.droppedFcs }) ∧
    (p.state = .up → f.fcsOk = true → ¬mine ∨ f.etherType ≠ 39485 → exec (.frameArrival n f) s = .next s) ∧
    (reaches → readMtx f.payload = .badVersion →
      counted { p.counters with droppedVersion := bump32 p.counters.droppedVersion }) ∧
    (reaches → readMtx f.payload = .badFormat →
      counted { p.counters with droppedFormat := bump32 p.counters.droppedFormat }) ∧
    (∀ seq id b, reaches → readMtx f.payload = .taken seq id b →
      let u := s.setPort n { p with counters := { p.counters with accepted := bump32 p.counters.accepted } }
      (∀ d cls acc k off l, b = .origin d cls acc k off l →
        exec (.frameArrival n f) s = .next { u with flight := { u.flight with
          origins := u.flight.origins ++ [⟨n, stamp, seq, id, d, cls, acc, k, off, l⟩] } }) ∧
      (b = .register → exec (.frameArrival n f) s = .next { u with flight := { u.flight with
        registers := u.flight.registers ++ [⟨n, stamp, id, seq⟩] } }) ∧
      (∀ t1 t2 t3, b = .echoBack t1 t2 t3 → exec (.frameArrival n f) s = .next (resolveEcho n seq id t1 t2 t3 u)))) ∧
  (∀ l : List Byte,
    let v := fieldAt l 0 1
    let kind := fieldAt l 1 1
    let len := fieldAt l 11 2
    let b := l.drop 13
    (1 ≤ l.length → v ≠ 1 → readMtx l = .badVersion) ∧
    (13 ≤ l.length → v = 1 → kind ≠ 1 ∧ kind ≠ 3 ∧ kind ≠ 5 → readMtx l = .badFormat) ∧
    (13 ≤ l.length → v = 1 → (kind = 1 ∧ len ≠ 27) ∨ (kind = 3 ∧ len ≠ 36) ∨ (kind = 5 ∧ len ≠ 0) ∨ b.length < len →
      readMtx l = .badFormat) ∧
    (13 ≤ l.length → v = 1 → kind = 1 → len = 27 → 15 < fieldAt b 12 1 ∨ 2 < fieldAt b 20 1 ∨ 1000000000 ≤ fieldAt b 6 4 →
      readMtx l = .badFormat) ∧
    (13 ≤ l.length → v = 1 → kind = 3 → len = 36 → 1000000000 ≤ fieldAt b 18 4 ∨ 1000000000 ≤ fieldAt b 30 4 →
      readMtx l = .badFormat) ∧
    (13 ≤ l.length → v = 1 → kind = 1 → len = 27 → 27 ≤ b.length → fieldAt b 12 1 ≤ 15 → fieldAt b 20 1 ≤ 2 →
      fieldAt b 6 4 < 1000000000 → ∃ leap, leapOf (fieldAt b 20 1) (fieldAt b 21 6) = some leap ∧
      readMtx l = .taken (fieldAt l 3 2) (fieldAt l 5 6)
        (.origin ((fieldAt b 0 6 * 1000000000 + fieldAt b 6 4) * 65536 + fieldAt b 10 2) (fieldAt b 12 1) (fieldAt b 13 4)
          (ofBeSigned 1 (fieldAt b 17 1)) (ofBeSigned 2 (fieldAt b 18 2)) leap)) ∧
    (13 ≤ l.length → v = 1 → kind = 3 → len = 36 → 36 ≤ b.length → fieldAt b 18 4 < 1000000000 → fieldAt b 30 4 < 1000000000 →
      let time := fun o : Nat => (fieldAt b o 6 * 1000000000 + fieldAt b (o + 6) 4) * 65536 + fieldAt b (o + 10) 2
      let taken := fun t1 => readMtx l = .taken (fieldAt l 3 2) (fieldAt l 5 6) (.echoBack t1 (time 12) (time 24))
      (fieldAt b 6 4 < 1000000000 → taken (.valid (time 0))) ∧ (fieldAt b 6 4 = 4294967295 → taken .unset) ∧
      (1000000000 ≤ fieldAt b 6 4 → fieldAt b 6 4 ≠ 4294967295 → readMtx l = .badFormat)) ∧
    (13 ≤ l.length → v = 1 → kind = 5 → len = 0 → readMtx l = .taken (fieldAt l 3 2) (fieldAt l 5 6) .register))

/-- An accepted ECHO-BACK (R61, R62): where it matches no ask in flight in sequence, identity and t1, it is a late reply and
nothing else changes; where it matches one, the ask ends, the target's miss count becomes 0, and the sample (e4 - e1 - (t3 -
t2)) ÷ 2, to the nearest fraction unit with a tie to the even one, goes to the table that owns the target, as its newest.

An ask slot (R59, R60): before its instant, or while the port is not UP, nothing happens; a slot whose target is missing
(slots 0 … 3 those of the network's paths, 16 … 63 those of the clients), not asked or already asked is idle; otherwise the
ask takes the next echo sequence, its issue instant is that of the slot (to the ns, log entry 35), and it is QUEUED or,
without room for its frame, DROPPED. The frame bears the part identity of this instant (log entry 37).

The reply wait of an ask runs out (R63): the ask is ended in whatever state it stands, its frame leaves the queue if it is
queued, the target's miss count rises by one, saturating, and the miss goes to the owning table; before that, or without
such an ask, nothing happens. -/
def Obligations.AsksAreIssuedAndEnd : Prop :=
  ((∀ (n : Net) (seq id : Nat) (t1 : TimeVal) (t2 t3 : Ticks) (s : State),
    let p := s.port n
    let matched := fun a : Ask => a.seq = seq ∧ a.target.identity = id ∧ ∃ e1, a.state = .inFlight t1 e1
    ((∀ a ∈ p.asks, ¬matched a) →
      resolveEcho n seq id t1 t2 t3 s =
        s.setPort n { p with counters := { p.counters with lateReplies := bump32 p.counters.lateReplies } }) ∧
    (∀ before a after e1, p.asks = before ++ a :: after → (∀ x ∈ before, ¬matched x) → a.seq = seq →
      a.target.identity = id → a.state = .inFlight t1 e1 →
      let u := (s.setPort n (endAsksWhere (fun x => x.seq == seq) p)).recountMiss n a.target fun _ => 0
      let m : SampleMsg := ⟨n, a.target, delaySample e1 s.ts.el t2 t3⟩
      resolveEcho n seq id t1 t2 t3 s = { u with flight := match a.target with
        | .path _ _ => { u.flight with sourceSamples := u.flight.sourceSamples ++ [m] }
        | .client _ _ => { u.flight with clientSamples := u.flight.clientSamples ++ [m] } })) ∧
  (∀ (n : Net) (f : Nat → Nat) (i id : Nat) (s : State),
    (∀ p, s.path i = some p → p.identity = id →
      s.recountMiss n (.path i id) f = s.setPath i (some { p with miss := p.miss.map f })) ∧
    ((∀ p, s.path i = some p → p.identity ≠ id) → s.recountMiss n (.path i id) f = s) ∧
    (∀ c p, s.client i = some c → c.identity = id → c.presences.get n = some p →
      s.recountMiss n (.client i id) f =
        s.setClient i (some { c with presences := c.presences.set n (some { p with miss := f p.miss }) })) ∧
    ((∀ c, s.client i = some c → c.identity ≠ id ∨ c.presences.get n = none) → s.recountMiss n (.client i id) f = s)) ∧
  (∀ (e1 e4 : Nat) (t2 t3 : Ticks),
    let twice : Int := ((e4 : Int) - e1) * 65536 - ((t3 : Int) - t2)
    let x := delaySample e1 e4 t2 t3
    (twice % 2 = 0 → 2 * x = twice) ∧ (twice % 2 ≠ 0 → (2 * x = twice + 1 ∨ 2 * x = twice - 1) ∧ x % 2 = 0)) ∧
  (∀ (g : Ask → Bool) (p : NetPort),
    endAsksWhere g p = { p with
      asks := p.asks.filter fun a => !g a
      class1 := p.class1.filter fun f =>
        match f with
        | .ask _ q _ => !(p.asks.any fun a => g a && a.seq == q)
        | .admission .. => true })) ∧
  (∀ (n : Net) (s : State),
    let p := s.port n
    let due := p.state = .up ∧ 64 * p.cycleStart + p.nextSlot * p.cycleInterval ≤ 64 * s.ts.el
    let q : NetPort := if p.nextSlot < 64 then p else
      { p with
        cycleStart := p.cycleStart + p.cycleInterval, nextSlot := 0, cycleInterval := s.echo.interval
        cycleWait := s.echo.wait }
    let k := q.nextSlot
    let next : NetPort := { q with nextSlot := k + 1 }
    let idle := exec (.echoSlot n) s = .next (s.setPort n next)
    (¬due → exec (.echoSlot n) s = .next s) ∧
    (due → slotTarget n k s = none → idle) ∧
    (∀ t, due → slotTarget n k s = some t → (∃ a ∈ p.asks, a.target = t) → idle) ∧
    (∀ t, due → slotTarget n k s = some t → (∀ a ∈ p.asks, a.target ≠ t) →
      let placed := placeClass1 (.ask s.wire.part q.echoSeq t.identity) { next with echoSeq := (q.echoSeq + 1) % 65536 }
      exec (.echoSlot n) s = .next (s.setPort n { placed.1 with
        asks := p.asks ++ [⟨q.echoSeq, t, q.cycleStart + (k * q.cycleInterval + 63) / 64, q.cycleWait,
          if placed.2 then .queued else .dropped⟩] })) ∧
    (4 ≤ k → k < 16 → slotTarget n k s = none) ∧
    (k < 4 → (pathsOf s.src n)[k]? = none → slotTarget n k s = none) ∧
    (16 ≤ k → s.client (k - 16) = none → slotTarget n k s = none) ∧
    (k < 4 → ∀ i c, (pathsOf s.src n)[k]? = some (i, c) →
      slotTarget n k s = if c.state = .listen ∨ c.state = .candidate ∨ c.state = .selected then some (.path i c.identity)
        else none) ∧
    (16 ≤ k → ∀ c, s.client (k - 16) = some c →
      slotTarget n k s = if (c.state = .measuring ∨ c.state = .served) ∧ (c.presences.get n).isSome = true then
        some (.client (k - 16) c.identity) else none)) ∧
  (∀ (n : Net) (seq : Nat) (s : State),
    let p := s.port n
    ((∀ a ∈ p.asks, a.seq = seq → s.ts.el < a.issue + a.wait) → exec (.replyWaitExpiry n seq) s = .next s) ∧
    (∀ before a after, p.asks = before ++ a :: after →
      (∀ x ∈ before, x.seq = seq → s.ts.el < x.issue + x.wait) → a.seq = seq → a.issue + a.wait ≤ s.ts.el →
      let s1 := s.setPort n (endAsksWhere (fun x => x.seq == seq) p)
      let m : MissMsg := ⟨n, a.target, a.issue + a.wait⟩
      (∀ i id q, a.target = .path i id → s.path i = some q → q.identity = id → i < s.src.entries.length →
        exec (.replyWaitExpiry n seq) s =
          .next { s1 with
            src := { s.src with entries := s.src.entries.set i (some { q with miss := q.miss.map bump8 }) }
            flight := { s.flight with sourceMisses := s.flight.sourceMisses ++ [m] } }) ∧
      (∀ i id c q, a.target = .client i id → s.client i = some c → c.identity = id → c.presences.get n = some q →
        exec (.replyWaitExpiry n seq) s =
          .next { s1 with
            cli := { s.cli with
              slots := s.cli.slots.set i
                (some { c with presences := c.presences.set n (some { q with miss := bump8 q.miss }) }) }
            flight := { s.flight with clientMisses := s.flight.clientMisses ++ [m] } })))

/-- A frame in transmission that passes the stamping point is stamped with DT and EL; its departure field, in an EPOCH and
an ECHO-ASK, takes DT, an ECHO-ASK's being UNSET while the time is unset; the ask becomes IN FLIGHT with t1 and e1 (R51,
R60). Once it has departed its end lets the next frame begin, an EPOCH before the oldest class-1 frame (R54; that the end
follows the departure is log entry 36).

A frame is placed in a transmit queue (R52, R53, R54): an EPOCH takes the class-0 position and replaces one that waits
there, which is counted; a class-1 frame joins as the newest while fewer than 7 are queued and is dropped otherwise; an UP
port with nothing in transmission begins to send at once. -/
def Obligations.FramesAreQueuedAndDepart : Prop :=
  (∀ (n : Net) (s : State),
    let p := s.port n
    let stamp : Stamp := ⟨s.ts.dt, s.ts.el⟩
    let sent := fun (t : Transmission) (v : Option TimeVal) => { p with tx := some { t with egress := some ⟨stamp, v⟩ } }
    (p.tx = none → exec (.frameDeparts n) s = .next s ∧ exec (.transmitEnd n) s = .next s) ∧
    (∀ t f, p.tx = some t → t.egress = none → t.frame = .epoch f →
      exec (.frameDeparts n) s = .next (s.setPort n (sent t (some (.valid s.ts.dt))))) ∧
    (∀ t a b c d e, p.tx = some t → t.egress = none → t.frame = .class1 (.admission a b c d e) →
      exec (.frameDeparts n) s = .next (s.setPort n (sent t none))) ∧
    (∀ t a q b, p.tx = some t → t.egress = none → t.frame = .class1 (.ask a q b) →
      let t1 : TimeVal := if s.ts.timeSet then .valid s.ts.dt else .unset
      exec (.frameDeparts n) s = .next (s.setPort n { sent t (some t1) with
        asks := p.asks.map fun x => if x.seq = q then { x with state := .inFlight t1 s.ts.el } else x })) ∧
    (∀ t, p.tx = some t → t.egress.isSome = true → exec (.frameDeparts n) s = .next s) ∧
    (∀ t, p.tx = some t → t.egress = none → exec (.transmitEnd n) s = .next s) ∧
    (∀ t, p.tx = some t → t.egress.isSome = true → p.state = .up →
      (∀ f, p.class0 = some f →
        exec (.transmitEnd n) s = .next (s.setPort n { p with class0 := none, tx := some ⟨.epoch f, none⟩ })) ∧
      (∀ f rest, p.class0 = none → p.class1 = f :: rest →
        exec (.transmitEnd n) s = .next (s.setPort n { p with class1 := rest, tx := some ⟨.class1 f, none⟩ })) ∧
      (p.class0 = none → p.class1 = [] → exec (.transmitEnd n) s = .next (s.setPort n { p with tx := none })))) ∧
  (∀ (p : NetPort), p.state = .up →
    (∀ f t, p.tx = some t → placeEpoch f p = { p with
      class0 := some f
      counters := { p.counters with
        epochReplaced := if p.class0.isSome then bump32 p.counters.epochReplaced else p.counters.epochReplaced } }) ∧
    (∀ f, p.tx = none → p.class0 = none → placeEpoch f p = { p with tx := some ⟨.epoch f, none⟩ }) ∧
    (∀ f t, p.tx = some t → p.class1.length < 7 → placeClass1 f p = ({ p with class1 := p.class1 ++ [f] }, true)) ∧
    (∀ f, p.tx = none → p.class0 = none → p.class1 = [] →
      placeClass1 f p = ({ p with tx := some ⟨.class1 f, none⟩ }, true)) ∧
    (∀ f, 7 ≤ p.class1.length → placeClass1 f p = (p, false)))

/-- The delay filter (R65, R66): a sample is an outlier when negative or above 10 ms, and from a sample count of 4 on also
when it lies more than the limit from the value; a kept sample makes the value the mean of the first four, rounded to the
nearest fraction unit, then moves it one eighth of the way, rounded likewise, ties going to the even unit; the fourth outlier in a row restarts or empties the filter. -/
def Obligations.DelayFilterKeepsItsLaw : Prop :=
  ∀ (limit : Nat) (f : Filter) (x : Int),
    let inRange := 0 ≤ x ∧ x ≤ 655360000000
    let outlier := ¬inRange ∨ (4 ≤ f.count ∧ ((limit * 65536 : Nat) : Int) < |x - ((f.value.getD 0 : Nat) : Int)|)
    let u := filterTake limit f x
    (outlier → f.run < 3 → u = ({ f with run := f.run + 1 }, .outlier)) ∧
    (outlier → 3 ≤ f.run → inRange → u = (⟨some x.toNat, 1, 0, x.toNat⟩, .restart)) ∧
    (outlier → 3 ≤ f.run → ¬inRange → u = (⟨none, 0, 0, 0⟩, .restart)) ∧
    (¬outlier → f.count < 4 → ∃ v : Nat,
      u = (⟨some v, f.count + 1, 0, f.sum + x.toNat⟩, .kept) ∧
      let off := |2 * ((f.count + 1 : Nat) : Int) * v - 2 * ((f.sum + x.toNat : Nat) : Int)|
      off ≤ f.count + 1 ∧ (off = f.count + 1 → v % 2 = 0)) ∧
    (¬outlier → 4 ≤ f.count → ∃ v : Nat,
      u = (⟨some v, min (f.count + 1) 65535, 0, f.sum⟩, .kept) ∧
      let off := |16 * (v : Int) - 2 * (7 * (f.value.getD 0 : Nat) + x)|
      off ≤ 8 ∧ (off = 8 → v % 2 = 0))

/-! ## Upstream sources (chapter 4) -/

/-- SOURCE-BAR and SOURCE-UNBAR (R76, R77): an absent entry is refused with NO_ENTRY; barring a BARRED path changes its
reason; otherwise samples on their way are taken (R64, log entry 10), the path enters BARRED, its outstanding asks end
without a miss and selection is re-examined. An unbarred path enters LISTEN afresh with its deadline run from the request;
any other state is refused with STATE. A number above 8, for which no status is given, is refused with NO_ENTRY or RANGE
(log entry 5). -/
def Obligations.SourcesAreBarredAndUnbarred : Prop :=
  (∀ (ag : Agent) (o : Options) (e r : Nat) (s : State), s.takesNow ag ⟨o, .sourceBar e r⟩ = true →
    (e ≤ 8 → s.path e = none → exec (.sourceBar ag o e r) s = .next (respond ag .noEntry .empty s)) ∧
    (8 < e → s.path e = none → ∃ st, (st = .noEntry ∨ st = .range) ∧
      exec (.sourceBar ag o e r) s = .next (respond ag st .empty s)) ∧
    (∀ p, s.path e = some p → p.state = .barred →
      exec (.sourceBar ag o e r) s = .next (respond ag .ok .empty (s.setPath e (some { p with barReason := some r })))) ∧
    (∀ p, s.path e = some p → p.state ≠ .barred → ∃ q, (settlePath e p s).path e = some q ∧ q.identity = p.identity ∧
      let b := { q with
        state := .barred, barReason := some r, staleSince := none, deadline := none, lastOffset := none }
      exec (.sourceBar ag o e r) s = .next (respond ag .ok .empty
        (reexamine .first (endAsks (.path e p.identity) ((settlePath e p s).setPath e (some b))))))) ∧
  (∀ (ag : Agent) (o : Options) (e : Nat) (s : State), s.takesNow ag ⟨o, .sourceUnbar e⟩ = true →
    (e ≤ 8 → s.path e = none → exec (.sourceUnbar ag o e) s = .next (respond ag .noEntry .empty s)) ∧
    (8 < e → s.path e = none → ∃ st, (st = .noEntry ∨ st = .range) ∧
      exec (.sourceUnbar ag o e) s = .next (respond ag st .empty s)) ∧
    (∀ p, s.path e = some p → p.state ≠ .barred →
      exec (.sourceUnbar ag o e) s = .next (respond ag .state .empty s)) ∧
    (∀ p, s.path e = some p → p.state = .barred →
      let q := { p with
        state := .listen, listenCount := 0, filter := ⟨none, 0, 0, 0⟩, miss := p.miss.map fun _ => 0, lastOffset := none
        staleSince := none, barReason := none
        deadline := some (if e = 8 then s.ts.el + 3000000000 else s.ts.el + 187500000 * 2 ^ (p.exponent + 4).toNat) }
      exec (.sourceUnbar ag o e) s =
        .next (respond ag .ok .empty (reexamine .first (s.setPath e (some q))))))

/-- A stamped edge of line 47 (R79) replaces the edge record, unlabelled; it is discarded while entry 8 is BARRED, and finds
nothing to change while reference mode is off.

REF-LABEL (R80, R81): refused with STATE without a reference path that may be labelled and an edge less than 500 ms old,
with RANGE for a bad pair. Otherwise the edge is labelled and becomes the last arrival, its offset is the last offset, a
STALE path enters LISTEN afresh, a second labelled edge of a class of 13 or below makes a candidate, selection is
re-examined, and if entry 8 is selected the offset, of measurement interval 1 s, goes to the timescale unit, and after it
the pair. That a pair is handed over where the request carries only one of offset and announcement, the other part absent (log
entry 25), and that the deadline, 3 s after the edge, never moves back (log entry 26), is the model's choice. -/
def Obligations.ReferenceEdgesAreRecordedAndLabelled : Prop :=
  (∀ (s : State) (e : Stamp) (rest : List Stamp), s.flight.refEdges = e :: rest →
    let u : State := { s with flight := { s.flight with refEdges := rest } }
    (∀ p, s.path 8 = some p → p.state ≠ .barred →
      exec .refEdge s = .next (u.setPath 8 (some { p with edge := some ⟨e, false⟩ }))) ∧
    (∀ p, s.path 8 = some p → p.state = .barred → exec .refEdge s = .next u) ∧
    (s.path 8 = none → exec .refEdge s = .next u)) ∧
  (∀ (ag : Agent) (o : Options) (x : Nat) (off : Option Int) (l : Option Leap) (s : State),
    s.takesNow ag ⟨o, .refLabel x off l⟩ = true →
    let refused := fun st => exec (.refLabel ag o x off l) s = .next (respond ag st .empty s)
    let badPair := (∃ d, off = some d ∧ (d < -32768 ∨ 32767 < d)) ∨ (∃ a, l = some a ∧ a.midnightOk = false)
    (s.path 8 = none → refused .state) ∧
    (∀ p, s.path 8 = some p → p.state = .barred → refused .state) ∧
    (∀ p, s.path 8 = some p → p.edge = none → refused .state) ∧
    (∀ p e, s.path 8 = some p → p.edge = some e → e.labelled = true ∨ e.stamp.el + 500000000 ≤ s.ts.el → refused .state) ∧
    (∀ p e, s.path 8 = some p → p.state ≠ .barred → p.edge = some e → e.labelled = false →
      s.ts.el < e.stamp.el + 500000000 → badPair → refused .range) ∧
    (∀ p e, s.path 8 = some p → p.state ≠ .barred → p.edge = some e → e.labelled = false →
      s.ts.el < e.stamp.el + 500000000 → ¬badPair → s.src.entries.length = 9 →
      let offset : Int := (e.stamp.dt : Int) - secTicks x
      let q := p.label e.stamp offset
      let chosen := reexamine .first (s.setPath 8 (some q))
      let told : List TimescaleMsg :=
        if chosen.src.selected = some 8 then
          [.offset 8 0 offset] ++ (if off = none ∧ l = none then [] else [.pair 8 off l e.stamp.dt])
        else []
      let u : State := { chosen with flight := { chosen.flight with toTimescale := chosen.flight.toTimescale ++ told } }
      (∃ r, u.path 8 = some r ∧
        exec (.refLabel ag o x off l) s =
          .next (respond ag .ok (.labelled offset r.state)
            { u with flight := { u.flight with renewals := u.flight.renewals ++ [⟨ag, s.holdsGrant ag⟩] } })) ∧
      q.edge = some ⟨e.stamp, true⟩ ∧ q.lastArrival = some e.stamp ∧ q.lastOffset = some offset ∧ q.seen = bump32 p.seen ∧
      q.deadline = some (max (p.deadline.getD 0) (e.stamp.el + 3000000000)) ∧
      (p.state = .stale → q.state = .listen ∧ q.listenCount = 1 ∧ q.staleSince = none ∧ q.filter = ⟨none, 0, 0, 0⟩) ∧
      (p.state = .listen → p.listenCount ≤ 2 → q.listenCount = min (p.listenCount + 1) 2 ∧
        (q.state = if 1 ≤ p.listenCount ∧ p.cls ≤ 13 then .candidate else .listen)) ∧
      (p.state = .candidate ∨ p.state = .selected → q.state = p.state ∧ q.listenCount = p.listenCount)))

/-- An ORIGIN at the source table (R69, R70): discarded whole while its port is not UP or for an interval exponent outside
-4 … 4; counted alone by a BARRED path; dropped by a live path for a sequence that is not newer. Otherwise a known path
takes it, a STALE one afresh in LISTEN; an unknown pair creates a path in LISTEN in the lowest free entry while its network
has fewer than four, and is otherwise dropped and counted at the port.

A path takes a frame (R70, R71, R72): the fields of the frame and its arrival, the listen count, the stale deadline of three
declared intervals; then the state tests; then the offset arrival - (departure + delay), absent without a delay; then
selection, a change of class being reported; last, if the path is selected, offset and UTC pair go to the timescale unit. -/
def Obligations.OriginsReachTheirPaths : Prop :=
  (∀ (s : State) (m : OriginMsg) (rest : List OriginMsg), s.flight.origins = m :: rest →
    let u : State := { s with flight := { s.flight with origins := rest } }
    let up := (s.port m.net).state = .up ∧ -4 ≤ m.exponent ∧ m.exponent ≤ 4
    let own := fun (e : Option SourcePath) => ∃ p, e = some p ∧ p.identity = m.identity ∧ p.net = some m.net
    let stranger := ∀ i, i < 8 → ¬own (s.path i)
    let count := (List.range 8).countP fun i => (s.path i).any fun p => p.net == some m.net
    (¬up → exec .originTaken s = .next u) ∧
    (∀ i p, up → i < 8 → s.path i = some p → own (s.path i) → (∀ j, j < i → ¬own (s.path j)) →
      (p.state = .barred → exec .originTaken s = .next (u.setPath i (some { p with seen := bump32 p.seen }))) ∧
      (p.state = .stale → exec .originTaken s = .next (takeFrame i m p.afresh u)) ∧
      (∀ last, p.state.live = true → p.lastSeq = some last →
        let newer := 1 ≤ (m.seq + 65536 - last) % 65536 ∧ (m.seq + 65536 - last) % 65536 ≤ 32768
        (newer → exec .originTaken s = .next (takeFrame i m p u)) ∧ (¬newer → exec .originTaken s = .next u))) ∧
    (∀ i, up → s.src.entries.length = 9 → stranger → count < 4 → i < 8 → s.path i = none →
      (∀ j, j < i → (s.path j).isSome = true) →
      exec .originTaken s =
        .next (takeFrame i m
          ⟨m.identity, some m.net, .listen, m.cls, m.accuracy, m.exponent, none, none, 0, ⟨none, 0, 0, 0⟩, some 0, none, 0,
            none, none, none, none⟩ u)) ∧
    (up → s.src.entries.length = 9 → stranger → 4 ≤ count →
      let p := s.port m.net
      exec .originTaken s =
        .next (u.setPort m.net { p with counters := { p.counters with tableFull := bump32 p.counters.tableFull } }))) ∧
  (∀ (i : Nat) (m : OriginMsg) (p : SourcePath) (s : State),
    let listen := if p.state = .listen then min (p.listenCount + 1) 2 else p.listenCount
    let q := { p with
      lastSeq := some m.seq, cls := m.cls, accuracy := m.accuracy, exponent := m.exponent, lastArrival := some m.stamp
      seen := bump32 p.seen, listenCount := listen
      deadline := some (m.stamp.el + 187500000 * 2 ^ (m.exponent + 4).toNat) }
    let back := p.state.live = true ∧ p.state ≠ .listen ∧ (14 ≤ m.cls ∨ p.filter.value = none)
    let up := p.state = .listen ∧ m.cls ≤ 13 ∧ 2 ≤ listen ∧ 1 ≤ p.filter.count
    let tested := if back then { q with state := .listen, listenCount := 0 } else if up then { q with state := .candidate } else q
    let offset : Option Int := p.filter.value.map fun d => (m.stamp.dt : Int) - ((m.departure + d : Nat) : Int)
    let chosen := reexamine .first (s.setPath i (some { tested with lastOffset := offset }))
    let told := if m.cls ≠ p.cls then reportClass i chosen else chosen
    p.state ≠ .barred → p.state ≠ .stale →
    takeFrame i m p s =
      if chosen.src.selected = some i then
        { told with flight := { told.flight with
          toTimescale := told.flight.toTimescale ++
            (match offset with | some x => [.offset i m.exponent x] | none => []) ++
            [.pair i (some m.utc) (some m.leap) m.stamp.dt] } }
      else told)

/-- Samples and misses of source paths (R74): discarded unless the path is still asked; a sample goes through the filter and
sets the miss count to 0, and one that is no outlier brings the state tests of R72; a miss count of 4 makes the path STALE.

Samples on their way that are taken before the end of their target (R64, log entry 10): those that are named, oldest first,
each as the table takes a sample, the others staying on their way. -/
def Obligations.SourceSamplesAndMissesAreTaken : Prop :=
  (∀ (s : State) (m : SampleMsg) (rest : List SampleMsg), s.flight.sourceSamples = m :: rest →
    let u : State := { s with flight := { s.flight with sourceSamples := rest } }
    (∀ i id p, m.target = .path i id → s.path i = some p → p.identity = id → p.state.live = true →
      let f := filterTake s.echo.outlier p.filter m.sample
      let q := { p with filter := f.1, miss := some 0 }
      (f.2 = .outlier → exec .sourceSample s = .next (u.setPath i (some q))) ∧
      (f.2 ≠ .outlier → exec .sourceSample s = .next (reexamine .first (u.setPath i (some q.tested))))) ∧
    ((∀ i id p, m.target = .path i id → s.path i = some p → p.identity = id → p.state.live = false) →
      exec .sourceSample s = .next u)) ∧
  (∀ (s : State) (m : MissMsg) (rest : List MissMsg), s.flight.sourceMisses = m :: rest →
    let u : State := { s with flight := { s.flight with sourceMisses := rest } }
    (∀ i id p, m.target = .path i id → s.path i = some p → p.identity = id → p.state.live = true →
      (p.miss.getD 0 < 4 → exec .sourceMiss s = .next u) ∧
      (4 ≤ p.miss.getD 0 → ∃ q, (settlePath i p u).path i = some q ∧ q.identity = id ∧
        let r := { q with state := .stale, staleSince := some m.el, deadline := none, lastOffset := none }
        exec .sourceMiss s = .next (reexamine .first (endAsks (.path i id) ((settlePath i p u).setPath i (some r)))))) ∧
    ((∀ i id p, m.target = .path i id → s.path i = some p → p.identity = id → p.state.live = false) →
      exec .sourceMiss s = .next u)) ∧
  (∀ (g : SampleMsg → Bool) (s : State),
    let l := s.flight.sourceSamples
    ((∀ m ∈ l, g m = false) → settleSamples g s = s) ∧
    (∀ before m after, l = before ++ m :: after → (∀ x ∈ before, g x = false) → g m = true →
      ∃ v, exec .sourceSample { s with flight := { s.flight with sourceSamples := m :: (before ++ after) } } = .next v ∧
        settleSamples g s = settleSamples g v) ∧
    (∀ i p, settlePath i p s = settleSamples (fun m => m.target == .path i p.identity) s)) ∧
  (∀ s : State, (s.flight.sourceSamples = [] → exec .sourceSample s = .next s) ∧
    (s.flight.sourceMisses = [] → exec .sourceMiss s = .next s) ∧ (s.flight.origins = [] → exec .originTaken s = .next s) ∧
    (s.flight.refEdges = [] → exec .refEdge s = .next s))

/-- Ageing of paths (R73, R75, R81): a network path, and the reference path, goes STALE at its deadline, since that EL, samples
on their way taken (R64, log entry 10), its asks ended and selection re-examined; a network path that has been STALE for 60 s
is removed; before that nothing happens. -/
def Obligations.PathsAgeAndAreRemoved : Prop :=
  (∀ (i : Nat) (c : Instr) (s : State), (i < 8 ∧ c = .staleDeadline i) ∨ (i = 8 ∧ c = .refDeadline) →
    (∀ p d, s.path i = some p → p.state.live = true → p.deadline = some d →
      (s.ts.el < d → exec c s = .next s) ∧
      (d ≤ s.ts.el → ∃ q, (settlePath i p s).path i = some q ∧ q.identity = p.identity ∧
        let r := { q with state := .stale, staleSince := some d, deadline := none, lastOffset := none }
        exec c s = .next (reexamine .first (endAsks (.path i p.identity) ((settlePath i p s).setPath i (some r)))))) ∧
    (∀ p, s.path i = some p → p.state.live = false ∨ p.deadline = none → exec c s = .next s) ∧
    (s.path i = none → exec c s = .next s)) ∧
  (∀ (i : Nat) (s : State),
    (∀ p t, i < 8 → s.path i = some p → p.state = .stale → p.staleSince = some t →
      (s.ts.el < t + 60000000000 → exec (.staleRemoval i) s = .next s) ∧
      (t + 60000000000 ≤ s.ts.el →
        exec (.staleRemoval i) s = .next (reexamine .first (endAsks (.path i p.identity) (s.setPath i none))))) ∧
    (∀ p, s.path i = some p → p.state ≠ .stale → exec (.staleRemoval i) s = .next s) ∧
    (8 ≤ i → exec (.staleRemoval i) s = .next s))

/-! ## Clients (chapter 5) -/

/-- CLIENT-ADD, CLIENT-REMOVE and CLIENT-READ (R99, R100, R101). A removal frees the slot, ends the asks of its presences
(R64) and raises CLIENT, REMOVED by the agent, toward agent 0; samples and misses of its presences that are on their way are
void (log entry 10). -/
def Obligations.ClientRequestsAreTaken : Prop :=
  (∀ (ag : Agent) (o : Options) (id : Nat) (s : State), s.takesNow ag ⟨o, .clientAdd id⟩ = true →
    ((∃ (i : Nat) (c : Client), s.cli.slots[i]? = some (some c) ∧ c.identity = id) →
      exec (.clientAdd ag o id) s = .next (respond ag .range .empty s)) ∧
    ((∀ (i : Nat) (c : Client), s.cli.slots[i]? = some (some c) → c.identity ≠ id) →
      (s.cli.slots.all Option.isSome = true → exec (.clientAdd ag o id) s = .next (respond ag .full .empty s)) ∧
      (∀ i, s.cli.slots[i]? = some none → (∀ j, j < i → s.cli.slots[j]? ≠ some none) →
        exec (.clientAdd ag o id) s =
          .next (respond ag .ok (.slot i) { s with cli := { s.cli with
            slots := s.cli.slots.set i (some ⟨id, .expected, .agent, none, ⟨none, none⟩, none, 0⟩) } })))) ∧
  (∀ (ag : Agent) (o : Options) (i : Nat) (s : State), s.takesNow ag ⟨o, .clientRemove i⟩ = true →
    (48 ≤ i → exec (.clientRemove ag o i) s = .next (respond ag .range .empty s)) ∧
    (i < 48 → s.client i = none → exec (.clientRemove ag o i) s = .next (respond ag .noEntry .empty s)) ∧
    (∀ c, i < 48 → s.client i = some c →
      let u := voidPresences i c.identity s
      exec (.clientRemove ag o i) s =
        .next (respond ag .ok (.identity c.identity)
          (raiseTo .agent0 (.client ⟨i, c.identity, .removed, some .agent, none⟩)
            { u with cli := { s.cli with slots := s.cli.slots.set i none } })))) ∧
  (∀ (i id : Nat) (s : State),
    let t : Target := .client i id
    let p := s.ports
    voidPresences i id s = { s with
      ports := ⟨endAsksWhere (fun a => a.target == t) p.a, endAsksWhere (fun a => a.target == t) p.b⟩
      flight := { s.flight with
        clientSamples := s.flight.clientSamples.filter fun m => m.target != t
        clientMisses := s.flight.clientMisses.filter fun m => m.target != t } }) ∧
  (∀ (ag : Agent) (o : Options) (x : Option Nat) (s : State), s.takesNow ag ⟨o, .clientRead x⟩ = true →
    (x = none → exec (.clientRead ag o x) s =
      .next (respond ag .ok
        (.clients
          (s.cli.slots.map fun y => y.map fun c =>
            ⟨c.identity, c.state, c.by_,
              ⟨c.presences.a.map fun p => p.filter.value, c.presences.b.map fun p => p.filter.value⟩⟩)
          (s.cli.slots.countP Option.isSome) s.cli.autoAdmit s.cli.refusedFull s.cli.refusedClosed) s)) ∧
    (∀ i, x = some i → 48 ≤ i → exec (.clientRead ag o x) s = .next (respond ag .range .empty s)) ∧
    (∀ i, x = some i → i < 48 → s.client i = none → exec (.clientRead ag o x) s = .next (respond ag .noEntry .empty s)) ∧
    (∀ i c, x = some i → i < 48 → s.client i = some c →
      let asked := fun n => (s.port n).asks.any fun a => a.target == .client i c.identity
      exec (.clientRead ag o x) s = .next (respond ag .ok (.client i c ⟨asked .netA, asked .netB⟩) s)))

/-- A REGISTER at the client table (R90, R91, R92): not taken while its port is not UP. A known identity keeps its slot: from
EXPECTED and LAPSED it is admitted in MEASURING with a fresh presence on the arriving network alone, in MEASURING and SERVED
it keeps what it has and gains the presence it lacked; samples and misses of the former presences of a LAPSED client that are
on their way are void (the model's choice, log entry 10). An unknown one is refused FULL or CLOSED and counted, or takes the
lowest free slot as AUTO. Each REGISTER taken places one ADMIT on its port, which bears the part identity of this instant (log
entry 37). -/
def Obligations.RegisterIsAnswered : Prop :=
  ∀ (s : State) (m : RegisterMsg) (rest : List RegisterMsg), s.flight.registers = m :: rest →
    let u : State := { s with flight := { s.flight with registers := rest } }
    let up := (s.port m.net).state = .up
    let fresh : Option Presence := some ⟨⟨none, 0, 0, 0⟩, 0, m.stamp.el⟩
    let alone : PerNet (Option Presence) := (⟨none, none⟩ : PerNet (Option Presence)).set m.net fresh
    let stranger := ∀ (i : Nat) (c : Client), s.cli.slots[i]? = some (some c) → c.identity ≠ m.identity
    let admits := fun (st : Status) (slot : Nat) (v : State) =>
      exec .registerTaken s =
        .next (v.setPort m.net (placeClass1 (.admission s.wire.part m.identity m.seq st slot) (v.port m.net)).1)
    (¬up → exec .registerTaken s = .next u) ∧
    (∀ i c, up → s.cli.slots[i]? = some (some c) → c.identity = m.identity →
      (∀ (j : Nat) (d : Client), j < i → s.cli.slots[j]? = some (some d) → d.identity ≠ m.identity) →
      let c1 := { c with regSeq := some m.seq, taken := bump32 c.taken }
      (c.state = .expected →
        admits .ok i
          ((raiseTo .agent0 (.client ⟨i, c.identity, .admitted, some .expected, some m.net⟩) u).setClient i
            (some { c1 with state := .measuring, lapsedSince := none, presences := alone }))) ∧
      (c.state = .lapsed →
        admits .ok i
          ((raiseTo .agent0 (.client ⟨i, c.identity, .admitted, some .back, some m.net⟩)
            (voidPresences i c.identity u)).setClient i
              (some { c1 with state := .measuring, lapsedSince := none, presences := alone }))) ∧
      (c.state = .measuring ∨ c.state = .served →
        ((c.presences.get m.net).isSome = true → admits .ok i (u.setClient i (some c1))) ∧
        (c.presences.get m.net = none →
          admits .ok i (u.setClient i (some { c1 with presences := c.presences.set m.net fresh }))))) ∧
    (up → stranger → s.cli.slots.all Option.isSome = true →
      admits .full 0 { u with cli := { s.cli with refusedFull := bump32 s.cli.refusedFull } }) ∧
    (∀ i, up → stranger → s.cli.slots[i]? = some none → (∀ j, j < i → s.cli.slots[j]? ≠ some none) →
      (s.cli.autoAdmit = false →
        admits .closed 0 { u with cli := { s.cli with refusedClosed := bump32 s.cli.refusedClosed } }) ∧
      (s.cli.autoAdmit = true →
        admits .ok i
          (raiseTo .agent0 (.client ⟨i, m.identity, .admitted, some .auto, some m.net⟩)
            (u.setClient i (some ⟨m.identity, .measuring, .auto, some m.seq, alone, none, 1⟩)))))

/-- Samples and misses of client presences and the lapse timer (R93, R94, R97, R98): both are discarded unless the presence
exists and its client is asked; a sample goes through the filter, and a fourth kept one brings a MEASURING client to SERVED;
a miss lapses the client when no presence of it has a miss count below 4; after 60 s an AUTO record is removed and an AGENT
one returns to EXPECTED.

Samples on their way are taken before their client lapses (R64), those that are named, oldest first; samples and misses of
the presences that the lapse timer ends are void (the model's choice, log entry 10). -/
def Obligations.ClientsAreServedAndLapse : Prop :=
  (∀ (s : State) (m : SampleMsg) (rest : List SampleMsg), s.flight.clientSamples = m :: rest →
    let u : State := { s with flight := { s.flight with clientSamples := rest } }
    (∀ i id c p, m.target = .client i id → s.client i = some c → c.identity = id → c.presences.get m.net = some p →
      c.state = .measuring ∨ c.state = .served →
      let f := filterTake s.echo.outlier p.filter m.sample
      exec .clientSample s =
        .next (u.setClient i (some { c with
          state := if f.2 = .kept ∧ 4 ≤ f.1.count then .served else c.state
          presences := c.presences.set m.net (some { p with filter := f.1, miss := 0 }) }))) ∧
    ((∀ i id c, m.target = .client i id → s.client i = some c → c.identity = id →
      c.presences.get m.net = none ∨ c.state = .expected ∨ c.state = .lapsed) → exec .clientSample s = .next u)) ∧
  (∀ (s : State) (m : MissMsg) (rest : List MissMsg), s.flight.clientMisses = m :: rest →
    let u : State := { s with flight := { s.flight with clientMisses := rest } }
    (∀ i id c, m.target = .client i id → s.client i = some c → c.identity = id → (c.presences.get m.net).isSome = true →
      c.state = .measuring ∨ c.state = .served →
      ((∃ n p, c.presences.get n = some p ∧ p.miss < 4) → exec .clientMiss s = .next u) ∧
      ((∀ n p, c.presences.get n = some p → 4 ≤ p.miss) → ∃ d, (settleClient i id u).client i = some d ∧ d.identity = id ∧
        exec .clientMiss s =
          .next (raiseTo .agent0 (.client ⟨i, id, .lapsed, some .misses, none⟩)
            (endAsks (.client i id)
              ((settleClient i id u).setClient i (some { d with state := .lapsed, lapsedSince := some m.el })))))) ∧
    ((∀ i id c, m.target = .client i id → s.client i = some c → c.identity = id →
      c.presences.get m.net = none ∨ c.state = .expected ∨ c.state = .lapsed) → exec .clientMiss s = .next u)) ∧
  (∀ (i : Nat) (s : State),
    (∀ c t, s.client i = some c → c.state = .lapsed → c.lapsedSince = some t →
      (s.ts.el < t + 60000000000 → exec (.lapseTimer i) s = .next s) ∧
      (t + 60000000000 ≤ s.ts.el →
        let u := voidPresences i c.identity s
        (c.by_ = .auto → exec (.lapseTimer i) s =
          .next (raiseTo .agent0 (.client ⟨i, c.identity, .removed, some .timeout, none⟩) (u.setClient i none))) ∧
        (c.by_ = .agent → exec (.lapseTimer i) s =
          .next (raiseTo .agent0 (.client ⟨i, c.identity, .released, none, none⟩)
            (u.setClient i (some { c with
              state := .expected, presences := ⟨none, none⟩, regSeq := none, lapsedSince := none })))))) ∧
    (∀ c, s.client i = some c → c.state ≠ .lapsed → exec (.lapseTimer i) s = .next s) ∧
    (s.client i = none → exec (.lapseTimer i) s = .next s)) ∧
  (∀ (g : SampleMsg → Bool) (s : State),
    let l := s.flight.clientSamples
    ((∀ m ∈ l, g m = false) → settlePresences g s = s) ∧
    (∀ before m after, l = before ++ m :: after → (∀ x ∈ before, g x = false) → g m = true →
      ∃ v, exec .clientSample { s with flight := { s.flight with clientSamples := m :: (before ++ after) } } = .next v ∧
        settlePresences g s = settlePresences g v) ∧
    (∀ i id, settleClient i id s = settlePresences (fun m => m.target == .client i id) s)) ∧
  (∀ s : State, (s.flight.registers = [] → exec .registerTaken s = .next s) ∧
    (s.flight.clientSamples = [] → exec .clientSample s = .next s) ∧
    (s.flight.clientMisses = [] → exec .clientMiss s = .next s))

/-! ## Epochs (chapter 6) -/

/-- An epoch instant (R108, R109, R110) is made when DT reaches it: the sequence is taken and moves on, each UP port gets an
EPOCH of the fields as they stand (the part identity among them, log entry 37) with its correction list, its cursor and last
list moving on, the other ports get none, and the next instant is one period later (none beyond the range of DT, log entry
8). While step reports wait, the DT that counts is that before the oldest of those steps: an instant reached before it may
still be taken first, and one after it is left to the reports (R104, R106, log entry 12).

The correction list of a frame (R96, R111): at most 12 entries, no slot twice, each a slot whose client is SERVED with a
presence and delay value on the network, with that value; all of them where 12 or fewer are offered; taken upward from the
cursor and on from slot 0, so that no slot left out lies before one taken; the cursor becomes the slot after the last. -/
def Obligations.EpochsAreMadeWithTheirCorrections : Prop :=
  (∀ s : State,
    (s.epoch.next = none → exec .epochInstant s = .next s) ∧
    (∀ t, s.epoch.next = some t → s.flight.toEpoch = [] → s.ts.dt < t → exec .epochInstant s = .next s) ∧
    (∀ t old new rest, s.epoch.next = some t → s.flight.toEpoch = (old, new) :: rest → old < t →
      exec .epochInstant s = .next s) ∧
    (∀ t, s.epoch.next = some t → (s.flight.toEpoch = [] → t ≤ s.ts.dt) →
      (∀ old new rest, s.flight.toEpoch = (old, new) :: rest → t ≤ old) →
      let e := s.epoch
      let list := fun n => correctionList (e.cursor.get n) (offered n s.cli)
      let frame := fun n : Net => ({
        origin := s.wire.part, seq := e.seq, utc := s.ts.utc, leap := s.ts.leap, quality := s.ts.quality
        servo := s.ts.servo, selected := s.selectedPath.map SourcePath.identity
        holdAge := if s.ts.servo = .holdover then some s.ts.holdAge else none, corrections := list n } : EpochFrame)
      let isUp := fun n => (s.port n).state = .up
      let port := fun n => if isUp n then placeEpoch (frame n) (s.port n) else s.port n
      let cursor := fun n => if isUp n then cursorAfter (e.cursor.get n) (list n) else e.cursor.get n
      let last := fun n => if isUp n then (list n).map Prod.fst else e.lastList.get n
      let next := t + nsTicks (1000000000 / 2 ^ e.exponent)
      exec .epochInstant s =
        .next { s with
          ports := ⟨port .netA, port .netB⟩
          epoch := {
            exponent := e.exponent, next := if next < timeEnd then some next else none, seq := (e.seq + 1) % 65536
            cursor := ⟨cursor .netA, cursor .netB⟩, lastList := ⟨last .netA, last .netB⟩ } })) ∧
  (∀ (n : Net) (t : ClientTable) (cursor : Nat), t.slots.length = 48 → cursor < 48 →
    let l := offered n t
    let c := correctionList cursor l
    let place := fun i : Nat => (i + 48 - cursor) % 48
    (∀ i d, (i, d) ∈ l ↔ ∃ x p, t.slots[i]? = some (some x) ∧ x.state = .served ∧ x.presences.get n = some p ∧
      p.filter.value = some d) ∧
    (∀ e ∈ c, e ∈ l) ∧ c.length = min 12 l.length ∧ c.Pairwise (fun a b => place a.1 < place b.1) ∧
    (∀ a ∈ c, ∀ b ∈ l, b ∉ c → place a.1 < place b.1) ∧
    (c = [] → cursorAfter cursor c = cursor) ∧
    (∀ x e, c = x ++ [e] → cursorAfter cursor c = if e.1 = 47 then 0 else e.1 + 1))

/-- EPOCH-CONFIG (R107), EPOCH-READ (R114) and a step report (R106): the period is 1 s ÷ 2^k; the next instant becomes the
first multiple of the period strictly after DT, or after the DT that the step left, and none while the time is unset or
where that multiple lies beyond the range of DT (log entry 8); sequence, cursors and last lists stay. Step reports that wait
are taken before an EPOCH-CONFIG, which sets the next instant anew from the present DT (log entry 12). -/
def Obligations.EpochsAreConfiguredAndRealigned : Prop :=
  (∀ (ag : Agent) (o : Options) (k : Nat) (s : State), s.takesNow ag ⟨o, .epochConfig k⟩ = true →
    let next := if s.ts.timeSet then firstEpochAfter k s.ts.dt else none
    (4 < k → exec (.epochConfig ag o k) s = .next (respond ag .range .empty s)) ∧
    (k ≤ 4 → exec (.epochConfig ag o k) s =
      .next (respond ag .ok (.epochConfig (1000000000 / 2 ^ k) next)
        { s with
          epoch := { s.epoch with exponent := k, next := next }, flight := { s.flight with toEpoch := [] } }))) ∧
  (∀ (ag : Agent) (o : Options) (s : State), s.takesNow ag ⟨o, .epochRead⟩ = true →
    let e := s.epoch
    exec (.epochRead ag o) s = .next (respond ag .ok
      (.epoch ⟨e.exponent, 1000000000 / 2 ^ e.exponent, e.next, e.seq, e.cursor, e.lastList⟩) s)) ∧
  (∀ s : State, (s.flight.toEpoch = [] → exec .epochStepReport s = .next s) ∧
    (∀ old new rest, s.flight.toEpoch = (old, new) :: rest →
      exec .epochStepReport s =
        .next { s with
          flight := { s.flight with toEpoch := rest }
          epoch := { s.epoch with next := if s.ts.timeSet then firstEpochAfter s.epoch.exponent new else none } })) ∧
  (∀ (k : Nat) (d : Ticks), k ≤ 4 →
    let p := 1000000000 / 2 ^ k * 65536
    (∀ t, firstEpochAfter k d = some t ↔ p ∣ t ∧ d < t ∧ t ≤ d + p ∧ t < timeEnd) ∧
    (firstEpochAfter k d = none ↔ ∀ t, p ∣ t → d < t → timeEnd ≤ t))

/-! ## The schedule (chapter 7) -/

/-- The schedule's arbiter (R120): of the agents with a request waiting it serves the first after the one last served; a
request that does not have its turn waits in hand.

QUOTA-SET (R117): refused with RANGE when the quotas sum to more than 64 or one is below a present use, otherwise the three
take the new values; either answer carries quotas and uses. -/
def Obligations.ArbiterServesInTurnAndQuotasAreSet : Prop :=
  ((∀ s : State,
    let a := s.sched.lastServed
    let w := s.waitsAtArbiter
    s.arbiterChoice = if w a.next then some a.next else if w a.next.next then some a.next.next else if w a then some a else none) ∧
  (∀ (ag : Agent) (q : Submitted) (s : State), s.acceptsRequest ag q = true → q.req.atArbiter = true →
    (s.withRequest ag q).arbiterChoice ≠ some ag →
    exec (requestCommand ag q) s = .next (s.setUnit ag { s.unit ag with link := .busy q }))) ∧
  (∀ (ag : Agent) (o : Options) (q0 q1 q2 : Nat) (s : State), s.takesNow ag ⟨o, .quotaSet q0 q1 q2⟩ = true →
    let c := s.sched
    let uses : PerAgent Nat := ⟨c.use .agent0, c.use .agent1, c.use .agent2⟩
    let bad := 64 < q0 + q1 + q2 ∨ q0 < uses.a0 ∨ q1 < uses.a1 ∨ q2 < uses.a2
    (bad → exec (.quotaSet ag o q0 q1 q2) s =
      .next (respond ag .range (.quotas c.quotas uses) { s with sched := { c with lastServed := ag } })) ∧
    (¬bad → exec (.quotaSet ag o q0 q1 q2) s =
      .next (respond ag .ok (.quotas ⟨q0, q1, q2⟩ uses)
        { s with sched := { c with lastServed := ag, quotas := ⟨q0, q1, q2⟩ } })))

/-- An accepted SCHED-ADD (R116, R118, R124): while the agent is below its quota a free index is found, the lowest is taken
with the next generation, the entry takes the acceptance sequence and its place in its list, the update option writes the
key to the cursor, and handle, domain, due and key are returned: those accepted, where late-ok then fires a train (log entry
50). With late-ok, a key before the present plus 2 µs fires at once, LATE, and a train goes on past the later of that key
and the present (R127). An acceptance that finds the counter at its end renumbers the live entries from 1 in the order of
their acceptance first (R118). Steps whose reports wait had not reached the new key (the model's choice, log entry 12). -/
def Obligations.ScheduleTakesAnEntry : Prop :=
  ∀ (ag : Agent) (o : Options) (r : AddRequest) (x : Resolved) (s : State), s.takesNow ag ⟨o, .schedAdd r⟩ = true →
    ScheduleInOrder s.sched → (∀ v, o.condition = some v → (s.ctx ag).compare = v) → (r.domain = .el ∨ s.ts.timeSet = true) →
    resolveAdd (s.ctx ag) r s.ts = some x → (∀ l ∈ x.action.lines, (s.output l).owner = some ag) →
    s.sched.use ag < s.sched.quotas.get ag →
    let now := if r.domain = .el then nsTicks s.ts.el else s.ts.dt
    let early := x.key < now + 131072000
    let live := s.sched.entries
    let rank := fun e : Entry => live.countP fun y => decide (y.accept ≤ e.accept)
    let ranked := fun e : Entry => { e with accept := rank e }
    let c : Schedule := if s.sched.counter < 4294967295 then s.sched else { s.sched with
      timescale := s.sched.timescale.map ranked, elapsed := s.sched.elapsed.map ranked, counter := live.length + 1 }
    (∀ e ∈ live, 1 ≤ rank e ∧ rank e ≤ live.length) ∧ (∀ a ∈ live, ∀ b ∈ live, a.accept < b.accept → rank a < rank b) ∧
    ((early → o.lateOk = true) →
    ∃ i, i < 64 ∧ (∀ e ∈ live, e.handle.index ≠ i) ∧ (∀ j, j < i → ∃ e ∈ live, e.handle.index = j) ∧
      let h : Handle := ⟨i, (s.sched.generations.getD i 0 + 1) % 256⟩
      let e : Entry := ⟨h, ag, r.domain, x.due, x.key, x.shifted, x.action, x.train, r.notify, none, c.counter⟩
      let joined : Schedule := { c with
        timescale := if r.domain = .el then c.timescale else placeEntry e c.timescale
        elapsed := if r.domain = .el then placeEntry e c.elapsed else c.elapsed
        generations := c.generations.set i h.generation, counter := c.counter + 1, lastServed := ag }
      let told := s.flight.toSchedule.map fun m => match m with
        | .step old new removed later => .step old new removed (i :: later)
        | .change removed => .change removed
      let u := ({ s with sched := joined, flight := { s.flight with toSchedule := told } } : State).setCtx ag
        { s.ctx ag with cursor := if o.update then .valid x.key else (s.ctx ag).cursor }
      exec (.schedAdd ag o r) s =
        .next (respond ag .ok (.added h r.domain x.due x.key) (if early then fire true false (max now x.key) e u else u)))

/-- A SCHED-ADD is refused by the first check of R123 that fails; a refusal changes no entry, use or cursor.

What the RANGE row of R123 makes of a SCHED-ADD (R119, R121, R122): it resolves exactly where all of these hold, and to
these values: the due on the scale of the domain, absolute, from the cursor or from the present, each in range; the key by
the domain (an EL key in the range of EL: log entry 21; a UT due and its key in range: log entry 46); a line of an action an
output, a span of outputs, a level of 1 … 15; a period of 10 µs … 86,400 s, and no repeat count without one, an absent count
beside a period being 0 (log entry 20); a notify level of 1 … 15; a key at most 30 days ahead. -/
def Obligations.ScheduleChecksAndResolvesRequests : Prop :=
  (∀ (ag : Agent) (o : Options) (r : AddRequest) (s : State), s.takesNow ag ⟨o, .schedAdd r⟩ = true →
    let refused := fun st => exec (.schedAdd ag o r) s =
      .next (respond ag st .empty { s with sched := { s.sched with lastServed := ag } })
    let passes1 := ∀ v, o.condition = some v → (s.ctx ag).compare = v
    let passes2 := r.domain = .el ∨ s.ts.timeSet = true
    let now := if r.domain = .el then nsTicks s.ts.el else s.ts.dt
    (¬passes1 → refused .condition) ∧
    (passes1 → ¬passes2 → refused .state) ∧
    (passes1 → passes2 → resolveAdd (s.ctx ag) r s.ts = none → refused .range) ∧
    (∀ x, passes1 → passes2 → resolveAdd (s.ctx ag) r s.ts = some x →
      let passes4 := ∀ l ∈ x.action.lines, (s.output l).owner = some ag
      (¬passes4 → refused .lineOwner) ∧
      (passes4 → s.sched.quotas.get ag ≤ s.sched.use ag → refused .full) ∧
      (passes4 → s.sched.use ag < s.sched.quotas.get ag → x.key < now + 131072000 → o.lateOk = false → refused .tooLate))) ∧
  (∀ (c : Context) (r : AddRequest) (t : Timescale) (x : Resolved),
    let sums := fun (base : Int) (i : IntervalField) =>
      ∃ d, intervalVal i = .valid d ∧ (x.due : Int) = base + d ∧ x.due < timeEnd
    let civil := (toUt t.utc t.leap t.dt).1
    let keyed := toDt t.utc t.leap x.due
    let line := fun (d : Int) (l : Nat) => (l : Int) = c.lineBase + d ∧ l < 24
    resolveAdd c r t = some x ↔
      (match r.due with
        | .absolute f => expand c.base f = .valid x.due
        | .cursorPlus i => ∃ u, c.cursor = .valid u ∧ sums u i
        | .nowPlus i =>
          match r.domain with
          | .dt => sums t.dt i
          | .el => sums (nsTicks t.el) i
          | .ut => 0 ≤ civil ∧ civil < timeEnd ∧ sums civil i) ∧
      (match r.domain with
        | .dt => x.due < timeEnd ∧ x.key = x.due ∧ x.shifted = false
        | .el => x.due ≤ nsTicks 18446744073709551615 ∧ x.key = x.due ∧ x.shifted = false
        | .ut => x.due < timeEnd ∧ x.key < timeEnd ∧ ((x.key : Int), x.shifted) = keyed) ∧
      (match r.action with
        | .pulse d => ∃ l, line d l ∧ x.action = .pulse l
        | .set d => ∃ l, line d l ∧ x.action = .set l
        | .clear d => ∃ l, line d l ∧ x.action = .clear l
        | .load d n v => ∃ l, line d l ∧ l + (if n = 0 then 16 else n) ≤ 24 ∧ n ≤ 16 ∧ v < 65536 ∧
          x.action = .load l (if n = 0 then 16 else n) v
        | .alert a g => 1 ≤ a ∧ a ≤ 15 ∧ g < 65536 ∧ x.action = .alert a g) ∧
      (match r.period with
        | none => r.repeatCount = none ∧ x.train = none
        | some i => ∃ d, intervalVal i = .valid d ∧ 10000 * 65536 ≤ d ∧ d ≤ 86400 * (ticksPerSec : Int) ∧
          r.repeatCount.getD 0 < 65536 ∧ x.train = some ⟨d.toNat, r.repeatCount.getD 0, 0⟩) ∧
      (∀ n, r.notify = some n → 1 ≤ n ∧ n ≤ 15) ∧
      x.key ≤ (if r.domain = .el then nsTicks t.el else t.dt) + 2592000 * ticksPerSec)

/-- SCHED-CANCEL (R129) and SCHED-READ (R130) name an entry of the requester (R116): an index above 63 is refused with RANGE,
a free one, another generation or another owner with NO_ENTRY. A cancelled entry leaves its list without action or alert;
reading changes nothing, and ALL returns the requester's use, quota and entries in firing order. -/
def Obligations.EntriesAreCancelledAndRead : Prop :=
  ∀ (ag : Agent) (o : Options) (h : Handle) (s : State),
    let u : State := { s with sched := { s.sched with lastServed := ag } }
    let mine := fun e : Entry => e ∈ s.sched.entries ∧ e.handle = h ∧ e.owner = ag
    (s.takesNow ag ⟨o, .schedCancel h⟩ = true →
      (64 ≤ h.index → exec (.schedCancel ag o h) s = .next (respond ag .range .empty u)) ∧
      (h.index < 64 → ScheduleInOrder s.sched → (∀ e, ¬mine e) →
        exec (.schedCancel ag o h) s = .next (respond ag .noEntry .empty u)) ∧
      (∀ e, h.index < 64 → ScheduleInOrder s.sched → mine e →
        exec (.schedCancel ag o h) s =
          .next (respond ag .ok (.cancelled e.last (e.train.map fun t => (t.skip, t.remaining)))
            { u with sched := { u.sched with
              timescale := s.sched.timescale.filter fun x => x != e, elapsed := s.sched.elapsed.filter fun x => x != e } }))) ∧
    (s.takesNow ag ⟨o, .schedRead (some h)⟩ = true →
      (64 ≤ h.index → exec (.schedRead ag o (some h)) s = .next (respond ag .range .empty u)) ∧
      (h.index < 64 → ScheduleInOrder s.sched → (∀ e, ¬mine e) →
        exec (.schedRead ag o (some h)) s = .next (respond ag .noEntry .empty u)) ∧
      (∀ e, h.index < 64 → ScheduleInOrder s.sched → mine e →
        exec (.schedRead ag o (some h)) s = .next (respond ag .ok (.entry e) u))) ∧
    (s.takesNow ag ⟨o, .schedRead none⟩ = true →
      exec (.schedRead ag o none) s =
        .next (respond ag .ok
          (.entries (s.sched.use ag) (s.sched.quotas.get ag)
            (((s.sched.timescale ++ s.sched.elapsed).filter fun e => e.owner == ag).map fun e =>
              (e.handle, e.domain, e.key))) u))

/-- A key is reached (R119, R125, R128): the first entry of the timescale list whose key is at or before DT fires, and the head of
the elapsed list whose key is at or before EL; otherwise nothing happens. While step reports wait, the DT that counts for a key of the timescale list is that before the oldest of
those steps that found the entry with its key: a key reached before that step may still be taken first, and one after it is
left to the reports (R131, log entry 12). -/
def Obligations.KeysAreReachedInOrder : Prop :=
  (∀ s : State,
    let reached := fun e : Entry =>
      (∃ before old new r later after, s.flight.toSchedule = before ++ .step old new r later :: after ∧
        (∀ old' new' r' later', .step old' new' r' later' ∈ before → e.handle.index ∈ later') ∧
        e.handle.index ∉ later ∧ e.key ≤ old) ∨
      ((∀ old new r later, .step old new r later ∈ s.flight.toSchedule → e.handle.index ∈ later) ∧ e.key ≤ s.ts.dt)
    ((∀ e ∈ s.sched.timescale, ¬reached e) → exec (.keyReached .timescale) s = .next s) ∧
    (∀ before e after, s.sched.timescale = before ++ e :: after → (∀ x ∈ before, ¬reached x) → reached e →
      exec (.keyReached .timescale) s = .next (fire false false e.key e s))) ∧
  (∀ s : State,
    (s.sched.elapsed = [] → exec (.keyReached .elapsed) s = .next s) ∧
    (∀ e l, s.sched.elapsed = e :: l →
      (s.ts.el * 65536 < e.key → exec (.keyReached .elapsed) s = .next s) ∧
      (e.key ≤ s.ts.el * 65536 → exec (.keyReached .elapsed) s = .next (fire false false e.key e s))))

/-- A firing (R125, R126, R127, R148): the action is performed whole when the owner owns every line of it and not at all
otherwise; the outcome is the first of SUPPRESSED, LATE, SHIFTED and ON_TIME that applies, a shifted entry that fires at
the application of the DELETE that removed its second being SHIFTED (R135, log entry 13); an ALERT action raises SCHEDULE; an
entry that does not go on leaves the schedule with SCHEDULE at its notify level, one that goes on keeps the outcome and takes
its place by key and acceptance in the list of its domain (R118).

An action (R142, R148): SET and CLEAR set the level of the line and end its pulse, PULSE makes it high with the pulse end at
EL plus the width of the line, LOAD sets each line of its span to its bit, ALERT changes nothing.

An entry after its firing (R127, R132): a one-shot entry is freed; a train goes on to its first due whose key lies after the
end of the span, with the key and the shifted mark of that due (R3), the occurrences passed over counting one each in the
skip count and against a bounded repeat count; it is freed where that count is spent or the next due has no key: one outside
the range of its list's clock, or a UT due of 2^48 s or more (the model's choice, log entry 46). -/
def Obligations.FiringsActAndTrainsGoOn : Prop :=
  (∀ (late applied : Bool) (bound : Ticks) (e : Entry) (s : State),
    let u := fire late applied bound e s
    let owns := ∀ l ∈ e.action.lines, (s.output l).owner = some e.owner
    let out : Schedule := { s.sched with
      timescale := s.sched.timescale.filter fun y => y.handle.index != e.handle.index
      elapsed := s.sched.elapsed.filter fun y => y.handle.index != e.handle.index }
    let raised := fun (x : FireOutcome) =>
      (match e.action with | .alert a g => [(⟨a, g, e.handle, x, 0⟩ : SchedAlert)] | _ => []) ++
      (match e.after s.ts.utc s.ts.leap bound, e.notify with
        | none, some a => [⟨a, e.action.tag, e.handle, x, 0⟩]
        | _, _ => [])
    let told := fun (x : FireOutcome) (v : State) =>
      { v with flight := { v.flight with
        schedRaises := v.flight.schedRaises.set e.owner (v.flight.schedRaises.get e.owner ++ raised x) } }
    let left := fun (x : FireOutcome) =>
      match e.after s.ts.utc s.ts.leap bound with
      | none => out
      | some e1 =>
        if e1.domain = .el then { out with elapsed := placeEntry { e1 with last := some x } out.elapsed }
        else { out with timescale := placeEntry { e1 with last := some x } out.timescale }
    let x : FireOutcome :=
      if applied = true ∧ e.shifted = true then .shifted else if late then .late else if e.shifted then .shifted else .onTime
    (owns → u = { told x (e.action.act s) with sched := left x }) ∧
    (¬owns → u = { told .suppressed s with sched := left .suppressed })) ∧
  (∀ (e : Entry) (l : List Entry), (placeEntry e l).Perm (e :: l) ∧
    (l.Pairwise Entry.notAfter → (placeEntry e l).Pairwise Entry.notAfter)) ∧
  (∀ (i : Nat) (o : Output) (s : State), s.lines.outputs[i]? = some o →
    let become := fun o1 : Output => ({ s with lines := { s.lines with outputs := s.lines.outputs.set i o1 } } : State)
    (Action.set i).act s = become { o with level := true, pulseEnd := none } ∧
    (Action.clear i).act s = become { o with level := false, pulseEnd := none } ∧
    (Action.pulse i).act s = become { o with level := true, pulseEnd := some (s.ts.el + o.width) }) ∧
  (∀ (i n v : Nat) (s : State), i + n ≤ s.lines.outputs.length →
    (Action.load i n v).act s = { s with lines := { s.lines with
      outputs := s.lines.outputs.zipIdx.map fun y =>
        if i ≤ y.2 ∧ y.2 < i + n then { y.1 with level := v.testBit (y.2 - i), pulseEnd := none } else y.1 } }) ∧
  (∀ (a g : Nat) (s : State), (Action.alert a g).act s = s) ∧
  ((∀ (off : Int) (l : Leap) (bound : Ticks) (e : Entry), e.train = none → e.after off l bound = none) ∧
  (∀ (off : Int) (l : Leap) (bound : Ticks) (e : Entry) (t : Train), e.train = some t → 0 < t.period →
    let key := fun j : Nat =>
      if e.domain = .ut then (toDt off l (e.due + j * t.period : Nat)).1 else ((e.due + j * t.period : Nat) : Int)
    ∃ n, 1 ≤ n ∧ (bound : Int) < key n ∧ (∀ j, 1 ≤ j → j < n → key j ≤ bound) ∧
      (t.remaining ≠ 0 → t.remaining ≤ n → e.after off l bound = none) ∧
      let due := e.due + n * t.period
      let keyed :=
        if e.domain = .el then due ≤ nsTicks 18446744073709551615
        else due < timeEnd ∧ 0 ≤ key n ∧ key n < (timeEnd : Int)
      let removed := match e.domain, l with
        | .ut, .delete m => decide (secTicks (m - 1) ≤ due) && decide ((due : Int) < secTicks m)
        | _, _ => false
      (t.remaining = 0 ∨ n < t.remaining → ¬keyed → e.after off l bound = none) ∧
      (t.remaining = 0 ∨ n < t.remaining → keyed → e.after off l bound =
        some { e with
          due := due, key := (key n).toNat, shifted := removed
          train := some { t with remaining := t.remaining - n, skip := min (t.skip + (n - 1)) 65535 } })))

/-- A step report (R131, R132, R133): on a backward step nothing fires and every entry stays. On a forward one the entries whose
keys were reached before the step, at or before the old DT and taken before the step, fire first, ON_TIME, each at its own key
(log entries 12, 13); then exactly the entries of the timescale list with keys in (old, new] fire, in list order, LATE, or
SHIFTED where the step applied a DELETE and they are the shifted entries of its removed second (log entry 13). Afterwards no key
of either kind is left, and the other entries, the elapsed list among them, stand as before.

A change of offset or announcement (R134, R135): the shifted entries whose key is the instant of an applied DELETE fire first,
SHIFTED, each moving on from its own key (log entry 27); then every UT entry that is left takes the key and mark of R3 under the pair now
standing, and its place by that key. One whose key has not changed stays as it was; one whose changed key lies after DT
stays with it; one whose changed key lies at or before DT fires, LATE or SHIFTED, in the order of the new keys. DT and EL
entries are not touched. That steps still waiting had not reached the changed keys (log entry 12), and that a key below the
range of DT counts as 0 and one beyond it is never reached (log entry 38), is the model's choice. -/
def Obligations.StepsAndChangesReachTheSchedule : Prop :=
  (∀ (old new : Ticks) (removed : Option Ticks) (later : List Nat) (rest : List ScheduleMsg) (s : State),
    s.flight.toSchedule = .step old new removed later :: rest →
    let u : State := { s with flight := { s.flight with toSchedule := rest } }
    (new ≤ old → exec .stepReport s = .next u) ∧
    let reached := fun e : Entry => e.key ≤ old ∧ e.handle.index ∉ later
    (∀ p e l, old < new → ScheduleInOrder s.sched → s.sched.timescale = p ++ e :: l → (∀ y ∈ p, ¬reached y) → reached e →
      exec .stepReport s = exec .stepReport (fire false false e.key e s)) ∧
    (old < new → (∀ e ∈ s.sched.timescale, ¬reached e) →
      exec .stepReport s = .next ((s.sched.timescale.filter fun e => decide (old < e.key) && decide (e.key ≤ new)).foldl
        (fun w e => fire true (decide (removed = some e.key)) new e w) u)) ∧
    (old < new → ScheduleInOrder s.sched → ∃ v, exec .stepReport s = .next v ∧ v.sched.elapsed = s.sched.elapsed ∧
      (∀ e ∈ v.sched.timescale, ¬reached e ∧ (e.key ≤ old ∨ new < e.key)) ∧
      (∀ e ∈ s.sched.timescale, ¬reached e → (e.key ≤ old ∨ new < e.key) → e ∈ v.sched.timescale))) ∧
  (∀ (removed : Option Ticks) (rest : List ScheduleMsg) (s : State),
    s.flight.toSchedule = .change removed :: rest → ScheduleInOrder s.sched →
    let u : State := { s with flight := { s.flight with toSchedule := rest } }
    let keyed := fun e : Entry => toDt s.ts.utc s.ts.leap e.due
    let moved := fun e : Entry => { e with key := (keyed e).1.toNat, shifted := (keyed e).2 }
    let first := s.sched.timescale.filter fun e => e.domain == .ut && (e.shifted && decide (removed = some e.key))
    let other := s.sched.timescale.filter fun e => e.domain == .ut && !(e.shifted && decide (removed = some e.key))
    let changed := (other.filter fun e : Entry => decide ((keyed e).1.toNat ≠ e.key)).map fun e => e.handle.index
    let s1 := first.foldl (fun w e => fire true true e.key e w) u
    ∃ (w v : State) (l : List Entry), exec .rekey s = .next v ∧ v = l.foldl (fun w e => fire true false s.ts.dt e w) w ∧
      w = { s1 with
        sched := { s1.sched with timescale := w.sched.timescale }
        flight := { s1.flight with toSchedule := rest.map fun m => match m with
          | .step old new r later => .step old new r (changed ++ later)
          | .change r => .change r } } ∧
      w.sched.timescale.Pairwise Entry.notAfter ∧
      (∀ x, x ∈ w.sched.timescale ↔
        (∃ e ∈ other, x = moved e) ∨ (x ∈ s1.sched.timescale ∧ ∀ e ∈ other, e.handle.index ≠ x.handle.index)) ∧
      l.Pairwise (fun a b => a.notAfter b ∧ a.handle.index ≠ b.handle.index) ∧
      (∀ x, x ∈ l ↔ ∃ e ∈ other, x = moved e ∧ x.key ≠ e.key ∧ x.key ≤ s.ts.dt) ∧
      (∀ e ∈ other, (moved e).key ≠ e.key → s.ts.dt < (moved e).key → moved e ∈ v.sched.timescale) ∧
      v.sched.elapsed = s.sched.elapsed ∧ v.ts = s.ts ∧
      (∀ e ∈ v.sched.timescale, e.domain = .ut → e.key = (keyed e).1.toNat ∧ e.shifted = (keyed e).2) ∧
      (∀ e ∈ s.sched.timescale, e.domain = .dt → e ∈ v.sched.timescale) ∧
      (∀ e ∈ v.sched.timescale, e.domain = .dt → e ∈ s.sched.timescale) ∧
      (∀ e ∈ other, e.key = (keyed e).1.toNat → moved e ∈ v.sched.timescale) ∧
      (first = [] → ∀ e ∈ v.sched.timescale, e.domain = .ut → e.key ≤ s.ts.dt →
        ∃ e0 ∈ s.sched.timescale, e0.handle = e.handle ∧ e0.key = e.key))

/-! ## The line space (chapter 8) -/

/-- LINE-SET and LINE-CLEAR (R142, R144): a line that is no output is refused with RANGE, an output of another owner with
LINE_OWNER; otherwise the output takes the level and loses its pulse end. LINE-LOAD (R145): a span that is not one of
outputs is refused with RANGE, one with an output of another owner with LINE_OWNER; otherwise every line of the span takes
its bit and loses its pulse end, all or none. A count above 16, for which no status is given (R140), is refused with RANGE (the
model's choice, log entry 47). A pulse end (R143) makes the output low once EL has reached it. -/
def Obligations.OutputsAreSetLoadedAndEndTheirPulses : Prop :=
  (∀ (ag : Agent) (o : Options) (d : Int) (high : Bool) (s : State),
    s.takesNow ag ⟨o, if high then .lineSet d else .lineClear d⟩ = true →
    let e := exec (if high then .lineSet ag o d else .lineClear ag o d) s
    let n : Int := (s.ctx ag).lineBase + d
    (n < 0 ∨ 24 ≤ n → e = .next (respond ag .range .empty s)) ∧
    (∀ (i : Nat) (x : Output), n = i → s.lines.outputs[i]? = some x → i < 24 →
      (x.owner ≠ some ag → e = .next (respond ag .lineOwner .empty s)) ∧
      (x.owner = some ag → e = .next (respond ag .ok (.line i high)
        { s with lines := { s.lines with
          outputs := s.lines.outputs.set i { x with level := high, pulseEnd := none } } })))) ∧
  (∀ (ag : Agent) (o : Options) (d : Int) (c v : Nat) (s : State), s.takesNow ag ⟨o, .lineLoad d c v⟩ = true →
    let e := exec (.lineLoad ag o d c v) s
    let n : Int := (s.ctx ag).lineBase + d
    let k := if c = 0 then 16 else c
    (n < 0 ∨ 24 < n + k ∨ 16 < c → e = .next (respond ag .range .empty s)) ∧
    (∀ i : Nat, n = i → i + k ≤ 24 → c ≤ 16 →
      let owns := ∀ j, j < k → (s.output (i + j)).owner = some ag
      let loaded : List Output := s.lines.outputs.zipIdx.map fun x =>
        if i ≤ x.2 ∧ x.2 < i + k then { x.1 with level := v.testBit (x.2 - i), pulseEnd := none } else x.1
      (¬owns → e = .next (respond ag .lineOwner .empty s)) ∧
      (owns → e = .next (respond ag .ok (.lineSpan i k (v % 2 ^ k))
        { s with lines := { s.lines with outputs := loaded } })))) ∧
  (∀ (i : Nat) (x : Output) (s : State), s.lines.outputs[i]? = some x →
    (∀ t, x.pulseEnd = some t → t ≤ s.ts.el →
      exec (.pulseEnd i) s =
        .next { s with lines := { s.lines with
          outputs := s.lines.outputs.set i { x with level := false, pulseEnd := none } } }) ∧
    (∀ t, x.pulseEnd = some t → s.ts.el < t → exec (.pulseEnd i) s = .next s) ∧
    (x.pulseEnd = none → exec (.pulseEnd i) s = .next s))

/-- LINE-TEST (R138, R139, R146) and LINE-STORE (R147) read lines and change nothing: an absent line is refused with RANGE;
an output, an input or an internal line is answered with its level and what its kind has besides, the levels of a span as a
value of one bit for each. A count above 16, for which no status is given (R140), is refused with RANGE (the model's choice,
log entry 47). -/
def Obligations.LinesAreRead : Prop :=
  (∀ (ag : Agent) (o : Options) (d : Int) (s : State), s.takesNow ag ⟨o, .lineTest d⟩ = true →
    let n : Int := (s.ctx ag).lineBase + d
    let answered := fun st b => exec (.lineTest ag o d) s = .next (respond ag st b s)
    let shown : List Bool :=
      [s.ts.servo == .locked, s.ts.servo == .holdover, s.ts.timeSet, s.holdsGrant ag, s.ports.a.state == .up,
        s.ports.b.state == .up, s.ts.leap != .none, s.ts.servo == .fault]
    (n < 0 ∨ 63 < n ∨ (24 ≤ n ∧ n < 32) ∨ (48 ≤ n ∧ n < 56) → answered .range .empty) ∧
    (∀ (i : Nat) (x : Output), n = i → i < 24 → s.lines.outputs[i]? = some x →
      answered .ok (.lineTest i x.level (.output x))) ∧
    (∀ (i : Nat) (x : Input), n = 32 + i → i < 16 → s.lines.inputs[i]? = some x →
      answered .ok (.lineTest (32 + i) x.level (.input x (i == 15 && s.src.settings.refMode)))) ∧
    (∀ (i : Nat) (b : Bool), n = 56 + i → shown[i]? = some b → answered .ok (.lineTest (56 + i) b .internal))) ∧
  (∀ (ag : Agent) (o : Options) (d : Int) (c : Nat) (s : State), s.takesNow ag ⟨o, .lineStore d c⟩ = true →
    let n : Int := (s.ctx ag).lineBase + d
    let k := if c = 0 then 16 else c
    let absent := fun l : Int => l < 0 ∨ 63 < l ∨ (24 ≤ l ∧ l < 32) ∨ (48 ≤ l ∧ l < 56)
    ((16 < c ∨ ∃ j : Nat, j < k ∧ absent (n + j)) → exec (.lineStore ag o d c) s = .next (respond ag .range .empty s)) ∧
    (∀ i : Nat, n = i → c ≤ 16 → (∀ j : Nat, j < k → ¬absent (n + j)) →
      ∃ v, exec (.lineStore ag o d c) s = .next (respond ag .ok (.lineStore v) s) ∧
        ∀ j, v.testBit j = (decide (j < k) && lineLevel ag s (i + j)))) ∧
  (∀ (ag : Agent) (s : State),
    let shown : List Bool :=
      [s.ts.servo == .locked, s.ts.servo == .holdover, s.ts.timeSet, s.holdsGrant ag, s.ports.a.state == .up,
        s.ports.b.state == .up, s.ts.leap != .none, s.ts.servo == .fault]
    (∀ (i : Nat) (x : Output), i < 24 → s.lines.outputs[i]? = some x → lineLevel ag s i = x.level) ∧
    (∀ (i : Nat) (x : Input), i < 16 → s.lines.inputs[i]? = some x → lineLevel ag s (32 + i) = x.level) ∧
    (∀ (i : Nat) (b : Bool), shown[i]? = some b → lineLevel ag s (56 + i) = b))

/-- LINE-OWN (R149) and LINE-CONFIG (R150): a line without such settings, a setting of the other kind of line or a value
outside its range is refused with RANGE; otherwise owner or settings take the named values at once, and naming the edge or
the hold-off of an input makes its last-taken record absent (R151). Level and pulse stay. -/
def Obligations.LineOwnershipAndSettings : Prop :=
  (∀ (ag : Agent) (o : Options) (d : Int) (w : Option Agent) (s : State), s.takesNow ag ⟨o, .lineOwn d w⟩ = true →
    let n : Int := (s.ctx ag).lineBase + d
    (n < 0 ∨ 24 ≤ n → exec (.lineOwn ag o d w) s = .next (respond ag .range .empty s)) ∧
    (∀ (i : Nat) (x : Output), n = i → i < 24 → s.lines.outputs[i]? = some x →
      exec (.lineOwn ag o d w) s = .next (respond ag .ok (.lineOwner i x.owner w)
        { s with lines := { s.lines with outputs := s.lines.outputs.set i { x with owner := w } } }))) ∧
  (∀ (ag : Agent) (o : Options) (d : Int) (c : LineSettings) (s : State), s.takesNow ag ⟨o, .lineConfig d c⟩ = true →
    let n : Int := (s.ctx ag).lineBase + d
    let refused := exec (.lineConfig ag o d c) s = .next (respond ag .range .empty s)
    let badWidth := ∃ w, c.width = some w ∧ (w < 50 ∨ 1000000000 < w)
    let namesInput := c.edge ≠ none ∨ c.route ≠ none ∨ c.level ≠ none ∨ c.holdOff ≠ none
    let badInput := (∃ l, c.level = some l ∧ (l < 1 ∨ 15 < l)) ∨ ∃ h, c.holdOff = some h ∧ 1000000 < h
    (n < 0 ∨ (24 ≤ n ∧ n < 32) ∨ 48 ≤ n → refused) ∧
    (0 ≤ n → n < 24 → badWidth ∨ namesInput → refused) ∧
    (∀ (i : Nat) (x : Output), n = i → i < 24 → s.lines.outputs[i]? = some x → ¬badWidth → ¬namesInput →
      exec (.lineConfig ag o d c) s = .next (respond ag .ok (.outputSettings (c.width.getD x.width))
        { s with lines := { s.lines with
          outputs := s.lines.outputs.set i { x with width := c.width.getD x.width } } })) ∧
    (32 ≤ n → n < 48 → badInput ∨ c.width ≠ none → refused) ∧
    (∀ (i : Nat) (x : Input), n = 32 + i → i < 16 → s.lines.inputs[i]? = some x → ¬badInput → c.width = none →
      let e := c.edge.getD x.edge
      let r := c.route.getD x.route
      let l := c.level.getD x.alertLevel
      let h := c.holdOff.getD x.holdOff
      let t := if c.edge = none ∧ c.holdOff = none then x.lastTaken else none
      exec (.lineConfig ag o d c) s = .next (respond ag .ok (.inputSettings e r l h)
        { s with lines := { s.lines with inputs := s.lines.inputs.set i ⟨x.level, e, r, l, h, t⟩ } })))

/-- An input changes level (R151, R152, R153): on line 47 in reference mode a rising edge goes to the source table with its
stamp and a falling one nowhere; an edge that does not match the setting or lies within the hold-off is discarded;
otherwise a capture record is formed: stored with the pending gap, with CAPTURE raised if the queue was empty, or dropped
and counted if the queue is full. The line shows its new level in every case (log entry 40). -/
def Obligations.InputEdgesAreCaptured : Prop :=
  ∀ (i : Nat) (x : Input) (e : EdgeKind) (s : State), i < 16 → s.lines.inputs[i]? = some x →
    let up := e == .rise
    let seen : State := { s with lines := { s.lines with inputs := s.lines.inputs.set i { x with level := up } } }
    let dedicated := i = 15 ∧ s.src.settings.refMode = true
    let matching := x.edge = .both ∨ (x.edge = .rise ∧ e = .rise) ∨ (x.edge = .fall ∧ e = .fall)
    let held := ∃ t, x.lastTaken = some t ∧ s.ts.el < t + x.holdOff
    let q := s.captures x.route
    let r : Capture := ⟨32 + i, e, if s.ts.timeSet then .valid s.ts.dt else .unset, s.ts.el, s.ts.quality, q.gap⟩
    let taken := fun (q1 : CaptureQueue) =>
      { s with lines := { s.lines with
        inputs := s.lines.inputs.set i { x with level := up, lastTaken := some s.ts.el }
        captures := s.lines.captures.set x.route q1 } }
    (dedicated → e = .rise → exec (.inputEdge i e) s =
      .next { seen with flight := { seen.flight with refEdges := s.flight.refEdges ++ [⟨s.ts.dt, s.ts.el⟩] } }) ∧
    (dedicated → e = .fall → exec (.inputEdge i e) s = .next seen) ∧
    (¬dedicated → ¬matching ∨ held → exec (.inputEdge i e) s = .next seen) ∧
    (¬dedicated → matching → ¬held →
      (q.records = [] → exec (.inputEdge i e) s =
        .next { taken ⟨[r], 0⟩ with flight := { s.flight with
          raises := s.raisesWith fun b => if b = x.route then [.capture x.alertLevel (32 + i) e] else [] } }) ∧
      (q.records ≠ [] → q.records.length < 16 → exec (.inputEdge i e) s = .next (taken ⟨q.records ++ [r], 0⟩)) ∧
      (16 ≤ q.records.length → q.gap < 255 → exec (.inputEdge i e) s = .next (taken ⟨q.records, q.gap + 1⟩)) ∧
      (16 ≤ q.records.length → 255 ≤ q.gap → exec (.inputEdge i e) s = .next (taken ⟨q.records, q.gap⟩)))

/-- CAPTURE-READ (R154) returns the length, the pending gap and the four oldest records in the requester's form and removes
none, an enabled trap ending it EXCEPTION. CAPTURE-RELEASE (R155) removes the n oldest records; above 16 it is refused with
RANGE, above the length with COUNT. -/
def Obligations.CapturesAreReadAndReleased : Prop :=
  (∀ (ag : Agent) (o : Options) (s : State), s.takesNow ag ⟨o, .captureRead⟩ = true →
    let c := s.ctx ag
    let q := s.captures ag
    let shape := fun v => shapeTime (effForm o c) (effRounding o c) c.base ⟨v, noFlags⟩
    let views := (q.records.take 4).map fun r =>
      (⟨r.line, r.edge, (shape r.dt).field, (shape (.valid (nsTicks r.el))).field, r.quality, r.gap⟩ : CaptureView)
    let raised := (q.records.take 4).foldl
      (fun f r => Flags.or f (Flags.or (shape r.dt).raised (shape (.valid (nsTicks r.el))).raised)) noFlags
    let u := s.setCtx ag { c with flags := raiseFlags c.flags raised }
    (trapped c.traps raised = true → exec (.captureRead ag o) s = .next (respond ag .exception .empty u)) ∧
    (trapped c.traps raised = false →
      exec (.captureRead ag o) s = .next (respond ag .ok (.captures q.records.length q.gap views) u))) ∧
  (∀ (ag : Agent) (o : Options) (n : Nat) (s : State), s.takesNow ag ⟨o, .captureRelease n⟩ = true →
    let q := s.captures ag
    (16 < n → exec (.captureRelease ag o n) s = .next (respond ag .range .empty s)) ∧
    (n ≤ 16 → q.records.length < n → exec (.captureRelease ag o n) s = .next (respond ag .count .empty s)) ∧
    (n ≤ 16 → n ≤ q.records.length →
      exec (.captureRelease ag o n) s = .next (respond ag .ok (.length (q.records.length - n))
        { s with lines := { s.lines with captures := s.lines.captures.set ag ⟨q.records.drop n, q.gap⟩ } })))

/-! ## Agent ports, contexts and the grant (chapter 9) -/

/-- CONTEXT-SET (R162) is taken whole: with a value outside its range RANGE, otherwise every named field takes its value,
a VALID S-form cursor expanded with the base that then stands, and the context is returned as CONTEXT-READ (R163) returns
it. Which base and cursor are out of range (log entry 41), and that the pending kinds are those of the eight flags, without
SCHEDULE (log entry 55), is the model's choice. -/
def Obligations.ContextIsSetAndRead : Prop :=
  ∀ (ag : Agent) (o : Options) (s : State),
    let report := fun (c : Context) => (⟨c, (s.unit ag).stack.length, (s.unit ag).stack.head?.map fun r => r.alert.level,
      (s.unit ag).pending.list.map Raise.kind, (s.unit ag).fifo.length, (s.captures ag).records.length, (s.captures ag).gap,
      (s.unit ag).overrun⟩ : ContextReport)
    (s.takesNow ag ⟨o, .contextRead⟩ = true →
      exec (.contextRead ag o) s = .next (respond ag .ok (.context (report (s.ctx ag))) s)) ∧
    (∀ x : ContextSettings, s.takesNow ag ⟨o, .contextSet x⟩ = true →
      let c := s.ctx ag
      let base := x.base.getD c.base
      let bad := (∃ b, x.base = some b ∧ 4294967295 < b) ∨ (∃ b, x.lineBase = some b ∧ 63 < b) ∨
        (∃ b, x.threshold = some b ∧ 15 < b) ∨ (∃ b, x.mask = some b ∧ 15 < b) ∨
        (∃ v t, x.cursor = some v ∧ expand base v = .valid t ∧ timeEnd ≤ t)
      let u : Context := {
        form := x.form.getD c.form, mixed := x.mixed.getD c.mixed, base := base
        rounding := x.rounding.getD c.rounding
        traps := ⟨x.trapIv.getD c.traps.iv, x.trapOv.getD c.traps.ov, x.trapWr.getD c.traps.wr, x.trapSt.getD c.traps.st⟩
        flags := c.flags, compare := c.compare, cursor := (x.cursor.map (expand base)).getD c.cursor
        lineBase := x.lineBase.getD c.lineBase, threshold := x.threshold.getD c.threshold, mask := x.mask.getD c.mask }
      (bad → exec (.contextSet ag o x) s = .next (respond ag .range .empty s)) ∧
      (¬bad → exec (.contextSet ag o x) s = .next (respond ag .ok (.context (report u)) (s.setCtx ag u))))

/-- The steering grant. GRANT-CLAIM goes by its table (R165), GRANT-RENEW and GRANT-RELEASE are the holder's (R166), each
answering the grant state; a lease run out frees the grant and raises GRANT, detail EXPIRED, toward its holder (R167); a
renewal report gives a requester that still holds the grant a full lease, and changes nothing where the grant has since been
released, has expired or has passed on, even if the requester claims it anew before the report is taken (R164). -/
def Obligations.GrantPassesByItsTable : Prop :=
  (∀ (ag : Agent) (o : Options) (s : State),
    let become := fun g => ({ s with arbiter := { s.arbiter with grant := g } } : State)
    let void := s.flight.renewals.map fun r => { r with stands := false }
    let mine := Grant.held ag (s.ts.el + s.arbiter.lease)
    let seen : GrantReport := match s.arbiter.grant with | .free => .free | .held b t => .held b (t - s.ts.el)
    (s.takesNow ag ⟨o, .grantClaim⟩ = true →
      (s.arbiter.grant = .free ∨ (∃ t, s.arbiter.grant = .held ag t) →
        exec (.grantClaim ag o) s = .next (respond ag .ok (.grant (.held ag s.arbiter.lease)) (become mine))) ∧
      (∀ b t, s.arbiter.grant = .held b t → b ≠ ag → ¬(o.preempt = true ∧ ag = .agent0) →
        exec (.grantClaim ag o) s = .next (respond ag .held (.grant seen) s)) ∧
      (∀ b t, s.arbiter.grant = .held b t → b ≠ ag → o.preempt = true → ag = .agent0 →
        exec (.grantClaim ag o) s = .next (respond ag .ok (.grant (.held ag s.arbiter.lease))
          { become mine with flight := { s.flight with
            renewals := void
            raises := s.raisesWith fun x => if x = b then [.grant .preempted] else [] } }))) ∧
    (s.takesNow ag ⟨o, .grantRenew⟩ = true →
      (∀ t, s.arbiter.grant = .held ag t →
        exec (.grantRenew ag o) s = .next (respond ag .ok (.grant (.held ag s.arbiter.lease)) (become mine))) ∧
      ((∀ t, s.arbiter.grant ≠ .held ag t) →
        exec (.grantRenew ag o) s = .next (respond ag .grant (.grant seen) s))) ∧
    (s.takesNow ag ⟨o, .grantRelease⟩ = true →
      (∀ t, s.arbiter.grant = .held ag t →
        exec (.grantRelease ag o) s = .next (respond ag .ok (.grant .free)
          { become .free with flight := { s.flight with renewals := void } })) ∧
      ((∀ t, s.arbiter.grant ≠ .held ag t) →
        exec (.grantRelease ag o) s = .next (respond ag .grant (.grant seen) s)))) ∧
  (∀ s : State,
    (∀ b t, s.arbiter.grant = .held b t → t ≤ s.ts.el →
      exec .grantExpiry s =
        .next { s with
          arbiter := { s.arbiter with grant := .free }
          flight := { s.flight with
            renewals := s.flight.renewals.map fun r => { r with stands := false }
            raises := s.raisesWith fun x => if x = b then [.grant .expired] else [] } }) ∧
    (∀ b t, s.arbiter.grant = .held b t → s.ts.el < t → exec .grantExpiry s = .next s) ∧
    (s.arbiter.grant = .free → exec .grantExpiry s = .next s) ∧
    (s.flight.renewals = [] → exec .renewalReport s = .next s) ∧
    (∀ r rest, s.flight.renewals = r :: rest →
      let u : State := { s with flight := { s.flight with renewals := rest } }
      (∀ t, r.stands = true → s.arbiter.grant = .held r.by_ t → exec .renewalReport s =
        .next { u with arbiter := { s.arbiter with grant := .held r.by_ (s.ts.el + s.arbiter.lease) } }) ∧
      (r.stands = false ∨ (∀ t, s.arbiter.grant ≠ .held r.by_ t) → exec .renewalReport s = .next u)))

/-- An agent reset (R168, R169), by AGENT-RESET or by the reset input: the agent's unit takes its reset values, AGENT-RESET
being answered OK, and four blocks are told. Schedule, line unit and grant arbiter then take their parts: the agent's entries
leave without action or alert (R137), its capture queue is emptied (R153), its grant becomes FREE. The pins of the port stay as
they are (log entry 9), and a window open on it when its reset input is asserted is cut off (R168). -/
def Obligations.AgentResetClearsAnAgent : Prop :=
  ∀ (ag : Agent) (s : State),
    let told : InFlight := { s.flight with
      schedResets := s.flight.schedResets ++ [ag], lineResets := s.flight.lineResets ++ [ag]
      grantResets := s.flight.grantResets ++ [ag], slewResets := s.flight.slewResets ++ [ag] }
    let fresh := fun (l : LinkState) (pin : Bool) (w : Option OpenWindow) =>
      ({ AgentUnit.reset with link := l, resetIn := pin, dataOut := (s.unit ag).dataOut, window := w } : AgentUnit)
    let window := (s.unit ag).window
    let unitIs := fun x => ({ s with units := s.units.set ag x } : State)
    (∀ o : Options, s.takesNow ag ⟨o, .agentReset⟩ = true → exec (.agentReset ag o) s =
      .next { unitIs (fresh (.ready ⟨false, Flags.clear, .ok, .empty⟩) (s.unit ag).resetIn window) with flight := told }) ∧
    (exec (.agentResetInput ag) s =
      .next { unitIs (fresh .idle true (window.map fun w => { w with cut := true })) with flight := told }) ∧
    (exec (.agentResetInputRelease ag) s = .next (unitIs { s.unit ag with resetIn := false })) ∧
    (ag ∈ s.flight.schedResets → exec (.schedAgentReset ag) s =
      .next { s with
        flight := { s.flight with schedResets := s.flight.schedResets.erase ag }
        sched := { s.sched with
          timescale := s.sched.timescale.filter fun e => e.owner != ag
          elapsed := s.sched.elapsed.filter fun e => e.owner != ag } }) ∧
    (ag ∈ s.flight.lineResets → exec (.lineAgentReset ag) s =
      .next { s with
        flight := { s.flight with lineResets := s.flight.lineResets.erase ag }
        lines := { s.lines with captures := s.lines.captures.set ag ⟨[], 0⟩ } }) ∧
    (ag ∈ s.flight.grantResets → exec (.grantAgentReset ag) s =
      .next { s with
        flight := { s.flight with
          grantResets := s.flight.grantResets.erase ag
          renewals := s.flight.renewals.map fun r => { r with stands := r.stands && !s.holdsGrant ag } }
        arbiter := { s.arbiter with grant := if s.holdsGrant ag then .free else s.arbiter.grant } }) ∧
    (ag ∉ s.flight.schedResets → exec (.schedAgentReset ag) s = .next s) ∧
    (ag ∉ s.flight.lineResets → exec (.lineAgentReset ag) s = .next s) ∧
    (ag ∉ s.flight.grantResets → exec (.grantAgentReset ag) s = .next s)

/-- A part reset (R170), by PART-RESET without an answer or by the RESET input, returns every block to its power-on state
and keeps the snapshot store; power-on empties the store too. That the pins driven from outside stay as they are (log entry
9), and that the span of an idle step (log entry 3) and the queue of commands (log entry 33), which are the model's own, are
kept, is the model's choice, and so is it that a window open on a port is cut off (log entry 52). -/
def Obligations.PartResetReturnsToPowerOn : Prop :=
  ∀ s : State,
    let fresh := fun u : AgentUnit => ({ AgentUnit.reset with
      resetIn := u.resetIn, dataOut := u.dataOut, window := u.window.map fun w => { w with cut := true } } : AgentUnit)
    let after := fun (store : Option SnapshotRecord) (pin : Bool) => ({ State.reset with
      ts := { Timescale.reset with store := store }
      ports := ⟨{ NetPort.reset with link := s.ports.a.link }, { NetPort.reset with link := s.ports.b.link }⟩
      lines := { LineUnit.reset with inputs := s.lines.inputs.map fun x => { Input.reset with level := x.level } }
      units := ⟨fresh s.units.a0, fresh s.units.a1, fresh s.units.a2⟩
      resetIn := pin, span := s.span, pending := s.pending } : State)
    (∀ ag o, s.takesNow ag ⟨o, .partReset⟩ = true → exec (.partReset ag o) s = .next (after s.ts.store s.resetIn)) ∧
    exec .resetInput s = .next (after s.ts.store true) ∧
    exec .resetInputRelease s = .next { s with resetIn := false } ∧
    exec .powerOn s = .next (after none s.resetIn)

/-- The select windows of the agent link. A direction byte 0x5A is SUBMIT and 0xA5 COLLECT (R181); another window is
disregarded (R156). A SUBMIT that finds the port BUSY sets the overrun flag (R157), at its release (the model's choice, log
entry 54); a frame that does not read is answered at once (R182); one that reads meets the checks of encoding, rank and grant
(R160), and one that passes them is in hand. COLLECT shifts out the status and the held response, and collects it when the last
byte is out (R158). Under an asserted reset a window takes nothing and sees IDLE (R168, R170).

A window can be given in stretches (log entry 52), which come to the same as one stretch. It keeps the status of its
direction byte when an answer comes meanwhile (R157, R158). A window that a reset has cut off takes, counts and collects
nothing, and shifts out IDLE to its release (R168). -/
def Obligations.WindowsExchangeFrames : Prop :=
  (windowKind (some 0x5A#8) = .submit ∧ windowKind (some 0xA5#8) = .collect ∧
    (∀ d, d ≠ some 0x5A#8 → d ≠ some 0xA5#8 → windowKind d = .other) ∧
    (∀ ag x s, exec (.submitWindow ag x) s = exec (.otherWindow ag (some 0x5A#8) x) s ∧
      exec (.collectWindow ag x) s = exec (.otherWindow ag (some 0xA5#8) x) s)) ∧
  (∀ (ag : Agent) (l : List Byte) (s : State),
    let x := s.unit ag
    let shifted := fun (u : AgentUnit) out => ({ s with units := s.units.set ag { u with dataOut := out } } : State)
    let n := l.length
    let whole : Stretch := ⟨l, true⟩
    let status : Byte := match x.link with | .idle => 0#8 | .busy _ => 1#8 | .ready _ => 2#8
    x.window = none →
    (∀ dir, windowKind dir = .other → exec (.otherWindow ag dir whole) s = .next (shifted x (List.replicate n 0#8))) ∧
    (s.takesWindows ag = false →
      exec (.submitWindow ag whole) s = .next (shifted x (List.replicate n 0#8)) ∧
      exec (.collectWindow ag whole) s = .next (shifted x (List.replicate n 0#8))) ∧
    (s.takesWindows ag = true →
      (∀ q, x.link = .busy q →
        exec (.submitWindow ag whole) s = .next (shifted { x with overrun := true } (List.replicate n status))) ∧
      (∀ st, s.portFree ag = true → readFrame x.ctx l = .error st →
        exec (.submitWindow ag whole) s = .next (respond ag st .empty (shifted x (List.replicate n status)))) ∧
      (∀ q, s.acceptsRequest ag q = true → readFrame x.ctx l = .ok q →
        exec (.submitWindow ag whole) s = .next (shifted { x with link := .busy q } (List.replicate n status))) ∧
      (∀ q, s.portFree ag = true → readFrame x.ctx l = .ok q →
        let refused := fun st =>
          exec (.submitWindow ag whole) s = .next (respond ag st .empty (shifted x (List.replicate n status)))
        (q.encodingOk x.ctx = false → refused .format) ∧
        (q.encodingOk x.ctx = true → q.req.rankZero = true → ag ≠ .agent0 → refused .rank) ∧
        (q.encodingOk x.ctx = true → q.req.needsGrant = true → s.holdsGrant ag = false → refused .grant)) ∧
      ((∀ r, x.link ≠ .ready r) → exec (.collectWindow ag whole) s = .next (shifted x (List.replicate n status))) ∧
      (∀ r, x.link = .ready r →
        let m := responseBytes r
        (n ≤ m.length → exec (.collectWindow ag whole) s = .next (shifted x ((2#8 :: m).take n))) ∧
        (m.length < n → exec (.collectWindow ag whole) s =
          .next (shifted { x with link := .idle } (2#8 :: m ++ List.replicate (n - 1 - m.length) 0#8)))))) ∧
  (∀ (ag : Agent) (d : Byte) (dir : Option Byte) (l m : List Byte) (released : Bool) (s : State), (s.unit ag).window = none →
    ∃ t : State, exec (.otherWindow ag (some d) ⟨l, false⟩) s = .next t ∧
      (t.unit ag).window = some ⟨some d, (s.unit ag).link, l, !s.takesWindows ag⟩ ∧
      (∃ v : State, exec (.otherWindow ag (some d) ⟨l, true⟩) s = .next v ∧ (t.unit ag).dataOut = (v.unit ag).dataOut) ∧
      t = { s with
        units := s.units.set ag { s.unit ag with window := (t.unit ag).window, dataOut := (t.unit ag).dataOut } } ∧
      exec (.otherWindow ag dir ⟨m, released⟩) t = exec (.otherWindow ag (some d) ⟨l ++ m, released⟩) s) ∧
  (∀ (ag : Agent) (w : OpenWindow) (dir : Option Byte) (l : List Byte) (s : State), (s.unit ag).window = some w →
    let x := s.unit ag
    let become := fun (u : AgentUnit) v b => ({ s with
      units := s.units.set ag { u with window := v, dataOut := x.dataOut ++ List.replicate l.length b } } : State)
    (w.cut = true →
      exec (.otherWindow ag dir ⟨l, true⟩) s = .next (become x none 0#8) ∧
      exec (.otherWindow ag dir ⟨l, false⟩) s = .next (become x (some { w with bytes := w.bytes ++ l }) 0#8)) ∧
    (∀ q, w.cut = false → w.link = .busy q →
      (w.direction = some 0x5A#8 →
        exec (.submitWindow ag ⟨l, true⟩) s = .next (become { x with overrun := true } none 1#8)) ∧
      (w.direction = some 0xA5#8 → exec (.collectWindow ag ⟨l, true⟩) s = .next (become x none 1#8))))

/-- Frames of the agent link. The tests of R182 come in their order: length, check, code, option byte, and body; a frame
that passes them all is the request whose fields fill the body exactly. A response frame (R183) opens with its length, its
status by its code (11.5) and its flags byte, and ends with the CRC-16 over every byte before. -/
def Obligations.AgentFramesAreTestedInOrder : Prop :=
  (∀ (c : Context) (l : List Byte),
    let n := l.length
    let lengthOk := 6 ≤ n ∧ n ≤ 128 ∧ ofBe (l.take 2) = n
    let checkOk := crc16 (l.take (n - 2)) = ofBe (l.drop (n - 2))
    let code := (l.getD 2 0#8).toNat
    let body := (l.drop 4).take (n - 6)
    (¬lengthOk → readFrame c l = .error .format) ∧
    (lengthOk → ¬checkOk → readFrame c l = .error .check) ∧
    (lengthOk → checkOk →
      (readRequest c.form c.form code = none → readFrame c l = .error .unknown) ∧
      (readRequest c.form c.form code ≠ none → readOptions code (l.getD 3 0#8).toNat = none →
        readFrame c l = .error .format) ∧
      (∀ o p, readOptions code (l.getD 3 0#8).toNat = some o → readRequest (effForm o c) c.form code = some p →
        (∀ r, p body = some (r, []) → readFrame c l = .ok ⟨o, r⟩) ∧
        ((∀ r, p body ≠ some (r, [])) → readFrame c l = .error .format)))) ∧
  (∀ (f g : Form) (code : Nat), readRequest f g code = none ↔
    code ∉ [1, 2, 3, 4, 5, 6, 16, 17, 18, 19, 20, 21, 22, 23, 24, 32, 33, 34, 40, 41, 42, 43, 48, 49, 50, 56, 57, 64, 65, 66,
      67, 72, 73, 74, 75, 76, 77, 78, 79, 80, 88, 89, 90, 91, 92, 93, 94, 96, 97, 98]) ∧
  (∀ r : Response, (responseBytes r).length < 65536 →
    let l := responseBytes r
    let n := l.length
    let statusCode : Status → Nat
      | .ok => 0 | .exception => 1 | .rank => 2 | .grant => 3 | .held => 4 | .state => 5 | .range => 6 | .full => 7
      | .noEntry => 8 | .lineOwner => 9 | .tooLate => 10 | .condition => 11 | .count => 12 | .notInAlert => 13
      | .format => 14 | .check => 15 | .unknown => 16 | .closed => 17
    ofBe (l.take 2) = n ∧ ofBe (l.drop (n - 2)) = crc16 (l.take (n - 2)) ∧ 6 ≤ n ∧
    (l.getD 2 0#8).toNat = statusCode r.status ∧
    ((l.getD 3 0#8).toNat.testBit 7 = r.overrun ∧ (l.getD 3 0#8).toNat.testBit 6 = r.flags.fx ∧
      (l.getD 3 0#8).toNat.testBit 5 = r.flags.iv ∧ (l.getD 3 0#8).toNat.testBit 4 = r.flags.ov ∧
      (l.getD 3 0#8).toNat.testBit 3 = r.flags.ix ∧ (l.getD 3 0#8).toNat.testBit 2 = r.flags.wr ∧
      (l.getD 3 0#8).toNat.testBit 1 = r.flags.lh ∧ (l.getD 3 0#8).toNat.testBit 0 = r.flags.st))

/-! ## Alerts (chapter 10) -/

/-- ALERT-READ (R176) returns the top record and the depth; ALERT-RETURN (R177) releases n captures and pops the top record,
mask and form taking its values, or does neither; ALERT-MASK (R178) sets the mask. -/
def Obligations.AlertRequestsAnswer : Prop :=
  (∀ (ag : Agent) (o : Options) (s : State), s.takesNow ag ⟨o, .alertRead⟩ = true →
    ((s.unit ag).stack = [] → exec (.alertRead ag o) s = .next (respond ag .notInAlert .empty s)) ∧
    (∀ r l, (s.unit ag).stack = r :: l →
      exec (.alertRead ag o) s = .next (respond ag .ok (.alertTop r (l.length + 1)) s))) ∧
  (∀ (ag : Agent) (o : Options) (n : Nat) (s : State), s.takesNow ag ⟨o, .alertReturn n⟩ = true →
    let q := s.captures ag
    let refused := fun st => exec (.alertReturn ag o n) s = .next (respond ag st .empty s)
    (16 < n → refused .range) ∧
    (n ≤ 16 → (s.unit ag).stack = [] → refused .notInAlert) ∧
    (∀ r l, n ≤ 16 → (s.unit ag).stack = r :: l → q.records.length < n → refused .count) ∧
    (∀ r l, n ≤ 16 → (s.unit ag).stack = r :: l → n ≤ q.records.length →
      exec (.alertReturn ag o n) s = .next (respond ag .ok (.alertReturned (q.records.length - n) l.length r.mask)
        { s with
          lines := { s.lines with captures := s.lines.captures.set ag ⟨q.records.drop n, q.gap⟩ }
          units := s.units.set ag { s.unit ag with stack := l, ctx := { s.ctx ag with mask := r.mask, form := r.form } } }))) ∧
  (∀ (ag : Agent) (o : Options) (m : Nat) (s : State), s.takesNow ag ⟨o, .alertMask m⟩ = true →
    (15 < m → exec (.alertMask ag o m) s = .next (respond ag .range .empty s)) ∧
    (m ≤ 15 → exec (.alertMask ag o m) s =
      .next (respond ag .ok (.masks (s.ctx ag).mask m) (s.setCtx ag { s.ctx ag with mask := m }))))

/-- A raise of a kind on its way to an agent (R171) sets the flag of its kind with its own detail; a SCHEDULE (R172) joins
the FIFO with the schedule gap, or is dropped and counted where 8 records stand. -/
def Obligations.RaisesBecomePending : Prop :=
  (∀ (ag : Agent) (k : FlagKind) (s : State),
    ((∀ r ∈ s.flight.raises.get ag, r.kind ≠ k) → exec (.alertRaise ag k) s = .next s) ∧
    (∀ l r m, s.flight.raises.get ag = l ++ r :: m → (∀ x ∈ l, x.kind ≠ k) → r.kind = k →
      let p := (s.unit ag).pending
      let p1 : PendingAlerts :=
        match r with
        | .fault d => { p with fault := some d }
        | .grant d => { p with grant := some d }
        | .servo a b => { p with servo := some (a, b) }
        | .leap a b => { p with leap := some (a, b) }
        | .source d => { p with source := some d }
        | .slew d => { p with slew := some d }
        | .client d => { p with client := some d }
        | .capture a b e => { p with capture := some (a, b, e) }
      exec (.alertRaise ag k) s =
        .next { s with
          flight := { s.flight with raises := s.flight.raises.set ag (l ++ m) }
          units := s.units.set ag { s.unit ag with pending := p1 } })) ∧
  (∀ (ag : Agent) (s : State),
    (s.flight.schedRaises.get ag = [] → exec (.scheduleAlertRaise ag) s = .next s) ∧
    (∀ a l, s.flight.schedRaises.get ag = a :: l →
      let u := s.unit ag
      let goesOn := fun (f : List SchedAlert) g =>
        exec (.scheduleAlertRaise ag) s =
          .next { s with
            flight := { s.flight with schedRaises := s.flight.schedRaises.set ag l }
            units := s.units.set ag { u with fifo := f, gap := g } }
      (u.fifo.length < 8 → goesOn (u.fifo ++ [{ a with gap := u.gap }]) 0) ∧
      (8 ≤ u.fifo.length → u.gap < 255 → goesOn u.fifo (u.gap + 1)) ∧
      (8 ≤ u.fifo.length → 255 ≤ u.gap → goesOn u.fifo u.gap)))

/-- A delivery (R173, R174): of the candidates, the pending flags in the order of their kinds and then the head of the FIFO,
the first of the lowest level that is deliverable leaves pending and goes to the top of the stack with mask and form, the
mask becomes its level less one and with mixed on the form L; where none is deliverable nothing happens.

The kinds in their order with their levels (R171, R174): FAULT 0, GRANT 3, SERVO 4, LEAP 5, SOURCE 5, SLEW 6, CLIENT 7,
CAPTURE the level of its input, SCHEDULE the level of its record. The attention output of an agent (R175) is asserted
exactly while its return stack holds a record and its own reset input is not asserted. -/
def Obligations.AlertsAreDeliveredByLevel : Prop :=
  (∀ p : PendingAlerts,
    (p.list.map Raise.kind).Sublist [.fault, .grant, .servo, .leap, .source, .slew, .client, .capture] ∧
    ∀ r, r ∈ p.list ↔
      match r with
      | .fault d => p.fault = some d
      | .grant d => p.grant = some d
      | .servo a b => p.servo = some (a, b)
      | .leap a b => p.leap = some (a, b)
      | .source d => p.source = some d
      | .slew d => p.slew = some d
      | .client d => p.client = some d
      | .capture a b e => p.capture = some (a, b, e)) ∧
  (∀ a : AlertRecord, a.level =
    match a with
    | .flag (.fault _) => 0
    | .flag (.grant _) => 3
    | .flag (.servo _ _) => 4
    | .flag (.leap _ _) => 5
    | .flag (.source _) => 5
    | .flag (.slew _) => 6
    | .flag (.client _) => 7
    | .flag (.capture l _ _) => l
    | .schedule x => x.level) ∧
  (∀ (ag : Agent) (s : State),
    s.attention ag = true ↔ (s.unit ag).stack ≠ [] ∧ (s.unit ag).resetIn = false) ∧
  ∀ (ag : Agent) (s : State),
    let u := s.unit ag
    let level0 := fun r : ReturnRecord => r.alert.level == 0
    let deliverable := fun a : AlertRecord =>
      if a.level = 0 then u.stack.countP level0 = 0 else a.level ≤ u.ctx.mask ∧ u.stack.countP (fun r => !level0 r) < 4
    let candidates := u.pending.list.map AlertRecord.flag ++ (u.fifo.head?.map AlertRecord.schedule).toList
    ((∀ a ∈ candidates, ¬deliverable a) → exec (.alertDelivery ag) s = .next s) ∧
    (∀ a l m, candidates = l ++ a :: m → deliverable a → (∀ b ∈ l, deliverable b → a.level < b.level) →
      (∀ b ∈ m, deliverable b → a.level ≤ b.level) →
      let p := fun k (q : PendingAlerts) => { u with
        stack := ⟨u.ctx.mask, u.ctx.form, a⟩ :: u.stack
        ctx := { u.ctx with mask := a.level - 1, form := if u.ctx.mixed then .long else u.ctx.form }
        pending := q, fifo := k }
      exec (.alertDelivery ag) s =
        .next (s.setUnit ag (match a with
          | .schedule _ => p u.fifo.tail u.pending
          | .flag (.fault _) => p u.fifo { u.pending with fault := none }
          | .flag (.grant _) => p u.fifo { u.pending with grant := none }
          | .flag (.servo _ _) => p u.fifo { u.pending with servo := none }
          | .flag (.leap _ _) => p u.fifo { u.pending with leap := none }
          | .flag (.source _) => p u.fifo { u.pending with source := none }
          | .flag (.slew _) => p u.fifo { u.pending with slew := none }
          | .flag (.client _) => p u.fifo { u.pending with client := none }
          | .flag (.capture _ _ _) => p u.fifo { u.pending with capture := none })))

/-! ## What every step keeps -/

/-- The three properties below hold of the part after power-on. -/
def Obligations.PropertiesHoldAtReset : Prop :=
  SelectionAgrees State.reset ∧ ScheduleInOrder State.reset.sched ∧ RoomKept State.reset

/-- Every step keeps the agreement of source table and servo (R24, R68, R85). -/
def Obligations.StepKeepsSelection : Prop :=
  ∀ s t : State, SelectionAgrees s → step s = .next t → SelectionAgrees t

/-- Every step keeps the schedule in order (R115, R117, R118). -/
def Obligations.StepKeepsScheduleOrder : Prop :=
  ∀ s t : State, ScheduleInOrder s.sched → step s = .next t → ScheduleInOrder t.sched

/-- Every step keeps the queues within their room (R53, R153, R172, R173). -/
def Obligations.StepKeepsRoom : Prop :=
  ∀ s t : State, RoomKept s → step s = .next t → RoomKept t
end

