-- ==== Sys2Proof/Laws/State.lean ====
section
/-! SUPPORT. One lemma for each field of State under each update of it. -/

namespace Sys2Proof

/-! ## One value per agent, one per network -/

@[simp] theorem PerAgent.get_set_same {α : Type} (p : PerAgent α) (ag : Agent) (x : α) : (p.set ag x).get ag = x := by
  cases ag <;> rfl

theorem PerAgent.get_set_other {α : Type} (p : PerAgent α) (ag b : Agent) (x : α) (h : b ≠ ag) :
    (p.set ag x).get b = p.get b := by
  cases ag <;> cases b <;> first | rfl | exact absurd rfl h

@[simp] theorem PerAgent.set_get {α : Type} (p : PerAgent α) (ag : Agent) : p.set ag (p.get ag) = p := by cases ag <;> rfl

@[simp] theorem PerAgent.set_set {α : Type} (p : PerAgent α) (ag : Agent) (x y : α) : (p.set ag x).set ag y = p.set ag y := by
  cases ag <;> rfl

@[simp] theorem PerNet.get_set_same {α : Type} (p : PerNet α) (n : Net) (x : α) : (p.set n x).get n = x := by
  cases n <;> rfl

theorem PerNet.get_set_other {α : Type} (p : PerNet α) (n m : Net) (x : α) (h : m ≠ n) : (p.set n x).get m = p.get m := by
  cases n <;> cases m <;> first | rfl | exact absurd rfl h

@[simp] theorem PerNet.set_get {α : Type} (p : PerNet α) (n : Net) : p.set n (p.get n) = p := by cases n <;> rfl

@[simp] theorem PerNet.set_set {α : Type} (p : PerNet α) (n : Net) (x y : α) : (p.set n x).set n y = p.set n y := by
  cases n <;> rfl

namespace Machine

variable (s : State)

/-! ## setUnit -/

@[simp] theorem State.setUnit_ts (ag : Agent) (u : AgentUnit) : (s.setUnit ag u).ts = s.ts := rfl
@[simp] theorem State.setUnit_ports (ag : Agent) (u : AgentUnit) : (s.setUnit ag u).ports = s.ports := rfl
@[simp] theorem State.setUnit_echo (ag : Agent) (u : AgentUnit) : (s.setUnit ag u).echo = s.echo := rfl
@[simp] theorem State.setUnit_wire (ag : Agent) (u : AgentUnit) : (s.setUnit ag u).wire = s.wire := rfl
@[simp] theorem State.setUnit_src (ag : Agent) (u : AgentUnit) : (s.setUnit ag u).src = s.src := rfl
@[simp] theorem State.setUnit_cli (ag : Agent) (u : AgentUnit) : (s.setUnit ag u).cli = s.cli := rfl
@[simp] theorem State.setUnit_epoch (ag : Agent) (u : AgentUnit) : (s.setUnit ag u).epoch = s.epoch := rfl
@[simp] theorem State.setUnit_sched (ag : Agent) (u : AgentUnit) : (s.setUnit ag u).sched = s.sched := rfl
@[simp] theorem State.setUnit_lines (ag : Agent) (u : AgentUnit) : (s.setUnit ag u).lines = s.lines := rfl
@[simp] theorem State.setUnit_arbiter (ag : Agent) (u : AgentUnit) : (s.setUnit ag u).arbiter = s.arbiter := rfl
@[simp] theorem State.setUnit_units (ag : Agent) (u : AgentUnit) : (s.setUnit ag u).units = s.units.set ag u := rfl
@[simp] theorem State.setUnit_flight (ag : Agent) (u : AgentUnit) : (s.setUnit ag u).flight = s.flight := rfl
@[simp] theorem State.setUnit_resetIn (ag : Agent) (u : AgentUnit) : (s.setUnit ag u).resetIn = s.resetIn := rfl
@[simp] theorem State.setUnit_span (ag : Agent) (u : AgentUnit) : (s.setUnit ag u).span = s.span := rfl
@[simp] theorem State.setUnit_pending (ag : Agent) (u : AgentUnit) : (s.setUnit ag u).pending = s.pending := rfl

/-! ## setCtx -/

@[simp] theorem State.setCtx_ts (ag : Agent) (c : Context) : (s.setCtx ag c).ts = s.ts := rfl
@[simp] theorem State.setCtx_ports (ag : Agent) (c : Context) : (s.setCtx ag c).ports = s.ports := rfl
@[simp] theorem State.setCtx_echo (ag : Agent) (c : Context) : (s.setCtx ag c).echo = s.echo := rfl
@[simp] theorem State.setCtx_wire (ag : Agent) (c : Context) : (s.setCtx ag c).wire = s.wire := rfl
@[simp] theorem State.setCtx_src (ag : Agent) (c : Context) : (s.setCtx ag c).src = s.src := rfl
@[simp] theorem State.setCtx_cli (ag : Agent) (c : Context) : (s.setCtx ag c).cli = s.cli := rfl
@[simp] theorem State.setCtx_epoch (ag : Agent) (c : Context) : (s.setCtx ag c).epoch = s.epoch := rfl
@[simp] theorem State.setCtx_sched (ag : Agent) (c : Context) : (s.setCtx ag c).sched = s.sched := rfl
@[simp] theorem State.setCtx_lines (ag : Agent) (c : Context) : (s.setCtx ag c).lines = s.lines := rfl
@[simp] theorem State.setCtx_arbiter (ag : Agent) (c : Context) : (s.setCtx ag c).arbiter = s.arbiter := rfl
@[simp] theorem State.setCtx_units (ag : Agent) (c : Context) : (s.setCtx ag c).units = s.units.set ag { s.unit ag with ctx := c } := rfl
@[simp] theorem State.setCtx_flight (ag : Agent) (c : Context) : (s.setCtx ag c).flight = s.flight := rfl
@[simp] theorem State.setCtx_resetIn (ag : Agent) (c : Context) : (s.setCtx ag c).resetIn = s.resetIn := rfl
@[simp] theorem State.setCtx_span (ag : Agent) (c : Context) : (s.setCtx ag c).span = s.span := rfl
@[simp] theorem State.setCtx_pending (ag : Agent) (c : Context) : (s.setCtx ag c).pending = s.pending := rfl

/-! ## setPort -/

@[simp] theorem State.setPort_ts (n : Net) (p : NetPort) : (s.setPort n p).ts = s.ts := rfl
@[simp] theorem State.setPort_ports (n : Net) (p : NetPort) : (s.setPort n p).ports = s.ports.set n p := rfl
@[simp] theorem State.setPort_echo (n : Net) (p : NetPort) : (s.setPort n p).echo = s.echo := rfl
@[simp] theorem State.setPort_wire (n : Net) (p : NetPort) : (s.setPort n p).wire = s.wire := rfl
@[simp] theorem State.setPort_src (n : Net) (p : NetPort) : (s.setPort n p).src = s.src := rfl
@[simp] theorem State.setPort_cli (n : Net) (p : NetPort) : (s.setPort n p).cli = s.cli := rfl
@[simp] theorem State.setPort_epoch (n : Net) (p : NetPort) : (s.setPort n p).epoch = s.epoch := rfl
@[simp] theorem State.setPort_sched (n : Net) (p : NetPort) : (s.setPort n p).sched = s.sched := rfl
@[simp] theorem State.setPort_lines (n : Net) (p : NetPort) : (s.setPort n p).lines = s.lines := rfl
@[simp] theorem State.setPort_arbiter (n : Net) (p : NetPort) : (s.setPort n p).arbiter = s.arbiter := rfl
@[simp] theorem State.setPort_units (n : Net) (p : NetPort) : (s.setPort n p).units = s.units := rfl
@[simp] theorem State.setPort_flight (n : Net) (p : NetPort) : (s.setPort n p).flight = s.flight := rfl
@[simp] theorem State.setPort_resetIn (n : Net) (p : NetPort) : (s.setPort n p).resetIn = s.resetIn := rfl
@[simp] theorem State.setPort_span (n : Net) (p : NetPort) : (s.setPort n p).span = s.span := rfl
@[simp] theorem State.setPort_pending (n : Net) (p : NetPort) : (s.setPort n p).pending = s.pending := rfl

/-! ## setTs -/

@[simp] theorem State.setTs_ts (t : Timescale) : (s.setTs t).ts = t := rfl
@[simp] theorem State.setTs_ports (t : Timescale) : (s.setTs t).ports = s.ports := rfl
@[simp] theorem State.setTs_echo (t : Timescale) : (s.setTs t).echo = s.echo := rfl
@[simp] theorem State.setTs_wire (t : Timescale) : (s.setTs t).wire = s.wire := rfl
@[simp] theorem State.setTs_src (t : Timescale) : (s.setTs t).src = s.src := rfl
@[simp] theorem State.setTs_cli (t : Timescale) : (s.setTs t).cli = s.cli := rfl
@[simp] theorem State.setTs_epoch (t : Timescale) : (s.setTs t).epoch = s.epoch := rfl
@[simp] theorem State.setTs_sched (t : Timescale) : (s.setTs t).sched = s.sched := rfl
@[simp] theorem State.setTs_lines (t : Timescale) : (s.setTs t).lines = s.lines := rfl
@[simp] theorem State.setTs_arbiter (t : Timescale) : (s.setTs t).arbiter = s.arbiter := rfl
@[simp] theorem State.setTs_units (t : Timescale) : (s.setTs t).units = s.units := rfl
@[simp] theorem State.setTs_flight (t : Timescale) : (s.setTs t).flight = s.flight := rfl
@[simp] theorem State.setTs_resetIn (t : Timescale) : (s.setTs t).resetIn = s.resetIn := rfl
@[simp] theorem State.setTs_span (t : Timescale) : (s.setTs t).span = s.span := rfl
@[simp] theorem State.setTs_pending (t : Timescale) : (s.setTs t).pending = s.pending := rfl

/-! ## setSched -/

@[simp] theorem State.setSched_ts (c : Schedule) : (s.setSched c).ts = s.ts := rfl
@[simp] theorem State.setSched_ports (c : Schedule) : (s.setSched c).ports = s.ports := rfl
@[simp] theorem State.setSched_echo (c : Schedule) : (s.setSched c).echo = s.echo := rfl
@[simp] theorem State.setSched_wire (c : Schedule) : (s.setSched c).wire = s.wire := rfl
@[simp] theorem State.setSched_src (c : Schedule) : (s.setSched c).src = s.src := rfl
@[simp] theorem State.setSched_cli (c : Schedule) : (s.setSched c).cli = s.cli := rfl
@[simp] theorem State.setSched_epoch (c : Schedule) : (s.setSched c).epoch = s.epoch := rfl
@[simp] theorem State.setSched_sched (c : Schedule) : (s.setSched c).sched = c := rfl
@[simp] theorem State.setSched_lines (c : Schedule) : (s.setSched c).lines = s.lines := rfl
@[simp] theorem State.setSched_arbiter (c : Schedule) : (s.setSched c).arbiter = s.arbiter := rfl
@[simp] theorem State.setSched_units (c : Schedule) : (s.setSched c).units = s.units := rfl
@[simp] theorem State.setSched_flight (c : Schedule) : (s.setSched c).flight = s.flight := rfl
@[simp] theorem State.setSched_resetIn (c : Schedule) : (s.setSched c).resetIn = s.resetIn := rfl
@[simp] theorem State.setSched_span (c : Schedule) : (s.setSched c).span = s.span := rfl
@[simp] theorem State.setSched_pending (c : Schedule) : (s.setSched c).pending = s.pending := rfl

/-! ## setLines -/

@[simp] theorem State.setLines_ts (l : LineUnit) : (s.setLines l).ts = s.ts := rfl
@[simp] theorem State.setLines_ports (l : LineUnit) : (s.setLines l).ports = s.ports := rfl
@[simp] theorem State.setLines_echo (l : LineUnit) : (s.setLines l).echo = s.echo := rfl
@[simp] theorem State.setLines_wire (l : LineUnit) : (s.setLines l).wire = s.wire := rfl
@[simp] theorem State.setLines_src (l : LineUnit) : (s.setLines l).src = s.src := rfl
@[simp] theorem State.setLines_cli (l : LineUnit) : (s.setLines l).cli = s.cli := rfl
@[simp] theorem State.setLines_epoch (l : LineUnit) : (s.setLines l).epoch = s.epoch := rfl
@[simp] theorem State.setLines_sched (l : LineUnit) : (s.setLines l).sched = s.sched := rfl
@[simp] theorem State.setLines_lines (l : LineUnit) : (s.setLines l).lines = l := rfl
@[simp] theorem State.setLines_arbiter (l : LineUnit) : (s.setLines l).arbiter = s.arbiter := rfl
@[simp] theorem State.setLines_units (l : LineUnit) : (s.setLines l).units = s.units := rfl
@[simp] theorem State.setLines_flight (l : LineUnit) : (s.setLines l).flight = s.flight := rfl
@[simp] theorem State.setLines_resetIn (l : LineUnit) : (s.setLines l).resetIn = s.resetIn := rfl
@[simp] theorem State.setLines_span (l : LineUnit) : (s.setLines l).span = s.span := rfl
@[simp] theorem State.setLines_pending (l : LineUnit) : (s.setLines l).pending = s.pending := rfl

/-! ## setFlight -/

@[simp] theorem State.setFlight_ts (f : InFlight) : (s.setFlight f).ts = s.ts := rfl
@[simp] theorem State.setFlight_ports (f : InFlight) : (s.setFlight f).ports = s.ports := rfl
@[simp] theorem State.setFlight_echo (f : InFlight) : (s.setFlight f).echo = s.echo := rfl
@[simp] theorem State.setFlight_wire (f : InFlight) : (s.setFlight f).wire = s.wire := rfl
@[simp] theorem State.setFlight_src (f : InFlight) : (s.setFlight f).src = s.src := rfl
@[simp] theorem State.setFlight_cli (f : InFlight) : (s.setFlight f).cli = s.cli := rfl
@[simp] theorem State.setFlight_epoch (f : InFlight) : (s.setFlight f).epoch = s.epoch := rfl
@[simp] theorem State.setFlight_sched (f : InFlight) : (s.setFlight f).sched = s.sched := rfl
@[simp] theorem State.setFlight_lines (f : InFlight) : (s.setFlight f).lines = s.lines := rfl
@[simp] theorem State.setFlight_arbiter (f : InFlight) : (s.setFlight f).arbiter = s.arbiter := rfl
@[simp] theorem State.setFlight_units (f : InFlight) : (s.setFlight f).units = s.units := rfl
@[simp] theorem State.setFlight_flight (f : InFlight) : (s.setFlight f).flight = f := rfl
@[simp] theorem State.setFlight_resetIn (f : InFlight) : (s.setFlight f).resetIn = s.resetIn := rfl
@[simp] theorem State.setFlight_span (f : InFlight) : (s.setFlight f).span = s.span := rfl
@[simp] theorem State.setFlight_pending (f : InFlight) : (s.setFlight f).pending = s.pending := rfl

/-! ## setPath -/

@[simp] theorem State.setPath_ts (i : Nat) (p : Option SourcePath) : (s.setPath i p).ts = s.ts := rfl
@[simp] theorem State.setPath_ports (i : Nat) (p : Option SourcePath) : (s.setPath i p).ports = s.ports := rfl
@[simp] theorem State.setPath_echo (i : Nat) (p : Option SourcePath) : (s.setPath i p).echo = s.echo := rfl
@[simp] theorem State.setPath_wire (i : Nat) (p : Option SourcePath) : (s.setPath i p).wire = s.wire := rfl
@[simp] theorem State.setPath_src (i : Nat) (p : Option SourcePath) : (s.setPath i p).src = { s.src with entries := s.src.entries.set i p } := rfl
@[simp] theorem State.setPath_cli (i : Nat) (p : Option SourcePath) : (s.setPath i p).cli = s.cli := rfl
@[simp] theorem State.setPath_epoch (i : Nat) (p : Option SourcePath) : (s.setPath i p).epoch = s.epoch := rfl
@[simp] theorem State.setPath_sched (i : Nat) (p : Option SourcePath) : (s.setPath i p).sched = s.sched := rfl
@[simp] theorem State.setPath_lines (i : Nat) (p : Option SourcePath) : (s.setPath i p).lines = s.lines := rfl
@[simp] theorem State.setPath_arbiter (i : Nat) (p : Option SourcePath) : (s.setPath i p).arbiter = s.arbiter := rfl
@[simp] theorem State.setPath_units (i : Nat) (p : Option SourcePath) : (s.setPath i p).units = s.units := rfl
@[simp] theorem State.setPath_flight (i : Nat) (p : Option SourcePath) : (s.setPath i p).flight = s.flight := rfl
@[simp] theorem State.setPath_resetIn (i : Nat) (p : Option SourcePath) : (s.setPath i p).resetIn = s.resetIn := rfl
@[simp] theorem State.setPath_span (i : Nat) (p : Option SourcePath) : (s.setPath i p).span = s.span := rfl
@[simp] theorem State.setPath_pending (i : Nat) (p : Option SourcePath) : (s.setPath i p).pending = s.pending := rfl

/-! ## setClient -/

@[simp] theorem State.setClient_ts (i : Nat) (c : Option Client) : (s.setClient i c).ts = s.ts := rfl
@[simp] theorem State.setClient_ports (i : Nat) (c : Option Client) : (s.setClient i c).ports = s.ports := rfl
@[simp] theorem State.setClient_echo (i : Nat) (c : Option Client) : (s.setClient i c).echo = s.echo := rfl
@[simp] theorem State.setClient_wire (i : Nat) (c : Option Client) : (s.setClient i c).wire = s.wire := rfl
@[simp] theorem State.setClient_src (i : Nat) (c : Option Client) : (s.setClient i c).src = s.src := rfl
@[simp] theorem State.setClient_cli (i : Nat) (c : Option Client) : (s.setClient i c).cli = { s.cli with slots := s.cli.slots.set i c } := rfl
@[simp] theorem State.setClient_epoch (i : Nat) (c : Option Client) : (s.setClient i c).epoch = s.epoch := rfl
@[simp] theorem State.setClient_sched (i : Nat) (c : Option Client) : (s.setClient i c).sched = s.sched := rfl
@[simp] theorem State.setClient_lines (i : Nat) (c : Option Client) : (s.setClient i c).lines = s.lines := rfl
@[simp] theorem State.setClient_arbiter (i : Nat) (c : Option Client) : (s.setClient i c).arbiter = s.arbiter := rfl
@[simp] theorem State.setClient_units (i : Nat) (c : Option Client) : (s.setClient i c).units = s.units := rfl
@[simp] theorem State.setClient_flight (i : Nat) (c : Option Client) : (s.setClient i c).flight = s.flight := rfl
@[simp] theorem State.setClient_resetIn (i : Nat) (c : Option Client) : (s.setClient i c).resetIn = s.resetIn := rfl
@[simp] theorem State.setClient_span (i : Nat) (c : Option Client) : (s.setClient i c).span = s.span := rfl
@[simp] theorem State.setClient_pending (i : Nat) (c : Option Client) : (s.setClient i c).pending = s.pending := rfl

/-! ## setCaptures -/

@[simp] theorem State.setCaptures_ts (ag : Agent) (q : CaptureQueue) : (s.setCaptures ag q).ts = s.ts := rfl
@[simp] theorem State.setCaptures_ports (ag : Agent) (q : CaptureQueue) : (s.setCaptures ag q).ports = s.ports := rfl
@[simp] theorem State.setCaptures_echo (ag : Agent) (q : CaptureQueue) : (s.setCaptures ag q).echo = s.echo := rfl
@[simp] theorem State.setCaptures_wire (ag : Agent) (q : CaptureQueue) : (s.setCaptures ag q).wire = s.wire := rfl
@[simp] theorem State.setCaptures_src (ag : Agent) (q : CaptureQueue) : (s.setCaptures ag q).src = s.src := rfl
@[simp] theorem State.setCaptures_cli (ag : Agent) (q : CaptureQueue) : (s.setCaptures ag q).cli = s.cli := rfl
@[simp] theorem State.setCaptures_epoch (ag : Agent) (q : CaptureQueue) : (s.setCaptures ag q).epoch = s.epoch := rfl
@[simp] theorem State.setCaptures_sched (ag : Agent) (q : CaptureQueue) : (s.setCaptures ag q).sched = s.sched := rfl
@[simp] theorem State.setCaptures_lines (ag : Agent) (q : CaptureQueue) : (s.setCaptures ag q).lines = { s.lines with captures := s.lines.captures.set ag q } := rfl
@[simp] theorem State.setCaptures_arbiter (ag : Agent) (q : CaptureQueue) : (s.setCaptures ag q).arbiter = s.arbiter := rfl
@[simp] theorem State.setCaptures_units (ag : Agent) (q : CaptureQueue) : (s.setCaptures ag q).units = s.units := rfl
@[simp] theorem State.setCaptures_flight (ag : Agent) (q : CaptureQueue) : (s.setCaptures ag q).flight = s.flight := rfl
@[simp] theorem State.setCaptures_resetIn (ag : Agent) (q : CaptureQueue) : (s.setCaptures ag q).resetIn = s.resetIn := rfl
@[simp] theorem State.setCaptures_span (ag : Agent) (q : CaptureQueue) : (s.setCaptures ag q).span = s.span := rfl
@[simp] theorem State.setCaptures_pending (ag : Agent) (q : CaptureQueue) : (s.setCaptures ag q).pending = s.pending := rfl

/-! ## setOutput -/

@[simp] theorem State.setOutput_ts (i : Nat) (o : Output) : (s.setOutput i o).ts = s.ts := rfl
@[simp] theorem State.setOutput_ports (i : Nat) (o : Output) : (s.setOutput i o).ports = s.ports := rfl
@[simp] theorem State.setOutput_echo (i : Nat) (o : Output) : (s.setOutput i o).echo = s.echo := rfl
@[simp] theorem State.setOutput_wire (i : Nat) (o : Output) : (s.setOutput i o).wire = s.wire := rfl
@[simp] theorem State.setOutput_src (i : Nat) (o : Output) : (s.setOutput i o).src = s.src := rfl
@[simp] theorem State.setOutput_cli (i : Nat) (o : Output) : (s.setOutput i o).cli = s.cli := rfl
@[simp] theorem State.setOutput_epoch (i : Nat) (o : Output) : (s.setOutput i o).epoch = s.epoch := rfl
@[simp] theorem State.setOutput_sched (i : Nat) (o : Output) : (s.setOutput i o).sched = s.sched := rfl
@[simp] theorem State.setOutput_lines (i : Nat) (o : Output) : (s.setOutput i o).lines = { s.lines with outputs := s.lines.outputs.set i o } := rfl
@[simp] theorem State.setOutput_arbiter (i : Nat) (o : Output) : (s.setOutput i o).arbiter = s.arbiter := rfl
@[simp] theorem State.setOutput_units (i : Nat) (o : Output) : (s.setOutput i o).units = s.units := rfl
@[simp] theorem State.setOutput_flight (i : Nat) (o : Output) : (s.setOutput i o).flight = s.flight := rfl
@[simp] theorem State.setOutput_resetIn (i : Nat) (o : Output) : (s.setOutput i o).resetIn = s.resetIn := rfl
@[simp] theorem State.setOutput_span (i : Nat) (o : Output) : (s.setOutput i o).span = s.span := rfl
@[simp] theorem State.setOutput_pending (i : Nat) (o : Output) : (s.setOutput i o).pending = s.pending := rfl

/-! ## setInput -/

@[simp] theorem State.setInput_ts (i : Nat) (x : Input) : (s.setInput i x).ts = s.ts := rfl
@[simp] theorem State.setInput_ports (i : Nat) (x : Input) : (s.setInput i x).ports = s.ports := rfl
@[simp] theorem State.setInput_echo (i : Nat) (x : Input) : (s.setInput i x).echo = s.echo := rfl
@[simp] theorem State.setInput_wire (i : Nat) (x : Input) : (s.setInput i x).wire = s.wire := rfl
@[simp] theorem State.setInput_src (i : Nat) (x : Input) : (s.setInput i x).src = s.src := rfl
@[simp] theorem State.setInput_cli (i : Nat) (x : Input) : (s.setInput i x).cli = s.cli := rfl
@[simp] theorem State.setInput_epoch (i : Nat) (x : Input) : (s.setInput i x).epoch = s.epoch := rfl
@[simp] theorem State.setInput_sched (i : Nat) (x : Input) : (s.setInput i x).sched = s.sched := rfl
@[simp] theorem State.setInput_lines (i : Nat) (x : Input) : (s.setInput i x).lines = { s.lines with inputs := s.lines.inputs.set i x } := rfl
@[simp] theorem State.setInput_arbiter (i : Nat) (x : Input) : (s.setInput i x).arbiter = s.arbiter := rfl
@[simp] theorem State.setInput_units (i : Nat) (x : Input) : (s.setInput i x).units = s.units := rfl
@[simp] theorem State.setInput_flight (i : Nat) (x : Input) : (s.setInput i x).flight = s.flight := rfl
@[simp] theorem State.setInput_resetIn (i : Nat) (x : Input) : (s.setInput i x).resetIn = s.resetIn := rfl
@[simp] theorem State.setInput_span (i : Nat) (x : Input) : (s.setInput i x).span = s.span := rfl
@[simp] theorem State.setInput_pending (i : Nat) (x : Input) : (s.setInput i x).pending = s.pending := rfl

/-! ## Access -/

@[simp] theorem State.unit_setUnit (ag : Agent) (u : AgentUnit) : (s.setUnit ag u).unit ag = u := PerAgent.get_set_same _ _ _

theorem State.unit_setUnit_other (ag b : Agent) (u : AgentUnit) (h : b ≠ ag) : (s.setUnit ag u).unit b = s.unit b :=
  PerAgent.get_set_other _ _ _ _ h

@[simp] theorem State.setUnit_unit (ag : Agent) : s.setUnit ag (s.unit ag) = s := by
  simp [State.setUnit, State.unit]

@[simp] theorem State.setUnit_setUnit (ag : Agent) (u v : AgentUnit) : (s.setUnit ag u).setUnit ag v = s.setUnit ag v := by
  simp [State.setUnit]

@[simp] theorem State.port_setPort (n : Net) (p : NetPort) : (s.setPort n p).port n = p := PerNet.get_set_same _ _ _

theorem State.port_setPort_other (n m : Net) (p : NetPort) (h : m ≠ n) : (s.setPort n p).port m = s.port m :=
  PerNet.get_set_other _ _ _ _ h

@[simp] theorem State.captures_setCaptures (ag : Agent) (q : CaptureQueue) : (s.setCaptures ag q).captures ag = q :=
  PerAgent.get_set_same _ _ _

theorem State.captures_setCaptures_other (ag b : Agent) (q : CaptureQueue) (h : b ≠ ag) :
    (s.setCaptures ag q).captures b = s.captures b := PerAgent.get_set_other _ _ _ _ h

/-- Entry `i` of the source table after an update of entry `j`. -/
theorem State.path_setPath (i j : Nat) (p : Option SourcePath) :
    (s.setPath j p).path i = if j = i ∧ i < s.src.entries.length then p else s.path i := by
  by_cases h : j = i
  · subst h
    by_cases hl : j < s.src.entries.length <;> simp [State.path, State.setPath, List.getD, hl]
  · simp [State.path, State.setPath, List.getD, h]

/-- Slot `i` of the client table after an update of slot `j`. -/
theorem State.client_setClient (i j : Nat) (c : Option Client) :
    (s.setClient j c).client i = if j = i ∧ i < s.cli.slots.length then c else s.client i := by
  by_cases h : j = i
  · subst h
    by_cases hl : j < s.cli.slots.length <;> simp [State.client, State.setClient, List.getD, hl]
  · simp [State.client, State.setClient, List.getD, h]

end Machine
end Sys2Proof
end

