-- ==== Sys2Proof/Laws/Ops.lean ====
section
/-! SUPPORT. What the shared operations can do: answering, submitting and taking a request, raising an alert, the transmit
queue and the end of an ask. -/

namespace Sys2Proof.Machine

/-! ## Answering and submitting -/

/-- An answer changes the port status and the overrun flag of its own unit alone. -/
theorem respond_eq (ag : Agent) (st : Status) (b : Body) (s : State) :
    respond ag st b s =
      s.setUnit ag { s.unit ag with
        link := .ready ⟨(s.unit ag).overrun, (s.unit ag).ctx.flags, st, b⟩, overrun := false } := rfl

/-- A request in hand at the port changes nothing of what is answered. -/
@[simp] theorem respond_withRequest (ag : Agent) (q : Submitted) (st : Status) (b : Body) (s : State) :
    respond ag st b (s.withRequest ag q) = respond ag st b s := by
  simp [respond_eq, State.withRequest]

/-- A submitted frame changes the port status and the overrun flag of its own unit alone. -/
theorem submit_cases (ag : Agent) (q : Submitted) (s : State) :
    ∃ l b, submit ag q s = s.setUnit ag { s.unit ag with link := l, overrun := b } := by
  have hs : ∃ l b, s = s.setUnit ag { s.unit ag with link := l, overrun := b } :=
    ⟨(s.unit ag).link, (s.unit ag).overrun, (s.setUnit_unit ag).symm⟩
  unfold submit acceptFrame
  split
  · split
    · exact ⟨_, _, rfl⟩
    · split
      · exact ⟨_, _, respond_eq _ _ _ _⟩
      · split
        · exact ⟨_, _, respond_eq _ _ _ _⟩
        · split
          · exact ⟨_, _, respond_eq _ _ _ _⟩
          · exact ⟨_, _, rfl⟩
  · exact hs

/-- A request brought in hand changes the port status and the overrun flag of its own unit alone. -/
theorem bringInHand_cases (ag : Agent) (q : Submitted) (s : State) :
    ∃ l b, bringInHand ag q s = s.setUnit ag { s.unit ag with link := l, overrun := b } := by
  unfold bringInHand
  split
  · exact ⟨(s.unit ag).link, (s.unit ag).overrun, (s.setUnit_unit ag).symm⟩
  · exact submit_cases ag q s

/-- A port that holds the request is as it is with it in hand. -/
theorem withRequest_of_holds (ag : Agent) (q : Submitted) (s : State) (h : (s.unit ag).link = .busy q) :
    s.withRequest ag q = s := by
  have : ({ s.unit ag with link := .busy q } : AgentUnit) = s.unit ag := by rw [← h]
  rw [State.withRequest, this, State.setUnit_unit]

/-- A request that is in hand or accepted is brought in hand. -/
theorem bringInHand_of_accepts (ag : Agent) (q : Submitted) (s : State)
    (h : (s.holdsRequest ag q || s.acceptsRequest ag q) = true) : bringInHand ag q s = s.withRequest ag q := by
  unfold bringInHand
  split
  · rename_i hb; exact (withRequest_of_holds ag q s hb).symm
  · rename_i hb
    have hh : s.holdsRequest ag q = false := by simp [State.holdsRequest, hb]
    rw [hh, Bool.false_or] at h
    simp only [State.acceptsRequest, Bool.and_eq_true] at h
    obtain ⟨⟨⟨⟨h1, h2⟩, h3⟩, h4⟩, h5⟩ := h
    unfold submit
    rw [if_pos h1]
    have hacc : acceptFrame ag q s = s.withRequest ag q := by
      unfold acceptFrame
      rw [if_neg (by simp [h3]), if_neg, if_neg]
      · rfl
      · cases hn : q.req.needsGrant <;> simp_all
      · cases hn : q.req.rankZero <;> simp_all
    cases hl : (s.unit ag).link with
    | idle => simpa [hl] using hacc
    | ready r => simpa [hl] using hacc
    | busy r => simp [State.portFree, hl] at h2

/-- A request that is taken at once is answered as its block answers it. -/
theorem runRequest_of_takesNow (ag : Agent) (q : Submitted) (take : State → Answer) (s : State)
    (h : s.takesNow ag q = true) :
    runRequest ag q take s =
      respond ag (take (s.withRequest ag q)).status (take (s.withRequest ag q)).body (take (s.withRequest ag q)).state := by
  simp only [State.takesNow, Bool.and_eq_true] at h
  unfold runRequest
  rw [bringInHand_of_accepts ag q s h.1]
  have hi : (s.withRequest ag q).inHand ag q = true := by
    simp only [State.inHand, Bool.and_eq_true, beq_iff_eq]
    exact ⟨by simp [State.withRequest], h.2⟩
  simp [hi]

/-- A property that neither an answer nor a submitted frame touches, and that the taking keeps, is kept by a request
command. -/
theorem runRequest_keeps (P : State → Prop) (ag : Agent) (q : Submitted) (take : State → Answer)
    (hu : ∀ s l b, P s → P (s.setUnit ag { s.unit ag with link := l, overrun := b }))
    (ht : ∀ s, P s → P (take s).state) (s : State) (h : P s) : P (runRequest ag q take s) := by
  obtain ⟨l, b, e⟩ := bringInHand_cases ag q s
  have hb : P (bringInHand ag q s) := e ▸ hu s l b h
  dsimp only [runRequest]
  split
  · exact hu _ _ _ (ht _ hb)
  · exact hb

/-! ## A request in hand -/

section
variable (s : State) (ag : Agent) (q : Submitted)

@[simp] theorem State.withRequest_ts : (s.withRequest ag q).ts = s.ts := rfl
@[simp] theorem State.withRequest_ports : (s.withRequest ag q).ports = s.ports := rfl
@[simp] theorem State.withRequest_echo : (s.withRequest ag q).echo = s.echo := rfl
@[simp] theorem State.withRequest_wire : (s.withRequest ag q).wire = s.wire := rfl
@[simp] theorem State.withRequest_src : (s.withRequest ag q).src = s.src := rfl
@[simp] theorem State.withRequest_cli : (s.withRequest ag q).cli = s.cli := rfl
@[simp] theorem State.withRequest_epoch : (s.withRequest ag q).epoch = s.epoch := rfl
@[simp] theorem State.withRequest_sched : (s.withRequest ag q).sched = s.sched := rfl
@[simp] theorem State.withRequest_lines : (s.withRequest ag q).lines = s.lines := rfl
@[simp] theorem State.withRequest_arbiter : (s.withRequest ag q).arbiter = s.arbiter := rfl
@[simp] theorem State.withRequest_flight : (s.withRequest ag q).flight = s.flight := rfl
@[simp] theorem State.withRequest_unit : (s.withRequest ag q).unit ag = { s.unit ag with link := .busy q } := by
  simp [State.withRequest]
@[simp] theorem State.withRequest_ctx (b : Agent) : (s.withRequest ag q).ctx b = s.ctx b := by
  cases ag <;> cases b <;> rfl
@[simp] theorem State.withRequest_path (i : Nat) : (s.withRequest ag q).path i = s.path i := rfl
@[simp] theorem State.withRequest_port (n : Net) : (s.withRequest ag q).port n = s.port n := rfl
@[simp] theorem State.withRequest_client (i : Nat) : (s.withRequest ag q).client i = s.client i := rfl
@[simp] theorem State.withRequest_captures (b : Agent) : (s.withRequest ag q).captures b = s.captures b := rfl
@[simp] theorem State.withRequest_holdsGrant (b : Agent) : (s.withRequest ag q).holdsGrant b = s.holdsGrant b := rfl

/-- A request that is taken at once, its block leaving the port as it is, is answered on what the block leaves. -/
theorem runRequest_answer (take : State → Answer) (h : s.takesNow ag q = true) (t : State) (st : Status) (b : Body)
    (ht : take (s.withRequest ag q) = ⟨t.withRequest ag q, st, b⟩) : runRequest ag q take s = respond ag st b t := by
  rw [runRequest_of_takesNow ag q take s h, ht]
  exact respond_withRequest ag q st b t

end

/-! ## Raising alerts and reports -/

/-- A raise changes nothing but the messages. -/
theorem raiseTo_eq (ag : Agent) (r : Raise) (s : State) : raiseTo ag r s = s.setFlight (raiseTo ag r s).flight := rfl

theorem raiseAll_eq (r : Raise) (s : State) : raiseAll r s = s.setFlight (raiseAll r s).flight := rfl

theorem raiseSched_eq (ag : Agent) (a : SchedAlert) (s : State) :
    raiseSched ag a s = s.setFlight (raiseSched ag a s).flight := rfl

theorem reportRenewal_eq (ag : Agent) (s : State) : reportRenewal ag s = s.setFlight (reportRenewal ag s).flight := rfl

theorem voidRenewals_eq (s : State) : voidRenewals s = s.setFlight (voidRenewals s).flight := rfl

/-- No renewal report stands once the grant is lost (R164). -/
theorem voidRenewals_void (s : State) (r : Renewal) (h : r ∈ (voidRenewals s).flight.renewals) : r.stands = false := by
  obtain ⟨x, -, rfl⟩ := List.mem_map.1 h
  rfl

/-- The oldest raises of an agent stay in front of a new one; the raises of the other agents stay. -/
theorem raiseTo_raises (ag b : Agent) (r : Raise) (s : State) :
    (raiseTo ag r s).flight.raises.get b =
      if b = ag then s.flight.raises.get ag ++ [r] else s.flight.raises.get b := by
  cases ag <;> cases b <;> rfl

/-! ## The transmit queue -/

/-- The start of a transmission never lengthens the class-1 queue. -/
theorem beginTx_class1 (p : NetPort) : (beginTx p).class1.length ≤ p.class1.length := by
  unfold beginTx
  split
  · split
    · exact le_rfl
    · split
      · exact le_rfl
      · split
        · exact le_rfl
        · rename_i h; simp [h]
  · exact le_rfl

/-- A class-1 frame is placed only where there is room (R53). -/
theorem placeClass1_class1 (f : Class1Frame) (p : NetPort) (h : p.class1.length ≤ Config.class1Room) :
    (placeClass1 f p).1.class1.length ≤ Config.class1Room := by
  unfold placeClass1
  split
  · rename_i hl
    refine le_trans (beginTx_class1 _) ?_
    simp; omega
  · exact h

/-- An EPOCH placed leaves the class-1 queue within its room (R52). -/
theorem placeEpoch_class1 (f : EpochFrame) (p : NetPort) : (placeEpoch f p).class1.length ≤ p.class1.length :=
  beginTx_class1 _

/-! ## The end of an ask -/

/-- The end of asks changes nothing but asks and class-1 queues, and lengthens neither (R64). -/
theorem endAsksWhere_class1 (g : Ask → Bool) (p : NetPort) : (endAsksWhere g p).class1.length ≤ p.class1.length :=
  List.length_filter_le _ _

theorem endAsks_eq (t : Target) (s : State) : endAsks t s = { s with ports := (endAsks t s).ports } := rfl

theorem endAskOn_eq (n : Net) (t : Target) (s : State) : endAskOn n t s = { s with ports := (endAskOn n t s).ports } := rfl

end Sys2Proof.Machine
end

