-- ==== Sys2Proof/Laws/Servo.lean ====
section
/-! SUPPORT. What the timescale unit and the selection of the source table can change: the frames of their operations
(`onlySelection`: timescale record, source table and messages alone), and what each does to the servo state and the table. -/

namespace Sys2Proof.Machine

/-! ## onlySelection -/

theorem onlySelection.refl (s : State) : onlySelection s s := rfl

theorem onlySelection.trans {s t u : State} (h : onlySelection s t) (k : onlySelection t u) : onlySelection s u := by
  unfold onlySelection at *; rw [k, h]

theorem onlySelection.units {s t : State} (h : onlySelection s t) : t.units = s.units := by rw [h]
theorem onlySelection.ports {s t : State} (h : onlySelection s t) : t.ports = s.ports := by rw [h]
theorem onlySelection.sched {s t : State} (h : onlySelection s t) : t.sched = s.sched := by rw [h]
theorem onlySelection.lines {s t : State} (h : onlySelection s t) : t.lines = s.lines := by rw [h]
theorem onlySelection.cli {s t : State} (h : onlySelection s t) : t.cli = s.cli := by rw [h]

theorem onlySelection_setTs (s : State) (t : Timescale) : onlySelection s (s.setTs t) := rfl
theorem onlySelection_setFlight (s : State) (f : InFlight) : onlySelection s (s.setFlight f) := rfl
theorem onlySelection_setPath (s : State) (i : Nat) (p : Option SourcePath) : onlySelection s (s.setPath i p) := rfl
theorem onlySelection_raiseTo (s : State) (ag : Agent) (r : Raise) : onlySelection s (raiseTo ag r s) := rfl
theorem onlySelection_raiseAll (s : State) (r : Raise) : onlySelection s (raiseAll r s) := rfl
theorem onlySelection_regrade (s : State) : onlySelection s (regrade s) := rfl
theorem onlySelection_reportChange (s : State) (r : Option Ticks) : onlySelection s (reportChange r s) := rfl
theorem onlySelection_reportStep (s : State) (x y : Ticks) (r : Option Ticks) : onlySelection s (reportStep x y r s) := rfl
theorem onlySelection_setSelected (s : State) (i : Option Nat) : onlySelection s (setSelected i s) := rfl

theorem onlySelection_applyLeap (s : State) : onlySelection s (applyLeap s) := by unfold applyLeap; split <;> rfl

theorem onlySelection_endSlew (s : State) (e : SlewEnd) : onlySelection s (endSlew e s) := by
  unfold endSlew
  split
  · rfl
  · dsimp only; split <;> rfl

theorem onlySelection_replaceSlew (s : State) (w : Slew) : onlySelection s (replaceSlew w s) :=
  (onlySelection_endSlew s .replaced).trans (onlySelection_setTs _ _)

theorem onlySelection_stepTo (s : State) (new : Ticks) (sub : Nat) : onlySelection s (stepTo new sub s) := by
  unfold stepTo
  extract_lets old s1 src s2 due s3
  have h : onlySelection s s3 :=
    ((onlySelection_endSlew s .dropped).trans (onlySelection_setTs s1 _)).trans (onlySelection_reportStep s2 _ _ _)
  split
  · exact h.trans (onlySelection_applyLeap _)
  · exact h

theorem onlySelection_changeServo (s : State) (x : ServoState) : onlySelection s (changeServo x s) := by
  unfold changeServo; split <;> rfl

theorem onlySelection_enterAcquire (s : State) : onlySelection s (enterAcquire s) :=
  (onlySelection_changeServo s _).trans (onlySelection_setTs _ _)

theorem onlySelection_enterLocked (s : State) (c : Nat) : onlySelection s (enterLocked c s) :=
  (onlySelection_changeServo s _).trans (onlySelection_setTs _ _)

theorem onlySelection_enterHoldover (s : State) : onlySelection s (enterHoldover s) :=
  ((onlySelection_endSlew s _).trans (onlySelection_changeServo _ _)).trans (onlySelection_setTs _ _)

theorem onlySelection_expireHoldover (s : State) : onlySelection s (expireHoldover s) :=
  ((onlySelection_changeServo s _).trans (onlySelection_setTs _ _)).trans (onlySelection_regrade _)

theorem onlySelection_takeSelected (s : State) : onlySelection s (takeSelected s) := by
  unfold takeSelected; split
  · exact onlySelection_enterAcquire s
  · exact onlySelection_enterAcquire s
  · rfl

theorem onlySelection_takeMoved (s : State) (c : Nat) (o : Option Int) : onlySelection s (takeMoved c o s) := by
  unfold takeMoved; split
  · exact onlySelection_enterAcquire s
  · split
    · split
      · rfl
      · exact onlySelection_enterAcquire s
    · exact onlySelection_enterAcquire s
  · rfl

theorem onlySelection_lost (s : State) :
    onlySelection s (if s.ts.rateBasis && s.ts.timeSet then enterHoldover s
      else let s1 := changeServo .freerun s; s1.setTs { s1.ts with snapAt := none }) := by
  split
  · exact onlySelection_enterHoldover s
  · exact (onlySelection_changeServo s _).trans (onlySelection_setTs _ _)

theorem onlySelection_takeLost (s : State) : onlySelection s (takeLost s) := by
  unfold takeLost; split
  · exact onlySelection_lost s
  · exact onlySelection_lost s
  · rfl

theorem onlySelection_setPathState (s : State) (i : Nat) (x : PathState) : onlySelection s (setPathState i x s) := by
  unfold setPathState; split <;> rfl

theorem onlySelection_selectPath (s : State) (i : Nat) (p : SourcePath) (prev : Option (Nat × Nat)) (c : SourceCause)
    (f : State → State) (hf : ∀ u, onlySelection u (f u)) : onlySelection s (selectPath i p prev c f s) :=
  ((((onlySelection_setPathState s i _).trans (onlySelection_setSelected _ _)).trans (hf _)).trans
    (onlySelection_raiseAll _ _)).trans (onlySelection_regrade _)

theorem onlySelection_reexamine (s : State) (c : SourceCause) : onlySelection s (reexamine c s) := by
  unfold reexamine
  split
  · rfl
  · split
    · split
      · rfl
      · exact onlySelection_selectPath _ _ _ _ _ _ onlySelection_takeSelected
    · extract_lets
      split
      · split
        · rfl
        · split
          · exact (onlySelection_setPathState s _ _).trans
              (onlySelection_selectPath _ _ _ _ _ _ fun u => onlySelection_takeMoved u _ _)
          · rfl
      · split
        · exact onlySelection_selectPath _ _ _ _ _ _ fun u => onlySelection_takeMoved u _ _
        · exact (((onlySelection_setSelected s _).trans (onlySelection_takeLost _)).trans
            (onlySelection_raiseAll _ _)).trans (onlySelection_regrade _)

theorem onlySelection_reportClass (s : State) (i : Nat) : onlySelection s (reportClass i s) := by
  unfold reportClass
  split
  · split
    · split <;> rfl
    · rfl
  · rfl

theorem onlySelection_suspendSelection (s : State) : onlySelection s (suspendSelection s) := by
  unfold suspendSelection
  split
  · rfl
  · exact ((onlySelection_setPathState s _ _).trans (onlySelection_setSelected _ _)).trans
      ((onlySelection_raiseAll _ _).trans rfl)

theorem onlySelection_enterFault (s : State) (c : FaultCause) : onlySelection s (enterFault c s) :=
  ((((onlySelection_endSlew s _).trans (onlySelection_setTs _ _)).trans (onlySelection_raiseAll _ _)).trans
    (onlySelection_suspendSelection _)).trans (onlySelection_regrade _)

theorem onlySelection_rateLaw (s : State) (k o : Int) : onlySelection s (rateLaw k o s) := by
  unfold rateLaw
  extract_lets
  split
  · rfl
  · split <;> rfl

theorem onlySelection_finishAcquire (s : State) (c : Nat) (o : Int) : onlySelection s (finishAcquire c o s) := by
  unfold finishAcquire
  extract_lets
  split
  · exact (onlySelection_setTs s _).trans (onlySelection_enterFault _ _)
  · split
    · exact (onlySelection_setTs s _).trans (onlySelection_enterLocked _ _)
    · rfl

theorem onlySelection_measureAcquire (s : State) (c : Nat) (k o : Int) : onlySelection s (measureAcquire c k o s) := by
  unfold measureAcquire
  extract_lets
  split
  · split
    · exact ((onlySelection_stepTo s _ _).trans (onlySelection_setTs _ _)).trans (onlySelection_finishAcquire _ _ _)
    · rfl
  · split
    · split
      · exact ((onlySelection_stepTo s _ _).trans (onlySelection_rateLaw _ _ _)).trans (onlySelection_finishAcquire _ _ _)
      · rfl
    · exact ((onlySelection_replaceSlew s _).trans (onlySelection_rateLaw _ _ _)).trans (onlySelection_finishAcquire _ _ _)

theorem onlySelection_measureLocked (s : State) (k o : Int) : onlySelection s (measureLocked k o s) := by
  unfold measureLocked
  extract_lets s1 src s2
  have h : onlySelection s s2 :=
    ((onlySelection_replaceSlew s _).trans (onlySelection_rateLaw _ k o)).trans (onlySelection_setTs s1 _)
  split
  · exact h.trans (onlySelection_enterFault _ _)
  · split
    · exact h.trans (onlySelection_enterAcquire _)
    · exact h

theorem onlySelection_takeOffset (s : State) (c : Nat) (k o : Int) : onlySelection s (takeOffset c k o s) := by
  unfold takeOffset
  split
  · exact (onlySelection_measureAcquire s c k o).trans (onlySelection_regrade _)
  · exact (onlySelection_measureLocked s k o).trans (onlySelection_regrade _)
  · rfl

theorem onlySelection_adoptPair (s : State) (x : Option Int) (l : Option Leap) (a : Ticks) :
    onlySelection s (adoptPair x l a s) := by
  unfold adoptPair
  extract_lets
  split <;> rfl

theorem onlySelection_advance (s : State) (n : Nat) : onlySelection s (advance n s) := onlySelection_setTs s _

/-! ## The timescale unit -/

theorem onlySelection_restartServo (s : State) : onlySelection s (restartServo s) := by
  unfold restartServo
  extract_lets s1 src s2 src2
  have h : onlySelection s s2 :=
    ((onlySelection_endSlew s .dropped).trans (onlySelection_changeServo _ .freerun)).trans (onlySelection_setTs s1 _)
  have k : onlySelection s2 { s2 with src := { s2.src with suspended := false } } := rfl
  exact (h.trans k).trans (onlySelection_reexamine _ _)

theorem onlySelection_setTime (s : State) (n : Int) : onlySelection s (setTime n s) :=
  (onlySelection_stepTo s _ _).trans (onlySelection_setTs _ _)

theorem onlySelection_steerSlew (s : State) (ag : Agent) (d : Int) (ppm : Nat) : onlySelection s (steerSlew ag d ppm s) := by
  unfold steerSlew
  split
  · exact (onlySelection_endSlew s _).trans (onlySelection_raiseTo _ _ _)
  · exact onlySelection_replaceSlew s _

theorem onlySelection_steerPair (s : State) (x : Int) (l : Leap) : onlySelection s (steerPair x l s) := by
  unfold steerPair; split <;> rfl

theorem onlySelection_takeMeasurement (s : State) : onlySelection s (takeMeasurement s) := by
  unfold takeMeasurement
  split
  · dsimp only
    split
    · exact (onlySelection_setFlight s _).trans (onlySelection_takeOffset _ _ _ _)
    · rfl
  · rfl

theorem onlySelection_takePair (s : State) : onlySelection s (takePair s) := by
  unfold takePair
  split
  · dsimp only
    split
    · exact (onlySelection_setFlight s _).trans (onlySelection_adoptPair _ _ _ _)
    · rfl
  · rfl

theorem onlySelection_completeSlew (s : State) : onlySelection s (completeSlew s) := by
  unfold completeSlew; split
  · exact onlySelection_endSlew s _
  · rfl

theorem onlySelection_dueLeap (s : State) : onlySelection s (dueLeap s) := by
  unfold dueLeap; split
  · exact onlySelection_applyLeap s
  · rfl

theorem onlySelection_gradeHoldover (s : State) : onlySelection s (gradeHoldover s) := by
  unfold gradeHoldover; split <;> rfl

theorem onlySelection_overHoldover (s : State) : onlySelection s (overHoldover s) := by
  unfold overHoldover; split
  · exact onlySelection_expireHoldover s
  · rfl

theorem onlySelection_saveSnapshot (s : State) : onlySelection s (saveSnapshot s) := by
  unfold saveSnapshot; split <;> rfl

theorem onlySelection_slewNotifyReset (s : State) (ag : Agent) : onlySelection s (slewNotifyReset ag s) := by
  unfold slewNotifyReset; split <;> rfl

theorem onlySelection_steered (ag : Agent) (s : State) : onlySelection s (steered ag s).state := rfl

theorem onlySelection_takeServoRestart (s : State) : onlySelection s (takeServoRestart s).state := by
  unfold takeServoRestart; split
  · exact onlySelection_restartServo s
  · rfl

theorem onlySelection_takeSnapshotRestore (r : SnapshotRecord) (s : State) :
    onlySelection s (takeSnapshotRestore r s).state := by
  unfold takeSnapshotRestore; split
  · rfl
  · split
    · rfl
    · exact onlySelection_enterFault s _

theorem onlySelection_takeSteerStep (ag : Agent) (x : StepOperand) (s : State) :
    onlySelection s (takeSteerStep ag x s).state := by
  unfold takeSteerStep
  split
  · rfl
  · split
    · split
      · rfl
      · split
        · dsimp only
          split
          · exact ((onlySelection_setTime s _).trans (onlySelection_regrade _)).trans (onlySelection_steered _ _)
          · rfl
        · rfl
    · split
      · rfl
      · split
        · dsimp only
          split
          · exact ((onlySelection_stepTo s _ _).trans (onlySelection_regrade _)).trans (onlySelection_steered _ _)
          · rfl
        · rfl

theorem onlySelection_takeSteerSlew (ag : Agent) (i : IntervalField) (r : Option Nat) (s : State) :
    onlySelection s (takeSteerSlew ag i r s).state := by
  unfold takeSteerSlew
  split
  · rfl
  · split
    · dsimp only
      split
      · rfl
      · split
        · rfl
        · exact (onlySelection_steerSlew s _ _ _).trans (onlySelection_steered _ _)
    · rfl

theorem onlySelection_takeSteerRate (ag : Agent) (r : Int) (s : State) : onlySelection s (takeSteerRate ag r s).state := by
  unfold takeSteerRate
  split
  · rfl
  · split <;> rfl

theorem onlySelection_takeSteerLeap (ag : Agent) (l : Leap) (x : Option Int) (s : State) :
    onlySelection s (takeSteerLeap ag l x s).state := by
  unfold takeSteerLeap
  extract_lets
  repeat (split; · rfl)
  exact (onlySelection_steerPair s _ _).trans (onlySelection_steered _ _)

/-! ## The advance of time (R22, R31) -/

/-- Within its range a counter takes every part (log entry 8). -/
theorem partsWithin_below {unit top n : Nat} (h : n < top * unit) : partsWithin unit top n = n := by
  unfold partsWithin; omega

/-- At the end of its range it holds at the last part (log entry 8). -/
theorem partsWithin_end {unit top n : Nat} (hu : 0 < unit) (h : top * unit ≤ n) (ht : 0 < top) :
    partsWithin unit top n / unit = top - 1 ∧ partsWithin unit top n % unit = unit - 1 := by
  obtain ⟨k, rfl⟩ : ∃ k, top = k + 1 := ⟨top - 1, by omega⟩
  have hp : partsWithin unit (k + 1) n = unit - 1 + k * unit := by
    unfold partsWithin
    rw [Nat.add_mul] at *
    omega
  rw [hp, Nat.add_mul_div_right _ _ hu, Nat.add_mul_mod_self_right, Nat.div_eq_of_lt (by omega), Nat.mod_eq_of_lt (by omega)]
  omega

/-- A slew keeps its direction, its ppm and its completion option as it shrinks. -/
@[simp] theorem slewAfter_neg (a : Nat) (w : Slew) : (slewAfter a w).neg = w.neg := by rw [slewAfter]

@[simp] theorem slewAfter_ppm (a : Nat) (w : Slew) : (slewAfter a w).ppm = w.ppm := by rw [slewAfter]

@[simp] theorem slewAfter_notify (a : Nat) (w : Slew) : (slewAfter a w).notify = w.notify := by rw [slewAfter]

/-- What is left of a slew after its share (R31). -/
theorem slewLeft_slewAfter (a : Nat) (w : Slew) : slewLeft (slewAfter a w) = slewLeft w - slewUse a w :=
  (congrArg (· + _) (Nat.mul_comm _ _)).trans (Nat.div_add_mod (slewLeft w - slewUse a w) Config.subPerTick)

/-- The parts of DT are its own, the corrected advance and the share of the slew, within its range (R22, R31). -/
theorem dtParts_eq (a : Nat) (t : Timescale) (h : ∀ w, t.slew = some w → w.ppm ≤ 500) : ∃ n : Nat,
    dtParts a t = partsWithin Config.subPerTick timeEnd n ∧
    (n : Int) = t.dt * Config.subPerTick + t.dtSub + a * 1000000 +
      (match t.slew with
        | none => 0
        | some w => if w.neg then -(slewUse a w : Int) else slewUse a w) := by
  refine ⟨_, rfl, ?_⟩
  cases hs : t.slew with
  | none => dsimp only; push_cast; omega
  | some w =>
    dsimp only
    have hle : slewUse a w ≤ a * 1000000 := by
      have h1 : a * w.ppm ≤ a * 500 := Nat.mul_le_mul_left _ (h w hs)
      have h2 : slewUse a w ≤ a * w.ppm := min_le_left _ _
      omega
    cases w.neg
    · simp only [Bool.false_eq_true, if_false]; omega
    · simp only [if_true]; omega

end Sys2Proof.Machine
end

