-- ==== Sys2Proof/Laws/Selection.lean ====
section
/-! SUPPORT. Source table and servo: what each operation does to the servo state and to the table, the re-examination of
selection from any table that has yet to be re-examined, and the entry to FAULT. -/

namespace Sys2Proof.Machine

/-! ## Operations that leave source table and servo state -/

/-- Source table and servo state are the same. -/
def sameSelection (s t : State) : Prop := t.src = s.src ∧ t.ts.servo = s.ts.servo

theorem sameSelection.refl (s : State) : sameSelection s s := ⟨rfl, rfl⟩

theorem sameSelection.trans {s t u : State} (h : sameSelection s t) (k : sameSelection t u) : sameSelection s u :=
  ⟨k.1.trans h.1, k.2.trans h.2⟩

theorem sameSelection_setTs (s : State) (t : Timescale) (h : t.servo = s.ts.servo) : sameSelection s (s.setTs t) := ⟨rfl, h⟩

theorem sameSelection_regrade (s : State) : sameSelection s (regrade s) := ⟨rfl, rfl⟩
theorem sameSelection_raiseTo (s : State) (ag : Agent) (r : Raise) : sameSelection s (raiseTo ag r s) := ⟨rfl, rfl⟩
theorem sameSelection_raiseAll (s : State) (r : Raise) : sameSelection s (raiseAll r s) := ⟨rfl, rfl⟩

theorem sameSelection_applyLeap (s : State) : sameSelection s (applyLeap s) := by
  unfold applyLeap; split <;> exact ⟨rfl, rfl⟩

theorem sameSelection_endSlew (s : State) (e : SlewEnd) : sameSelection s (endSlew e s) := by
  unfold endSlew
  split
  · exact ⟨rfl, rfl⟩
  · dsimp only; split <;> exact ⟨rfl, rfl⟩

theorem sameSelection_replaceSlew (s : State) (w : Slew) : sameSelection s (replaceSlew w s) :=
  (sameSelection_endSlew s .replaced).trans ⟨rfl, rfl⟩

theorem sameSelection_stepTo (s : State) (new : Ticks) (sub : Nat) : sameSelection s (stepTo new sub s) := by
  unfold stepTo
  extract_lets old s1 src s2 due s3
  have h : sameSelection s s3 := (sameSelection_endSlew s .dropped).trans ⟨rfl, rfl⟩
  split
  · exact h.trans (sameSelection_applyLeap _)
  · exact h

theorem sameSelection_rateLaw (s : State) (k o : Int) : sameSelection s (rateLaw k o s) := by
  unfold rateLaw
  extract_lets
  split
  · exact ⟨rfl, rfl⟩
  · split <;> exact ⟨rfl, rfl⟩

theorem sameSelection_adoptPair (s : State) (x : Option Int) (l : Option Leap) (a : Ticks) :
    sameSelection s (adoptPair x l a s) := by
  unfold adoptPair
  extract_lets
  split <;> exact ⟨rfl, rfl⟩

theorem advanceTs_servo (n : Nat) (t : Timescale) : (advanceTs n t).servo = t.servo := by
  unfold advanceTs
  extract_lets
  split <;> rfl

theorem sameSelection_advance (s : State) (n : Nat) : sameSelection s (advance n s) :=
  sameSelection_setTs s _ (advanceTs_servo n s.ts)

/-! ## Changes of servo state -/

theorem changeServo_src (x : ServoState) (s : State) : (changeServo x s).src = s.src := by
  unfold changeServo; split <;> rfl

theorem changeServo_servo (x : ServoState) (s : State) : (changeServo x s).ts.servo = x := by
  unfold changeServo
  split
  · assumption
  · rfl

theorem enterAcquire_src (s : State) : (enterAcquire s).src = s.src := changeServo_src _ s
theorem enterAcquire_servo (s : State) : (enterAcquire s).ts.servo = .acquire := changeServo_servo _ s
theorem enterLocked_src (c : Nat) (s : State) : (enterLocked c s).src = s.src := changeServo_src _ s
theorem enterLocked_servo (c : Nat) (s : State) : (enterLocked c s).ts.servo = .locked := changeServo_servo _ s

theorem enterHoldover_src (s : State) : (enterHoldover s).src = s.src :=
  (changeServo_src _ _).trans (sameSelection_endSlew s .dropped).1

theorem enterHoldover_servo (s : State) : (enterHoldover s).ts.servo = .holdover := changeServo_servo _ _

theorem expireHoldover_src (s : State) : (expireHoldover s).src = s.src := changeServo_src _ s
theorem expireHoldover_servo (s : State) : (expireHoldover s).ts.servo = .freerun := changeServo_servo _ s

theorem takeSelected_src (s : State) : (takeSelected s).src = s.src := by
  unfold takeSelected
  split <;> first | exact enterAcquire_src s | rfl

/-- A path selected where none was moves a servo that is not in FAULT to a state that follows (R24). -/
theorem takeSelected_follows (s : State) (h : s.ts.servo ≠ .fault) : (takeSelected s).ts.servo.follows = true := by
  unfold takeSelected
  split
  · rw [enterAcquire_servo]; rfl
  · rw [enterAcquire_servo]; rfl
  · cases hs : s.ts.servo <;> simp_all [ServoState.follows]

theorem takeMoved_src (c : Nat) (o : Option Int) (s : State) : (takeMoved c o s).src = s.src := by
  unfold takeMoved
  split
  · exact enterAcquire_src s
  · split
    · split
      · rfl
      · exact enterAcquire_src s
    · exact enterAcquire_src s
  · rfl

/-- A move of selection leaves the servo in a state that follows (R24). -/
theorem takeMoved_follows (c : Nat) (o : Option Int) (s : State) (h : s.ts.servo.follows = true) :
    (takeMoved c o s).ts.servo.follows = true := by
  unfold takeMoved
  split
  · rw [enterAcquire_servo]; rfl
  · rename_i hl
    split
    · split
      · exact h
      · rw [enterAcquire_servo]; rfl
    · rw [enterAcquire_servo]; rfl
  · exact h

theorem takeLost_src (s : State) : (takeLost s).src = s.src := by
  have h : (if s.ts.rateBasis && s.ts.timeSet then enterHoldover s
      else let s1 := changeServo .freerun s; s1.setTs { s1.ts with snapAt := none }).src = s.src := by
    split
    · exact enterHoldover_src s
    · exact changeServo_src _ s
  unfold takeLost
  split
  · exact h
  · exact h
  · rfl

/-- Selection lost leaves a servo that is not in FAULT in FREERUN or HOLDOVER (R24). -/
theorem takeLost_servo (s : State) (h : s.ts.servo ≠ .fault) :
    (takeLost s).ts.servo = .freerun ∨ (takeLost s).ts.servo = .holdover := by
  have k : (if s.ts.rateBasis && s.ts.timeSet then enterHoldover s
      else let s1 := changeServo .freerun s; s1.setTs { s1.ts with snapAt := none }).ts.servo = .freerun ∨
      (if s.ts.rateBasis && s.ts.timeSet then enterHoldover s
      else let s1 := changeServo .freerun s; s1.setTs { s1.ts with snapAt := none }).ts.servo = .holdover := by
    split
    · exact .inr (enterHoldover_servo s)
    · exact .inl (changeServo_servo _ s)
  unfold takeLost
  split
  · exact k
  · exact k
  · cases hs : s.ts.servo <;> simp_all

/-! ## The table -/

theorem path_of_src {s t : State} (h : t.src = s.src) (i : Nat) : t.path i = s.path i := by simp [State.path, h]

theorem path_lt {s : State} {i : Nat} {p : SourcePath} (h : s.path i = some p) : i < s.src.entries.length := by
  by_contra hn
  simp [State.path, List.getD, List.getElem?_eq_none (Nat.le_of_not_lt hn)] at h

theorem setPath_entries_length (s : State) (i : Nat) (p : Option SourcePath) :
    (s.setPath i p).src.entries.length = s.src.entries.length := by simp

theorem setPathState_src (i : Nat) (x : PathState) (s : State) :
    (setPathState i x s).src.selected = s.src.selected ∧ (setPathState i x s).src.suspended = s.src.suspended ∧
      (setPathState i x s).src.settings = s.src.settings ∧
      (setPathState i x s).src.entries.length = s.src.entries.length ∧ (setPathState i x s).ts = s.ts := by
  unfold setPathState
  split <;> simp

/-- The paths after a change of state of entry `i`. -/
theorem path_setPathState (i j : Nat) (x : PathState) (s : State) :
    (setPathState i x s).path j = if i = j then (s.path j).map (fun p => { p with state := x }) else s.path j := by
  unfold setPathState
  split
  · rename_i p hp
    rw [State.path_setPath]
    by_cases h : i = j
    · subst h; simp [path_lt hp, hp]
    · simp [h]
  · rename_i hp
    by_cases h : i = j
    · subst h; simp [hp]
    · simp [h]

/-- The candidates are the entries in state CANDIDATE. -/
theorem mem_candidates {t : SourceTable} {i : Nat} {p : SourcePath} (h : (i, p) ∈ candidates t) :
    t.entries[i]? = some (some p) ∧ p.state = .candidate := by
  simp only [candidates, List.mem_filterMap] at h
  obtain ⟨⟨e, j⟩, hm, hx⟩ := h
  rw [List.mem_zipIdx_iff_getElem?] at hm
  cases e with
  | none => simp at hx
  | some q =>
    dsimp only at hx
    split at hx
    · rename_i hc
      simp only [Option.some.injEq, Prod.mk.injEq] at hx
      obtain ⟨rfl, rfl⟩ := hx
      exact ⟨hm, hc⟩
    · simp at hx

theorem foldl_betterOf_mem (set : SourceSettings) (l : List (Nat × SourcePath)) (b : Option (Nat × SourcePath))
    {c : Nat × SourcePath} (h : l.foldl (betterOf set) b = some c) : c ∈ l ∨ b = some c := by
  induction l generalizing b with
  | nil => exact .inr h
  | cons x l ih =>
    rcases ih _ h with h1 | h1
    · exact .inl (List.mem_cons_of_mem _ h1)
    · unfold betterOf at h1
      split at h1
      · rw [Option.some.injEq] at h1; exact .inl (h1 ▸ List.mem_cons_self)
      · split at h1
        · rw [Option.some.injEq] at h1; exact .inl (h1 ▸ List.mem_cons_self)
        · exact .inr h1

/-- The best candidate is an entry in state CANDIDATE (R82). -/
theorem bestCandidate_path {s : State} {i : Nat} {p : SourcePath} (h : bestCandidate s.src = some (i, p)) :
    s.path i = some p ∧ p.state = .candidate := by
  rcases foldl_betterOf_mem _ _ _ h with h1 | h1
  · have := mem_candidates h1
    exact ⟨by simp [State.path, List.getD, this.1], this.2⟩
  · simp at h1

/-! ## The agreement, before and after re-examination -/

/-- What holds of table and servo before selection is re-examined: a SELECTED path is the selected entry's (but the selected
entry may have left SELECTED), the servo follows exactly while an entry is selected, selection is suspended exactly in
FAULT. -/
structure SelectionOpen (s : State) : Prop where
  size : s.src.entries.length = Config.sourceEntries
  selected : ∀ i p, s.path i = some p → p.state = .selected → s.src.selected = some i
  servo : s.ts.servo.follows = s.src.selected.isSome
  suspended : s.src.suspended = decide (s.ts.servo = .fault)

/-- What holds of them after it: besides, the selected entry is present and SELECTED. -/
structure SelectionSettled (s : State) : Prop extends SelectionOpen s where
  back : ∀ i p, s.src.selected = some i → s.path i = some p → p.state = .selected
  present : ∀ i, s.src.selected = some i → (s.path i).isSome = true

theorem SelectionOpen.of_same {s t : State} (h : SelectionOpen s) (k : sameSelection s t) : SelectionOpen t where
  size := by rw [k.1]; exact h.size
  selected := fun i p hp => by rw [path_of_src k.1] at hp; rw [k.1]; exact h.selected i p hp
  servo := by rw [k.1, k.2]; exact h.servo
  suspended := by rw [k.1, k.2]; exact h.suspended

theorem SelectionSettled.of_same {s t : State} (h : SelectionSettled s) (k : sameSelection s t) : SelectionSettled t where
  toSelectionOpen := h.toSelectionOpen.of_same k
  back := fun i p hi hp => by rw [path_of_src k.1] at hp; rw [k.1] at hi; exact h.back i p hi hp
  present := fun i hi => by rw [path_of_src k.1]; rw [k.1] at hi; exact h.present i hi

/-- Nothing is selected, so nothing has to be re-examined. -/
theorem SelectionOpen.settled_of_none {s : State} (h : SelectionOpen s) (hn : s.src.selected = none) : SelectionSettled s where
  toSelectionOpen := h
  back := fun i p hi => by rw [hn] at hi; cases hi
  present := fun i hi => by rw [hn] at hi; cases hi

/-- An update of an entry that is not SELECTED, before or after, leaves a settled table settled. -/
theorem SelectionSettled.setPath {s : State} (h : SelectionSettled s) (i : Nat) (q : Option SourcePath)
    (hold : ∀ p, s.path i = some p → p.state ≠ .selected) (hnew : ∀ p, q = some p → p.state ≠ .selected) :
    SelectionSettled (s.setPath i q) := by
  have hns : s.src.selected ≠ some i := by
    intro hc
    have hp := h.present i hc
    cases hx : s.path i with
    | none => simp [hx] at hp
    | some p => exact hold p hx (h.back i p hc hx)
  have hpath : ∀ j p, (s.setPath i q).path j = some p → p.state = .selected → s.path j = some p := by
    intro j p hp hs
    rw [State.path_setPath] at hp
    split at hp
    · exact absurd hs (hnew p hp)
    · exact hp
  have hother : ∀ j, s.src.selected = some j → (s.setPath i q).path j = s.path j := by
    intro j hj
    rw [State.path_setPath, if_neg]
    rintro ⟨rfl, _⟩
    exact hns hj
  exact
    { size := by rw [setPath_entries_length]; exact h.size
      selected := fun j p hp hs => h.selected j p (hpath j p hp hs) hs
      servo := h.servo
      suspended := h.suspended
      back := fun j p hj hp => by rw [hother j hj] at hp; exact h.back j p hj hp
      present := fun j hj => by rw [hother j hj]; exact h.present j hj }

/-- An update of an entry that keeps its state and presence leaves a settled table settled. -/
theorem SelectionSettled.setPath_same {s : State} (h : SelectionSettled s) (i : Nat) (p q : SourcePath)
    (hp : s.path i = some p) (hq : q.state = p.state) : SelectionSettled (s.setPath i (some q)) := by
  have hi : i < s.src.entries.length := path_lt hp
  have hpath : ∀ j r, (s.setPath i (some q)).path j = some r → ∃ r', s.path j = some r' ∧ r'.state = r.state := by
    intro j r hr
    rw [State.path_setPath] at hr
    split at hr
    · rename_i hc
      obtain ⟨rfl, _⟩ := hc
      cases hr
      exact ⟨p, hp, hq.symm⟩
    · exact ⟨r, hr, rfl⟩
  have hsome : ∀ j, (s.setPath i (some q)).path j = none → s.path j = none := by
    intro j hj
    rw [State.path_setPath] at hj
    split at hj
    · cases hj
    · exact hj
  exact
    { size := by rw [setPath_entries_length]; exact h.size
      selected := fun j r hr hs => by
        obtain ⟨r', h1, h2⟩ := hpath j r hr
        exact h.selected j r' h1 (h2.trans hs)
      servo := h.servo
      suspended := h.suspended
      back := fun j r hj hr => by
        obtain ⟨r', h1, h2⟩ := hpath j r hr
        rw [← h2]; exact h.back j r' hj h1
      present := fun j hj => by
        cases hx : (s.setPath i (some q)).path j with
        | some _ => rfl
        | none =>
          have := h.present j hj
          rw [hsome j hx] at this; cases this }

/-- Entry `i` is selected: from a table in which no path is SELECTED, with a servo brought to follow, the table is settled. -/
theorem selectPath_settled {s : State} (i : Nat) (p : SourcePath) (prev : Option (Nat × Nat)) (c : SourceCause)
    (f : State → State) (hsize : s.src.entries.length = Config.sourceEntries)
    (hnone : ∀ j q, s.path j = some q → q.state ≠ .selected) (hp : s.path i = some p) (hsus : s.src.suspended = false)
    (hf : ∀ u : State, u.ts = s.ts → (f u).src = u.src ∧ (f u).ts.servo.follows = true) :
    SelectionSettled (selectPath i p prev c f s) := by
  let s1 := setSelected (some i) (setPathState i .selected s)
  have e := setPathState_src i .selected s
  have hs1 : s1.ts = s.ts := e.2.2.2.2
  have hsrc : (selectPath i p prev c f s).src = s1.src := (hf s1 hs1).1
  have hservo : (selectPath i p prev c f s).ts.servo = (f s1).ts.servo := rfl
  have hsel : s1.src.selected = some i := rfl
  have hpath : ∀ j, s1.path j = if i = j then (s.path j).map (fun p => { p with state := .selected }) else s.path j :=
    fun j => path_setPathState i j .selected s
  have hfol := (hf s1 hs1).2
  have hnf : (f s1).ts.servo ≠ .fault := by intro hc; rw [hc] at hfol; cases hfol
  exact
    { size := by rw [hsrc]; exact e.2.2.2.1.trans hsize
      selected := fun j q hq hs => by
        rw [path_of_src hsrc, hpath] at hq
        rw [hsrc, hsel]
        by_cases hij : i = j
        · rw [hij]
        · rw [if_neg hij] at hq; exact absurd hs (hnone j q hq)
      servo := by rw [hsrc, hsel, hservo, hfol]; rfl
      suspended := by
        rw [hsrc, hservo, decide_eq_false hnf]
        exact e.2.1.trans hsus
      back := fun j q hj hq => by
        rw [hsrc, hsel] at hj
        cases hj
        rw [path_of_src hsrc, hpath, if_pos rfl, hp] at hq
        cases hq; rfl
      present := fun j hj => by
        rw [hsrc, hsel] at hj
        cases hj
        rw [path_of_src hsrc, hpath, if_pos rfl, hp]; rfl }

theorem regrade_raiseAll_src (r : Raise) (t : State) : (regrade (raiseAll r t)).src = t.src := rfl

/-- Re-examination settles the table (R82 … R84). -/
theorem reexamine_settled (c : SourceCause) (s : State) (h : SelectionOpen s) : SelectionSettled (reexamine c s) := by
  unfold reexamine
  split
  · rename_i hsus
    refine h.settled_of_none ?_
    have hf : s.ts.servo = .fault := by simpa using h.suspended.symm.trans hsus
    have hs := h.servo
    rw [hf] at hs
    cases hsel : s.src.selected with
    | none => rfl
    | some i => rw [hsel] at hs; cases hs
  · rename_i hsus
    have hsus' : s.src.suspended = false := by simpa using hsus
    have hnf : s.ts.servo ≠ .fault := by simpa using h.suspended.symm.trans hsus'
    split
    · rename_i hsel
      have hnone : ∀ j q, s.path j = some q → q.state ≠ .selected := by
        intro j q hq hs
        have := h.selected j q hq hs
        rw [hsel] at this; cases this
      split
      · exact h.settled_of_none hsel
      · rename_i i p hb
        refine selectPath_settled i p none c takeSelected h.size hnone (bestCandidate_path hb).1 hsus' ?_
        intro u hu
        exact ⟨takeSelected_src u, takeSelected_follows u (by rw [hu]; exact hnf)⟩
    · rename_i j hsel
      have hfol : s.ts.servo.follows = true := by rw [h.servo, hsel]; rfl
      extract_lets prev cause
      split
      · rename_i hj
        obtain ⟨pj, hpj, hst⟩ : ∃ p, s.path j = some p ∧ p.state = .selected := by
          cases hx : s.path j with
          | none => simp [hx] at hj
          | some p => exact ⟨p, rfl, by simpa [hx] using hj⟩
        have hset : SelectionSettled s :=
          { toSelectionOpen := h
            back := fun i p hi hp => by
              rw [hsel] at hi; cases hi
              rw [hpj] at hp; cases hp; exact hst
            present := fun i hi => by rw [hsel] at hi; cases hi; rw [hpj]; rfl }
        split
        · exact hset
        · rename_i i p hb
          split
          · have hbp := bestCandidate_path hb
            have e := setPathState_src j .candidate s
            have hij : j ≠ i := by
              rintro rfl
              rw [hpj] at hbp
              have h1 := hbp.2
              cases hbp.1
              rw [hst] at h1; cases h1
            refine selectPath_settled (s := setPathState j .candidate s) i p prev .better (takeMoved p.cls p.lastOffset) (e.2.2.2.1.trans h.size) ?_ ?_ (e.2.1.trans hsus') ?_
            · intro k q hq hs
              rw [path_setPathState] at hq
              by_cases hjk : j = k
              · rw [if_pos hjk] at hq
                cases hx : s.path k with
                | none => simp [hx] at hq
                | some r => rw [hx] at hq; cases hq; cases hs
              · rw [if_neg hjk] at hq
                have := h.selected k q hq hs
                rw [hsel] at this; cases this; exact hjk rfl
            · rw [path_setPathState, if_neg hij]; exact hbp.1
            · intro u hu
              exact ⟨takeMoved_src _ _ u, takeMoved_follows _ _ u (by rw [hu, e.2.2.2.2]; exact hfol)⟩
          · exact hset
      · rename_i hj
        have hnone : ∀ k q, s.path k = some q → q.state ≠ .selected := by
          intro k q hq hs
          have := h.selected k q hq hs
          rw [hsel] at this; cases this
          rw [hq] at hj; exact hj (by simp [hs])
        split
        · rename_i i p hb
          refine selectPath_settled (s := s) i p prev cause (takeMoved p.cls p.lastOffset) h.size hnone (bestCandidate_path hb).1 hsus' ?_
          intro u hu
          exact ⟨takeMoved_src _ _ u, takeMoved_follows _ _ u (by rw [hu]; exact hfol)⟩
        · have hsrc : (regrade (raiseAll (.source ⟨prev, none, cause⟩) (takeLost (setSelected none s)))).src =
              (setSelected none s).src := (regrade_raiseAll_src _ _).trans (takeLost_src _)
          have hserv := takeLost_servo (setSelected none s) hnf
          refine SelectionOpen.settled_of_none ?_ (by rw [hsrc]; rfl)
          exact
            { size := by rw [hsrc]; exact h.size
              selected := fun k q hq hs => by
                rw [path_of_src hsrc] at hq
                exact absurd hs (hnone k q hq)
              servo := by
                rw [hsrc]
                show (takeLost (setSelected none s)).ts.servo.follows = _
                rcases hserv with hx | hx <;> rw [hx] <;> rfl
              suspended := by
                rw [hsrc]
                show s.src.suspended = decide ((takeLost (setSelected none s)).ts.servo = .fault)
                rw [hsus']
                rcases hserv with hx | hx <;> rw [hx] <;> rfl }

theorem setPathState_identity (i j : Nat) (x : PathState) (u : State) :
    ((setPathState i x u).path j).map SourcePath.identity = (u.path j).map SourcePath.identity := by
  rw [path_setPathState]
  split
  · cases u.path j <;> rfl
  · rfl

/-- Which entries are present, with their identities, the settings and the suspension flag are the same. -/
def samePresence (s t : State) : Prop :=
  (∀ i, (t.path i).map SourcePath.identity = (s.path i).map SourcePath.identity) ∧ t.src.settings = s.src.settings ∧
    t.src.suspended = s.src.suspended

theorem samePresence.isSome {s t : State} (h : samePresence s t) (i : Nat) : (t.path i).isSome = (s.path i).isSome := by
  have k := congrArg Option.isSome (h.1 i)
  rwa [Option.isSome_map, Option.isSome_map] at k

theorem samePresence.rfl' (s : State) : samePresence s s := ⟨fun _ => rfl, rfl, rfl⟩

theorem samePresence.trans {s t u : State} (a : samePresence s t) (b : samePresence t u) : samePresence s u :=
  ⟨fun i => (b.1 i).trans (a.1 i), b.2.1.trans a.2.1, b.2.2.trans a.2.2⟩

theorem samePresence_of_src {s t : State} (h : t.src = s.src) : samePresence s t :=
  ⟨fun i => by rw [path_of_src h], by rw [h], by rw [h]⟩

theorem samePresence_setPathState (i : Nat) (x : PathState) (u : State) : samePresence u (setPathState i x u) :=
  have e := setPathState_src i x u
  ⟨fun j => setPathState_identity i j x u, e.2.2.1, e.2.1⟩

theorem samePresence_selectPath (i : Nat) (p : SourcePath) (prev : Option (Nat × Nat)) (c : SourceCause) (f : State → State)
    (u : State) (hf : ∀ v, (f v).src = v.src) : samePresence u (selectPath i p prev c f u) := by
  have hsrc : (selectPath i p prev c f u).src = (setSelected (some i) (setPathState i .selected u)).src := hf _
  have h : samePresence (setPathState i .selected u) (setSelected (some i) (setPathState i .selected u)) :=
    ⟨fun _ => rfl, rfl, rfl⟩
  exact ((samePresence_setPathState i .selected u).trans h).trans (samePresence_of_src hsrc)

/-- Re-examination keeps which entries are present, and the settings. -/
theorem reexamine_keeps (c : SourceCause) (s : State) : samePresence s (reexamine c s) := by
  unfold reexamine
  split
  · exact samePresence.rfl' s
  · split
    · split
      · exact samePresence.rfl' s
      · exact samePresence_selectPath _ _ _ _ _ _ takeSelected_src
    · rename_i j _
      extract_lets prev cause
      split
      · split
        · exact samePresence.rfl' s
        · rename_i i p _
          split
          · exact (samePresence_setPathState j .candidate s).trans
              (samePresence_selectPath i p prev .better (takeMoved p.cls p.lastOffset) (setPathState j .candidate s)
                (takeMoved_src p.cls p.lastOffset))
          · exact samePresence.rfl' s
      · split
        · rename_i i p _
          exact samePresence_selectPath i p prev cause (takeMoved p.cls p.lastOffset) s (takeMoved_src p.cls p.lastOffset)
        · have hsrc : (regrade (raiseAll (.source ⟨prev, none, cause⟩) (takeLost (setSelected none s)))).src =
              (setSelected none s).src := (regrade_raiseAll_src _ _).trans (takeLost_src _)
          have h : samePresence s (setSelected none s) := ⟨fun _ => rfl, rfl, rfl⟩
          exact h.trans (samePresence_of_src hsrc)

/-- A report of a class changes neither table nor servo state. -/
theorem sameSelection_reportClass (i : Nat) (s : State) : sameSelection s (reportClass i s) := by
  unfold reportClass
  split
  · split
    · split <;> exact ⟨rfl, rfl⟩
    · exact ⟨rfl, rfl⟩
  · exact ⟨rfl, rfl⟩

/-- What suspension leaves: nothing selected, no path SELECTED, every entry as present as before (R85). -/
theorem suspendSelection_facts (s : State)
    (h : ∀ i p, s.path i = some p → p.state = .selected → s.src.selected = some i) :
    (suspendSelection s).src.selected = none ∧ (suspendSelection s).src.suspended = true ∧
      (suspendSelection s).src.entries.length = s.src.entries.length ∧
      (suspendSelection s).src.settings = s.src.settings ∧ (suspendSelection s).ts = s.ts ∧
      (∀ i p, (suspendSelection s).path i = some p → p.state ≠ .selected) ∧
      (∀ i, ((suspendSelection s).path i).isSome = (s.path i).isSome) := by
  unfold suspendSelection
  split
  · rename_i hn
    refine ⟨hn, rfl, rfl, rfl, rfl, ?_, fun _ => rfl⟩
    intro i p hp hs
    have := h i p hp hs
    rw [hn] at this; cases this
  · rename_i j hj
    have e := setPathState_src j .candidate s
    have hp3 := fun i => path_setPathState j i .candidate s
    generalize setPathState j .candidate s = u at e hp3
    refine ⟨rfl, rfl, e.2.2.2.1, e.2.2.1, e.2.2.2.2, ?_, ?_⟩
    · intro i p hp hs
      have hp' : u.path i = some p := hp
      rw [hp3] at hp'
      by_cases hji : j = i
      · rw [if_pos hji] at hp'
        cases hx : s.path i with
        | none => simp [hx] at hp'
        | some r => rw [hx] at hp'; cases hp'; cases hs
      · rw [if_neg hji] at hp'
        have := h i p hp' hs
        rw [hj] at this; exact hji (Option.some.inj this)
    · intro i
      show (u.path i).isSome = _
      rw [hp3]
      split <;> simp

/-- The entry to FAULT: nothing is selected and selection is suspended (R32, R85). -/
theorem enterFault_settled (c : FaultCause) (s : State) (h : SelectionOpen s) :
    SelectionSettled (enterFault c s) ∧ (∀ i, ((enterFault c s).path i).isSome = (s.path i).isSome) ∧
      (enterFault c s).src.settings = s.src.settings := by
  unfold enterFault
  extract_lets s1 src s2
  have h1 : SelectionOpen s1 := h.of_same (sameSelection_endSlew s .dropped)
  have hsrc : s1.src = s.src := (sameSelection_endSlew s .dropped).1
  have f := suspendSelection_facts (raiseAll (.fault c) s2) h1.selected
  have hserv : (suspendSelection (raiseAll (.fault c) s2)).ts.servo = .fault := by rw [f.2.2.2.2.1]; rfl
  have hpath : ∀ i, ((suspendSelection (raiseAll (.fault c) s2)).path i).isSome = (s.path i).isSome := by
    intro i
    rw [f.2.2.2.2.2.2 i]
    exact congrArg Option.isSome (path_of_src hsrc i)
  have hset : (suspendSelection (raiseAll (.fault c) s2)).src.settings = s.src.settings :=
    f.2.2.2.1.trans (congrArg SourceTable.settings hsrc)
  have hsize : (suspendSelection (raiseAll (.fault c) s2)).src.entries.length = Config.sourceEntries :=
    f.2.2.1.trans h1.size
  obtain ⟨a1, a2, _, _, _, a5, _⟩ := f
  generalize suspendSelection (raiseAll (.fault c) s2) = u at *
  refine ⟨SelectionSettled.of_same (SelectionOpen.settled_of_none ?_ a1) (sameSelection_regrade u), hpath, hset⟩
  exact
    { size := hsize
      selected := fun i p hp hs => absurd hs (a5 i p hp)
      servo := by rw [hserv, a1]; rfl
      suspended := by rw [hserv, a2]; rfl }

end Sys2Proof.Machine
end

