-- ==== Sys2Proof/Laws/Sources.lean ====
section
/-! SUPPORT. The agreement of source table and servo under the operations of the source table, the timescale unit and
PART-CONFIG. -/

namespace Sys2Proof.Machine

/-! ## SelectionAgrees -/

theorem SelectionAgrees.settled {s : State} (h : SelectionAgrees s) : SelectionSettled s where
  size := h.size
  selected := fun i p hp hs => (h.selected i p hp).1 hs
  servo := h.servo
  suspended := h.suspended
  back := fun i p hi hp => (h.selected i p hp).2 hi
  present := h.present

theorem SelectionSettled.agrees {s : State} (h : SelectionSettled s) (hr : (s.path 8).isSome = s.src.settings.refMode) :
    SelectionAgrees s where
  size := h.size
  selected := fun i p hp => ⟨h.selected i p hp, fun hi => h.back i p hi hp⟩
  present := h.present
  servo := h.servo
  suspended := h.suspended
  reference := hr

theorem SelectionAgrees.of_same {s t : State} (h : SelectionAgrees s) (k : sameSelection s t) : SelectionAgrees t :=
  (h.settled.of_same k).agrees (by rw [path_of_src k.1, k.1]; exact h.reference)

/-- Re-examination after an update of one entry restores the agreement: the entry may leave SELECTED, but not enter it. -/
theorem SelectionAgrees.reexamine_setPath {s : State} (h : SelectionAgrees s) (c : SourceCause) (i : Nat)
    (q : Option SourcePath) (u : State) (hu : sameSelection (s.setPath i q) u)
    (hq : ∀ p, q = some p → p.state = .selected → ∃ p0, s.path i = some p0 ∧ p0.state = .selected)
    (hr : i = 8 → q.isSome = (s.path 8).isSome) : SelectionAgrees (reexamine c u) := by
  have ho : SelectionOpen (s.setPath i q) :=
    { size := by rw [setPath_entries_length]; exact h.size
      selected := fun j p hp hs => by
        show s.src.selected = some j
        rw [State.path_setPath] at hp
        split at hp
        · rename_i hc
          obtain ⟨rfl, _⟩ := hc
          obtain ⟨p0, h0, hs0⟩ := hq p hp hs
          exact (h.selected i p0 h0).1 hs0
        · exact (h.selected j p hp).1 hs
      servo := h.servo
      suspended := h.suspended }
  have k := reexamine_keeps c u
  refine (reexamine_settled c u (ho.of_same hu)).agrees ?_
  rw [k.isSome, k.2.1, path_of_src hu.1, hu.1, State.path_setPath]
  split
  · rename_i hc; rw [hr hc.1]; exact h.reference
  · exact h.reference

/-- An update of an entry that keeps its state keeps the agreement. -/
theorem SelectionAgrees.setPath_same {s : State} (h : SelectionAgrees s) (i : Nat) (p q : SourcePath)
    (hp : s.path i = some p) (hq : q.state = p.state) : SelectionAgrees (s.setPath i (some q)) := by
  refine (h.settled.setPath_same i p q hp hq).agrees ?_
  rw [State.path_setPath]
  split
  · rename_i hc
    obtain ⟨rfl, _⟩ := hc
    have := h.reference
    rw [hp] at this; exact this
  · exact h.reference

/-! ## Frames, samples, misses, ageing, barring -/

theorem SourcePath.tested_identity (p : SourcePath) : p.tested.identity = p.identity := by
  unfold SourcePath.tested
  repeat' split
  all_goals rfl

theorem SourcePath.tested_selected (p : SourcePath) (h : p.tested.state = .selected) : p.state = .selected := by
  unfold SourcePath.tested at h
  split at h
  · split at h
    · cases h
    · exact h
  · split at h
    · cases h
    · exact h
  · split at h
    · cases h
    · exact h
  · exact h

theorem sameSelection_handOver (i : Nat) (k : Int) (o utc : Option Int) (l : Option Leap) (a : Ticks) (s : State) :
    sameSelection s (handOver i k o utc l a s) := by
  unfold handOver
  split
  · extract_lets s1
    have h1 : sameSelection s s1 := by
      show sameSelection s (match o with | some x => handToTimescale (.offset i k x) s | none => s)
      split <;> exact ⟨rfl, rfl⟩
    split
    · exact h1.trans ⟨rfl, rfl⟩
    · exact h1
  · exact ⟨rfl, rfl⟩

theorem takeFrame_agrees (i : Nat) (m : OriginMsg) (p : SourcePath) (s : State) (h : SelectionAgrees s)
    (hp : p.state = .selected → ∃ p0, s.path i = some p0 ∧ p0.state = .selected)
    (hr : i = 8 → (s.path 8).isSome = true) : SelectionAgrees (takeFrame i m p s) := by
  unfold takeFrame
  extract_lets p1 o s1 s2
  have h1 : SelectionAgrees s1 := by
    refine h.reexamine_setPath .first i _ _ ⟨rfl, rfl⟩ ?_ ?_
    · intro q hq hs
      cases hq
      exact hp (SourcePath.tested_selected (p.takeFields m) hs)
    · intro hi; rw [hr hi]; rfl
  have h2 : SelectionAgrees s2 := by
    show SelectionAgrees (if _ then _ else _)
    split
    · exact h1.of_same (sameSelection_reportClass _ _)
    · exact h1
  exact h2.of_same (sameSelection_handOver _ _ _ _ _ _ _)

theorem pathTakesOrigin_agrees (i : Nat) (m : OriginMsg) (p : SourcePath) (s : State) (h : SelectionAgrees s)
    (hp : s.path i = some p) : SelectionAgrees (pathTakesOrigin i m p s) := by
  have hr : i = 8 → (s.path 8).isSome = true := by rintro rfl; rw [hp]; rfl
  unfold pathTakesOrigin
  split
  · exact h.setPath_same i p _ hp rfl
  · exact takeFrame_agrees i m _ s h (fun hc => by cases hc) hr
  · split
    · exact takeFrame_agrees i m p s h (fun hs => ⟨p, hp, hs⟩) hr
    · exact h

theorem mem_networkEntries {t : SourceTable} {e : Option SourcePath} {i : Nat} (h : (e, i) ∈ networkEntries t) :
    i < 8 ∧ t.entries[i]? = some e := by
  unfold networkEntries at h
  rw [List.mem_zipIdx_iff_getElem?] at h
  rw [List.getElem?_take] at h
  split at h
  · exact ⟨by assumption, h⟩
  · cases h

theorem findPath_path {s : State} {identity : Nat} {n : Net} {i : Nat} {p : SourcePath}
    (h : findPath s.src identity n = some (i, p)) : i < 8 ∧ s.path i = some p ∧ p.identity = identity ∧ p.net = some n := by
  obtain ⟨⟨e, j⟩, hm, hx⟩ := List.exists_of_findSome?_eq_some h
  have hm' := mem_networkEntries hm
  cases e with
  | none => simp at hx
  | some q =>
    dsimp only at hx
    split at hx
    · rename_i hc
      cases hx
      exact ⟨hm'.1, by simp [State.path, List.getD, hm'.2], hc⟩
    · cases hx

theorem freeEntry_path {s : State} {i : Nat} (h : freeEntry s.src = some i) : i < 8 ∧ s.path i = none := by
  obtain ⟨⟨e, j⟩, hm, hx⟩ := List.exists_of_findSome?_eq_some h
  have hm' := mem_networkEntries hm
  cases e with
  | some q => simp at hx
  | none =>
    simp at hx
    subst hx
    exact ⟨hm'.1, by simp [State.path, List.getD, hm'.2]⟩

theorem takeOrigin_agrees (m : OriginMsg) (s : State) (h : SelectionAgrees s) : SelectionAgrees (takeOrigin m s) := by
  unfold takeOrigin
  split
  · exact h
  · split
    · exact h
    · split
      · rename_i i p hf
        exact pathTakesOrigin_agrees i m p s h (findPath_path hf).2.1
      · split
        · split
          · rename_i i hi
            refine takeFrame_agrees i m _ s h (fun hc => by cases hc) ?_
            have := (freeEntry_path hi).1
            omega
          · exact h.of_same ⟨rfl, rfl⟩
        · exact h.of_same ⟨rfl, rfl⟩

theorem liveTarget_path {t : Target} {s : State} {i : Nat} {p : SourcePath} (h : liveTarget t s = some (i, p)) :
    s.path i = some p ∧ p.state.live = true ∧ t = .path i p.identity := by
  unfold liveTarget at h
  split at h
  · cases h
  · split at h
    · split at h
      · rename_i hc
        cases h
        exact ⟨by assumption, hc.2, by rw [hc.1]⟩
      · cases h
    · cases h

theorem isSome_at_eight {s : State} {i : Nat} {p : SourcePath} (h : s.path i = some p) (q : SourcePath) :
    i = 8 → (some q).isSome = (s.path 8).isSome := by
  rintro rfl; rw [h]; rfl

theorem takeSourceSample_agrees (m : SampleMsg) (s : State) (h : SelectionAgrees s) :
    SelectionAgrees (takeSourceSample m s) := by
  unfold takeSourceSample
  split
  · exact h
  · rename_i i p hl
    have hp := (liveTarget_path hl).1
    extract_lets f p1
    split
    · exact h.setPath_same i p _ hp rfl
    · refine h.reexamine_setPath .first i _ _ ⟨rfl, rfl⟩ ?_ (isSome_at_eight hp _)
      intro q hq hs
      cases hq
      exact ⟨p, hp, SourcePath.tested_selected p1 hs⟩

/-- Taking the samples that wait keeps whatever every sample keeps. -/
theorem foldl_keeps {α : Type} {P : State → Prop} (f : State → α → State) (hf : ∀ s a, P s → P (f s a)) (l : List α)
    (s : State) (h : P s) : P (l.foldl f s) := by
  induction l generalizing s with
  | nil => exact h
  | cons a l ih => exact ih _ (hf s a h)

theorem settleSamples_agrees (g : SampleMsg → Bool) (s : State) (h : SelectionAgrees s) :
    SelectionAgrees (settleSamples g s) :=
  foldl_keeps _ (fun s m h => takeSourceSample_agrees m s h) _ _ (h.of_same ⟨rfl, rfl⟩)

/-- A sample keeps which paths are present, and their identities. -/
theorem takeSourceSample_presence (m : SampleMsg) (s : State) : samePresence s (takeSourceSample m s) := by
  have hset : ∀ (i : Nat) (p q : SourcePath), s.path i = some p → q.identity = p.identity → samePresence s (s.setPath i (some q)) :=
    fun i p q hp hq => ⟨fun j => by
      rw [State.path_setPath]
      split
      · rename_i hc
        rw [← hc.1, hp]
        exact congrArg some hq
      · rfl, rfl, rfl⟩
  unfold takeSourceSample
  split
  · exact samePresence.rfl' s
  · rename_i i p hl
    have hp := (liveTarget_path hl).1
    extract_lets f p1
    split
    · exact hset i p p1 hp rfl
    · exact (hset i p p1.tested hp (SourcePath.tested_identity p1)).trans (reexamine_keeps _ _)

/-- The samples taken before the end of a target keep which paths are present, and their identities. -/
theorem settleSamples_presence (g : SampleMsg → Bool) (s : State) : samePresence s (settleSamples g s) :=
  foldl_keeps (P := samePresence s) _ (fun _ m h => h.trans (takeSourceSample_presence m _)) _ _ ⟨fun _ => rfl, rfl, rfl⟩

/-- The path whose samples are taken stands, with its identity. -/
theorem settlePath_path {i : Nat} {p : SourcePath} {s : State} (h : s.path i = some p) (q : SourcePath) :
    ∃ r, (settlePath i q s).path i = some r ∧ r.identity = p.identity := by
  have k := (settleSamples_presence (fun m => m.target == .path i q.identity) s).1 i
  rw [h] at k
  exact Option.map_eq_some_iff.1 k

theorem settlePath_agrees (i : Nat) (p : SourcePath) (s : State) (h : SelectionAgrees s) :
    SelectionAgrees (settlePath i p s) :=
  settleSamples_agrees _ s h

theorem makeStale_agrees (i since : Nat) (p : SourcePath) (s : State) (h : SelectionAgrees s) :
    SelectionAgrees (makeStale i since p s) := by
  have h1 := settlePath_agrees i p s h
  unfold makeStale
  dsimp only
  split
  · rename_i q hq
    exact h1.reexamine_setPath .first i _ _ ⟨rfl, rfl⟩ (fun q hq hs => by cases hq; cases hs) (isSome_at_eight hq _)
  · exact h1

theorem takeSourceMiss_agrees (m : MissMsg) (s : State) (h : SelectionAgrees s) : SelectionAgrees (takeSourceMiss m s) := by
  unfold takeSourceMiss
  split
  · exact h
  · rename_i i p hl
    split
    · exact makeStale_agrees i _ p s h
    · exact h

theorem staleAtDeadline_agrees (i : Nat) (s : State) (h : SelectionAgrees s) : SelectionAgrees (staleAtDeadline i s) := by
  unfold staleAtDeadline
  split
  · rename_i p hp
    split
    · split
      · exact makeStale_agrees i _ p s h
      · exact h
    · exact h
  · exact h

theorem removeStale_agrees (i : Nat) (s : State) (h : SelectionAgrees s) : SelectionAgrees (removeStale i s) := by
  unfold removeStale
  split
  · rename_i p hp
    split
    · rename_i hd
      have hi : i < 8 := by
        simp only [removalDue, hp] at hd
        split at hd
        · simp only [Bool.and_eq_true, decide_eq_true_eq] at hd; exact hd.1.2
        · cases hd
      exact h.reexamine_setPath .first i none _ ⟨rfl, rfl⟩ (fun q hq => by cases hq) (by omega)
    · exact h
  · exact h

theorem barPath_agrees (e r : Nat) (p : SourcePath) (s : State) (h : SelectionAgrees s) :
    SelectionAgrees (barPath e r p s) := by
  have h1 := settlePath_agrees e p s h
  unfold barPath
  dsimp only
  split
  · rename_i q hq
    exact h1.reexamine_setPath .first e _ _ ⟨rfl, rfl⟩ (fun q hq hs => by cases hq; cases hs) (isSome_at_eight hq _)
  · exact h1

theorem takeSourceBar_agrees (e r : Nat) (s : State) (h : SelectionAgrees s) : SelectionAgrees (takeSourceBar e r s).state := by
  unfold takeSourceBar
  split
  · exact h
  · rename_i p hp
    split
    · exact h.setPath_same e p _ hp rfl
    · exact barPath_agrees e r p s h

theorem takeSourceUnbar_agrees (e : Nat) (s : State) (h : SelectionAgrees s) : SelectionAgrees (takeSourceUnbar e s).state := by
  unfold takeSourceUnbar
  split
  · exact h
  · rename_i p hp
    split
    · exact h.reexamine_setPath .first e _ _ ⟨rfl, rfl⟩ (fun q hq hs => by cases hq; cases hs) (isSome_at_eight hp _)
    · exact h

theorem takeRefEdge_agrees (st : Stamp) (s : State) (h : SelectionAgrees s) : SelectionAgrees (takeRefEdge st s) := by
  unfold takeRefEdge
  split
  · rename_i p hp
    split
    · exact h
    · exact h.setPath_same 8 p _ hp rfl
  · exact h

theorem SourcePath.label_selected (st : Stamp) (o : Int) (p : SourcePath) (h : (p.label st o).state = .selected) :
    p.state = .selected := by
  unfold SourcePath.label at h
  extract_lets p1 p2 p3 at h
  have h3 : p3.state = .selected := h
  have h2 : p2.state = .selected := by
    by_cases hc : p2.state = .listen ∧ 2 ≤ p2.listenCount ∧ p2.cls < 14
    · have : p3 = { p2 with state := PathState.candidate } := if_pos hc
      rw [this] at h3; cases h3
    · have : p3 = p2 := if_neg hc
      rw [← this]; exact h3
  have h1 : p1.state = .selected := by
    by_cases hc : p1.state = .listen
    · have : p2 = { p1 with listenCount := min (p1.listenCount + 1) 2 } := if_pos hc
      rw [this] at h2; exact h2
    · have : p2 = p1 := if_neg hc
      rw [← this]; exact h2
  by_cases hc : p.state = .stale
  · have : p1 = p.afresh := if_pos hc
    rw [this] at h1; cases h1
  · have : p1 = p := if_neg hc
    rw [← this]; exact h1

theorem takeRefLabel_agrees (ag : Agent) (x : Nat) (off : Option Int) (l : Option Leap) (s : State) (h : SelectionAgrees s) :
    SelectionAgrees (takeRefLabel ag x off l s).state := by
  unfold takeRefLabel
  split
  · exact h
  · rename_i p hp
    split
    · exact h
    · split
      · exact h
      · split
        · exact h
        · extract_lets o s1 s2
          have h1 : SelectionAgrees s1 := by
            refine h.reexamine_setPath .first 8 _ _ ⟨rfl, rfl⟩ ?_ (isSome_at_eight hp _)
            intro q hq hs
            cases hq
            exact ⟨p, hp, SourcePath.label_selected _ _ _ hs⟩
          have h2 : SelectionAgrees s2 := h1.of_same (sameSelection_handOver _ _ _ _ _ _ _)
          exact h2.of_same ⟨rfl, rfl⟩

/-- The paths after the loss of a port. -/
theorem portLossSources_agrees (n : Net) (s0 : State) (h0 : SelectionAgrees s0) : SelectionAgrees (portLossSources n s0) := by
  unfold portLossSources
  have h := settleSamples_agrees (fun m => m.net == n) s0 h0
  extract_lets s lose
  change SelectionAgrees s at h
  clear_value s
  generalize hu : ({ s with src := { s.src with entries := s.src.entries.map lose } } : State) = u
  have hpath : ∀ i, u.path i = (s.path i).map fun p => if p.net = some n ∧ p.state.live then p.staled s0.ts.el else p := by
    intro i
    subst hu
    simp only [State.path, List.getD, List.getElem?_map]
    cases s.src.entries[i]? <;> rfl
  have ho : SelectionOpen u :=
    { size := by subst hu; simpa using h.size
      selected := fun i p hp hs => by
        have : u.src.selected = s.src.selected := by subst hu; rfl
        rw [this]
        rw [hpath] at hp
        cases hx : s.path i with
        | none => rw [hx] at hp; cases hp
        | some q =>
          rw [hx, Option.map_some, Option.some.injEq] at hp
          split at hp
          · rw [← hp] at hs; cases hs
          · rw [← hp] at hs; exact (h.selected i q hx).1 hs
      servo := by subst hu; exact h.servo
      suspended := by subst hu; exact h.suspended }
  have k := reexamine_keeps .first u
  refine (reexamine_settled .first u ho).agrees ?_
  rw [k.isSome, k.2.1, hpath, Option.isSome_map]
  subst hu
  exact h.reference

/-! ## The timescale unit -/

theorem SelectionAgrees.enterFault {s : State} (h : SelectionAgrees s) (c : FaultCause) : SelectionAgrees (enterFault c s) := by
  have k := enterFault_settled c s h.settled.toSelectionOpen
  exact k.1.agrees (by rw [k.2.1, k.2.2]; exact h.reference)

/-- A change between the two states that follow keeps the agreement. -/
theorem SelectionAgrees.follow {s t : State} (h : SelectionAgrees s) (hf : s.ts.servo.follows = true) (hs : t.src = s.src)
    (ht : t.ts.servo.follows = true) : SelectionAgrees t where
  size := by rw [hs]; exact h.size
  selected := fun i p hp => by rw [path_of_src hs] at hp; rw [hs]; exact h.selected i p hp
  present := fun i hi => by rw [path_of_src hs]; rw [hs] at hi; exact h.present i hi
  servo := by rw [hs, ht, ← h.servo, hf]
  suspended := by
    have h1 : s.ts.servo ≠ .fault := by intro hc; rw [hc] at hf; cases hf
    have h2 : t.ts.servo ≠ .fault := by intro hc; rw [hc] at ht; cases ht
    rw [hs, h.suspended, decide_eq_false h1, decide_eq_false h2]
  reference := by rw [path_of_src hs, hs]; exact h.reference

/-- A change among the states that neither follow nor stand for FAULT keeps the agreement. -/
theorem SelectionAgrees.rest {s t : State} (h : SelectionAgrees s) (hf : s.ts.servo = .holdover) (hs : t.src = s.src)
    (ht : t.ts.servo = .freerun) : SelectionAgrees t where
  size := by rw [hs]; exact h.size
  selected := fun i p hp => by rw [path_of_src hs] at hp; rw [hs]; exact h.selected i p hp
  present := fun i hi => by rw [path_of_src hs]; rw [hs] at hi; exact h.present i hi
  servo := by have := h.servo; rw [hf] at this; rw [hs, ht, ← this]; rfl
  suspended := by have := h.suspended; rw [hf] at this; rw [hs, ht, this]; rfl
  reference := by rw [path_of_src hs, hs]; exact h.reference

theorem finishAcquire_agrees (c : Nat) (o : Int) (s : State) (h : SelectionAgrees s) (hf : s.ts.servo.follows = true) :
    SelectionAgrees (finishAcquire c o s) := by
  unfold finishAcquire
  extract_lets src s1
  have h1 : SelectionAgrees s1 := h.of_same ⟨rfl, rfl⟩
  have hf1 : s1.ts.servo.follows = true := hf
  split
  · exact h1.enterFault _
  · split
    · exact h1.follow hf1 (enterLocked_src c s1) (by rw [enterLocked_servo]; rfl)
    · exact h1

theorem measureAcquire_agrees (c : Nat) (k o : Int) (s : State) (h : SelectionAgrees s) (hf : s.ts.servo.follows = true) :
    SelectionAgrees (measureAcquire c k o s) := by
  have go : ∀ t, sameSelection s t → SelectionAgrees (finishAcquire c o t) := fun t ht =>
    finishAcquire_agrees c o t (h.of_same ht) (by rw [ht.2]; exact hf)
  unfold measureAcquire
  extract_lets new
  split
  · split
    · exact go _ ((sameSelection_stepTo s new.toNat s.ts.dtSub).trans ⟨rfl, rfl⟩)
    · exact h
  · split
    · split
      · exact go _ ((sameSelection_stepTo s _ _).trans (sameSelection_rateLaw _ _ _))
      · exact h
    · exact go _ ((sameSelection_replaceSlew s _).trans (sameSelection_rateLaw _ _ _))

theorem measureLocked_agrees (k o : Int) (s : State) (h : SelectionAgrees s) (hf : s.ts.servo.follows = true) :
    SelectionAgrees (measureLocked k o s) := by
  unfold measureLocked
  extract_lets s1 src s2
  have hs2 : sameSelection s s2 :=
    ((sameSelection_replaceSlew s _).trans (sameSelection_rateLaw _ k o)).trans (sameSelection_setTs s1 _ rfl)
  have h2 := h.of_same hs2
  split
  · exact h2.enterFault _
  · split
    · exact h2.follow (by rw [hs2.2]; exact hf) (enterAcquire_src s2) (by rw [enterAcquire_servo]; rfl)
    · exact h2

theorem takeMeasurement_agrees (s : State) (h : SelectionAgrees s) : SelectionAgrees (takeMeasurement s) := by
  have go : ∀ c k o (t : State), SelectionAgrees t → SelectionAgrees (takeOffset c k o t) := by
    intro c k o t ht
    unfold takeOffset
    split
    · rename_i hs
      exact (measureAcquire_agrees c k o t ht (by rw [hs]; rfl)).of_same (sameSelection_regrade _)
    · rename_i hs
      exact (measureLocked_agrees k o t ht (by rw [hs]; rfl)).of_same (sameSelection_regrade _)
    · exact ht
  unfold takeMeasurement
  split
  · extract_lets f s1
    have h1 : SelectionAgrees s1 := h.of_same ⟨rfl, rfl⟩
    split
    · exact go _ _ _ _ h1
    · exact h1
  · exact h

theorem sameSelection_takePair (s : State) : sameSelection s (takePair s) := by
  unfold takePair
  split
  · extract_lets f s1
    split
    · exact sameSelection.trans (t := s1) ⟨rfl, rfl⟩ (sameSelection_adoptPair _ _ _ _)
    · exact ⟨rfl, rfl⟩
  · exact ⟨rfl, rfl⟩

theorem overHoldover_agrees (s : State) (h : SelectionAgrees s) : SelectionAgrees (overHoldover s) := by
  unfold overHoldover
  split
  · rename_i hd
    simp only [holdoverOver, Bool.and_eq_true, decide_eq_true_eq] at hd
    exact h.rest hd.1 (expireHoldover_src s) (expireHoldover_servo s)
  · exact h

theorem restartServo_agrees (s : State) (h : SelectionAgrees s) (hf : s.ts.servo = .fault) :
    SelectionAgrees (restartServo s) := by
  have hn : s.src.selected = none := by
    have := h.servo
    rw [hf] at this
    cases hx : s.src.selected with
    | none => rfl
    | some i => rw [hx] at this; cases this
  unfold restartServo
  extract_lets s1 src s2 src2
  have hsrc : s2.src = s.src := (changeServo_src _ _).trans (sameSelection_endSlew s _).1
  have hserv : s2.ts.servo = .freerun := changeServo_servo _ _
  generalize hu : ({ s2 with src := { src2 with suspended := false } } : State) = u
  have hpath : ∀ i, u.path i = s.path i := by
    intro i; subst hu; exact path_of_src hsrc i
  have hus : u.src.selected = none := by subst hu; show s2.src.selected = none; rw [hsrc]; exact hn
  have hut : u.ts.servo = .freerun := by subst hu; exact hserv
  have hset : u.src.settings = s.src.settings := by subst hu; show s2.src.settings = _; rw [hsrc]
  have ho : SelectionOpen u :=
    { size := by subst hu; show s2.src.entries.length = _; rw [hsrc]; exact h.size
      selected := fun i p hp hs => by
        rw [hpath] at hp
        have := (h.selected i p hp).1 hs
        rw [hn] at this; cases this
      servo := by rw [hus, hut]; rfl
      suspended := by rw [hut]; subst hu; rfl }
  have k := reexamine_keeps .restart u
  refine (reexamine_settled .restart u ho).agrees ?_
  rw [k.isSome, k.2.1, hpath, hset]
  exact h.reference

theorem takeServoRestart_agrees (s : State) (h : SelectionAgrees s) : SelectionAgrees (takeServoRestart s).state := by
  unfold takeServoRestart
  split
  · exact restartServo_agrees s h (by assumption)
  · exact h

theorem takeSnapshotRestore_agrees (r : SnapshotRecord) (s : State) (h : SelectionAgrees s) :
    SelectionAgrees (takeSnapshotRestore r s).state := by
  unfold takeSnapshotRestore
  split
  · exact h
  · split
    · exact h.of_same ⟨rfl, rfl⟩
    · exact h.enterFault _

theorem sameSelection_takeSteerStep (ag : Agent) (x : StepOperand) (s : State) :
    sameSelection s (takeSteerStep ag x s).state := by
  unfold takeSteerStep
  split
  · exact ⟨rfl, rfl⟩
  · split
    · split
      · exact ⟨rfl, rfl⟩
      · split
        · extract_lets new
          split
          · exact (sameSelection_stepTo s new.toNat 0).trans ⟨rfl, rfl⟩
          · exact ⟨rfl, rfl⟩
        · exact ⟨rfl, rfl⟩
    · split
      · exact ⟨rfl, rfl⟩
      · split
        · extract_lets new
          split
          · exact (sameSelection_stepTo s new.toNat s.ts.dtSub).trans ⟨rfl, rfl⟩
          · exact ⟨rfl, rfl⟩
        · exact ⟨rfl, rfl⟩

theorem sameSelection_takeSteerSlew (ag : Agent) (i : IntervalField) (r : Option Nat) (s : State) :
    sameSelection s (takeSteerSlew ag i r s).state := by
  unfold takeSteerSlew
  split
  · exact ⟨rfl, rfl⟩
  · split
    · extract_lets ppm
      split
      · exact ⟨rfl, rfl⟩
      · split
        · exact ⟨rfl, rfl⟩
        · refine sameSelection.trans (t := steerSlew ag _ ppm s) ?_ ⟨rfl, rfl⟩
          unfold steerSlew
          split
          · exact (sameSelection_endSlew s _).trans ⟨rfl, rfl⟩
          · exact sameSelection_replaceSlew s _
    · exact ⟨rfl, rfl⟩

theorem sameSelection_takeSteerRate (ag : Agent) (r : Int) (s : State) : sameSelection s (takeSteerRate ag r s).state := by
  unfold takeSteerRate
  split
  · exact ⟨rfl, rfl⟩
  · split <;> exact ⟨rfl, rfl⟩

theorem sameSelection_takeSteerLeap (ag : Agent) (l : Leap) (x : Option Int) (s : State) :
    sameSelection s (takeSteerLeap ag l x s).state := by
  unfold takeSteerLeap
  extract_lets t new
  repeat (split; · exact ⟨rfl, rfl⟩)
  refine sameSelection.trans (t := steerPair new l s) ?_ ⟨rfl, rfl⟩
  unfold steerPair
  split <;> exact ⟨rfl, rfl⟩

theorem sameSelection_completeSlew (s : State) : sameSelection s (completeSlew s) := by
  unfold completeSlew; split
  · exact sameSelection_endSlew s _
  · exact ⟨rfl, rfl⟩

theorem sameSelection_dueLeap (s : State) : sameSelection s (dueLeap s) := by
  unfold dueLeap; split
  · exact sameSelection_applyLeap s
  · exact ⟨rfl, rfl⟩

theorem sameSelection_gradeHoldover (s : State) : sameSelection s (gradeHoldover s) := by
  unfold gradeHoldover; split <;> exact ⟨rfl, rfl⟩

theorem sameSelection_saveSnapshot (s : State) : sameSelection s (saveSnapshot s) := by
  unfold saveSnapshot; split <;> exact ⟨rfl, rfl⟩

theorem sameSelection_slewNotifyReset (ag : Agent) (s : State) : sameSelection s (slewNotifyReset ag s) := by
  unfold slewNotifyReset; split <;> exact ⟨rfl, rfl⟩

/-! ## PART-CONFIG -/

theorem SourcePath.refTested_selected (el : Nat) (p : SourcePath) (h : (p.refTested el).state = .selected) :
    p.state = .selected := by
  unfold SourcePath.refTested at h
  split at h
  · split at h
    · cases h
    · exact h
  · split at h
    · cases h
    · exact h
  · split at h
    · cases h
    · exact h
  · exact h

/-- Entry 8 after a change of settings: present exactly in reference mode, and SELECTED only if it was. -/
theorem referenceAfter_facts (old new : SourceSettings) (el : Nat) (x : Option SourcePath) :
    (referenceAfter old new el x).isSome = new.refMode ∧
      (∀ p, referenceAfter old new el x = some p → p.state = .selected → ∃ p0, x = some p0 ∧ p0.state = .selected) := by
  unfold referenceAfter
  split
  · split
    · rename_i hm
      exact ⟨by simp [hm], fun p hp hs => by cases hp; cases hs⟩
    · rename_i hm
      exact ⟨by simp [hm], fun p hp => by cases hp⟩
  · rename_i p
    split
    · rename_i hm
      exact ⟨by simp [hm], fun p hp => by cases hp⟩
    · rename_i hm
      have hm' : new.refMode = true := by simpa using hm
      extract_lets p1
      split
      · exact ⟨by simp [hm'], fun q hq hs => by cases hq; exact ⟨p, rfl, hs⟩⟩
      · exact ⟨by simp [hm'], fun q hq hs => by cases hq; exact ⟨p, rfl, SourcePath.refTested_selected el p1 hs⟩⟩

/-- The effects of a change of settings at a table that agreed under the old ones. -/
theorem sourceEffects_agrees (old : SourceSettings) (s : State) (h : SelectionSettled s)
    (hr : (s.path 8).isSome = old.refMode) : SelectionAgrees (sourceEffects old s) := by
  unfold sourceEffects
  extract_lets new s1
  have hf := referenceAfter_facts old new s.ts.el (s.path 8)
  have hlen : 8 < s.src.entries.length := by rw [h.size]; decide
  have hpath8 : s1.path 8 = referenceAfter old new s.ts.el (s.path 8) := by
    show (s.setPath 8 _).path 8 = _
    rw [State.path_setPath, if_pos ⟨rfl, hlen⟩]
  split
  · rename_i hsame
    have hst : ∀ p, referenceAfter old new s.ts.el (s.path 8) = some p → ∃ p0, s.path 8 = some p0 ∧ p.state = p0.state := by
      intro p hp
      unfold referenceAfter at hp
      split at hp
      · rename_i hx
        rw [hx] at hr
        rw [if_neg (by rw [hsame.1, ← hr]; simp)] at hp
        cases hp
      · rename_i q hx
        split at hp
        · cases hp
        · rw [if_pos hsame.2] at hp
          cases hp
          exact ⟨q, hx, rfl⟩
    have hset : SelectionSettled s1 := by
      cases hx : referenceAfter old new s.ts.el (s.path 8) with
      | none =>
        have h8 : s.path 8 = none := by
          have := hf.1
          rw [hx, hsame.1, ← hr] at this
          cases hy : s.path 8 with
          | none => rfl
          | some p => rw [hy] at this; cases this
        show SelectionSettled (s.setPath 8 _)
        rw [hx]
        exact h.setPath 8 none (fun p hp => by rw [h8] at hp; cases hp) (fun p hp => by cases hp)
      | some p =>
        obtain ⟨p0, h0, hs0⟩ := hst p hx
        show SelectionSettled (s.setPath 8 _)
        rw [hx]
        exact h.setPath_same 8 p0 p h0 hs0
    exact hset.agrees (by rw [hpath8, hf.1]; rfl)
  · have ho : SelectionOpen s1 :=
      { size := by rw [setPath_entries_length]; exact h.size
        selected := fun j p hp hs => by
          show s.src.selected = some j
          by_cases hj : 8 = j
          · subst hj
            rw [hpath8] at hp
            obtain ⟨p0, h0, hs0⟩ := hf.2 p hp hs
            exact h.selected 8 p0 h0 hs0
          · have : s1.path j = s.path j := by
              show (s.setPath 8 _).path j = _
              rw [State.path_setPath, if_neg (fun hc => hj hc.1)]
            rw [this] at hp
            exact h.selected j p hp hs
        servo := h.servo
        suspended := h.suspended }
    have k := reexamine_keeps .first s1
    refine SelectionAgrees.of_same ((reexamine_settled .first s1 ho).agrees ?_) (sameSelection_reportClass _ _)
    rw [k.isSome, k.2.1, hpath8, hf.1]
    rfl

theorem takePartConfig_agrees (c : PartSettings) (s : State) (h : SelectionAgrees s) :
    SelectionAgrees (takePartConfig c s).state := by
  unfold takePartConfig
  split
  · show SelectionAgrees (sourceEffects s.src.settings (overHoldover (gradeHoldover (writeSettings c s))))
    have hw : SelectionSettled (writeSettings c s) :=
      { size := h.size
        selected := fun i p hp hs => (h.selected i p hp).1 hs
        servo := h.servo
        suspended := h.suspended
        back := fun i p hi hp => (h.selected i p hp).2 hi
        present := h.present }
    have hg : SelectionSettled (gradeHoldover (writeSettings c s)) := hw.of_same (sameSelection_gradeHoldover _)
    have hgsrc : (gradeHoldover (writeSettings c s)).src = (writeSettings c s).src := (sameSelection_gradeHoldover _).1
    generalize gradeHoldover (writeSettings c s) = u at hg hgsrc
    have hpath : ∀ i, u.path i = s.path i := fun i => path_of_src hgsrc i
    have ho : SelectionSettled (overHoldover u) ∧ (overHoldover u).src = u.src := by
      unfold overHoldover
      split
      · rename_i hd
        simp only [holdoverOver, Bool.and_eq_true, decide_eq_true_eq] at hd
        have e := expireHoldover_src u
        have es := expireHoldover_servo u
        refine ⟨SelectionOpen.settled_of_none ?_ ?_, e⟩
        · exact
            { size := by rw [e]; exact hg.size
              selected := fun i p hp hs => by rw [path_of_src e] at hp; rw [e]; exact hg.selected i p hp hs
              servo := by rw [es, e, ← hg.servo, hd.1]; rfl
              suspended := by rw [es, e, hg.suspended, hd.1]; rfl }
        · rw [e]
          have := hg.servo
          rw [hd.1] at this
          cases hx : u.src.selected with
          | none => rfl
          | some i => rw [hx] at this; cases this
      · exact ⟨hg, rfl⟩
    refine sourceEffects_agrees _ _ ho.1 ?_
    rw [path_of_src ho.2, hpath]
    exact h.reference
  · exact h

end Sys2Proof.Machine
end

