-- ==== Sys2Proof/Laws/Quiet.lean ====
section
/-! SUPPORT. The operations that leave source table, servo state and schedule as they are and keep the queues within their
room: ports, clients, epochs, lines, alerts, agent units and the answers of requests. -/

namespace Sys2Proof.Machine

/-! ## RoomKept and quiet -/

/-- The queues keep their room where no class-1 queue grew and captures, FIFOs and stacks are the same. -/
theorem RoomKept.of_le {s t : State} (h : RoomKept s) (hp : ∀ n, (t.port n).class1.length ≤ (s.port n).class1.length)
    (hc : t.lines.captures = s.lines.captures) (hu : ∀ ag, (t.unit ag).fifo = (s.unit ag).fifo ∧ (t.unit ag).stack = (s.unit ag).stack) :
    RoomKept t where
  class1 := fun n => (hp n).trans (h.class1 n)
  captures := fun ag => by
    have : t.captures ag = s.captures ag := by simp [State.captures, hc]
    rw [this]; exact h.captures ag
  fifo := fun ag => by rw [(hu ag).1]; exact h.fifo ag
  urgent := fun ag => by rw [(hu ag).2]; exact h.urgent ag
  nested := fun ag => by rw [(hu ag).2]; exact h.nested ag

theorem RoomKept.of_only {s t : State} (h : RoomKept s) (k : onlySelection s t) : RoomKept t :=
  h.of_le (fun n => by simp [State.port, k.ports]) (by rw [k.lines]) (fun ag => by simp [State.unit, k.units])

/-- Source table, servo state and schedule are the same, and the queues keep their room. -/
structure quiet (s t : State) : Prop where
  src : t.src = s.src
  servo : t.ts.servo = s.ts.servo
  sched : t.sched = s.sched
  room : RoomKept s → RoomKept t

theorem quiet.refl (s : State) : quiet s s := ⟨rfl, rfl, rfl, id⟩

theorem quiet.trans {s t u : State} (h : quiet s t) (k : quiet t u) : quiet s u :=
  ⟨k.src.trans h.src, k.servo.trans h.servo, k.sched.trans h.sched, fun r => k.room (h.room r)⟩

theorem quiet.same {s t : State} (h : quiet s t) : sameSelection s t := ⟨h.src, h.servo⟩

/-- What changes neither ports, line unit, units, source table, schedule nor servo state is quiet. -/
theorem quiet.of_eq {s t : State} (h1 : t.src = s.src) (h2 : t.ts.servo = s.ts.servo) (h3 : t.sched = s.sched)
    (h4 : t.ports = s.ports) (h5 : t.lines.captures = s.lines.captures) (h6 : t.units = s.units) : quiet s t :=
  ⟨h1, h2, h3, fun r => r.of_le (fun n => by simp [State.port, h4]) h5 (fun ag => by simp [State.unit, h6])⟩

theorem quiet_setFlight (s : State) (f : InFlight) : quiet s (s.setFlight f) := .of_eq rfl rfl rfl rfl rfl rfl
theorem quiet_setClient (s : State) (i : Nat) (c : Option Client) : quiet s (s.setClient i c) := .of_eq rfl rfl rfl rfl rfl rfl
theorem quiet_raiseTo (s : State) (ag : Agent) (r : Raise) : quiet s (raiseTo ag r s) := .of_eq rfl rfl rfl rfl rfl rfl
theorem quiet_raiseClient (s : State) (i j : Nat) (e : ClientEvent) (c : Option ClientCause) (n : Option Net) :
    quiet s (raiseClient i j e c n s) := .of_eq rfl rfl rfl rfl rfl rfl
theorem quiet_setOutput (s : State) (i : Nat) (x : Output) : quiet s (s.setOutput i x) := .of_eq rfl rfl rfl rfl rfl rfl
theorem quiet_setInput (s : State) (i : Nat) (x : Input) : quiet s (s.setInput i x) := .of_eq rfl rfl rfl rfl rfl rfl

theorem quiet_of_same {s t : State} (h : sameSelection s t) (k : onlySelection s t) : quiet s t :=
  ⟨h.1, h.2, k.sched, fun r => r.of_only k⟩

/-- An update of an agent unit that keeps its FIFO and stack. -/
theorem quiet_setUnit (s : State) (ag : Agent) (u : AgentUnit) (hf : u.fifo = (s.unit ag).fifo)
    (hs : u.stack = (s.unit ag).stack) : quiet s (s.setUnit ag u) :=
  ⟨rfl, rfl, rfl, fun r => r.of_le (fun _ => le_rfl) rfl fun b => by
    by_cases h : b = ag
    · subst h; rw [State.unit_setUnit]; exact ⟨hf, hs⟩
    · rw [State.unit_setUnit_other _ _ _ _ h]; exact ⟨rfl, rfl⟩⟩

theorem quiet_setCtx (s : State) (ag : Agent) (c : Context) : quiet s (s.setCtx ag c) := quiet_setUnit s ag _ rfl rfl
theorem quiet_respond (s : State) (ag : Agent) (st : Status) (b : Body) : quiet s (respond ag st b s) :=
  quiet_setUnit s ag _ rfl rfl

/-- An update of a port that keeps its class-1 queue within its room. -/
theorem quiet_setPort (s : State) (n : Net) (p : NetPort)
    (h : (s.port n).class1.length ≤ Config.class1Room → p.class1.length ≤ Config.class1Room) : quiet s (s.setPort n p) :=
  ⟨rfl, rfl, rfl, fun r =>
    { class1 := fun m => by
        by_cases hm : m = n
        · subst hm; rw [State.port_setPort]; exact h (r.class1 m)
        · rw [State.port_setPort_other _ _ _ _ hm]; exact r.class1 m
      captures := r.captures
      fifo := r.fifo
      urgent := r.urgent
      nested := r.nested }⟩

theorem quiet_setPort_le (s : State) (n : Net) (p : NetPort) (h : p.class1.length ≤ (s.port n).class1.length) :
    quiet s (s.setPort n p) := quiet_setPort s n p h.trans

/-- An update of a capture queue that keeps it within its room. -/
theorem quiet_setCaptures (s : State) (ag : Agent) (q : CaptureQueue)
    (h : (s.captures ag).records.length ≤ Config.captureRoom → q.records.length ≤ Config.captureRoom) :
    quiet s (s.setCaptures ag q) :=
  ⟨rfl, rfl, rfl, fun r =>
    { class1 := r.class1
      captures := fun b => by
        by_cases hb : b = ag
        · subst hb; rw [State.captures_setCaptures]; exact h (r.captures b)
        · rw [State.captures_setCaptures_other _ _ _ _ hb]; exact r.captures b
      fifo := r.fifo
      urgent := r.urgent
      nested := r.nested }⟩

/-! ## Request commands -/

/-- A request command whose block is quiet is quiet. -/
theorem quiet_runRequest (ag : Agent) (q : Submitted) (take : State → Answer) (h : ∀ s, quiet s (take s).state) (s : State) :
    quiet s (runRequest ag q take s) := by
  have hu : ∀ (s : State) l b, quiet s (s.setUnit ag { s.unit ag with link := l, overrun := b }) := fun s l b =>
    quiet_setUnit s ag _ rfl rfl
  exact runRequest_keeps (quiet s) ag q take (fun t l b ht => ht.trans (hu t l b)) (fun t ht => ht.trans (h t)) s (.refl s)

theorem quiet_bringInHand (ag : Agent) (q : Submitted) (s : State) : quiet s (bringInHand ag q s) := by
  obtain ⟨l, b, e⟩ := bringInHand_cases ag q s
  rw [e]
  exact quiet_setUnit s ag _ rfl rfl

/-! ## Ports and the end of asks -/

theorem quiet_endAsks (t : Target) (s : State) : quiet s (endAsks t s) :=
  ⟨rfl, rfl, rfl, fun r => r.of_le (fun n => by cases n <;> exact endAsksWhere_class1 _ _) rfl fun _ => ⟨rfl, rfl⟩⟩

theorem quiet_endAskOn (n : Net) (t : Target) (s : State) : quiet s (endAskOn n t s) :=
  quiet_setPort_le s n _ (endAsksWhere_class1 _ _)

theorem quiet_voidPresence (i j : Nat) (n : Net) (s : State) : quiet s (voidPresence i j n s) :=
  (quiet_endAskOn n _ s).trans (quiet_setFlight _ _)

theorem quiet_voidPresences (i j : Nat) (s : State) : quiet s (voidPresences i j s) :=
  (quiet_voidPresence i j .netA s).trans (quiet_voidPresence i j .netB _)

theorem quiet_foldl {α : Type} (f : State → α → State) (h : ∀ s a, quiet s (f s a)) (l : List α) (s : State) :
    quiet s (l.foldl f s) := by
  induction l generalizing s with
  | nil => exact .refl s
  | cons a l ih => exact (h s a).trans (ih _)

theorem quiet_takeClientSample (m : SampleMsg) (s : State) : quiet s (takeClientSample m s) := by
  unfold takeClientSample
  split
  · exact .refl s
  · exact quiet_setClient _ _ _

theorem quiet_settlePresences (g : SampleMsg → Bool) (s : State) : quiet s (settlePresences g s) :=
  (quiet_setFlight s _).trans (quiet_foldl _ (fun s m => quiet_takeClientSample m s) _ _)

theorem quiet_settleClient (i j : Nat) (s : State) : quiet s (settleClient i j s) := quiet_settlePresences _ s

theorem quiet_lapse (i : Nat) (c : Client) (x : ClientCause) (el : Nat) (s : State) : quiet s (lapse i c x el s) :=
  ((quiet_setClient s _ _).trans (quiet_endAsks _ _)).trans (quiet_raiseClient _ _ _ _ _ _)

theorem quiet_answerRegister (m : RegisterMsg) (st : Status) (i : Nat) (s : State) : quiet s (answerRegister m st i s) :=
  quiet_setPort s _ _ (placeClass1_class1 _ _)

theorem quiet_clearPresence (n : Net) (i : Nat) (c : Client) (s : State) : quiet s (clearPresence n i c s) := by
  unfold clearPresence
  extract_lets c1 s1
  have h1 : quiet s s1 := (quiet_setClient s _ _).trans (quiet_voidPresence _ _ _ _)
  split
  · exact h1.trans (quiet_lapse _ _ _ _ _)
  · exact h1

theorem quiet_loseSlot (n : Net) (s : State) (i : Nat) : quiet s (loseSlot n s i) := by
  unfold loseSlot
  split
  · exact .refl s
  · split
    · extract_lets s1
      have h1 : quiet s s1 := quiet_settleClient _ _ s
      split
      · exact h1
      · exact h1.trans (quiet_clearPresence _ _ _ _)
    · exact .refl s

theorem quiet_portLossClients (n : Net) (s : State) : quiet s (portLossClients n s) :=
  quiet_foldl _ (quiet_loseSlot n) _ _

theorem quiet_enterUp (n : Net) (s : State) : quiet s (enterUp n s) := quiet_setPort s n _ fun _ => Nat.zero_le _

/-- The port left UP, before the two tables take the loss. -/
theorem quiet_clearPort (n : Net) (st : PortState) (s : State) :
    quiet s (s.setPort n { s.port n with state := st, class0 := none, class1 := [], tx := none, asks := [] }) :=
  quiet_setPort s n _ fun _ => Nat.zero_le _

theorem onlySelection_takeSourceSample (m : SampleMsg) (s : State) : onlySelection s (takeSourceSample m s) := by
  unfold takeSourceSample
  split
  · exact .refl s
  · extract_lets f p1
    split
    · exact onlySelection_setPath s _ _
    · exact (onlySelection_setPath s _ _).trans (onlySelection_reexamine _ _)

theorem onlySelection_settleSamples (g : SampleMsg → Bool) (s : State) : onlySelection s (settleSamples g s) :=
  foldl_keeps (P := onlySelection s) _ (fun u m h => h.trans (onlySelection_takeSourceSample m u)) _ _
    (onlySelection_setFlight s _)

theorem onlySelection_portLossSources (n : Net) (s : State) : onlySelection s (portLossSources n s) := by
  have h1 := onlySelection_settleSamples (fun m => m.net == n) s
  unfold portLossSources
  extract_lets u lose
  change onlySelection s u at h1
  clear_value u
  exact (h1.trans (t := u) (u := { u with src := { u.src with entries := u.src.entries.map lose } }) rfl).trans
    (onlySelection_reexamine _ _)

theorem leaveUp_facts (n : Net) (st : PortState) (s : State) :
    (SelectionAgrees s → SelectionAgrees (leaveUp n st s)) ∧ (leaveUp n st s).sched = s.sched ∧
      (RoomKept s → RoomKept (leaveUp n st s)) := by
  unfold leaveUp
  have h1 := quiet_clearPort n st s
  have h2 := onlySelection_portLossSources n
    (s.setPort n { s.port n with state := st, class0 := none, class1 := [], tx := none, asks := [] })
  have h3 := quiet_portLossClients n (portLossSources n
    (s.setPort n { s.port n with state := st, class0 := none, class1 := [], tx := none, asks := [] }))
  exact ⟨fun h => (portLossSources_agrees n _ (h.of_same h1.same)).of_same h3.same, h3.sched.trans (h2.sched.trans h1.sched),
    fun r => h3.room ((h1.room r).of_only h2)⟩

theorem quiet_recount (s : State) (n : Net) (f : PortCounters → PortCounters) : quiet s (s.recount n f) :=
  quiet_setPort_le s n _ le_rfl

theorem quiet_handSample (m : SampleMsg) (s : State) : quiet s (handSample m s) := by
  unfold handSample; split <;> exact quiet_setFlight s _

theorem quiet_handMiss (m : MissMsg) (s : State) : quiet s (handMiss m s) := by
  unfold handMiss; split <;> exact quiet_setFlight s _

/-- A change of a miss count: the agreement is kept, the rest quiet. -/
theorem recountMiss_facts (n : Net) (t : Target) (f : Nat → Nat) (s : State) :
    (SelectionAgrees s → SelectionAgrees (s.recountMiss n t f)) ∧ (s.recountMiss n t f).sched = s.sched ∧
      (RoomKept s → RoomKept (s.recountMiss n t f)) := by
  have hq : ∀ t, quiet s t → (SelectionAgrees s → SelectionAgrees t) ∧ t.sched = s.sched ∧ (RoomKept s → RoomKept t) :=
    fun t h => ⟨fun k => k.of_same h.same, h.sched, h.room⟩
  unfold State.recountMiss
  split
  · split
    · rename_i p hp
      split
      · exact ⟨fun h => h.setPath_same _ p _ hp rfl, rfl, fun r => r.of_only (onlySelection_setPath _ _ _)⟩
      · exact hq s (.refl s)
    · exact hq s (.refl s)
  · split
    · exact hq s (.refl s)
    · split
      · exact hq s (.refl s)
      · split
        · exact hq _ (quiet_setClient s _ _)
        · exact hq s (.refl s)

/-! ## Clients -/

theorem quiet_registerKnown (i : Nat) (c : Client) (m : RegisterMsg) (s : State) : quiet s (registerKnown i c m s) := by
  unfold registerKnown
  extract_lets s1
  have h1 : quiet s s1 := by
    show quiet s (match c.state with | .expected => _ | .lapsed => _ | _ => s)
    split
    · exact quiet_raiseClient s _ _ _ _ _
    · exact (quiet_voidPresences _ _ s).trans (quiet_raiseClient _ _ _ _ _ _)
    · exact .refl s
  exact (h1.trans (quiet_setClient _ _ _)).trans (quiet_answerRegister _ _ _ _)

theorem quiet_registerUnknown (m : RegisterMsg) (s : State) : quiet s (registerUnknown m s) := by
  have hc : ∀ c, quiet s { s with cli := c } := fun _ => .of_eq rfl rfl rfl rfl rfl rfl
  unfold registerUnknown
  split
  · exact (hc _).trans (quiet_answerRegister _ _ _ _)
  · split
    · exact ((quiet_setClient s _ _).trans (quiet_raiseClient _ _ _ _ _ _)).trans (quiet_answerRegister _ _ _ _)
    · exact (hc _).trans (quiet_answerRegister _ _ _ _)

theorem quiet_takeRegister (m : RegisterMsg) (s : State) : quiet s (takeRegister m s) := by
  unfold takeRegister
  split
  · split
    · exact quiet_registerKnown _ _ _ _
    · exact quiet_registerUnknown _ _
  · exact .refl s

theorem quiet_takeClientMiss (m : MissMsg) (s : State) : quiet s (takeClientMiss m s) := by
  unfold takeClientMiss
  split
  · exact .refl s
  · split
    · extract_lets s1
      have h1 : quiet s s1 := quiet_settleClient _ _ s
      split
      · exact h1
      · exact h1.trans (quiet_lapse _ _ _ _ _)
    · exact .refl s

theorem quiet_endLapse (i : Nat) (s : State) : quiet s (endLapse i s) := by
  unfold endLapse
  split
  · exact .refl s
  · split
    · extract_lets s1
      have h1 : quiet s s1 := quiet_voidPresences _ _ s
      split
      · exact (h1.trans (quiet_setClient _ _ _)).trans (quiet_raiseClient _ _ _ _ _ _)
      · exact (h1.trans (quiet_setClient _ _ _)).trans (quiet_raiseClient _ _ _ _ _ _)
    · exact .refl s

theorem quiet_takeClientAdd (j : Nat) (s : State) : quiet s (takeClientAdd j s).state := by
  unfold takeClientAdd
  split
  · exact .refl s
  · split
    · exact .refl s
    · exact quiet_setClient _ _ _

theorem quiet_takeClientRemove (i : Nat) (s : State) : quiet s (takeClientRemove i s).state := by
  unfold takeClientRemove
  split
  · exact .refl s
  · split
    · exact .refl s
    · exact ((quiet_voidPresences _ _ s).trans (quiet_setClient _ _ _)).trans (quiet_raiseClient _ _ _ _ _ _)

theorem quiet_takeClientRead (i : Option Nat) (s : State) : quiet s (takeClientRead i s).state := by
  unfold takeClientRead
  split
  · exact .refl s
  · split
    · exact .refl s
    · split <;> exact .refl s

/-! ## Ports -/

theorem resolveEcho_facts (n : Net) (q j : Nat) (t1 : TimeVal) (t2 t3 : Ticks) (s : State) :
    (SelectionAgrees s → SelectionAgrees (resolveEcho n q j t1 t2 t3 s)) ∧ (resolveEcho n q j t1 t2 t3 s).sched = s.sched ∧
      (RoomKept s → RoomKept (resolveEcho n q j t1 t2 t3 s)) := by
  unfold resolveEcho
  split
  · have h := quiet_recount s n fun c => { c with lateReplies := bump32 c.lateReplies }
    exact ⟨fun k => k.of_same h.same, h.sched, h.room⟩
  · rename_i t e1 _
    extract_lets s1
    have h1 : quiet s s1 := quiet_setPort_le s n _ (endAsksWhere_class1 _ _)
    have h2 := recountMiss_facts n t (fun _ => 0) s1
    have h3 := quiet_handSample ⟨n, t, delaySample e1 s.ts.el t2 t3⟩ (s1.recountMiss n t fun _ => 0)
    exact ⟨fun k => (h2.1 (k.of_same h1.same)).of_same h3.same, h3.sched.trans (h2.2.1.trans h1.sched),
      fun r => h3.room (h2.2.2 (h1.room r))⟩

theorem receive_facts (n : Net) (f : EthFrame) (s : State) :
    (SelectionAgrees s → SelectionAgrees (receive n f s)) ∧ (receive n f s).sched = s.sched ∧
      (RoomKept s → RoomKept (receive n f s)) := by
  have hq : ∀ t, quiet s t → (SelectionAgrees s → SelectionAgrees t) ∧ t.sched = s.sched ∧ (RoomKept s → RoomKept t) :=
    fun t h => ⟨fun k => k.of_same h.same, h.sched, h.room⟩
  unfold receive
  split
  · exact hq s (.refl s)
  · split
    · exact hq _ (quiet_recount s n _)
    · split
      · exact hq s (.refl s)
      · split
        · exact hq s (.refl s)
        · split
          · exact hq _ (quiet_recount s n _)
          · exact hq _ (quiet_recount s n _)
          · rename_i q j b _
            have h1 := quiet_recount s n fun c => { c with accepted := bump32 c.accepted }
            unfold handOn
            split
            · exact hq _ (h1.trans (quiet_setFlight _ _))
            · exact hq _ (h1.trans (quiet_setFlight _ _))
            · exact ⟨fun k => (resolveEcho_facts _ _ _ _ _ _ _).1 (k.of_same h1.same),
                (resolveEcho_facts _ _ _ _ _ _ _).2.1.trans h1.sched,
                fun r => (resolveEcho_facts _ _ _ _ _ _ _).2.2 (h1.room r)⟩

theorem quiet_transmitEnd (n : Net) (s : State) : quiet s (transmitEnd n s) := by
  unfold transmitEnd
  split
  · split
    · exact quiet_setPort_le s n _ (beginTx_class1 _)
    · exact .refl s
  · exact .refl s

theorem quiet_departs (n : Net) (s : State) : quiet s (departs n s) := by
  unfold departs
  extract_lets p
  split
  · exact .refl s
  · split
    · exact .refl s
    · exact quiet_setPort_le s n _ le_rfl

theorem rollCycle_class1 (e : EchoSettings) (p : NetPort) : (rollCycle e p).class1 = p.class1 := by
  unfold rollCycle; split <;> rfl

theorem issueAsk_class1 (o k : Nat) (t : Target) (p : NetPort) (h : p.class1.length ≤ Config.class1Room) :
    (issueAsk o k t p).class1.length ≤ Config.class1Room :=
  placeClass1_class1 _ { p with echoSeq := next16 p.echoSeq } h

theorem quiet_echoSlot (n : Net) (s : State) : quiet s (echoSlot n s) := by
  unfold echoSlot
  split
  · extract_lets p k p1
    have hp : p1.class1 = (s.port n).class1 := rollCycle_class1 _ _
    have hq : quiet s (s.setPort n p1) := quiet_setPort_le s n _ (by rw [hp])
    split
    · exact hq
    · split
      · exact hq
      · exact quiet_setPort s n _ fun h => issueAsk_class1 _ _ _ _ (by rw [hp]; exact h)
  · exact .refl s

theorem replyWaitExpiry_facts (n : Net) (q : Nat) (s : State) :
    (SelectionAgrees s → SelectionAgrees (replyWaitExpiry n q s)) ∧ (replyWaitExpiry n q s).sched = s.sched ∧
      (RoomKept s → RoomKept (replyWaitExpiry n q s)) := by
  unfold replyWaitExpiry
  split
  · exact ⟨id, rfl, id⟩
  · rename_i a _
    extract_lets s1
    have h1 : quiet s s1 := quiet_setPort_le s n _ (endAsksWhere_class1 _ _)
    have h2 := recountMiss_facts n a.target bump8 s1
    have h3 := quiet_handMiss ⟨n, a.target, a.issue + a.wait⟩ (s1.recountMiss n a.target bump8)
    exact ⟨fun k => (h2.1 (k.of_same h1.same)).of_same h3.same, h3.sched.trans (h2.2.1.trans h1.sched),
      fun r => h3.room (h2.2.2 (h1.room r))⟩

theorem linkUp_quiet (n : Net) (s : State) : quiet s (linkUp n s) := by
  unfold linkUp
  extract_lets p s1
  have h1 : quiet s s1 := quiet_setPort_le s n _ le_rfl
  split
  · exact h1.trans (quiet_enterUp n s1)
  · exact h1

theorem linkDown_facts (n : Net) (s : State) :
    (SelectionAgrees s → SelectionAgrees (linkDown n s)) ∧ (linkDown n s).sched = s.sched ∧
      (RoomKept s → RoomKept (linkDown n s)) := by
  unfold linkDown
  extract_lets p s1
  have h1 : quiet s s1 := quiet_setPort_le s n _ le_rfl
  split
  · have h2 := leaveUp_facts n .down s1
    exact ⟨fun k => h2.1 (k.of_same h1.same), h2.2.1.trans h1.sched, fun r => h2.2.2 (h1.room r)⟩
  · exact ⟨fun k => k.of_same h1.same, h1.sched, h1.room⟩

theorem quiet_takePortEnable (n : Net) (s : State) : quiet s (takePortEnable n s).state := by
  unfold takePortEnable
  show quiet s (match (s.port n).state with | .disabled => _ | _ => s)
  split
  · split
    · exact quiet_enterUp n s
    · exact quiet_setPort_le s n _ le_rfl
  · exact .refl s

theorem takePortDisable_facts (n : Net) (s : State) :
    (SelectionAgrees s → SelectionAgrees (takePortDisable n s).state) ∧ (takePortDisable n s).state.sched = s.sched ∧
      (RoomKept s → RoomKept (takePortDisable n s).state) := by
  have e : (takePortDisable n s).state =
      match (s.port n).state with
      | .up => leaveUp n .disabled s
      | .down => s.setPort n { s.port n with state := .disabled }
      | .disabled => s := rfl
  rw [e]
  split
  · exact leaveUp_facts n .disabled s
  · have h := quiet_setPort_le s n { s.port n with state := .disabled } le_rfl
    exact ⟨fun k => k.of_same h.same, h.sched, h.room⟩
  · exact ⟨id, rfl, id⟩

/-! ## Epochs -/

theorem quiet_epochFor (n : Net) (q : Nat) (s : State) : quiet s (epochFor n q s) := by
  unfold epochFor
  split
  · extract_lets l s1
    have h1 : quiet s s1 := quiet_setPort_le s n _ (placeEpoch_class1 _ _)
    exact h1.trans (.of_eq rfl rfl rfl rfl rfl rfl)
  · exact .refl s

theorem quiet_setEpoch (s : State) (e : EpochUnit) : quiet s { s with epoch := e } := .of_eq rfl rfl rfl rfl rfl rfl

/-- The DT that bears on the next epoch instant, with no step report waiting and with one (R106). -/
theorem epochDt_of_none {s : State} (h : s.flight.toEpoch = []) : s.epochDt = s.ts.dt := by simp [State.epochDt, h]
theorem epochDt_of_step {s : State} {old new : Ticks} {rest : List (Ticks × Ticks)} (h : s.flight.toEpoch = (old, new) :: rest) :
    s.epochDt = old := by simp [State.epochDt, h]

theorem quiet_makeInstant (s : State) : quiet s (makeInstant s) := by
  unfold makeInstant
  split
  · exact .refl s
  · split
    · exact (((quiet_setEpoch s _).trans (quiet_epochFor _ _ _)).trans (quiet_epochFor _ _ _)).trans (quiet_setEpoch _ _)
    · exact .refl s

theorem quiet_takeEpochConfig (k : Nat) (s : State) : quiet s (takeEpochConfig k s).state := by
  unfold takeEpochConfig
  split
  · exact .refl s
  · exact (quiet_setFlight s _).trans (quiet_setEpoch _ _)

/-! ## Lines -/

theorem quiet_driveLine (op : LineOp) (i : Nat) (s : State) : quiet s (driveLine op i s) := quiet_setOutput s _ _

theorem quiet_loadLines (v : Nat) (l : List Nat) (s : State) : quiet s (loadLines v l s) :=
  quiet_foldl _ (fun s _ => quiet_driveLine _ _ s) _ s

theorem quiet_endPulse (i : Nat) (s : State) : quiet s (endPulse i s) := by
  unfold endPulse; split
  · exact quiet_setOutput s _ _
  · exact .refl s

theorem quiet_act (a : Action) (s : State) : quiet s (a.act s) := by
  unfold Action.act
  split
  · exact quiet_driveLine _ _ s
  · exact quiet_driveLine _ _ s
  · exact quiet_driveLine _ _ s
  · exact quiet_loadLines _ _ s
  · exact .refl s

theorem quiet_performAction (ag : Agent) (a : Action) (s : State) : quiet s (performAction ag a s).1 := by
  unfold performAction; split
  · exact quiet_act a s
  · exact .refl s

theorem quiet_takeLineOp (ag : Agent) (op : LineOp) (d : Int) (s : State) : quiet s (takeLineOp ag op d s).state := by
  unfold takeLineOp
  split
  · exact .refl s
  · split
    · exact .refl s
    · split
      · exact .refl s
      · exact quiet_driveLine _ _ s

theorem quiet_takeLineLoad (ag : Agent) (d : Int) (c v : Nat) (s : State) : quiet s (takeLineLoad ag d c v s).state := by
  unfold takeLineLoad
  split
  · exact .refl s
  · split
    · exact .refl s
    · split
      · exact .refl s
      · exact quiet_loadLines _ _ s

theorem quiet_takeLineTest (ag : Agent) (d : Int) (s : State) : quiet s (takeLineTest ag d s).state := by
  unfold takeLineTest
  split
  · exact .refl s
  · split <;> exact .refl s

theorem quiet_takeLineStore (ag : Agent) (d : Int) (c : Nat) (s : State) : quiet s (takeLineStore ag d c s).state := by
  unfold takeLineStore
  split
  · exact .refl s
  · split <;> exact .refl s

theorem quiet_takeLineOwn (ag : Agent) (d : Int) (w : Option Agent) (s : State) : quiet s (takeLineOwn ag d w s).state := by
  unfold takeLineOwn
  split
  · exact .refl s
  · split
    · exact quiet_setOutput s _ _
    · exact .refl s

theorem quiet_takeLineConfig (ag : Agent) (d : Int) (c : LineSettings) (s : State) :
    quiet s (takeLineConfig ag d c s).state := by
  unfold takeLineConfig
  split
  · exact .refl s
  · split
    · split
      · exact quiet_setOutput s _ _
      · exact .refl s
    · split
      · exact quiet_setInput s _ _
      · exact .refl s
    · exact .refl s

/-- A capture queue within its room stays so (R153). -/
theorem store_length (c : Capture) (q : CaptureQueue) (h : q.records.length ≤ Config.captureRoom) :
    (q.store c).1.records.length ≤ Config.captureRoom := by
  unfold CaptureQueue.store
  split
  · rename_i hl
    simp only [List.length_append, List.length_cons, List.length_nil]
    omega
  · exact h

theorem quiet_takeCapture (i : Nat) (e : EdgeKind) (s : State) : quiet s (takeCapture i e s) := by
  unfold takeCapture
  extract_lets x q s1
  have h1 : quiet s s1 := (quiet_setInput s _ _).trans (quiet_setCaptures _ _ _ (store_length _ _))
  split
  · exact h1.trans (quiet_raiseTo _ _ _)
  · exact h1

theorem quiet_takeEdge (i : Nat) (e : EdgeKind) (s : State) : quiet s (takeEdge i e s) := by
  unfold takeEdge
  extract_lets x s1
  have h1 : quiet s s1 := quiet_setInput s _ _
  split
  · split
    · exact h1.trans (quiet_setFlight _ _)
    · exact h1
  · split
    · exact h1
    · split
      · exact h1
      · exact h1.trans (quiet_takeCapture _ _ _)

theorem quiet_takeCaptureRead (ag : Agent) (o : Options) (s : State) : quiet s (takeCaptureRead ag o s).state := by
  unfold takeCaptureRead
  extract_lets c q views raised e
  split <;> exact quiet_setCtx s _ _

theorem quiet_releaseCaptures (ag : Agent) (n : Nat) (s t : State) (h : releaseCaptures ag n s = some t) : quiet s t := by
  unfold releaseCaptures at h
  extract_lets q at h
  split at h
  · cases h
  · cases h
    exact quiet_setCaptures s ag _ fun hl => by
      show (q.records.drop n).length ≤ _
      rw [List.length_drop]
      exact (Nat.sub_le _ _).trans hl

theorem quiet_takeCaptureRelease (ag : Agent) (n : Nat) (s : State) : quiet s (takeCaptureRelease ag n s).state := by
  unfold takeCaptureRelease
  split
  · exact .refl s
  · split
    · exact .refl s
    · rename_i h
      exact quiet_releaseCaptures ag n s _ h

theorem quiet_lineAgentReset (ag : Agent) (s : State) : quiet s (lineAgentReset ag s) := by
  unfold lineAgentReset
  split
  · exact (quiet_setFlight s _).trans (quiet_setCaptures _ ag _ fun _ => Nat.zero_le _)
  · exact .refl s

/-! ## Alerts -/

theorem quiet_takeRaise (ag : Agent) (k : FlagKind) (s : State) : quiet s (takeRaise ag k s) := by
  unfold takeRaise
  extract_lets l
  split
  · exact .refl s
  · exact (quiet_setFlight s _).trans (quiet_setUnit _ _ _ rfl rfl)

/-- An update of an agent unit that keeps FIFO and stack within their room. -/
theorem quiet_setUnit_room (s : State) (ag : Agent) (u : AgentUnit)
    (hf : (s.unit ag).fifo.length ≤ Config.schedFifoRoom → u.fifo.length ≤ Config.schedFifoRoom)
    (hu : ((s.unit ag).stack.countP fun r => r.alert.level == 0) ≤ 1 → (u.stack.countP fun r => r.alert.level == 0) ≤ 1)
    (hn : ((s.unit ag).stack.countP fun r => r.alert.level != 0) ≤ 4 → (u.stack.countP fun r => r.alert.level != 0) ≤ 4) :
    quiet s (s.setUnit ag u) :=
  ⟨rfl, rfl, rfl, fun r =>
    { class1 := r.class1
      captures := r.captures
      fifo := fun b => by
        by_cases h : b = ag
        · subst h; rw [State.unit_setUnit]; exact hf (r.fifo b)
        · rw [State.unit_setUnit_other _ _ _ _ h]; exact r.fifo b
      urgent := fun b => by
        by_cases h : b = ag
        · subst h; rw [State.unit_setUnit]; exact hu (r.urgent b)
        · rw [State.unit_setUnit_other _ _ _ _ h]; exact r.urgent b
      nested := fun b => by
        by_cases h : b = ag
        · subst h; rw [State.unit_setUnit]; exact hn (r.nested b)
        · rw [State.unit_setUnit_other _ _ _ _ h]; exact r.nested b }⟩

theorem queueSched_stack (a : SchedAlert) (u : AgentUnit) : (u.queueSched a).stack = u.stack := by
  unfold AgentUnit.queueSched; split <;> rfl

/-- The FIFO stays within its room (R172). -/
theorem queueSched_fifo (a : SchedAlert) (u : AgentUnit) (h : u.fifo.length ≤ Config.schedFifoRoom) :
    (u.queueSched a).fifo.length ≤ Config.schedFifoRoom := by
  unfold AgentUnit.queueSched
  split
  · rename_i hl
    simp only [List.length_append, List.length_cons, List.length_nil]
    omega
  · exact h

theorem quiet_takeSchedRaise (ag : Agent) (s : State) : quiet s (takeSchedRaise ag s) := by
  unfold takeSchedRaise
  split
  · exact .refl s
  · extract_lets f s1
    refine (quiet_setFlight s _).trans (quiet_setUnit_room _ _ _ (queueSched_fifo _ _) ?_ ?_)
    · rw [queueSched_stack]; exact id
    · rw [queueSched_stack]; exact id

theorem foldl_moreUrgent_mem (l : List AlertRecord) (b : Option AlertRecord) {a : AlertRecord}
    (h : l.foldl moreUrgent b = some a) : a ∈ l ∨ b = some a := by
  induction l generalizing b with
  | nil => exact .inr h
  | cons x l ih =>
    rcases ih _ h with h1 | h1
    · exact .inl (List.mem_cons_of_mem _ h1)
    · unfold moreUrgent at h1
      split at h1
      · rw [Option.some.injEq] at h1; exact .inl (h1 ▸ List.mem_cons_self)
      · split at h1
        · rw [Option.some.injEq] at h1; exact .inl (h1 ▸ List.mem_cons_self)
        · exact .inr h1

/-- The alert chosen is a candidate that the stack admits (R173, R174). -/
theorem chosen_admits {u : AgentUnit} {a : AlertRecord} (h : u.chosen = some a) : a ∈ u.candidates ∧ u.admits a.level = true := by
  rcases foldl_moreUrgent_mem _ _ h with h1 | h1
  · exact List.mem_filter.1 h1
  · cases h1

theorem quiet_deliverAlert (ag : Agent) (s : State) : quiet s (deliverAlert ag s) := by
  unfold deliverAlert
  split
  · exact .refl s
  · rename_i a ha
    have hadm := (chosen_admits ha).2
    unfold AgentUnit.admits at hadm
    have hst : ((s.unit ag).deliver a).stack = ⟨(s.unit ag).ctx.mask, (s.unit ag).ctx.form, a⟩ :: (s.unit ag).stack := by
      unfold AgentUnit.deliver AgentUnit.withdraw; split <;> rfl
    have hfi : ((s.unit ag).deliver a).fifo.length ≤ (s.unit ag).fifo.length := by
      unfold AgentUnit.deliver AgentUnit.withdraw
      split
      · exact le_rfl
      · simp
    refine quiet_setUnit_room s ag _ hfi.trans ?_ ?_
    · rw [hst, List.countP_cons]
      intro h1
      by_cases hz : a.level = 0
      · rw [if_pos hz] at hadm
        have : (s.unit ag).stack.countP (fun r => r.alert.level == 0) = 0 := by
          rw [List.countP_eq_zero]
          intro r hr
          have := List.all_eq_true.1 hadm r hr
          simpa using this
        rw [this]; split <;> simp
      · have : ¬((a.level == 0) = true) := by simpa using hz
        rw [if_neg this]; simpa using h1
    · rw [hst, List.countP_cons]
      intro h1
      by_cases hz : a.level = 0
      · have : ¬((a.level != 0) = true) := by simpa using hz
        rw [if_neg this]; simpa using h1
      · rw [if_neg hz, Bool.and_eq_true, decide_eq_true_eq, decide_eq_true_eq] at hadm
        have := hadm.2
        split <;> omega

theorem quiet_takeAlertReturn (ag : Agent) (n : Nat) (s : State) : quiet s (takeAlertReturn ag n s).state := by
  unfold takeAlertReturn
  split
  · exact .refl s
  · split
    · exact .refl s
    · rename_i r rest hst
      split
      · exact .refl s
      · rename_i s1 h1
        have hq := quiet_releaseCaptures ag n s s1 h1
        have hu : (s1.unit ag).stack = r :: rest := by
          unfold releaseCaptures at h1
          extract_lets q at h1
          split at h1
          · cases h1
          · cases h1; exact hst
        refine hq.trans (quiet_setUnit_room s1 ag _ id ?_ ?_)
        · rw [hu]
          exact fun h => ((List.sublist_cons_self r rest).countP_le).trans h
        · rw [hu]
          exact fun h => ((List.sublist_cons_self r rest).countP_le).trans h

theorem quiet_takeAlertRead (ag : Agent) (s : State) : quiet s (takeAlertRead ag s).state := by
  unfold takeAlertRead; split <;> exact .refl s

theorem quiet_takeAlertMask (ag : Agent) (m : Nat) (s : State) : quiet s (takeAlertMask ag m s).state := by
  unfold takeAlertMask
  extract_lets c
  split
  · exact .refl s
  · exact quiet_setCtx s _ _

/-! ## Agents, windows, the grant -/

theorem quiet_setGrant (s : State) (g : GrantArbiter) : quiet s { s with arbiter := g } := .of_eq rfl rfl rfl rfl rfl rfl

theorem quiet_giveGrant (ag : Agent) (s : State) : quiet s (giveGrant ag s) := quiet_setGrant s _
theorem quiet_voidRenewals (s : State) : quiet s (voidRenewals s) := quiet_setFlight s _
theorem quiet_freeGrant (s : State) : quiet s (freeGrant s) := (quiet_voidRenewals s).trans (quiet_setGrant _ _)

theorem quiet_takeGrantClaim (ag : Agent) (o : Options) (s : State) : quiet s (takeGrantClaim ag o s).state := by
  unfold takeGrantClaim
  split
  · exact quiet_giveGrant _ s
  · split
    · exact quiet_giveGrant _ s
    · split
      · exact ((quiet_raiseTo s _ _).trans (quiet_voidRenewals _)).trans (quiet_giveGrant _ _)
      · exact .refl s

theorem quiet_takeGrantRenew (ag : Agent) (s : State) : quiet s (takeGrantRenew ag s).state := by
  unfold takeGrantRenew; split
  · exact quiet_giveGrant _ s
  · exact .refl s

theorem quiet_takeGrantRelease (ag : Agent) (s : State) : quiet s (takeGrantRelease ag s).state := by
  unfold takeGrantRelease; split
  · exact quiet_freeGrant s
  · exact .refl s

theorem quiet_expireGrant (s : State) : quiet s (expireGrant s) := by
  unfold expireGrant
  split
  · exact .refl s
  · split
    · exact (quiet_freeGrant s).trans (quiet_raiseTo _ _ _)
    · exact .refl s

theorem quiet_takeRenewal (s : State) : quiet s (takeRenewal s) := by
  unfold takeRenewal
  split
  · exact .refl s
  · extract_lets f s1
    have h1 : quiet s s1 := quiet_setFlight s _
    split
    · exact h1.trans (quiet_giveGrant _ _)
    · exact h1

theorem quiet_grantAgentReset (ag : Agent) (s : State) : quiet s (grantAgentReset ag s) := by
  unfold grantAgentReset
  split
  · extract_lets f s1
    have h1 : quiet s s1 := quiet_setFlight s _
    split
    · exact h1.trans (quiet_freeGrant _)
    · exact h1
  · exact .refl s

theorem quiet_takeContextSet (ag : Agent) (x : ContextSettings) (s : State) : quiet s (takeContextSet ag x s).state := by
  unfold takeContextSet; split
  · exact quiet_setCtx s _ _
  · exact .refl s

theorem quiet_agentReset (ag : Agent) (s : State) : quiet s (agentReset ag s) :=
  (quiet_setUnit_room s ag _ (fun _ => Nat.zero_le _) (fun _ => Nat.zero_le _) (fun _ => Nat.zero_le _)).trans
    (quiet_setFlight _ _)

theorem quiet_setResetIn (ag : Agent) (b : Bool) (s : State) : quiet s (setResetIn ag b s) := quiet_setUnit s ag _ rfl rfl
theorem quiet_cutOff (ag : Agent) (s : State) : quiet s (s.setUnit ag (s.unit ag).cutOff) := quiet_setUnit s ag _ rfl rfl

theorem quiet_acceptFrame (ag : Agent) (q : Submitted) (s : State) : quiet s (acceptFrame ag q s) := by
  unfold acceptFrame
  split
  · exact quiet_respond s _ _ _
  · split
    · exact quiet_respond s _ _ _
    · split
      · exact quiet_respond s _ _ _
      · exact quiet_setUnit s ag _ rfl rfl

theorem quiet_submitWindow (ag : Agent) (w : OpenWindow) (s : State) : quiet s (submitWindow ag w s) := by
  unfold submitWindow
  split
  · exact quiet_setUnit s ag _ rfl rfl
  · split
    · exact quiet_respond s _ _ _
    · exact quiet_acceptFrame _ _ s

theorem quiet_collectWindow (ag : Agent) (w : OpenWindow) (s : State) : quiet s (collectWindow ag w s) := by
  unfold collectWindow
  split
  · split
    · exact quiet_setUnit s ag _ rfl rfl
    · exact .refl s
  · exact .refl s

theorem quiet_endWindow (ag : Agent) (w : OpenWindow) (s : State) : quiet s (endWindow ag w s) := by
  unfold endWindow
  split
  · exact .refl s
  · split
    · exact quiet_submitWindow ag w s
    · exact quiet_collectWindow ag w s
    · exact .refl s

theorem quiet_selectWindow (ag : Agent) (d : Option Byte) (x : Stretch) (s : State) : quiet s (selectWindow ag d x s) := by
  unfold selectWindow
  extract_lets u w w1 before s1
  have h1 : quiet s s1 := quiet_setUnit s ag _ rfl rfl
  split
  · exact h1.trans (quiet_endWindow _ _ _)
  · exact h1

/-! ## Times and flags -/

theorem quiet_finishTime (ag : Agent) (o : Options) (r : ShapedTime) (s : State) : quiet s (finishTime ag o r s).state := by
  unfold finishTime
  extract_lets c e
  split <;> exact quiet_setCtx s _ _

theorem quiet_finishInterval (ag : Agent) (o : Options) (r : ShapedInterval) (s : State) :
    quiet s (finishInterval ag o r s).state := by
  unfold finishInterval
  extract_lets e
  split <;> exact quiet_setCtx s _ _

theorem quiet_takeTimeConvert (ag : Agent) (o : Options) (a b : Scale) (x : Operand) (s : State) :
    quiet s (takeTimeConvert ag o a b x s).state := by
  unfold takeTimeConvert; split
  · exact .refl s
  · exact quiet_finishTime _ _ _ _

theorem quiet_takeTimeDiff (ag : Agent) (o : Options) (a b : Operand) (s : State) :
    quiet s (takeTimeDiff ag o a b s).state := by
  unfold takeTimeDiff; split
  · exact .refl s
  · exact quiet_finishInterval _ _ _ _

/-! ## The source table -/

/-- The schedule is the same and the queues keep their room. -/
def keepsRest (s t : State) : Prop := t.sched = s.sched ∧ (RoomKept s → RoomKept t)

theorem keepsRest.refl (s : State) : keepsRest s s := ⟨rfl, id⟩

theorem keepsRest.trans {s t u : State} (h : keepsRest s t) (k : keepsRest t u) : keepsRest s u :=
  ⟨k.1.trans h.1, fun r => k.2 (h.2 r)⟩

theorem onlySelection.rest {s t : State} (h : onlySelection s t) : keepsRest s t := ⟨h.sched, fun r => r.of_only h⟩
theorem quiet.rest {s t : State} (h : quiet s t) : keepsRest s t := ⟨h.sched, h.room⟩

theorem onlySelection_handOver (i : Nat) (k : Int) (o utc : Option Int) (l : Option Leap) (a : Ticks) (s : State) :
    onlySelection s (handOver i k o utc l a s) := by
  unfold handOver
  split
  · extract_lets s1
    have h1 : onlySelection s s1 := by
      show onlySelection s (match o with | some x => handToTimescale (.offset i k x) s | none => s)
      split <;> rfl
    split
    · exact h1.trans rfl
    · exact h1
  · rfl

theorem onlySelection_takeFrame (i : Nat) (m : OriginMsg) (p : SourcePath) (s : State) :
    onlySelection s (takeFrame i m p s) := by
  unfold takeFrame
  extract_lets p1 o s1 s2
  have h1 : onlySelection s s1 := (onlySelection_setPath s _ _).trans (onlySelection_reexamine _ _)
  have h2 : onlySelection s1 s2 := by
    show onlySelection s1 (if _ then _ else _)
    split
    · exact onlySelection_reportClass _ _
    · rfl
  exact (h1.trans h2).trans (onlySelection_handOver _ _ _ _ _ _ _)

theorem rest_takeOrigin (m : OriginMsg) (s : State) : keepsRest s (takeOrigin m s) := by
  unfold takeOrigin
  split
  · exact .refl s
  · split
    · exact .refl s
    · have hc : keepsRest s (countTableFull m.net s) := by
        unfold countTableFull
        refine (quiet_setPort_le s m.net _ ?_).rest
        exact le_rfl
      split
      · unfold pathTakesOrigin
        split
        · exact (onlySelection_setPath s _ _).rest
        · exact (onlySelection_takeFrame _ _ _ s).rest
        · split
          · exact (onlySelection_takeFrame _ _ _ s).rest
          · exact .refl s
      · split
        · split
          · exact (onlySelection_takeFrame _ _ _ s).rest
          · exact hc
        · exact hc

theorem rest_endThenReexamine (i : Nat) (q : Option SourcePath) (t : Target) (s : State) :
    keepsRest s (reexamine .first (endAsks t (s.setPath i q))) :=
  ((onlySelection_setPath s i q).rest.trans (quiet_endAsks _ _).rest).trans (onlySelection_reexamine _ _).rest

theorem rest_settlePath (i : Nat) (p : SourcePath) (s : State) : keepsRest s (settlePath i p s) :=
  (onlySelection_settleSamples _ s).rest

theorem rest_makeStale (i since : Nat) (p : SourcePath) (s : State) : keepsRest s (makeStale i since p s) := by
  unfold makeStale
  dsimp only
  split
  · exact (rest_settlePath i p s).trans (rest_endThenReexamine i _ _ _)
  · exact rest_settlePath i p s

theorem rest_barPath (e r : Nat) (p : SourcePath) (s : State) : keepsRest s (barPath e r p s) := by
  unfold barPath
  dsimp only
  split
  · exact (rest_settlePath e p s).trans (rest_endThenReexamine e _ _ _)
  · exact rest_settlePath e p s

theorem rest_takeSourceMiss (m : MissMsg) (s : State) : keepsRest s (takeSourceMiss m s) := by
  unfold takeSourceMiss
  split
  · exact .refl s
  · split
    · exact rest_makeStale _ _ _ s
    · exact .refl s

theorem rest_staleAtDeadline (i : Nat) (s : State) : keepsRest s (staleAtDeadline i s) := by
  unfold staleAtDeadline
  split
  · split
    · split
      · exact rest_makeStale _ _ _ s
      · exact .refl s
    · exact .refl s
  · exact .refl s

theorem rest_removeStale (i : Nat) (s : State) : keepsRest s (removeStale i s) := by
  unfold removeStale
  split
  · split
    · exact rest_endThenReexamine i none _ s
    · exact .refl s
  · exact .refl s

theorem onlySelection_takeRefEdge (st : Stamp) (s : State) : onlySelection s (takeRefEdge st s) := by
  unfold takeRefEdge
  split
  · split <;> rfl
  · rfl

theorem rest_takeSourceBar (e r : Nat) (s : State) : keepsRest s (takeSourceBar e r s).state := by
  unfold takeSourceBar
  split
  · exact .refl s
  · split
    · exact (onlySelection_setPath s _ _).rest
    · exact rest_barPath e r _ s

theorem onlySelection_takeSourceUnbar (e : Nat) (s : State) : onlySelection s (takeSourceUnbar e s).state := by
  unfold takeSourceUnbar
  split
  · rfl
  · split
    · exact (onlySelection_setPath s _ _).trans (onlySelection_reexamine _ _)
    · rfl

theorem onlySelection_takeRefLabel (ag : Agent) (x : Nat) (off : Option Int) (l : Option Leap) (s : State) :
    onlySelection s (takeRefLabel ag x off l s).state := by
  unfold takeRefLabel
  split
  · rfl
  · split
    · rfl
    · split
      · rfl
      · split
        · rfl
        · extract_lets o s1 s2
          have h1 : onlySelection s s1 := (onlySelection_setPath s _ _).trans (onlySelection_reexamine _ _)
          have h2 : onlySelection s1 s2 := onlySelection_handOver _ _ _ _ _ _ s1
          exact (h1.trans h2).trans rfl

theorem rest_takePartConfig (c : PartSettings) (s : State) : keepsRest s (takePartConfig c s).state := by
  unfold takePartConfig
  split
  · show keepsRest s (sourceEffects s.src.settings (overHoldover (gradeHoldover (writeSettings c s))))
    have h1 : keepsRest s (writeSettings c s) :=
      ⟨rfl, fun r => r.of_le (fun _ => le_rfl) rfl fun _ => ⟨rfl, rfl⟩⟩
    have h2 := ((onlySelection_gradeHoldover (writeSettings c s)).trans (onlySelection_overHoldover _)).rest
    refine (h1.trans h2).trans (onlySelection.rest ?_)
    generalize overHoldover (gradeHoldover (writeSettings c s)) = u
    unfold sourceEffects
    extract_lets new s1
    have h3 : onlySelection u s1 := rfl
    split
    · exact h3
    · exact (h3.trans (onlySelection_reexamine _ _)).trans (onlySelection_reportClass _ _)
  · exact .refl s

end Sys2Proof.Machine
end

