-- ==== Sys2Proof/Laws/Samples.lean ====
section
/-! SUPPORT. What servo and selection neither read nor write may be set before or after what they do; and samples on their
way (R64, log entry 10): those that an end takes first are taken one by one. -/

namespace Sys2Proof.Machine

/-! ## The lists -/

theorem filter_taken {g : SampleMsg → Bool} {before after : List SampleMsg} {m : SampleMsg} (hb : ∀ x ∈ before, g x = false)
    (hm : g m = true) : (before ++ m :: after).filter g = m :: (before ++ after).filter g := by
  simp only [List.filter_append, List.filter_cons, hm, if_true]
  rw [List.filter_eq_nil_iff.2 (by intro x hx; rw [hb x hx]; simp)]
  rfl

theorem filter_left {g : SampleMsg → Bool} {before after : List SampleMsg} {m : SampleMsg} (hm : g m = true) :
    (before ++ m :: after).filter (fun x => !g x) = (before ++ after).filter fun x => !g x := by
  simp [List.filter_append, hm]

theorem filter_none {g : SampleMsg → Bool} {l : List SampleMsg} (h : ∀ m ∈ l, g m = false) : l.filter g = [] :=
  List.filter_eq_nil_iff.2 fun x hx => by rw [h x hx]; simp

theorem filter_all {g : SampleMsg → Bool} {l : List SampleMsg} (h : ∀ m ∈ l, g m = false) : l.filter (fun m => !g m) = l :=
  List.filter_eq_self.2 fun x hx => by rw [h x hx]; rfl

/-! ## Updates that servo and selection do not read -/

/-- An update of parts of the state that servo and selection neither read nor write: it may come before or after what they
do. -/
structure Aside (g : State → State) : Prop where
  ts : ∀ s, (g s).ts = s.ts
  src : ∀ s, (g s).src = s.src
  setTs : ∀ s t, (g s).setTs t = g (s.setTs t)
  setPath : ∀ s i p, (g s).setPath i p = g (s.setPath i p)
  setSelected : ∀ s i, setSelected i (g s) = g (setSelected i s)
  raiseTo : ∀ s ag r, raiseTo ag r (g s) = g (raiseTo ag r s)

namespace Aside
variable {g : State → State} (h : Aside g) (s : State)
include h

theorem path (i : Nat) : (g s).path i = s.path i := path_of_src (h.src s) i

theorem raiseAll (r : Raise) : Machine.raiseAll r (g s) = g (Machine.raiseAll r s) := by
  unfold Machine.raiseAll
  rw [h.raiseTo, h.raiseTo, h.raiseTo]

theorem regrade : Machine.regrade (g s) = g (Machine.regrade s) := by
  unfold Machine.regrade State.selectedPath
  rw [h.ts, h.src, h.setTs]
  simp only [h.path]

theorem changeServo (x : ServoState) : Machine.changeServo x (g s) = g (Machine.changeServo x s) := by
  unfold Machine.changeServo
  rw [h.ts, h.setTs, h.raiseAll]
  split <;> rfl

theorem endSlew (e : SlewEnd) : Machine.endSlew e (g s) = g (Machine.endSlew e s) := by
  unfold Machine.endSlew
  rw [h.ts, h.setTs]
  cases s.ts.slew with
  | none => rfl
  | some w =>
    dsimp only
    cases w.notify with
    | none => rfl
    | some a => exact h.raiseTo _ _ _

theorem enterAcquire : Machine.enterAcquire (g s) = g (Machine.enterAcquire s) := by
  unfold Machine.enterAcquire
  dsimp only
  rw [h.changeServo, h.ts, h.setTs]

theorem enterHoldover : Machine.enterHoldover (g s) = g (Machine.enterHoldover s) := by
  unfold Machine.enterHoldover
  dsimp only
  rw [h.endSlew, h.changeServo, h.ts, h.setTs]

theorem expireHoldover : Machine.expireHoldover (g s) = g (Machine.expireHoldover s) := by
  unfold Machine.expireHoldover
  dsimp only
  rw [h.changeServo, h.ts, h.setTs, h.regrade]

theorem takeSelected : Machine.takeSelected (g s) = g (Machine.takeSelected s) := by
  unfold Machine.takeSelected
  rw [h.ts, h.enterAcquire]
  cases s.ts.servo <;> rfl

theorem takeMoved (c : Nat) (o : Option Int) : Machine.takeMoved c o (g s) = g (Machine.takeMoved c o s) := by
  unfold Machine.takeMoved
  rw [h.ts, h.enterAcquire, h.setTs]
  cases s.ts.servo <;> cases o <;> dsimp only
  split <;> rfl

theorem takeLost : Machine.takeLost (g s) = g (Machine.takeLost s) := by
  unfold Machine.takeLost
  dsimp only
  rw [h.ts, h.enterHoldover, h.changeServo, h.ts, h.setTs]
  cases s.ts.servo <;> dsimp only <;> split <;> rfl

theorem setPathState (i : Nat) (x : PathState) : Machine.setPathState i x (g s) = g (Machine.setPathState i x s) := by
  unfold Machine.setPathState
  rw [h.path]
  cases s.path i with
  | none => rfl
  | some p => exact h.setPath _ _ _

theorem selectPath (i : Nat) (p : SourcePath) (prev : Option (Nat × Nat)) (c : SourceCause) (f : State → State)
    (hf : ∀ s, f (g s) = g (f s)) : Machine.selectPath i p prev c f (g s) = g (Machine.selectPath i p prev c f s) := by
  unfold Machine.selectPath
  dsimp only
  rw [h.setPathState, h.setSelected, hf, h.raiseAll, h.regrade]

theorem reexamine (c : SourceCause) : Machine.reexamine c (g s) = g (Machine.reexamine c s) := by
  unfold Machine.reexamine
  rw [h.src]
  simp only [h.path, h.setPathState]
  split
  · rfl
  · cases s.src.selected with
    | none =>
      dsimp only
      cases bestCandidate s.src with
      | none => rfl
      | some b => exact h.selectPath s _ _ _ _ _ h.takeSelected
    | some j =>
      dsimp only
      split
      · cases bestCandidate s.src with
        | none => rfl
        | some b =>
          dsimp only
          split
          · exact h.selectPath _ _ _ _ _ _ fun s => h.takeMoved s _ _
          · rfl
      · cases bestCandidate s.src with
        | some b => exact h.selectPath _ _ _ _ _ _ fun s => h.takeMoved s _ _
        | none => dsimp only; rw [h.setSelected, h.takeLost, h.raiseAll, h.regrade]

theorem reportClass (i : Nat) : Machine.reportClass i (g s) = g (Machine.reportClass i s) := by
  unfold Machine.reportClass
  rw [h.src, h.path, h.ts]
  split
  · cases s.path i with
    | none => rfl
    | some p =>
      dsimp only
      rw [h.setTs]
      split <;> exact h.regrade _
  · rfl

end Aside

/-- A request in hand is aside of servo and selection. -/
theorem aside_withRequest (ag : Agent) (q : Submitted) : Aside fun s => s.withRequest ag q :=
  ⟨fun _ => rfl, fun _ => rfl, fun _ _ => rfl, fun _ _ _ => rfl, fun _ _ => rfl, fun _ _ _ => rfl⟩

/-- So are the ports, and with them the asks. -/
theorem aside_ports (f : PerNet NetPort → PerNet NetPort) : Aside fun s => { s with ports := f s.ports } :=
  ⟨fun _ => rfl, fun _ => rfl, fun _ _ => rfl, fun _ _ _ => rfl, fun _ _ => rfl, fun _ _ _ => rfl⟩

/-! ## To the source table -/

/-- The state with these samples on their way to the source table. -/
def State.withSamples (l : List SampleMsg) (s : State) : State := s.setFlight { s.flight with sourceSamples := l }

/-- They are aside of servo and selection. -/
theorem aside_withSamples (l : List SampleMsg) : Aside (State.withSamples l) :=
  ⟨fun _ => rfl, fun _ => rfl, fun _ _ => rfl, fun _ _ _ => rfl, fun _ _ => rfl, fun _ _ _ => rfl⟩

theorem withSamples_takeSourceSample (l : List SampleMsg) (m : SampleMsg) (s : State) :
    takeSourceSample m (s.withSamples l) = (takeSourceSample m s).withSamples l := by
  have hl : liveTarget m.target (s.withSamples l) = liveTarget m.target s := rfl
  unfold takeSourceSample
  rw [hl]
  cases liveTarget m.target s with
  | none => rfl
  | some x =>
    dsimp only
    change (if (filterTake s.echo.outlier x.2.filter m.sample).2 = .outlier then _ else _) = _
    rw [(aside_withSamples l).setPath, (aside_withSamples l).setPath, (aside_withSamples l).reexamine]
    split <;> rfl

/-- Samples that are taken before the end of their target are taken one by one (R64). -/
theorem settleSamples_cons (g : SampleMsg → Bool) (s : State) (before after : List SampleMsg) (m : SampleMsg)
    (hl : s.flight.sourceSamples = before ++ m :: after) (hb : ∀ x ∈ before, g x = false) (hm : g m = true) :
    settleSamples g s = settleSamples g (takeSourceSample m (s.withSamples (before ++ after))) := by
  have h3 : (takeSourceSample m (s.withSamples (before ++ after))).flight.sourceSamples = before ++ after := by
    rw [withSamples_takeSourceSample]; rfl
  unfold settleSamples
  rw [hl, h3]
  dsimp only
  rw [filter_taken hb hm, filter_left hm, List.foldl_cons]
  congr 1
  rw [withSamples_takeSourceSample]
  exact withSamples_takeSourceSample _ m s

/-- With no named sample on its way nothing is taken. -/
theorem settleSamples_nil (g : SampleMsg → Bool) (s : State) (h : ∀ m ∈ s.flight.sourceSamples, g m = false) :
    settleSamples g s = s := by
  unfold settleSamples
  dsimp only
  rw [filter_none h, filter_all h]
  rfl

/-! ## To the client table -/

/-- The state with these samples on their way to the client table. -/
def State.withPresenceSamples (l : List SampleMsg) (s : State) : State := s.setFlight { s.flight with clientSamples := l }

theorem withPresenceSamples_takeClientSample (l : List SampleMsg) (m : SampleMsg) (s : State) :
    takeClientSample m (s.withPresenceSamples l) = (takeClientSample m s).withPresenceSamples l := by
  have hl : livePresence m.target m.net (s.withPresenceSamples l) = livePresence m.target m.net s := rfl
  unfold takeClientSample
  rw [hl]
  cases livePresence m.target m.net s <;> rfl

/-- Samples that are taken before the end of their target are taken one by one (R64). -/
theorem settlePresences_cons (g : SampleMsg → Bool) (s : State) (before after : List SampleMsg) (m : SampleMsg)
    (hl : s.flight.clientSamples = before ++ m :: after) (hb : ∀ x ∈ before, g x = false) (hm : g m = true) :
    settlePresences g s = settlePresences g (takeClientSample m (s.withPresenceSamples (before ++ after))) := by
  have h3 : (takeClientSample m (s.withPresenceSamples (before ++ after))).flight.clientSamples = before ++ after := by
    rw [withPresenceSamples_takeClientSample]; rfl
  unfold settlePresences
  rw [hl, h3]
  dsimp only
  rw [filter_taken hb hm, filter_left hm, List.foldl_cons]
  congr 1
  rw [withPresenceSamples_takeClientSample]
  exact withPresenceSamples_takeClientSample _ m s

/-- With no named sample on its way nothing is taken. -/
theorem settlePresences_nil (g : SampleMsg → Bool) (s : State) (h : ∀ m ∈ s.flight.clientSamples, g m = false) :
    settlePresences g s = s := by
  unfold settlePresences
  dsimp only
  rw [filter_none h, filter_all h]
  rfl

/-! ## One client's samples -/

/-- The record of a slot after a sample for the identity `id` there (R93). -/
def sampled (limit id : Nat) (c : Option Client) (m : SampleMsg) : Option Client :=
  match c with
  | none => none
  | some x =>
    match x.presences.get m.net with
    | none => some x
    | some p =>
      if x.identity = id ∧ x.state.asked = true then
        let f := filterTake limit p.filter m.sample
        some { x with
          state := if decide (x.state = .measuring) && decide (f.2 = .kept) && decide (4 ≤ f.1.count) then .served else x.state
          presences := x.presences.set m.net (some { p with filter := f.1, miss := 0 }) }
      else some x

theorem setClient_client (s : State) (i : Nat) : s.setClient i (s.client i) = s := by
  have h : s.cli.slots.set i (s.cli.slots.getD i none) = s.cli.slots := by
    rw [List.getD_eq_getElem?_getD]
    by_cases hi : i < s.cli.slots.length
    · rw [List.getElem?_eq_getElem hi]; exact List.set_getElem_self hi
    · exact List.set_eq_of_length_le (not_lt.1 hi)
  unfold State.setClient State.client
  rw [h]

theorem takeClientSample_eq {m : SampleMsg} {i id : Nat} (h : m.target = .client i id) (s : State) :
    takeClientSample m s = s.setClient i (sampled s.echo.outlier id (s.client i) m) := by
  have self := setClient_client s i
  unfold takeClientSample livePresence sampled
  rw [h]
  dsimp only
  cases hc : s.client i with
  | none => rw [hc] at self; exact self.symm
  | some c =>
    rw [hc] at self
    dsimp only
    cases c.presences.get m.net with
    | none => exact self.symm
    | some p =>
      dsimp only
      by_cases hk : c.identity = id ∧ c.state.asked = true
      · rw [if_pos hk, if_pos hk]
      · rw [if_neg hk, if_neg hk]; exact self.symm

/-- The samples of one client taken before its end: its record alone changes, by one sample after another (R64). -/
theorem settleClient_eq (i id : Nat) (s : State) (hi : i < s.cli.slots.length) :
    settleClient i id s =
      (s.withPresenceSamples (s.flight.clientSamples.filter fun m => !(m.target == .client i id))).setClient i
        ((s.flight.clientSamples.filter fun m => m.target == .client i id).foldl (sampled s.echo.outlier id) (s.client i)) := by
  have fold : ∀ (l : List SampleMsg) (u : State), i < u.cli.slots.length → (∀ m ∈ l, m.target = .client i id) →
      l.foldl (fun u m => takeClientSample m u) u = u.setClient i (l.foldl (sampled u.echo.outlier id) (u.client i)) := by
    intro l
    induction l with
    | nil => intro u _ _; exact (setClient_client u i).symm
    | cons m l ih =>
      intro u hu h
      rw [List.foldl_cons, takeClientSample_eq (h m List.mem_cons_self),
        ih _ (by simpa [State.setClient] using hu) fun x hx => h x (List.mem_cons_of_mem _ hx), List.foldl_cons]
      rw [State.client_setClient, if_pos ⟨rfl, hu⟩]
      simp [State.setClient]
  exact fold _ _ hi fun m hm => by simpa using (List.mem_filter.1 hm).2

/-- A client whose samples are taken stands, with its identity. -/
theorem settleClient_client {i id : Nat} {s : State} {c : Client} (h : s.client i = some c) :
    ∃ d, (settleClient i id s).client i = some d ∧ d.identity = c.identity := by
  have hi : i < s.cli.slots.length := by
    by_contra hn
    have : s.client i = none := by unfold State.client; rw [List.getD_eq_getElem?_getD, List.getElem?_eq_none (not_lt.1 hn)]; rfl
    rw [this] at h; cases h
  have one : ∀ (c : Client) (m : SampleMsg), ∃ d, sampled s.echo.outlier id (some c) m = some d ∧ d.identity = c.identity := by
    intro c m
    unfold sampled
    dsimp only
    split
    · exact ⟨_, rfl, rfl⟩
    · split <;> exact ⟨_, rfl, rfl⟩
  have fold : ∀ (l : List SampleMsg) (c : Client), ∃ d, l.foldl (sampled s.echo.outlier id) (some c) = some d ∧ d.identity = c.identity := by
    intro l
    induction l with
    | nil => intro c; exact ⟨c, rfl, rfl⟩
    | cons m l ih =>
      intro c
      obtain ⟨d, hd, e⟩ := one c m
      obtain ⟨f, hf, e2⟩ := ih d
      exact ⟨f, by rw [List.foldl_cons, hd, hf], e2.trans e⟩
  rw [settleClient_eq i id s hi, State.client_setClient, if_pos ⟨rfl, hi⟩, h]
  exact fold _ c

end Sys2Proof.Machine
end

