-- ==== Sys2Proof/Laws/Schedule.lean ====
section
/-! SUPPORT. The schedule: the order of its lists, what joins and leaves them, firing, steps, re-keys and acceptance; the
order of the schedule (`ScheduleInOrder`) under each. -/

namespace Sys2Proof.Machine

/-! ## The order of a list -/

theorem Entry.notAfter_iff (a b : Entry) :
    a.notAfter b ↔ (a.key : Nat) < b.key ∨ ((a.key : Nat) = b.key ∧ a.accept ≤ b.accept) := by
  unfold Entry.notAfter Entry.before
  simp only [Bool.or_eq_false_iff, decide_eq_false_iff_not, Bool.and_eq_false_iff, beq_eq_false_iff_ne, Ticks]
  omega

theorem Entry.notAfter.trans {a b c : Entry} (h : a.notAfter b) (k : b.notAfter c) : a.notAfter c := by
  rw [Entry.notAfter_iff] at *
  simp only [Ticks] at *
  omega

theorem Entry.notAfter_of_before {a b : Entry} (h : a.before b = true) : a.notAfter b := by
  rw [Entry.notAfter_iff]
  unfold Entry.before at h
  simp only [Bool.or_eq_true, decide_eq_true_eq, Bool.and_eq_true, beq_iff_eq] at h
  simp only [Ticks] at *
  omega

/-- A placed entry joins the others. -/
theorem placeEntry_perm (e : Entry) (l : List Entry) : (placeEntry e l).Perm (e :: l) := by
  induction l with
  | nil => exact .refl _
  | cons x l ih =>
    unfold placeEntry
    split
    · exact .refl _
    · exact (ih.cons x).trans (.swap e x l)

theorem mem_placeEntry {e x : Entry} {l : List Entry} : x ∈ placeEntry e l ↔ x = e ∨ x ∈ l := by
  rw [(placeEntry_perm e l).mem_iff, List.mem_cons]

/-- An ordered list stays ordered (R118). -/
theorem placeEntry_ordered (e : Entry) (l : List Entry) (h : l.Pairwise Entry.notAfter) :
    (placeEntry e l).Pairwise Entry.notAfter := by
  induction l with
  | nil => exact List.pairwise_singleton _ _
  | cons x l ih =>
    rw [List.pairwise_cons] at h
    unfold placeEntry
    split
    · rename_i hb
      have hx := Entry.notAfter_of_before hb
      refine List.pairwise_cons.2 ⟨fun y hy => ?_, List.pairwise_cons.2 h⟩
      rcases List.mem_cons.1 hy with rfl | hy
      · exact hx
      · exact hx.trans (h.1 y hy)
    · rename_i hb
      refine List.pairwise_cons.2 ⟨fun y hy => ?_, ih h.2⟩
      rcases mem_placeEntry.1 hy with rfl | hy
      · exact by simpa [Entry.notAfter] using hb
      · exact h.1 y hy

/-! ## Joining and leaving -/

theorem join_timescale (e : Entry) (c : Schedule) (h : e.domain ≠ .el) :
    c.join e = { c with timescale := placeEntry e c.timescale } := by
  unfold Schedule.join listOfDomain
  cases hd : e.domain <;> simp_all

theorem join_elapsed (e : Entry) (c : Schedule) (h : e.domain = .el) :
    c.join e = { c with elapsed := placeEntry e c.elapsed } := by
  unfold Schedule.join listOfDomain; rw [h]

theorem join_entries_perm (e : Entry) (c : Schedule) : (c.join e).entries.Perm (e :: c.entries) := by
  by_cases h : e.domain = .el
  · rw [join_elapsed e c h]
    exact ((placeEntry_perm e _).append_left c.timescale).trans List.perm_middle
  · rw [join_timescale e c h]
    exact (placeEntry_perm e _).append_right c.elapsed

theorem join_quotas (e : Entry) (c : Schedule) : (c.join e).quotas = c.quotas := by
  unfold Schedule.join; split <;> rfl

theorem mem_join {e x : Entry} {c : Schedule} : x ∈ (c.join e).entries ↔ x = e ∨ x ∈ c.entries := by
  rw [(join_entries_perm e c).mem_iff, List.mem_cons]

theorem keep_entries (p : Entry → Bool) (c : Schedule) : (c.keep p).entries = c.entries.filter p := by
  simp [Schedule.entries, Schedule.keep, List.filter_append]

theorem mem_leave {i : Nat} {x : Entry} {c : Schedule} : x ∈ (c.leave i).entries ↔ x ∈ c.entries ∧ x.handle.index ≠ i := by
  simp [Schedule.leave, keep_entries]

/-- Entries that leave keep the order of the rest. -/
theorem ScheduleInOrder.keep {c : Schedule} (h : ScheduleInOrder c) (p : Entry → Bool) : ScheduleInOrder (c.keep p) where
  timescale := h.timescale.filter p
  elapsed := h.elapsed.filter p
  timescaleDomain := fun e he => h.timescaleDomain e (List.mem_filter.1 he).1
  elapsedDomain := fun e he => h.elapsedDomain e (List.mem_filter.1 he).1
  indices := by rw [keep_entries]; exact h.indices.filter p
  range := fun e he => by rw [keep_entries] at he; exact h.range e (List.mem_filter.1 he).1
  periods := fun e he => by rw [keep_entries] at he; exact h.periods e (List.mem_filter.1 he).1
  use := fun ag => by
    refine le_trans ?_ (h.use ag)
    unfold Schedule.use
    rw [keep_entries]
    exact List.filter_sublist.countP_le
  quotas := h.quotas

theorem ScheduleInOrder.leave {c : Schedule} (h : ScheduleInOrder c) (i : Nat) : ScheduleInOrder (c.leave i) := h.keep _

/-- An entry with an index of its own joins, its owner being below its quota. -/
theorem ScheduleInOrder.join {c : Schedule} (h : ScheduleInOrder c) (e : Entry)
    (hi : ∀ x ∈ c.entries, x.handle.index ≠ e.handle.index) (hr : e.handle.index < Config.schedIndices)
    (ht : ∀ t, e.train = some t → 0 < t.period) (hu : c.use e.owner < c.quotas.get e.owner) : ScheduleInOrder (c.join e) where
  timescale := by
    by_cases hd : e.domain = .el
    · rw [join_elapsed e c hd]; exact h.timescale
    · rw [join_timescale e c hd]; exact placeEntry_ordered e _ h.timescale
  elapsed := by
    by_cases hd : e.domain = .el
    · rw [join_elapsed e c hd]; exact placeEntry_ordered e _ h.elapsed
    · rw [join_timescale e c hd]; exact h.elapsed
  timescaleDomain := by
    by_cases hd : e.domain = .el
    · rw [join_elapsed e c hd]; exact h.timescaleDomain
    · rw [join_timescale e c hd]
      intro x hx
      rcases mem_placeEntry.1 hx with rfl | hx
      · exact hd
      · exact h.timescaleDomain x hx
  elapsedDomain := by
    by_cases hd : e.domain = .el
    · rw [join_elapsed e c hd]
      intro x hx
      rcases mem_placeEntry.1 hx with rfl | hx
      · exact hd
      · exact h.elapsedDomain x hx
    · rw [join_timescale e c hd]; exact h.elapsedDomain
  indices := by
    refine ((join_entries_perm e c).pairwise_iff fun {a b} hab => Ne.symm hab).2 ?_
    exact List.pairwise_cons.2 ⟨fun x hx => Ne.symm (hi x hx), h.indices⟩
  range := fun x hx => by
    rcases mem_join.1 hx with rfl | hx
    · exact hr
    · exact h.range x hx
  periods := fun x hx => by
    rcases mem_join.1 hx with rfl | hx
    · exact ht
    · exact h.periods x hx
  use := fun ag => by
    rw [join_quotas]
    unfold Schedule.use
    rw [(join_entries_perm e c).countP_eq, List.countP_cons]
    by_cases ho : (e.owner == ag) = true
    · have hag : e.owner = ag := by simpa using ho
      subst hag
      rw [if_pos ho]
      exact hu
    · rw [if_neg ho]
      exact h.use ag
  quotas := by rw [join_quotas]; exact h.quotas

/-- An entry with the index and owner of `e` is live, and `e` has a positive period if it has one. -/
def Schedule.carries (c : Schedule) (e : Entry) : Prop :=
  (∃ x ∈ c.entries, x.handle.index = e.handle.index ∧ x.owner = e.owner) ∧ ∀ t, e.train = some t → 0 < t.period

theorem ScheduleInOrder.carries {c : Schedule} (h : ScheduleInOrder c) {e : Entry} (he : e ∈ c.entries) : c.carries e :=
  ⟨⟨e, he, rfl, rfl⟩, h.periods e he⟩

/-- A live entry that leaves makes room for one of its owner. -/
theorem use_leave_lt {c : Schedule} {x : Entry} (hx : x ∈ c.entries) : (c.leave x.handle.index).use x.owner < c.use x.owner := by
  unfold Schedule.use Schedule.leave
  rw [keep_entries]
  have e := List.countP_eq_countP_filter_add c.entries (fun e => e.owner == x.owner) (fun e => e.handle.index != x.handle.index)
  have hp : 0 < (c.entries.filter fun e => !(e.handle.index != x.handle.index)).countP fun e => e.owner == x.owner := by
    rw [List.countP_pos_iff]
    exact ⟨x, List.mem_filter.2 ⟨hx, by simp⟩, by simp⟩
  omega

/-- An entry takes the place of the live one with its index and owner. -/
theorem ScheduleInOrder.replace {c : Schedule} (h : ScheduleInOrder c) (e : Entry) (he : c.carries e) :
    ScheduleInOrder ((c.leave e.handle.index).join e) := by
  obtain ⟨⟨x, hx, hi, ho⟩, ht⟩ := he
  refine (h.leave _).join e (fun y hy => (mem_leave.1 hy).2) (by rw [← hi]; exact h.range x hx) ht ?_
  have := use_leave_lt hx
  rw [hi, ho] at this
  exact this.trans_le (h.use _)

/-! ## Firing -/

/-- What goes on after a firing is the same entry in handle, owner, domain, action and period (R127). -/
theorem after_facts {off : Int} {l : Leap} {b : Ticks} {e e1 : Entry} (h : e.after off l b = some e1) :
    e1.handle = e.handle ∧ e1.owner = e.owner ∧ e1.domain = e.domain ∧
      ∃ t t1, e.train = some t ∧ e1.train = some t1 ∧ t1.period = t.period := by
  unfold Entry.after at h
  split at h
  · cases h
  · rename_i t ht
    dsimp only at h
    split at h
    · cases h
    · split at h
      · cases h
      · cases h
        exact ⟨rfl, rfl, rfl, t, _, ht, rfl, rfl⟩

theorem quiet_raiseSched (ag : Agent) (a : SchedAlert) (s : State) : quiet s (raiseSched ag a s) := quiet_setFlight s _

theorem quiet_raiseAction (e : Entry) (x : FireOutcome) (s : State) : quiet s (raiseAction e x s) := by
  unfold raiseAction; split
  · exact quiet_raiseSched _ _ s
  · exact .refl s

theorem quiet_raiseNotify (e : Entry) (x : FireOutcome) (s : State) : quiet s (raiseNotify e x s) := by
  unfold raiseNotify; split
  · exact quiet_raiseSched _ _ s
  · exact .refl s

/-- The schedule after a firing: the entry has left it, or stands in it again as it goes on (R125 … R127). -/
theorem fire_sched (late applied : Bool) (b : Ticks) (e : Entry) (s : State) :
    (fire late applied b e s).sched = s.sched.leave e.handle.index ∨
      ∃ e1, e.after s.ts.utc s.ts.leap b = some { e1 with last := e.last } ∧
        (fire late applied b e s).sched = (s.sched.leave e.handle.index).join e1 := by
  unfold fire
  extract_lets done x s1
  have h1 : s1.sched = s.sched.leave e.handle.index :=
    (quiet_raiseAction e x done.1).sched.trans (quiet_performAction e.owner e.action _).sched
  split
  · rename_i e1 ha
    refine .inr ⟨{ e1 with last := some x }, ?_, ?_⟩
    · rw [ha]
      congr 1
      have hl : e1.last = e.last := by
        unfold Entry.after at ha
        split at ha
        · cases ha
        · dsimp only at ha
          split at ha
          · cases ha
          · split at ha
            · cases ha
            · cases ha; rfl
      rw [← hl]
    · rw [State.setSched_sched, h1]
  · exact .inl ((quiet_raiseNotify e x s1).sched.trans h1)

/-- A firing leaves source table and servo, and keeps the room of the queues. -/
theorem fire_quiet (late applied : Bool) (b : Ticks) (e : Entry) (s : State) :
    sameSelection s (fire late applied b e s) ∧ (RoomKept s → RoomKept (fire late applied b e s)) := by
  have hset : ∀ (t : State) c, sameSelection t (t.setSched c) ∧ (RoomKept t → RoomKept (t.setSched c)) := fun t c =>
    ⟨⟨rfl, rfl⟩, fun r => r.of_le (fun _ => le_rfl) rfl fun _ => ⟨rfl, rfl⟩⟩
  unfold fire
  extract_lets done x s1
  have h0 := hset s (s.sched.leave e.handle.index)
  have h1 : quiet (s.setSched (s.sched.leave e.handle.index)) s1 :=
    (quiet_performAction e.owner e.action _).trans (quiet_raiseAction e x _)
  split
  · rename_i e1 _
    have h2 := hset s1 (s1.sched.join { e1 with last := some x })
    exact ⟨(h0.1.trans h1.same).trans h2.1, fun r => h2.2 (h1.room (h0.2 r))⟩
  · have h2 := quiet_raiseNotify e x s1
    exact ⟨(h0.1.trans h1.same).trans h2.same, fun r => h2.room (h1.room (h0.2 r))⟩

theorem fire_inOrder (late applied : Bool) (b : Ticks) (e : Entry) (s : State) (h : ScheduleInOrder s.sched)
    (he : s.sched.carries e) : ScheduleInOrder (fire late applied b e s).sched := by
  rcases fire_sched late applied b e s with hs | ⟨e1, ha, hs⟩
  · rw [hs]; exact h.leave _
  · obtain ⟨h1, h2, h3, t, t1, ht, ht1, hp⟩ := after_facts ha
    have h1' : e1.handle = e.handle := h1
    have h2' : e1.owner = e.owner := h2
    have ht1' : e1.train = some t1 := ht1
    rw [hs, ← h1']
    refine h.replace e1 ⟨?_, ?_⟩
    · obtain ⟨⟨x, hx, hi, ho⟩, _⟩ := he
      exact ⟨x, hx, by rw [h1']; exact hi, by rw [h2']; exact ho⟩
    · intro u hu
      rw [ht1'] at hu
      cases hu
      rw [hp]; exact he.2 t ht

/-- A firing keeps the entries of other indices. -/
theorem fire_mem {late applied : Bool} {b : Ticks} {e x : Entry} {s : State} (hx : x ∈ s.sched.entries)
    (hi : x.handle.index ≠ e.handle.index) : x ∈ (fire late applied b e s).sched.entries := by
  rcases fire_sched late applied b e s with hs | ⟨e1, _, hs⟩
  · rw [hs]; exact mem_leave.2 ⟨hx, hi⟩
  · rw [hs]; exact mem_join.2 (.inr (mem_leave.2 ⟨hx, hi⟩))

theorem fire_carries {late applied : Bool} {b : Ticks} {e f : Entry} {s : State} (hf : s.sched.carries f)
    (hi : f.handle.index ≠ e.handle.index) : (fire late applied b e s).sched.carries f := by
  obtain ⟨⟨x, hx, h1, h2⟩, ht⟩ := hf
  exact ⟨⟨x, fire_mem hx (by rw [h1]; exact hi), h1, h2⟩, ht⟩

/-- Firings one after another, each with its own bound. -/
theorem foldl_fire (late : Bool) (applied : Entry → Bool) (b : Entry → Ticks) (l : List Entry)
    (hd : l.Pairwise fun x y => x.handle.index ≠ y.handle.index) (s : State) (h : ScheduleInOrder s.sched)
    (hc : ∀ e ∈ l, s.sched.carries e) :
    let t := l.foldl (fun s e => fire late (applied e) (b e) e s) s
    ScheduleInOrder t.sched ∧ sameSelection s t ∧ (RoomKept s → RoomKept t) ∧
      (∀ x ∈ s.sched.entries, (∀ e ∈ l, x.handle.index ≠ e.handle.index) → x ∈ t.sched.entries) := by
  induction l generalizing s with
  | nil => exact ⟨h, .refl s, id, fun x hx _ => hx⟩
  | cons e l ih =>
    rw [List.pairwise_cons] at hd
    have q := fire_quiet late (applied e) (b e) e s
    have k := ih hd.2 (fire late (applied e) (b e) e s) (fire_inOrder late (applied e) (b e) e s h (hc e List.mem_cons_self))
      (fun f hf => fire_carries (hc f (List.mem_cons_of_mem _ hf)) (Ne.symm (hd.1 f hf)))
    refine ⟨k.1, q.1.trans k.2.1, fun r => k.2.2.1 (q.2 r), fun x hx hi => ?_⟩
    exact k.2.2.2 x (fire_mem hx (hi e List.mem_cons_self)) fun f hf => hi f (List.mem_cons_of_mem _ hf)

theorem timescale_subset {c : Schedule} {e : Entry} (h : e ∈ c.timescale) : e ∈ c.entries := List.mem_append_left _ h

theorem timescale_indices {c : Schedule} (h : ScheduleInOrder c) :
    c.timescale.Pairwise fun x y => x.handle.index ≠ y.handle.index := (List.pairwise_append.1 h.indices).1

/-- The keys reached before a step fire in order and keep it. -/
theorem fireReached_inOrder (n : Nat) (d : Ticks) (later : List Nat) (s : State) (h : ScheduleInOrder s.sched) :
    ScheduleInOrder (fireReached n d later s).sched := by
  induction n generalizing s with
  | zero => exact h
  | succ n ih =>
    unfold fireReached
    split
    · exact h
    · rename_i e he
      exact ih _ (fire_inOrder _ _ _ e s h (h.carries (timescale_subset (List.mem_of_find?_eq_some he))))

/-- They leave source table and servo, and keep the room of the queues. -/
theorem fireReached_quiet (n : Nat) (d : Ticks) (later : List Nat) (s : State) :
    sameSelection s (fireReached n d later s) ∧ (RoomKept s → RoomKept (fireReached n d later s)) := by
  induction n generalizing s with
  | zero => exact ⟨.refl s, id⟩
  | succ n ih =>
    unfold fireReached
    split
    · exact ⟨.refl s, id⟩
    · rename_i e _
      have q := fire_quiet false false e.key e s
      exact ⟨q.1.trans (ih _).1, fun r => (ih _).2 (q.2 r)⟩

/-- A step report keeps the order (R131 … R133). -/
theorem takeStep_facts (old new : Ticks) (removed : Option Ticks) (later : List Nat) (s : State)
    (h : ScheduleInOrder s.sched) : ScheduleInOrder (takeStep old new removed later s).sched := by
  unfold takeStep
  split
  · extract_lets s1
    have h1 : ScheduleInOrder s1.sched := fireReached_inOrder _ old later s h
    refine (foldl_fire true (Entry.atRemoved removed) (fun _ => new) _ ((timescale_indices h1).filter _) s1 h1 ?_).1
    intro e he
    exact h1.carries (timescale_subset (List.mem_filter.1 he).1)
  · exact h

theorem foldl_fire_quiet (late : Bool) (applied : Entry → Bool) (b : Entry → Ticks) (l : List Entry) (s : State) :
    sameSelection s (l.foldl (fun s e => fire late (applied e) (b e) e s) s) ∧
      (RoomKept s → RoomKept (l.foldl (fun s e => fire late (applied e) (b e) e s) s)) := by
  induction l generalizing s with
  | nil => exact ⟨.refl s, id⟩
  | cons e l ih =>
    have q := fire_quiet late (applied e) (b e) e s
    exact ⟨q.1.trans (ih _).1, fun r => (ih _).2 (q.2 r)⟩

theorem takeStep_quiet (old new : Ticks) (removed : Option Ticks) (later : List Nat) (s : State) :
    sameSelection s (takeStep old new removed later s) ∧ (RoomKept s → RoomKept (takeStep old new removed later s)) := by
  unfold takeStep
  split
  · extract_lets s1
    have q : sameSelection s s1 ∧ (RoomKept s → RoomKept s1) := fireReached_quiet _ old later s
    have k := foldl_fire_quiet true (Entry.atRemoved removed) (fun _ => new)
      (s1.sched.timescale.filter fun e => decide (old < e.key) && decide (e.key ≤ new)) s1
    exact ⟨q.1.trans k.1, fun r => k.2 (q.2 r)⟩
  · exact ⟨.refl s, id⟩

/-! ## Re-keys (R134, R135) -/

theorem rekeyed_same (off : Int) (l : Leap) (e : Entry) :
    (e.rekeyed off l).handle = e.handle ∧ (e.rekeyed off l).owner = e.owner ∧ (e.rekeyed off l).domain = e.domain ∧
      (e.rekeyed off l).train = e.train := ⟨rfl, rfl, rfl, rfl⟩

theorem carries_rekeyed {c : Schedule} {e : Entry} (off : Int) (l : Leap) (h : c.carries e) : c.carries (e.rekeyed off l) := h

theorem rekeyEntry_inOrder (s : State) (e : Entry) (h : ScheduleInOrder s.sched) (he : s.sched.carries e) :
    ScheduleInOrder (rekeyEntry s e).sched :=
  h.replace (e.rekeyed s.ts.utc s.ts.leap) (carries_rekeyed _ _ he)

/-- No two live entries have one index. -/
theorem ScheduleInOrder.eq_of_index {c : Schedule} (h : ScheduleInOrder c) {x y : Entry} (hx : x ∈ c.entries)
    (hy : y ∈ c.entries) (hi : x.handle.index = y.handle.index) : x = y := by
  by_contra hne
  have hs : ∀ l : List Entry, l.Pairwise (fun a b => a.handle.index ≠ b.handle.index) → x ∈ l → y ∈ l → False := by
    intro l hl
    induction l with
    | nil => intro h1; cases h1
    | cons z l ih =>
      rw [List.pairwise_cons] at hl
      intro h1 h2
      rcases List.mem_cons.1 h1 with k1 | k1 <;> rcases List.mem_cons.1 h2 with k2 | k2
      · exact hne (k1.trans k2.symm)
      · exact hl.1 y k2 (by rw [← k1]; exact hi)
      · exact hl.1 x k1 (by rw [← k2]; exact hi.symm)
      · exact ih hl.2 k1 k2
  exact hs _ h.indices hx hy

theorem rekeyEntry_carries {s : State} {e f : Entry} (h : ScheduleInOrder s.sched) (he : s.sched.carries e)
    (hf : s.sched.carries f) : (rekeyEntry s e).sched.carries f := by
  obtain ⟨⟨x, hx, h1, h2⟩, ht⟩ := hf
  obtain ⟨⟨y, hy, k1, k2⟩, _⟩ := he
  refine ⟨?_, ht⟩
  by_cases hi : x.handle.index = e.handle.index
  · have hxy := h.eq_of_index hx hy (hi.trans k1.symm)
    exact ⟨e.rekeyed s.ts.utc s.ts.leap, mem_join.2 (.inl rfl), by rw [← h1]; exact hi.symm, by rw [← h2, hxy]; exact k2.symm⟩
  · exact ⟨x, mem_join.2 (.inr (mem_leave.2 ⟨hx, hi⟩)), h1, h2⟩

theorem rekeyEntry_quiet (s : State) (e : Entry) :
    sameSelection s (rekeyEntry s e) ∧ (RoomKept s → RoomKept (rekeyEntry s e)) :=
  ⟨⟨rfl, rfl⟩, fun r => r.of_le (fun _ => le_rfl) rfl fun _ => ⟨rfl, rfl⟩⟩

theorem foldl_rekeyEntry (l : List Entry) (s : State) (h : ScheduleInOrder s.sched) (hc : ∀ e ∈ l, s.sched.carries e) :
    ScheduleInOrder (l.foldl rekeyEntry s).sched ∧
      (∀ f, s.sched.carries f → (l.foldl rekeyEntry s).sched.carries f) := by
  induction l generalizing s with
  | nil => exact ⟨h, fun f hf => hf⟩
  | cons e l ih =>
    have he := hc e List.mem_cons_self
    have k := ih (rekeyEntry s e) (rekeyEntry_inOrder s e h he)
      (fun f hf => rekeyEntry_carries h he (hc f (List.mem_cons_of_mem _ hf)))
    exact ⟨k.1, fun f hf => k.2 f (rekeyEntry_carries h he hf)⟩

theorem foldl_rekeyEntry_quiet (l : List Entry) (s : State) :
    sameSelection s (l.foldl rekeyEntry s) ∧ (RoomKept s → RoomKept (l.foldl rekeyEntry s)) := by
  induction l generalizing s with
  | nil => exact ⟨.refl s, id⟩
  | cons e l ih =>
    have q := rekeyEntry_quiet s e
    exact ⟨q.1.trans (ih _).1, fun r => (ih _).2 (q.2 r)⟩

/-- The re-keyed late entries are re-keyed entries of the list, each once. -/
theorem rekeyedLate_perm (t : Timescale) (l : List Entry) :
    (rekeyedLate t l).Perm
      ((l.filter fun e => let k := (e.rekeyed t.utc t.leap).key; decide (k ≠ e.key) && decide (k ≤ t.dt)).map
        (Entry.rekeyed t.utc t.leap)) := by
  unfold rekeyedLate
  generalize List.map (Entry.rekeyed t.utc t.leap) _ = m
  induction m with
  | nil => exact .refl _
  | cons e m ih => exact (placeEntry_perm e _).trans (ih.cons e)

theorem noteKeyed_quiet (l : List Nat) (s : State) :
    sameSelection s (noteKeyed l s) ∧ (RoomKept s → RoomKept (noteKeyed l s)) :=
  ⟨⟨rfl, rfl⟩, fun r => r.of_le (fun _ => le_rfl) rfl fun _ => ⟨rfl, rfl⟩⟩

/-- A change of offset or announcement keeps the order (R134, R135). -/
theorem takeChange_facts (removed : Option Ticks) (s : State) :
    (ScheduleInOrder s.sched → ScheduleInOrder (takeChange removed s).sched) ∧ sameSelection s (takeChange removed s) ∧
      (RoomKept s → RoomKept (takeChange removed s)) := by
  unfold takeChange
  extract_lets ut rest s1
  have q1 : sameSelection s s1 ∧ (RoomKept s → RoomKept s1) := foldl_fire_quiet true (fun _ => true) (fun e => e.key) _ s
  have q2 := foldl_rekeyEntry_quiet rest s1
  have qn := noteKeyed_quiet (rekeyedIndices s.ts rest) (rest.foldl rekeyEntry s1)
  have q3 := foldl_fire_quiet true (Entry.atRemoved none) (fun _ => s.ts.dt) (rekeyedLate s.ts rest)
    (noteKeyed (rekeyedIndices s.ts rest) (rest.foldl rekeyEntry s1))
  refine ⟨fun h => ?_, ((q1.1.trans q2.1).trans qn.1).trans q3.1, fun r => q3.2 (qn.2 (q2.2 (q1.2 r)))⟩
  have hut : ∀ e ∈ ut, e ∈ s.sched.entries := fun e he => timescale_subset (List.mem_filter.1 he).1
  have hdut : ut.Pairwise fun x y => x.handle.index ≠ y.handle.index := (timescale_indices h).filter _
  have k1 := foldl_fire true (fun _ => true) (fun e => e.key) (ut.filter fun e => e.shifted && e.atRemoved removed) (hdut.filter _) s h
    (fun e he => h.carries (hut e (List.mem_filter.1 he).1))
  have hs1 : ScheduleInOrder s1.sched := k1.1
  have hc1 : ∀ e ∈ rest, s1.sched.carries e := by
    intro e he
    have hm := List.mem_filter.1 he
    have hin : e ∈ s1.sched.entries := k1.2.2.2 e (hut e hm.1) fun f hf hi => by
      have hf' := List.mem_filter.1 hf
      have := h.eq_of_index (hut e hm.1) (hut f hf'.1) hi
      subst this
      have h2 := hm.2
      rw [hf'.2] at h2
      cases h2
    exact hs1.carries hin
  have k2 := foldl_rekeyEntry rest s1 hs1 hc1
  have hp := rekeyedLate_perm s.ts rest
  refine (foldl_fire true (Entry.atRemoved none) (fun _ => s.ts.dt) (rekeyedLate s.ts rest) ?_
    (noteKeyed (rekeyedIndices s.ts rest) (rest.foldl rekeyEntry s1)) k2.1 ?_).1
  · refine (hp.pairwise_iff fun {a b} hab => Ne.symm hab).2 ?_
    rw [List.pairwise_map]
    exact ((hdut.filter _).filter _)
  · intro e he
    have := hp.mem_iff.1 he
    obtain ⟨f, hf, rfl⟩ := List.mem_map.1 this
    exact k2.2 _ (carries_rekeyed _ _ (hc1 f (List.mem_filter.1 hf).1))

/-- The DT that bears on a key is that before the oldest waiting step that found the entry with it (R131). -/
theorem schedDt_of_step {s : State} {e : Entry} {before after : List ScheduleMsg} {old new : Ticks} {r : Option Ticks}
    {later : List Nat} (h : s.flight.toSchedule = before ++ .step old new r later :: after) (hl : e.handle.index ∉ later)
    (hb : ∀ old' new' r' later', .step old' new' r' later' ∈ before → e.handle.index ∈ later') : s.schedDt e = old := by
  have hn : before.findSome? (ScheduleMsg.dtBefore e.handle.index) = none := by
    refine List.findSome?_eq_none_iff.2 fun m hm => ?_
    cases m with
    | step old' new' r' later' => simp [ScheduleMsg.dtBefore, hb _ _ _ _ hm]
    | change _ => rfl
  simp [State.schedDt, h, List.findSome?_append, hn, ScheduleMsg.dtBefore, hl]

/-- It is the present DT where every waiting step came before the entry took its key (R131). -/
theorem schedDt_of_later {s : State} {e : Entry}
    (h : ∀ old new r later, .step old new r later ∈ s.flight.toSchedule → e.handle.index ∈ later) : s.schedDt e = s.ts.dt := by
  have hn : s.flight.toSchedule.findSome? (ScheduleMsg.dtBefore e.handle.index) = none := by
    refine List.findSome?_eq_none_iff.2 fun m hm => ?_
    cases m with
    | step old new r later => simp [ScheduleMsg.dtBefore, h _ _ _ _ hm]
    | change _ => rfl
  simp [State.schedDt, hn]

/-- A key reached keeps the order (R125, R128). -/
theorem keyReached_facts (l : ListId) (s : State) :
    (ScheduleInOrder s.sched → ScheduleInOrder (keyReached l s).sched) ∧ sameSelection s (keyReached l s) ∧
      (RoomKept s → RoomKept (keyReached l s)) := by
  unfold keyReached
  split
  · exact ⟨id, .refl s, id⟩
  · rename_i e he
    have q := fire_quiet false false e.key e s
    refine ⟨fun h => fire_inOrder _ _ _ e s h (h.carries ?_), q.1, q.2⟩
    unfold keyDue at he
    split at he
    · exact timescale_subset (List.mem_of_find?_eq_some he)
    · have := (Option.mem_filter_iff.1 he).1
      exact List.mem_append_right _ (List.mem_of_head? this)

/-! ## Acceptance (R116, R118, R124) -/

theorem renumbered_entries (c : Schedule) : ∃ f : Entry → Nat, c.renumbered.entries = c.entries.map (fun e => { e with accept := f e }) ∧
    (∀ a b, a.accept ≤ b.accept → f a ≤ f b) ∧
    c.renumbered.timescale = c.timescale.map (fun e => { e with accept := f e }) ∧
    c.renumbered.elapsed = c.elapsed.map (fun e => { e with accept := f e }) ∧ c.renumbered.quotas = c.quotas := by
  unfold Schedule.renumbered
  split
  · refine ⟨Entry.accept, ?_, fun a b h => h, ?_, ?_, rfl⟩
    · exact (List.map_id' c.entries).symm
    · exact (List.map_id' c.timescale).symm
    · exact (List.map_id' c.elapsed).symm
  · refine ⟨c.acceptRank, by simp [Schedule.entries], fun a b h => ?_, rfl, rfl, rfl⟩
    unfold Schedule.acceptRank
    apply List.countP_mono_left
    intro x _ hx
    simp only [decide_eq_true_eq] at *
    omega

theorem ScheduleInOrder.renumbered {c : Schedule} (h : ScheduleInOrder c) : ScheduleInOrder c.renumbered := by
  obtain ⟨f, he, hf, ht, hl, hq⟩ := renumbered_entries c
  have hord : ∀ l : List Entry, l.Pairwise Entry.notAfter → (l.map fun e => { e with accept := f e }).Pairwise Entry.notAfter := by
    intro l hl
    rw [List.pairwise_map]
    refine hl.imp fun {a b} hab => ?_
    rw [Entry.notAfter_iff] at *
    show a.key < b.key ∨ (a.key = b.key ∧ f a ≤ f b)
    rcases hab with hab | ⟨hk, ha⟩
    · exact .inl hab
    · exact .inr ⟨hk, hf a b ha⟩
  exact
    { timescale := by rw [ht]; exact hord _ h.timescale
      elapsed := by rw [hl]; exact hord _ h.elapsed
      timescaleDomain := fun e hm => by
        rw [ht] at hm
        obtain ⟨x, hx, rfl⟩ := List.mem_map.1 hm
        exact h.timescaleDomain x hx
      elapsedDomain := fun e hm => by
        rw [hl] at hm
        obtain ⟨x, hx, rfl⟩ := List.mem_map.1 hm
        exact h.elapsedDomain x hx
      indices := by rw [he, List.pairwise_map]; exact h.indices
      range := fun e hm => by
        rw [he] at hm
        obtain ⟨x, hx, rfl⟩ := List.mem_map.1 hm
        exact h.range x hx
      periods := fun e hm => by
        rw [he] at hm
        obtain ⟨x, hx, rfl⟩ := List.mem_map.1 hm
        exact h.periods x hx
      use := fun ag => by
        rw [hq]
        refine le_trans (le_of_eq ?_) (h.use ag)
        unfold Schedule.use
        rw [he, List.countP_map]
        rfl
      quotas := by rw [hq]; exact h.quotas }

theorem renumbered_use (c : Schedule) (ag : Agent) : c.renumbered.use ag = c.use ag := by
  obtain ⟨f, he, _⟩ := renumbered_entries c
  unfold Schedule.use
  rw [he, List.countP_map]
  rfl

theorem freeIndex_facts {c : Schedule} {i : Nat} (h : c.freeIndex = some i) :
    i < Config.schedIndices ∧ ∀ x ∈ c.entries, x.handle.index ≠ i := by
  have h1 := List.find?_some h
  have h2 := List.mem_of_find?_eq_some h
  refine ⟨List.mem_range.1 h2, fun x hx hi => ?_⟩
  rw [Option.isNone_iff_eq_none] at h1
  have := List.find?_eq_none.1 h1 x hx
  simp [hi] at this

theorem accepted_facts (e : Entry) (c : Schedule) :
    (c.accepted e).timescale = (c.join e).timescale ∧ (c.accepted e).elapsed = (c.join e).elapsed ∧
      (c.accepted e).quotas = (c.join e).quotas := ⟨rfl, rfl, rfl⟩

theorem ScheduleInOrder.of_same {c d : Schedule} (h : ScheduleInOrder c) (h1 : d.timescale = c.timescale)
    (h2 : d.elapsed = c.elapsed) (h3 : d.quotas = c.quotas) : ScheduleInOrder d := by
  have he : d.entries = c.entries := by simp [Schedule.entries, h1, h2]
  exact
    { timescale := by rw [h1]; exact h.timescale
      elapsed := by rw [h2]; exact h.elapsed
      timescaleDomain := by rw [h1]; exact h.timescaleDomain
      elapsedDomain := by rw [h2]; exact h.elapsedDomain
      indices := by rw [he]; exact h.indices
      range := by rw [he]; exact h.range
      periods := by rw [he]; exact h.periods
      use := fun ag => by unfold Schedule.use; rw [he, h3]; exact h.use ag
      quotas := by rw [h3]; exact h.quotas }

/-- An accepted period is positive (R122). -/
theorem resolveTrain_period {r : AddRequest} {tr : Option Train} (h : resolveTrain r = some tr) (t : Train) (ht : tr = some t) :
    0 < t.period := by
  unfold resolveTrain at h
  subst ht
  split at h
  · split at h
    · cases h
    · cases h
  · split at h
    · split at h
      · rename_i hc
        cases h
        show 0 < Int.toNat _
        omega
      · cases h
    · cases h

theorem resolveAdd_train {c : Context} {r : AddRequest} {t : Timescale} {x : Resolved} (h : resolveAdd c r t = some x) :
    ∀ u, x.train = some u → 0 < u.period := by
  unfold resolveAdd at h
  split at h
  · rename_i tr _ _ htr
    split at h
    · split at h
      · cases h
        intro u hu
        exact resolveTrain_period htr u hu
      · cases h
    · cases h
  · cases h

/-- The acceptance of an entry with a free index, its owner being below its quota. -/
theorem acceptEntry_facts (ag : Agent) (o : Options) (e : Entry) (s : State) (h : ScheduleInOrder s.sched)
    (hi : ∀ x ∈ s.sched.entries, x.handle.index ≠ e.handle.index) (hr : e.handle.index < Config.schedIndices)
    (ht : ∀ t, e.train = some t → 0 < t.period) (hu : s.sched.use e.owner < s.sched.quotas.get e.owner) :
    ScheduleInOrder (acceptEntry ag o e s).state.sched := by
  obtain ⟨f, he, _, _, _, hq⟩ := renumbered_entries s.sched
  have hj : ScheduleInOrder (s.sched.renumbered.join e) := by
    refine h.renumbered.join e ?_ hr ht ?_
    · intro x hx
      rw [he] at hx
      obtain ⟨y, hy, rfl⟩ := List.mem_map.1 hx
      exact hi y hy
    · rw [renumbered_use, hq]; exact hu
  have ha : ScheduleInOrder (s.sched.renumbered.accepted e) := hj.of_same rfl rfl rfl
  unfold acceptEntry
  extract_lets s1 src s2 now s3
  have h2 : s2.sched = s.sched.renumbered.accepted e := by
    show (if o.update then _ else _ : State).sched = _
    split <;> rfl
  have hmem : e ∈ (s.sched.renumbered.accepted e).entries := mem_join.2 (.inl rfl)
  show ScheduleInOrder (if _ then _ else _ : State).sched
  split
  · exact fire_inOrder _ _ _ e s2 (by rw [h2]; exact ha) (by rw [h2]; exact ha.carries hmem)
  · rw [h2]; exact ha

theorem acceptEntry_quiet (ag : Agent) (o : Options) (e : Entry) (s : State) :
    sameSelection s (acceptEntry ag o e s).state ∧ (RoomKept s → RoomKept (acceptEntry ag o e s).state) := by
  unfold acceptEntry
  extract_lets s1 src s2 now s3
  have h1 : sameSelection s s1 ∧ (RoomKept s → RoomKept s1) :=
    ⟨⟨rfl, rfl⟩, fun r => r.of_le (fun _ => le_rfl) rfl fun _ => ⟨rfl, rfl⟩⟩
  have h2 : quiet s1 s2 := by
    show quiet s1 (if o.update then _ else _)
    split
    · exact quiet_setCtx s1 _ _
    · exact .refl s1
  have h3 := fire_quiet true false (max now e.key) e s2
  show sameSelection s (if _ then _ else _) ∧ (RoomKept s → RoomKept (if _ then _ else _))
  split
  · exact ⟨(h1.1.trans h2.same).trans h3.1, fun r => h3.2 (h2.room (h1.2 r))⟩
  · exact ⟨h1.1.trans h2.same, fun r => h2.room (h1.2 r)⟩

theorem served_quiet (ag : Agent) (s : State) : sameSelection s (served ag s) ∧ (RoomKept s → RoomKept (served ag s)) :=
  ⟨⟨rfl, rfl⟩, fun r => r.of_le (fun _ => le_rfl) rfl fun _ => ⟨rfl, rfl⟩⟩

theorem served_inOrder (ag : Agent) (s : State) (h : ScheduleInOrder s.sched) : ScheduleInOrder (served ag s).sched :=
  h.of_same rfl rfl rfl

/-- SCHED-ADD keeps the order (R123, R124). -/
theorem takeSchedAdd_facts (ag : Agent) (o : Options) (r : AddRequest) (s : State) :
    (ScheduleInOrder s.sched → ScheduleInOrder (takeSchedAdd ag o r s).state.sched) ∧
      sameSelection s (takeSchedAdd ag o r s).state ∧ (RoomKept s → RoomKept (takeSchedAdd ag o r s).state) := by
  unfold takeSchedAdd
  have q := served_quiet ag s
  have hs := served_inOrder ag s
  generalize served ag s = t at q hs
  have stay : (ScheduleInOrder s.sched → ScheduleInOrder t.sched) ∧ sameSelection s t ∧ (RoomKept s → RoomKept t) :=
    ⟨hs, q.1, q.2⟩
  unfold addEntry
  extract_lets c
  split
  · exact stay
  · split
    · exact stay
    · split
      · exact stay
      · rename_i x hx
        split
        · exact stay
        · split
          · exact stay
          · rename_i hu
            split
            · exact stay
            · split
              · exact stay
              · rename_i i hi
                have k := acceptEntry_quiet ag o (newEntry ag r x i t.sched.renumbered) t
                refine ⟨fun h => ?_, q.1.trans k.1, fun rm => k.2 (q.2 rm)⟩
                have hf := freeIndex_facts hi
                refine acceptEntry_facts ag o _ t (hs h) hf.2 hf.1 (resolveAdd_train hx) ?_
                show t.sched.use ag < t.sched.quotas.get ag
                omega

theorem takeSchedCancel_facts (ag : Agent) (h : Handle) (s : State) :
    (ScheduleInOrder s.sched → ScheduleInOrder (takeSchedCancel ag h s).state.sched) ∧
      sameSelection s (takeSchedCancel ag h s).state ∧ (RoomKept s → RoomKept (takeSchedCancel ag h s).state) := by
  unfold takeSchedCancel
  extract_lets s1
  have q := served_quiet ag s
  split
  · exact ⟨served_inOrder ag s, q.1, q.2⟩
  · exact ⟨fun k => (served_inOrder ag s k).leave _, ⟨rfl, rfl⟩,
      fun r => (q.2 r).of_le (fun _ => le_rfl) rfl fun _ => ⟨rfl, rfl⟩⟩

theorem takeSchedRead_facts (ag : Agent) (h : Option Handle) (s : State) :
    (ScheduleInOrder s.sched → ScheduleInOrder (takeSchedRead ag h s).state.sched) ∧
      sameSelection s (takeSchedRead ag h s).state ∧ (RoomKept s → RoomKept (takeSchedRead ag h s).state) := by
  have e : (takeSchedRead ag h s).state = served ag s := by
    unfold takeSchedRead
    extract_lets s1
    split
    · rfl
    · split <;> rfl
  rw [e]
  exact ⟨served_inOrder ag s, (served_quiet ag s).1, (served_quiet ag s).2⟩

theorem takeQuotaSet_facts (ag : Agent) (a b c : Nat) (s : State) :
    (ScheduleInOrder s.sched → ScheduleInOrder (takeQuotaSet ag a b c s).state.sched) ∧
      sameSelection s (takeQuotaSet ag a b c s).state ∧ (RoomKept s → RoomKept (takeQuotaSet ag a b c s).state) := by
  unfold takeQuotaSet
  extract_lets s1 d d1
  have q := served_quiet ag s
  split
  · exact ⟨served_inOrder ag s, q.1, q.2⟩
  · rename_i hc
    refine ⟨fun k => ?_, ⟨rfl, rfl⟩, fun r => (q.2 r).of_le (fun _ => le_rfl) rfl fun _ => ⟨rfl, rfl⟩⟩
    have k1 := served_inOrder ag s k
    simp only [not_or, not_lt] at hc
    exact
      { timescale := k1.timescale
        elapsed := k1.elapsed
        timescaleDomain := k1.timescaleDomain
        elapsedDomain := k1.elapsedDomain
        indices := k1.indices
        range := k1.range
        periods := k1.periods
        use := fun x => by
          cases x
          · exact hc.2.1
          · exact hc.2.2.1
          · exact hc.2.2.2
        quotas := hc.1 }

theorem schedAgentReset_facts (ag : Agent) (s : State) :
    (ScheduleInOrder s.sched → ScheduleInOrder (schedAgentReset ag s).sched) ∧ sameSelection s (schedAgentReset ag s) ∧
      (RoomKept s → RoomKept (schedAgentReset ag s)) := by
  unfold schedAgentReset
  split
  · exact ⟨fun h => h.keep _, ⟨rfl, rfl⟩, fun r => r.of_le (fun _ => le_rfl) rfl fun _ => ⟨rfl, rfl⟩⟩
  · exact ⟨id, .refl s, id⟩

/-! ## The keys reached before a step (R131) -/

/-- `lastUtAt` is the inverse of R3 that the counts need: the dues whose keys lie at or before `k` (R132). -/
theorem toDt_le_iff (off : Int) (l : Leap) (k u : Int) : (toDt off l u).1 ≤ k ↔ u ≤ lastUtAt off l k := by
  have ht : ((ticksPerSec : Nat) : Int) = 65536000000000 := rfl
  unfold toDt lastUtAt secTicks
  rw [ht]
  cases l with
  | none => dsimp only; omega
  | insert m =>
    dsimp only
    split <;> split <;> try split
    all_goals dsimp only at *; omega
  | delete m =>
    dsimp only
    split <;> split <;> try split
    all_goals dsimp only at *; omega

/-- The later occurrence at or before `d` that a train goes on to is one of those counted before its firing. -/
theorem occurrences_after {off : Int} {l : Leap} {b d : Ticks} {e e1 : Entry} {t t1 : Train} (h : e.after off l b = some e1)
    (ht : e.train = some t) (ht1 : e1.train = some t1) (hp : 0 < t.period) (hd : e.domain ≠ .el) (hk : e1.key ≤ d) :
    occurrences off l d t1.period e1 < occurrences off l d t.period e := by
  unfold Entry.after at h
  rw [ht] at h
  dsimp only at h
  split at h
  · cases h
  · split at h
    · cases h
    · rename_i k hkey
      cases h
      cases ht1
      have hn : 1 ≤ occurrences off l b t.period e := le_max_left _ _
      generalize occurrences off l b t.period e = n at *
      have hlast : ((e.due + n * t.period : Nat) : Int) ≤ (if e.domain = .ut then lastUtAt off l d else (d : Int)) := by
        unfold keyOf at hkey
        cases hdom : e.domain with
        | el => exact absurd hdom hd
        | dt =>
          rw [hdom] at hkey
          dsimp only at hkey
          split at hkey
          · cases hkey; simpa using (Int.ofNat_le.2 hk)
          · cases hkey
        | ut =>
          rw [hdom] at hkey
          dsimp only at hkey
          split at hkey
          · rename_i hr
            cases hkey
            rw [if_pos rfl, ← toDt_le_iff]
            change (toDt off l ((e.due + n * t.period : Nat) : Int)).1.toNat ≤ d at hk
            simp only [Ticks] at *
            omega
          · cases hkey
      unfold occurrences
      dsimp only at *
      generalize (if e.domain = .ut then lastUtAt off l d else (d : Int)) = last at *
      have hp' : (t.period : Int) ≠ 0 := by simp only [Ticks] at *; omega
      have hdiv : (last - ((e.due + n * t.period : Nat) : Int)) / (t.period : Int) = (last - (e.due : Int)) / (t.period : Int) - n := by
        have : last - ((e.due + n * t.period : Nat) : Int) = (last - (e.due : Int)) - (n : Int) * (t.period : Int) := by push_cast; ring
        rw [this, Int.sub_mul_ediv_right _ _ hp']
      have hnn : 0 ≤ (last - ((e.due + n * t.period : Nat) : Int)) / (t.period : Int) :=
        Int.ediv_nonneg (by simp only [Ticks] at *; omega) (by omega)
      rw [hdiv] at hnn ⊢
      simp only [Ticks] at *
      omega

theorem act_ts (a : Action) (s : State) : (a.act s).ts = s.ts := by
  have hl : ∀ (l : List (Nat × Nat)) (v : Nat) (u : State),
      (l.foldl (fun s x => driveLine (if v.testBit x.2 then .set else .clear) x.1 s) u).ts = u.ts := by
    intro l v
    induction l with
    | nil => intro u; rfl
    | cons x l ih => intro u; exact ih _
  cases a <;> first | rfl | exact hl _ _ _

/-- A firing leaves the reports that wait for the schedule. -/
theorem fire_toSchedule (late applied : Bool) (b : Ticks) (e : Entry) (s : State) :
    (fire late applied b e s).flight.toSchedule = s.flight.toSchedule := by
  have hl : ∀ (l : List (Nat × Nat)) (v : Nat) (u : State),
      (l.foldl (fun s x => driveLine (if v.testBit x.2 then .set else .clear) x.1 s) u).flight = u.flight := by
    intro l v
    induction l with
    | nil => intro u; rfl
    | cons x l ih => intro u; exact ih _
  have h0 : (e.action.act (s.setSched (s.sched.leave e.handle.index))).flight = s.flight := by
    cases e.action <;> first | rfl | exact hl _ _ _
  have h1 : (performAction e.owner e.action (s.setSched (s.sched.leave e.handle.index))).1.flight = s.flight := by
    unfold performAction
    split
    · exact h0
    · rfl
  have h2 : ∀ x u, (raiseAction e x u).flight.toSchedule = u.flight.toSchedule := fun x u => by
    unfold raiseAction; split <;> rfl
  have h3 : ∀ x u, (raiseNotify e x u).flight.toSchedule = u.flight.toSchedule := fun x u => by
    unfold raiseNotify; split <;> rfl
  unfold fire
  extract_lets done x s1
  have h4 : s1.flight.toSchedule = s.flight.toSchedule := (h2 _ _).trans (congrArg InFlight.toSchedule h1)
  split
  · exact h4
  · exact (h3 _ _).trans h4

/-- A firing leaves the timescale record. -/
theorem fire_ts (late applied : Bool) (b : Ticks) (e : Entry) (s : State) : (fire late applied b e s).ts = s.ts := by
  have h1 : (performAction e.owner e.action (s.setSched (s.sched.leave e.handle.index))).1.ts = s.ts := by
    unfold performAction
    split
    · exact act_ts _ _
    · rfl
  have h2 : ∀ x u, (raiseAction e x u).ts = u.ts := fun x u => by unfold raiseAction; split <;> rfl
  have h3 : ∀ x u, (raiseNotify e x u).ts = u.ts := fun x u => by unfold raiseNotify; split <;> rfl
  unfold fire
  extract_lets done x s1
  have h4 : s1.ts = s.ts := (h2 _ _).trans h1
  split
  · exact h4
  · exact (h3 _ _).trans h4

theorem reachedBy_iff (d : Ticks) (later : List Nat) (e : Entry) :
    e.reachedBy d later = true ↔ e.key ≤ d ∧ e.handle.index ∉ later := by
  simp [Entry.reachedBy]

/-- The firings of the entries of a list up to `d`, the share of `reachedFirings` (R131). -/
def firingsUpTo (off : Int) (l : Leap) (d : Ticks) (later : List Nat) (e : Entry) : Nat :=
  if e.reachedBy d later then
    match e.train with
    | none => 1
    | some t => occurrences off l d t.period e
  else 0

theorem firingsUpTo_pos {off : Int} {l : Leap} {d : Ticks} {later : List Nat} {e : Entry} (h : e.reachedBy d later = true) :
    0 < firingsUpTo off l d later e := by
  unfold firingsUpTo
  rw [if_pos h]
  split
  · decide
  · exact Nat.lt_of_lt_of_le Nat.one_pos (le_max_left _ _)

theorem reachedFirings_eq (d : Ticks) (later : List Nat) (s : State) :
    reachedFirings d later s = (s.sched.timescale.map (firingsUpTo s.ts.utc s.ts.leap d later)).sum := rfl

/-- A firing of a reached entry leaves fewer firings. -/
theorem reachedFirings_fire {d : Ticks} {later : List Nat} {s : State} {e : Entry} (h : ScheduleInOrder s.sched)
    (he : e ∈ s.sched.timescale) (hk : e.reachedBy d later = true) :
    reachedFirings d later (fire false false e.key e s) < reachedFirings d later s := by
  rw [reachedFirings_eq, reachedFirings_eq, fire_ts]
  obtain ⟨p, r, hl⟩ := List.append_of_mem he
  have hpos := firingsUpTo_pos (off := s.ts.utc) (l := s.ts.leap) hk
  have hleave : ((s.sched.leave e.handle.index).timescale.map (firingsUpTo s.ts.utc s.ts.leap d later)).sum +
      firingsUpTo s.ts.utc s.ts.leap d later e ≤ (s.sched.timescale.map (firingsUpTo s.ts.utc s.ts.leap d later)).sum := by
    show ((s.sched.timescale.filter _).map _).sum + _ ≤ _
    rw [hl, List.filter_append, List.filter_cons_of_neg (by simp), List.map_append, List.map_append, List.map_cons,
      List.sum_append, List.sum_append, List.sum_cons]
    have hle : ∀ (q : List Entry) (f : Entry → Bool),
        ((q.filter f).map (firingsUpTo s.ts.utc s.ts.leap d later)).sum ≤ (q.map (firingsUpTo s.ts.utc s.ts.leap d later)).sum :=
      fun q f => (List.filter_sublist.map _).sum_le_sum fun _ _ => Nat.zero_le _
    have h1 := hle p fun x => x.handle.index != e.handle.index
    have h2 := hle r fun x => x.handle.index != e.handle.index
    omega
  rcases fire_sched false false e.key e s with hs | ⟨e1, ha, hs⟩
  · rw [hs]; omega
  · obtain ⟨hh, -, hd, t, t1, ht, ht1, -⟩ := after_facts ha
    have hdom : e1.domain ≠ .el := by
      have : e1.domain = e.domain := hd
      rw [this]; exact h.timescaleDomain e he
    have hidx : e1.handle.index = e.handle.index := congrArg Handle.index (show e1.handle = e.handle from hh)
    rw [hs, join_timescale e1 _ hdom]
    rw [((placeEntry_perm e1 _).map _).sum_eq, List.map_cons, List.sum_cons]
    have hlt : firingsUpTo s.ts.utc s.ts.leap d later e1 < firingsUpTo s.ts.utc s.ts.leap d later e := by
      by_cases hk1 : e1.reachedBy d later = true
      · have ho := occurrences_after (d := d) ha ht ht1 (h.periods e (timescale_subset he) t ht)
          (h.timescaleDomain e he) ((reachedBy_iff d later e1).1 hk1).1
        have ht1' : e1.train = some t1 := ht1
        unfold firingsUpTo
        rw [if_pos hk, if_pos hk1, ht, ht1']
        exact ho
      · have h0 : firingsUpTo s.ts.utc s.ts.leap d later e1 = 0 := by unfold firingsUpTo; rw [if_neg hk1]
        omega
    omega

/-- Enough firings leave no key that DT had reached at `d` (R131). -/
theorem fireReached_done (n : Nat) (d : Ticks) (later : List Nat) (s : State) (h : ScheduleInOrder s.sched)
    (hn : reachedFirings d later s ≤ n) : ∀ e ∈ (fireReached n d later s).sched.timescale, e.reachedBy d later = false := by
  induction n generalizing s with
  | zero =>
    intro e he
    by_contra hk
    have := firingsUpTo_pos (off := s.ts.utc) (l := s.ts.leap) (Bool.not_eq_false _ ▸ hk)
    have hs := List.single_le_sum (fun _ _ => Nat.zero_le _) _
      (List.mem_map_of_mem (f := firingsUpTo s.ts.utc s.ts.leap d later) (show e ∈ s.sched.timescale from he))
    rw [← reachedFirings_eq] at hs
    omega
  | succ n ih =>
    unfold fireReached
    split
    · rename_i hh
      intro e he
      exact Bool.not_eq_true _ ▸ List.find?_eq_none.1 hh e he
    · rename_i e hh
      have hm := List.mem_of_find?_eq_some hh
      refine ih _ (fire_inOrder _ _ _ e s h (h.carries (timescale_subset hm))) ?_
      have := reachedFirings_fire h hm (List.find?_some hh)
      omega

/-- Where no key was reached, nothing fires. -/
theorem fireReached_stay (n : Nat) (d : Ticks) (later : List Nat) (s : State)
    (h : ∀ e ∈ s.sched.timescale, e.reachedBy d later = false) : fireReached n d later s = s := by
  cases n with
  | zero => rfl
  | succ n =>
    unfold fireReached
    rw [List.find?_eq_none.2 fun e he => by simp [h e he]]

/-- Any number of firings that is enough gives the same. -/
theorem fireReached_enough (n m : Nat) (d : Ticks) (later : List Nat) (s : State) (h : ScheduleInOrder s.sched)
    (hn : reachedFirings d later s ≤ n) (hm : reachedFirings d later s ≤ m) :
    fireReached n d later s = fireReached m d later s := by
  induction n generalizing m s with
  | zero => exact (fireReached_stay m d later s (fireReached_done 0 d later s h hn)).symm
  | succ n ih =>
    cases m with
    | zero => exact fireReached_stay (n + 1) d later s (fireReached_done 0 d later s h hm)
    | succ m =>
      unfold fireReached
      split
      · rfl
      · rename_i e hh
        have hmem := List.mem_of_find?_eq_some hh
        have := reachedFirings_fire h hmem (List.find?_some hh)
        exact ih m _ (fire_inOrder _ _ _ e s h (h.carries (timescale_subset hmem))) (by omega) (by omega)

end Sys2Proof.Machine
end

