-- ==== Sys2Proof/Laws/Windows.lean ====
section
/-! SUPPORT. What a select window does (R156 … R158, R168): a window given whole, a stretch of a window, and a stretch of one that
a reset has cut off. -/

namespace Sys2Proof.Machine

theorem windowOut_length (k : WindowKind) (x : LinkState) (n : Nat) : (windowOut k x n).length = n := by
  unfold windowOut
  split
  · simp [idleBytes]
  · simp [idleBytes]; omega
  · simp

/-- What data out has shifted after `n` bytes does not depend on how many follow. -/
theorem windowOut_take (k : WindowKind) (x : LinkState) (n m : Nat) : (windowOut k x (n + m)).take n = windowOut k x n := by
  unfold windowOut
  split
  · simp [idleBytes]
  · simp only [List.take_take, Nat.min_eq_left (Nat.le_add_right n m)]
    rw [show idleBytes (n + m) = idleBytes n ++ idleBytes m from by simp [idleBytes, List.replicate_append_replicate],
      List.cons_append, List.cons_append, ← List.append_assoc, ← List.cons_append, List.take_append_of_le_length]
    simp [idleBytes]; omega
  · simp

/-- Two stretches shift out what one shifts out. -/
theorem windowOut_split (k : WindowKind) (x : LinkState) (n m : Nat) :
    windowOut k x n ++ (windowOut k x (n + m)).drop n = windowOut k x (n + m) := by
  conv_rhs => rw [← List.take_append_drop n (windowOut k x (n + m)), windowOut_take]

/-- A COLLECT shifts out at most the status and the response, then zero bytes (R158). -/
theorem windowOut_ready (r : Response) (n : Nat) :
    windowOut .collect (.ready r) n =
      if n ≤ (responseBytes r).length then (0x02#8 :: responseBytes r).take n
      else 0x02#8 :: responseBytes r ++ List.replicate (n - 1 - (responseBytes r).length) 0x00#8 := by
  simp only [windowOut, idleBytes, statusByte]
  split
  · rw [List.take_append_of_le_length]; simp; omega
  · rw [List.take_append, List.take_of_length_le (by simp; omega)]
    simp
    omega

/-- A window given whole where none is open (R156 … R158): data out shifts it, and unless a reset holds the port, the port takes
it by its kind. -/
theorem selectWindow_whole (ag : Agent) (d : Option Byte) (l : List Byte) (s : State) (h : (s.unit ag).window = none) :
    selectWindow ag d ⟨l, true⟩ s =
      endWindow ag ⟨d, (s.unit ag).link, l, !s.takesWindows ag⟩
        (s.setUnit ag { s.unit ag with
          dataOut := if s.takesWindows ag then windowOut (windowKind d) (s.unit ag).link l.length else idleBytes l.length }) := by
  have hu : ({ s.unit ag with
      dataOut := if s.takesWindows ag then windowOut (windowKind d) (s.unit ag).link l.length else idleBytes l.length
      window := none } : AgentUnit) =
      { s.unit ag with
        dataOut := if s.takesWindows ag then windowOut (windowKind d) (s.unit ag).link l.length else idleBytes l.length } := by
    conv_lhs => rw [← h]
  rw [← hu]
  cases hc : s.takesWindows ag <;> simp [selectWindow, State.windowFor, State.newWindow, OpenWindow.extend, OpenWindow.out, h, hc]

/-- Two stretches of a window come to the same as one. -/
theorem selectWindow_twice (ag : Agent) (d : Byte) (e : Option Byte) (l m : List Byte) (released : Bool) (s : State)
    (h : (s.unit ag).window = none) :
    selectWindow ag e ⟨m, released⟩ (selectWindow ag (some d) ⟨l, false⟩ s) = selectWindow ag (some d) ⟨l ++ m, released⟩ s := by
  rw [selectWindow, selectWindow]
  cases hc : s.takesWindows ag
  · cases released <;>
      simp [State.windowFor, h, State.newWindow, OpenWindow.extend, OpenWindow.out, selectWindow, hc, idleBytes,
        List.replicate_append_replicate, endWindow]
  · cases released <;>
      simp [State.windowFor, h, State.newWindow, OpenWindow.extend, OpenWindow.out, selectWindow, hc, windowOut_split]

/-- A stretch of a window that a reset has cut off takes nothing and shifts out IDLE (R168). -/
theorem selectWindow_cut (ag : Agent) (d : Option Byte) (x : Stretch) (w : OpenWindow) (s : State)
    (h : (s.unit ag).window = some w) (hc : w.cut = true) :
    selectWindow ag d x s =
      s.setUnit ag { s.unit ag with
        window := if x.released then none else some (w.extend x.bytes)
        dataOut := (s.unit ag).dataOut ++ List.replicate x.bytes.length 0x00#8 } := by
  simp [selectWindow, State.windowFor, h, hc, OpenWindow.out, endWindow, OpenWindow.extend, idleBytes, statusByte]

end Sys2Proof.Machine
end

