-- ==== Sys2Proof/WellFormed.lean ====
section
/-! DEFINITION. Which commands a wire, a pin or a block could carry: every field fits the size the wire formats give
it (R4, R179, R181), and every number of a path, slot or line exists. exec has a meaning for the others too. -/

namespace Sys2Proof

def fitsByte (n : Nat) : Bool := decide (n < 256)
def fitsWord (n : Nat) : Bool := decide (n < 65536)
def fitsLong (n : Nat) : Bool := decide (n < 4294967296)
def fits48 (n : Nat) : Bool := decide (n < end48)
def fits64 (n : Nat) : Bool := decide (n < 18446744073709551616)
def fitsSignedByte (d : Int) : Bool := decide (-128 ≤ d ∧ d ≤ 127)
def fitsSignedWord (d : Int) : Bool := decide (-32768 ≤ d ∧ d ≤ 32767)
def fitsSignedLong (d : Int) : Bool := decide (-2147483648 ≤ d ∧ d ≤ 2147483647)

/-- An optional field that is absent, or fits. -/
def optFits {α : Type} (p : α → Bool) : Option α → Bool
  | none => true
  | some x => p x

/-- Fields of a time value (R4). -/
def TimeField.wellFormed : TimeField → Bool
  | .long s n f => fits48 s && decide (n < nsPerSec) && fitsWord f
  | .short s n => fitsWord s && decide (n < nsPerSec)
  | .unset _ => true
  | .saturated _ => true

def IntervalField.wellFormed : IntervalField → Bool
  | .given _ s n f => fits48 s && decide (n < nsPerSec) && fitsWord f
  | .unset => true
  | .saturated => true

def Operand.wellFormed : Operand → Bool
  | .cursor => true
  | .given v => v.wellFormed

def Leap.wellFormed : Leap → Bool
  | .none => true
  | .insert m => fits48 m
  | .delete m => fits48 m

def PartSettings.wellFormed (c : PartSettings) : Bool :=
  optFits fitsLong c.stepThreshold && optFits fitsLong c.lockWindow && optFits fitsWord c.maxSlew &&
  optFits fits64 c.holdLimit && optFits fits64 c.holdStep && optFits fits64 c.echoInterval &&
  optFits fitsLong c.replyWait && optFits fitsLong c.outlierLimit && optFits fitsByte c.refClass &&
  optFits fitsLong c.refAccuracy && optFits fits64 c.lease && optFits fits48 c.partIdentity &&
  optFits fits48 c.stationA && optFits fits48 c.stationB

def SnapshotRecord.wellFormed (r : SnapshotRecord) : Bool :=
  fitsByte r.version && fitsSignedLong r.rate && fitsByte r.lockClass && fits48 r.identity && fits48 r.dtAtSave.sec &&
  fitsLong r.dtAtSave.ns && fitsWord r.dtAtSave.frac && fitsLong r.check

def StepOperand.wellFormed : StepOperand → Bool
  | .absolute t _ => t.wellFormed
  | .interval i => i.wellFormed

def DueSpec.wellFormed : DueSpec → Bool
  | .absolute t => t.wellFormed
  | .cursorPlus i => i.wellFormed
  | .nowPlus i => i.wellFormed

def ActionSpec.wellFormed : ActionSpec → Bool
  | .pulse d => fitsSignedByte d
  | .set d => fitsSignedByte d
  | .clear d => fitsSignedByte d
  | .load d c v => fitsSignedByte d && fitsByte c && fitsWord v
  | .alert l t => fitsByte l && fitsWord t

def AddRequest.wellFormed (r : AddRequest) : Bool :=
  r.due.wellFormed && r.action.wellFormed && optFits IntervalField.wellFormed r.period && optFits fitsWord r.repeatCount &&
  optFits fitsByte r.notify

/-- An index byte of 255 stands for ALL (R181), so no handle carries it. -/
def Handle.wellFormed (h : Handle) : Bool := fitsByte h.index && fitsByte h.generation

/-- An entry or slot byte that is not ALL (R181). -/
def notAll (n : Nat) : Bool := decide (n < 255)

def LineSettings.wellFormed (c : LineSettings) : Bool :=
  optFits fitsLong c.width && optFits fitsByte c.level && optFits fitsLong c.holdOff

def ContextSettings.wellFormed (c : ContextSettings) : Bool :=
  optFits fitsLong c.base && optFits TimeField.wellFormed c.cursor && optFits fitsByte c.lineBase &&
  optFits fitsByte c.threshold && optFits fitsByte c.mask

/-- Every field of the command fits. -/
def Instr.wellFormed : Instr → Bool
  | .timeRead _ _ _ => true
  | .timeConvert _ _ _ _ _ x => x.wellFormed
  | .timeDiff _ _ a b => a.wellFormed && b.wellFormed
  | .timeOffset _ _ t i => t.wellFormed && i.wellFormed
  | .flagsRead _ _ => true
  | .flagsClear _ _ _ => true
  | .partConfig _ _ c => c.wellFormed
  | .servoRead _ _ => true
  | .snapshotRead _ _ => true
  | .servoRestart _ _ => true
  | .snapshotRestore _ _ r => r.wellFormed
  | .steerStep _ _ x => x.wellFormed
  | .steerSlew _ _ i r => i.wellFormed && optFits fitsWord r
  | .steerRate _ _ r => fitsSignedLong r
  | .steerLeap _ _ l off => l.wellFormed && optFits fitsSignedWord off
  | .portEnable _ _ _ => true
  | .portDisable _ _ _ => true
  | .portRead _ _ _ => true
  | .sourceBar _ _ e r => fitsByte e && fitsByte r
  | .sourceUnbar _ _ e => fitsByte e
  | .sourceRead _ _ e => optFits notAll e
  | .refLabel _ _ label off l => fits48 label && optFits fitsSignedWord off && optFits Leap.wellFormed l
  | .clientAdd _ _ i => fits48 i
  | .clientRemove _ _ n => fitsByte n
  | .clientRead _ _ n => optFits notAll n
  | .epochConfig _ _ k => fitsByte k
  | .epochRead _ _ => true
  | .quotaSet _ _ q0 q1 q2 => fitsByte q0 && fitsByte q1 && fitsByte q2
  | .schedAdd _ _ r => r.wellFormed
  | .schedCancel _ _ h => h.wellFormed
  | .schedRead _ _ h => optFits (fun h => h.wellFormed && notAll h.index) h
  | .lineSet _ _ d => fitsSignedByte d
  | .lineClear _ _ d => fitsSignedByte d
  | .lineLoad _ _ d c v => fitsSignedByte d && fitsByte c && fitsWord v
  | .lineTest _ _ d => fitsSignedByte d
  | .lineStore _ _ d c => fitsSignedByte d && fitsByte c
  | .lineOwn _ _ d _ => fitsSignedByte d
  | .lineConfig _ _ d c => fitsSignedByte d && c.wellFormed
  | .captureRead _ _ => true
  | .captureRelease _ _ n => fitsByte n
  | .contextSet _ _ c => c.wellFormed
  | .contextRead _ _ => true
  | .grantClaim _ _ => true
  | .grantRenew _ _ => true
  | .grantRelease _ _ => true
  | .agentReset _ _ => true
  | .partReset _ _ => true
  | .alertRead _ _ => true
  | .alertReturn _ _ n => fitsByte n
  | .alertMask _ _ m => fitsByte m
  | .submitWindow _ _ => true
  | .collectWindow _ _ => true
  | .otherWindow _ d x => windowKind d == .other && (d.isSome || x.bytes.isEmpty)
  | .agentResetInput _ => true
  | .resetInput => true
  | .powerOn => true
  | .schedAgentReset _ => true
  | .lineAgentReset _ => true
  | .grantAgentReset _ => true
  | .slewNotifyReset _ => true
  | .linkUp _ => true
  | .linkDown _ => true
  | .frameArrival _ f => fits48 f.dest && fitsWord f.etherType
  | .transmitEnd _ => true
  | .frameDeparts _ => true
  | .echoSlot _ => true
  | .replyWaitExpiry _ q => fitsWord q
  | .originTaken => true
  | .sourceSample => true
  | .sourceMiss => true
  | .staleDeadline e => decide (e < 8)
  | .refDeadline => true
  | .staleRemoval e => decide (e < 8)
  | .refEdge => true
  | .measurement => true
  | .utcPairAdopt => true
  | .slewComplete => true
  | .leapApply => true
  | .holdoverGrade => true
  | .holdoverExpiry => true
  | .snapshotSave => true
  | .registerTaken => true
  | .clientSample => true
  | .clientMiss => true
  | .lapseTimer n => decide (n < 48)
  | .epochInstant => true
  | .epochStepReport => true
  | .stepReport => true
  | .rekey => true
  | .keyReached _ => true
  | .pulseEnd n => decide (n < 24)
  | .inputEdge k _ => decide (k < 16)
  | .grantExpiry => true
  | .renewalReport => true
  | .alertRaise _ _ => true
  | .scheduleAlertRaise _ => true
  | .alertDelivery _ => true
  | .resetInputRelease => true
  | .agentResetInputRelease _ => true

end Sys2Proof
end

