-- ==== Sys2Proof/Tests/Slice0.lean ====
section
/-! SUPPORT. The model's own tests: one ill-formed command for each check of WellFormed, worked values of the spec, and for
every statement of the certificates that has hypotheses a state and operands that meet them, clause by clause. -/

namespace Sys2Proof.Tests
open Sys2Proof Sys2Proof.Machine

/-- No option. -/
def pl : Options := Options.plain
/-- The part after power-on. -/
def s0 : State := State.reset
/-- The state that a command leads to. -/
def nextOf (x : Host.Outcome State Fault Refusal) : Option State :=
  match x with
  | .next t => some t
  | _ => none
def withTs (f : Timescale → Timescale) : State := { s0 with ts := f s0.ts }
/-- The servo in a state, the time set. -/
def servoIn (x : ServoState) : State := withTs fun t => { t with servo := x, timeSet := true }
def withUnit (ag : Agent) (f : AgentUnit → AgentUnit) (s : State) : State := s.setUnit ag (f (s.unit ag))
def withPort (n : Net) (f : NetPort → NetPort) (s : State) : State := s.setPort n (f (s.port n))
def flying (f : InFlight → InFlight) (s : State) : State := { s with flight := f s.flight }
/-- Agent 0 holds the grant for one second. -/
def granted (s : State) : State := { s with arbiter := ⟨.held .agent0 1000000000, 10000000000⟩ }
def midnight : Nat := 86400

/-! ## Well-formedness: an ill-formed term for each check -/

theorem test_wellFormed_times :
    (TimeField.long end48 0 0).wellFormed = false ∧ (TimeField.long 0 1000000000 0).wellFormed = false ∧
    (TimeField.long 0 0 65536).wellFormed = false ∧ (TimeField.short 65536 0).wellFormed = false ∧
    (TimeField.short 0 1000000000).wellFormed = false ∧ (IntervalField.given true end48 0 0).wellFormed = false ∧
    (IntervalField.given true 0 1000000000 0).wellFormed = false ∧ (IntervalField.given true 0 0 65536).wellFormed = false ∧
    (TimeField.long (end48 - 1) 999999999 65535).wellFormed = true := by decide

theorem test_wellFormed_requests :
    (Instr.timeConvert .agent0 pl .dt .ut .long (.given (.long end48 0 0))).wellFormed = false ∧
    (Instr.timeDiff .agent0 pl (.given (.long end48 0 0)) .cursor).wellFormed = false ∧
    (Instr.timeDiff .agent0 pl .cursor (.given (.long end48 0 0))).wellFormed = false ∧
    (Instr.timeOffset .agent0 pl (.given (.short 65536 0)) .unset).wellFormed = false ∧
    (Instr.timeOffset .agent0 pl .cursor (.given true end48 0 0)).wellFormed = false ∧
    (Instr.steerStep .agent0 pl (.absolute (.short 65536 0) .dt)).wellFormed = false ∧
    (Instr.steerStep .agent0 pl (.interval (.given true end48 0 0))).wellFormed = false ∧
    (Instr.steerSlew .agent0 pl (.given true end48 0 0) none).wellFormed = false ∧
    (Instr.steerSlew .agent0 pl .unset (some 65536)).wellFormed = false ∧
    (Instr.steerRate .agent0 pl 2147483648).wellFormed = false ∧
    (Instr.steerLeap .agent0 pl (.insert end48) none).wellFormed = false ∧
    (Instr.steerLeap .agent0 pl (.delete end48) none).wellFormed = false ∧
    (Instr.steerLeap .agent0 pl .none (some 32768)).wellFormed = false ∧
    (Instr.sourceBar .agent0 pl 256 0).wellFormed = false ∧ (Instr.sourceBar .agent0 pl 0 256).wellFormed = false ∧
    (Instr.sourceUnbar .agent0 pl 256).wellFormed = false ∧ (Instr.sourceRead .agent0 pl (some 255)).wellFormed = false ∧
    (Instr.refLabel .agent0 pl end48 none none).wellFormed = false ∧
    (Instr.refLabel .agent0 pl 0 (some 32768) none).wellFormed = false ∧
    (Instr.refLabel .agent0 pl 0 none (some (.insert end48))).wellFormed = false ∧
    (Instr.clientAdd .agent0 pl end48).wellFormed = false ∧ (Instr.clientRemove .agent0 pl 256).wellFormed = false ∧
    (Instr.clientRead .agent0 pl (some 255)).wellFormed = false ∧ (Instr.epochConfig .agent0 pl 256).wellFormed = false := by
  decide

theorem test_wellFormed_more_requests :
    (Instr.quotaSet .agent0 pl 256 0 0).wellFormed = false ∧ (Instr.quotaSet .agent0 pl 0 256 0).wellFormed = false ∧
    (Instr.quotaSet .agent0 pl 0 0 256).wellFormed = false ∧ (Instr.schedCancel .agent0 pl ⟨256, 0⟩).wellFormed = false ∧
    (Instr.schedCancel .agent0 pl ⟨0, 256⟩).wellFormed = false ∧
    (Instr.schedRead .agent0 pl (some ⟨255, 0⟩)).wellFormed = false ∧ (Instr.lineSet .agent0 pl 128).wellFormed = false ∧
    (Instr.lineClear .agent0 pl (-129)).wellFormed = false ∧ (Instr.lineLoad .agent0 pl 128 0 0).wellFormed = false ∧
    (Instr.lineLoad .agent0 pl 0 256 0).wellFormed = false ∧ (Instr.lineLoad .agent0 pl 0 0 65536).wellFormed = false ∧
    (Instr.lineTest .agent0 pl 128).wellFormed = false ∧ (Instr.lineStore .agent0 pl 128 0).wellFormed = false ∧
    (Instr.lineStore .agent0 pl 0 256).wellFormed = false ∧ (Instr.lineOwn .agent0 pl 128 none).wellFormed = false ∧
    (Instr.lineConfig .agent0 pl 128 ⟨none, none, none, none, none⟩).wellFormed = false ∧
    (Instr.lineConfig .agent0 pl 0 ⟨some 4294967296, none, none, none, none⟩).wellFormed = false ∧
    (Instr.lineConfig .agent0 pl 0 ⟨none, none, none, some 256, none⟩).wellFormed = false ∧
    (Instr.lineConfig .agent0 pl 0 ⟨none, none, none, none, some 4294967296⟩).wellFormed = false ∧
    (Instr.captureRelease .agent0 pl 256).wellFormed = false ∧ (Instr.alertReturn .agent0 pl 256).wellFormed = false ∧
    (Instr.alertMask .agent0 pl 256).wellFormed = false ∧
    (Instr.otherWindow .agent0 (some 0x5A#8) ⟨[], true⟩).wellFormed = false ∧
    (Instr.otherWindow .agent0 (some 0xA5#8) ⟨[], true⟩).wellFormed = false ∧
    (Instr.otherWindow .agent0 none ⟨[0#8], true⟩).wellFormed = false ∧ (Instr.staleDeadline 8).wellFormed = false ∧
    (Instr.staleRemoval 8).wellFormed = false ∧ (Instr.lapseTimer 48).wellFormed = false ∧
    (Instr.pulseEnd 24).wellFormed = false ∧ (Instr.inputEdge 16 .rise).wellFormed = false ∧
    (Instr.replyWaitExpiry .netA 65536).wellFormed = false ∧
    (Instr.frameArrival .netA ⟨true, end48, 0, []⟩).wellFormed = false ∧
    (Instr.frameArrival .netA ⟨true, 0, 65536, []⟩).wellFormed = false := by decide

theorem test_wellFormed_settings :
    let p := PartSettings.nothing
    let c := ContextSettings.nothing
    let r : SnapshotRecord := ⟨1, 0, 6, 0, ⟨0, 0, 0⟩, 0⟩
    let a : AddRequest := ⟨.dt, .nowPlus .unset, .set 0, none, none, none⟩
    (∀ x ∈ [{ p with stepThreshold := some 4294967296 }, { p with lockWindow := some 4294967296 },
      { p with maxSlew := some 65536 }, { p with holdLimit := some 18446744073709551616 },
      { p with holdStep := some 18446744073709551616 }, { p with echoInterval := some 18446744073709551616 },
      { p with replyWait := some 4294967296 }, { p with outlierLimit := some 4294967296 }, { p with refClass := some 256 },
      { p with refAccuracy := some 4294967296 }, { p with lease := some 18446744073709551616 },
      { p with partIdentity := some end48 }, { p with stationA := some end48 }, { p with stationB := some end48 }],
      x.wellFormed = false) ∧
    (∀ x ∈ [{ c with base := some 4294967296 }, { c with cursor := some (.short 65536 0) }, { c with lineBase := some 256 },
      { c with threshold := some 256 }, { c with mask := some 256 }], x.wellFormed = false) ∧
    (∀ x ∈ [{ r with version := 256 }, { r with rate := 2147483648 }, { r with lockClass := 256 }, { r with identity := end48 },
      { r with dtAtSave := ⟨end48, 0, 0⟩ }, { r with dtAtSave := ⟨0, 4294967296, 0⟩ }, { r with dtAtSave := ⟨0, 0, 65536⟩ },
      { r with check := 4294967296 }], x.wellFormed = false) ∧
    (∀ x ∈ [{ a with due := .absolute (.long end48 0 0) }, { a with due := .cursorPlus (.given true end48 0 0) },
      { a with due := .nowPlus (.given true end48 0 0) }, { a with action := .pulse 128 }, { a with action := .set 128 },
      { a with action := .clear 128 }, { a with action := .load 128 0 0 }, { a with action := .load 0 256 0 },
      { a with action := .load 0 0 65536 }, { a with action := .alert 256 0 }, { a with action := .alert 0 65536 },
      { a with period := some (.given true end48 0 0) }, { a with repeatCount := some 65536 }, { a with notify := some 256 }],
      x.wellFormed = false) ∧ p.wellFormed = true ∧ c.wellFormed = true ∧ r.wellFormed = true ∧ a.wellFormed = true := by
  decide

/-! ## Values the spec works out -/

set_option maxRecDepth 8000 in
/-- The digits "123456789" (R183): 0x29B1 and 0xFC891918. -/
theorem test_check_words :
    let l : List Byte := [0x31#8, 0x32#8, 0x33#8, 0x34#8, 0x35#8, 0x36#8, 0x37#8, 0x38#8, 0x39#8]
    crc16 l = 0x29B1 ∧ crc32 l = 0xFC891918 := by decide

/-- No word spells a command (log entry 33). -/
theorem test_no_word_spells_a_command (n w : Nat) : decodeTableWord n w = none ∧ s0.withFetchWord n w = s0 := ⟨rfl, rfl⟩
/-! ## Witnesses: states and operands that meet the hypotheses of the statements, a line for each clause -/

/-- The request is taken now. -/
def takes (ag : Agent) (r : Request) (s : State) : Bool := s.takesNow ag ⟨pl, r⟩

theorem test_witness_IdleStepTakesADueEventOrTime :
    s0.pending = [] ∧ dueEvents s0 = [] ∧
    dueEvents (flying (fun f => { f with schedResets := [.agent0] }) s0) = .schedAgentReset .agent0 :: [] := by decide

theorem test_witness_TimeAdvancesAtTheCorrectedRate :
    (∀ r ∈ [(-Config.rateLimit), 0, Config.rateLimit], -Config.rateLimit ≤ r ∧ r ≤ Config.rateLimit) ∧
    s0.ts.dtSub < Config.subPerTick ∧ s0.ts.elSub < Config.subPerNs ∧ s0.ts.slew = none ∧
    (∀ p ∈ [0, 500], (withTs fun t => { t with slew := some ⟨true, 1, 0, p, none⟩ }).ts.slew = some ⟨true, 1, 0, p, none⟩ ∧
      p ≤ 500) ∧
    (1 * Config.subPerTick - 1 + 0 < timeEnd * Config.subPerTick ∧
      timeEnd * Config.subPerTick ≤ (timeEnd - 1) * Config.subPerTick + (Config.subPerTick - 1) + 1 * 256000000000 * 1000000) ∧
    Config.subPerTick - 1 < Config.subPerTick ∧ Config.subPerNs - 1 < Config.subPerNs ∧
    (Config.elMax + 1) * Config.subPerNs ≤ Config.elMax * Config.subPerNs + 1 * 256000000000 * 1000000 := by decide

theorem test_witness_RequestChecksRefuse :
    let busy := withUnit .agent1 (fun u => { u with link := .busy ⟨pl, .flagsRead⟩ }) s0
    let bad : Submitted := ⟨pl, .timeDiff (.given (.short 0 0)) .cursor⟩
    let held := granted (servoIn .locked)
    (({ s0 with resetIn := true } : State).takesFrames .agent1 = false ∧ s0.holdsRequest .agent1 ⟨pl, .flagsRead⟩ = false) ∧
    (busy.takesFrames .agent1 = true ∧ (busy.unit .agent1).link = .busy ⟨pl, .flagsRead⟩) ∧
    (s0.takesFrames .agent0 = true ∧ s0.portFree .agent0 = true ∧ bad.encodingOk (s0.ctx .agent0) = false) ∧
    (s0.takesFrames .agent2 = true ∧ s0.portFree .agent2 = true ∧
      Submitted.encodingOk (s0.ctx .agent2) ⟨pl, .partReset⟩ = true ∧ Request.partReset.rankZero = true) ∧
    (s0.portFree .agent0 = true ∧ Submitted.encodingOk (s0.ctx .agent0) ⟨pl, .steerRate 0⟩ = true ∧
      (Request.steerRate 0).needsGrant = true ∧ s0.holdsGrant .agent0 = false) ∧
    (takes .agent0 (.steerRate 0) held = true ∧ held.ts.servo = .locked) ∧
    takes .agent0 (.steerRate 0) (granted (servoIn .acquire)) = true ∧
    takes .agent0 (.steerRate 0) (granted (servoIn .fault)) = true := by decide

theorem test_witness_TimeRequestsAnswer :
    let set := servoIn .locked
    let beyond := withTs fun t => { t with timeSet := true, utc := 32767 }
    (∀ x ∈ [Scale.dt, Scale.ut, Scale.el], takes .agent2 (.timeRead x) s0 = true ∧ takes .agent2 (.timeRead x) set = true) ∧
    s0.ts.timeSet = false ∧ set.ts.timeSet = true ∧ inTimeRange (toUt set.ts.utc set.ts.leap set.ts.dt).1 = true ∧
    takes .agent0 (.timeRead .ut) beyond = true ∧ inTimeRange (toUt beyond.ts.utc beyond.ts.leap beyond.ts.dt).1 = false ∧
    takes .agent0 (.timeConvert .el .dt .long .cursor) s0 = true ∧ takes .agent0 (.timeConvert .ut .el .long .cursor) s0 = true ∧
    takes .agent0 (.timeConvert .dt .ut .long .cursor) s0 = true ∧ operandVal (s0.ctx .agent0) .cursor = .unset ∧
    takes .agent0 (.timeConvert .ut .dt .short (.given (.saturated .short))) s0 = true ∧
    operandVal (s0.ctx .agent0) (.given (.saturated .short)) = .saturated ∧
    takes .agent0 (.timeConvert .el .el .long (.given (.long 0 0 0))) s0 = true ∧
    takes .agent0 (.timeConvert .dt .ut .long (.given (.long 0 0 0))) s0 = true ∧
    takes .agent0 (.timeConvert .ut .dt .long (.given (.long (end48 - 1) 999999999 65535))) s0 = true ∧
    operandVal (s0.ctx .agent0) (.given (.long (end48 - 1) 999999999 65535)) = .valid (timeEnd - 1) ∧
    takes .agent0 (.timeOffset (.given (.long 0 0 0)) (.given true 0 0 1)) s0 = true ∧
    operandVal (s0.ctx .agent0) (.given (.long 0 0 0)) = .valid 0 ∧ intervalVal (.given true 0 0 1) = .valid (-1) ∧
    takes .agent0 (.timeDiff (.given (.long 0 0 0)) (.given (.long 1 0 0))) s0 = true ∧
    s0.takesNow .agent0 ⟨{ pl with update := true }, .timeDiff .cursor .cursor⟩ = true ∧
    (∀ x ∈ [Operand.cursor, .given (.unset .long), .given (.saturated .long), .given (.long 0 0 0)],
      (∀ i ∈ [IntervalField.unset, .saturated, .given true 0 0 1], takes .agent0 (.timeOffset x i) s0 = true) ∧
      (∀ y ∈ [Operand.cursor, .given (.saturated .long), .given (.long 0 0 0)], takes .agent0 (.timeDiff x y) s0 = true)) := by
  decide

/-- The boundaries of the rounding modes and of the ranges of time and interval results. -/
theorem test_witness_ResultsAreShaped :
    (∀ f ∈ [0, 32767, 32768, 32769, 65535], f < 65536) ∧ roundNs .nearest false (2 * 65536 + 32768) = 2 ∧
    roundNs .nearest true (3 * 65536 + 32768) = 4 ∧ roundNs .up true 65537 = 1 ∧ roundNs .down true 65537 = 2 ∧
    ((timeEnd - 1 : Nat) : Int) < timeEnd ∧ (0 : Int) ≤ 0 ∧ (-1 : Int) < 0 ∧
    roundNs .up false (timeEnd - 1) = 281474976710656 * 1000000000 ∧
    roundNs .zero false (timeEnd - 1) < 281474976710656 * 1000000000 ∧
    shapeTime .short .zero 1 ⟨.valid 65537, noFlags⟩ = ⟨.short 0 1, .valid 65536, { noFlags with ix := true, wr := true }⟩ ∧
    shapeTime .short .up 0 ⟨.valid (timeEnd - 1), noFlags⟩ = ⟨.saturated .short, .saturated, { noFlags with ov := true }⟩ ∧
    shapeInterval .short .zero (.valid (-1)) noFlags = ⟨.given false 0 0 0, .valid 0, { noFlags with ix := true }⟩ ∧
    shapeInterval .short .down (.valid (-1)) noFlags = ⟨.given true 0 1 0, .valid (-65536), { noFlags with ix := true }⟩ := by
  decide

/-- The first and the last unit of the inserted second, the units beside it, and both sides of a deleted second. -/
theorem test_witness_CivilTimeIsInverted :
    let l : Leap := .insert midnight
    let a := secTicks (86400 + 37)
    let b := secTicks (86400 + 38)
    (toUt 37 l (a - 1)).2 = false ∧ (toUt 37 l a).2 = true ∧ (toUt 37 l (b - 1)).2 = true ∧ (toUt 37 l b).2 = false ∧
    (toDt 37 l (toUt 37 l a).1).1 = a - secTicks 1 ∧ (toUt 37 (.delete midnight) (a - secTicks 1)).2 = false ∧
    (toDt 37 (.delete midnight) (secTicks 86399)).2 = true ∧ (toDt 37 (.delete midnight) (secTicks 86400)).2 = false := by decide

theorem test_witness_FlagsRequestsAnswer :
    takes .agent0 .flagsRead s0 = true ∧ takes .agent1 .flagsRead s0 = true ∧
    takes .agent2 (.flagsClear ⟨true, true, true, true, true, true, true⟩) s0 = true := by decide

theorem test_witness_TimescaleIsRead :
    let stored := withTs fun t => { t with store := some ⟨1, 0, 6, 0, ⟨0, 0, 0⟩, 0⟩ }
    takes .agent1 .servoRead s0 = true ∧ takes .agent1 .snapshotRead s0 = true ∧ s0.ts.store = none ∧
    takes .agent1 .snapshotRead stored = true ∧ stored.ts.store.isSome = true := by decide

/-- A path that stands as a CANDIDATE, or in another state, of a class. -/
def pathIn (x : PathState) (cls : Nat) : SourcePath :=
  ⟨7, some .netA, x, cls, 1000, 0, some 5, none, 2, ⟨some 0, 4, 0, 0⟩, some 0, some 0, 3, none, some 1000, none, none⟩
/-- The state with entry 0 such a path, selected where `sel` says so. -/
def withPath (i : Nat) (p : SourcePath) (sel : Option Nat) (s : State) : State :=
  { s with src := { s.src with entries := s.src.entries.set i (some p), selected := sel } }

set_option maxRecDepth 8000 in
theorem test_witness_FaultIsLeftAndEnteredByRequest :
    let fault := servoIn .fault
    let better := withPath 0 (pathIn .candidate 6) none fault
    let r : SnapshotRecord := ⟨1, 128000000, 6, 0, ⟨0, 0, 0⟩, 0⟩
    let good := { r with check := crc32 (snapshotBody r) }
    let unset := { r with dtAtSave := ⟨7, 4294967295, 9⟩ }
    (crc32 (snapshotBody { unset with check := crc32 (snapshotBody unset) }) = crc32 (snapshotBody unset) ∧
      takes .agent0 (.snapshotRestore { unset with check := crc32 (snapshotBody unset) }) s0 = true ∧
      (snapshotKept unset).dtAtSave = ⟨0, 4294967295, 0⟩ ∧ snapshotKept good = good ∧
      ((snapshotBytes unset).drop 12).take 12 = be 6 0 ++ be 4 4294967295 ++ be 2 0) ∧
    (takes .agent0 .servoRestart s0 = true ∧ s0.ts.servo ≠ .fault) ∧
    (takes .agent0 .servoRestart fault = true ∧ fault.ts.servo = .fault ∧ fault.src.selected = none ∧
      bestCandidate fault.src = none) ∧
    (takes .agent0 .servoRestart better = true ∧ better.ts.servo = .fault ∧ better.src.selected = none ∧
      bestCandidate better.src = some (0, pathIn .candidate 6)) ∧
    (takes .agent0 (.snapshotRestore r) fault = true ∧ fault.ts.servo ≠ .freerun) ∧
    (takes .agent0 (.snapshotRestore good) s0 = true ∧ s0.ts.servo = .freerun ∧ good.version = 1 ∧
      crc32 (snapshotBody good) = good.check ∧ -128000000 ≤ good.rate ∧ good.rate ≤ 128000000) ∧
    (takes .agent0 (.snapshotRestore { good with rate := 128000001 }) s0 = true ∧ s0.src.selected = none) := by decide

theorem test_witness_SteerStepMovesDeviceTime :
    let free := granted (servoIn .freerun)
    let hold := granted (servoIn .holdover)
    let last : TimeField := .long (end48 - 1) 999999999 65535
    (takes .agent0 (.steerStep (.absolute last .dt)) free = true ∧ free.ts.servo = .freerun ∧
      expand (free.ctx .agent0).base last = .valid (timeEnd - 1)) ∧
    (takes .agent0 (.steerStep (.absolute (.long 0 0 0) .ut)) hold = true ∧ hold.ts.servo = .holdover ∧ hold.ts.timeSet = true ∧
      (toDt hold.ts.utc hold.ts.leap (0 : Nat)).1 = 0) ∧
    (takes .agent0 (.steerStep (.interval (.given false 0 0 1))) hold = true ∧
      intervalVal (.given false 0 0 1) = .valid 1) := by decide

theorem test_witness_SteeringSetsSlewRateAndLeap :
    let free := granted (servoIn .freerun)
    let unset := granted s0
    let inside := granted (withTs fun t => { t with timeSet := true, leap := .insert 0 })
    let far := granted (withTs fun t => { t with timeSet := true, dt := 86400 * ticksPerSec })
    (∀ x ∈ [IntervalField.given true 1 0 0, .given false 0 0 0, .given false 0 0 1, .given false 1 0 1, .unset],
      ∀ r ∈ [none, some 0, some 1, some 100, some 101], takes .agent0 (.steerSlew x r) free = true) ∧
    free.ts.settings.maxSlew = 100 ∧ (longTicks 1 0 0 = ticksPerSec ∧ longTicks 1 0 1 = ticksPerSec + 1) ∧
    (∀ r ∈ [none, some 1], takes .agent0 (.steerSlew (.given false 0 0 1) r) unset = true) ∧ unset.ts.timeSet = false ∧
    (∀ r ∈ [(-128000001 : Int), -128000000, 128000000, 128000001], takes .agent0 (.steerRate r) free = true) ∧
    (takes .agent0 (.steerLeap (.insert midnight) (some 32767)) free = true ∧
      insideInserted free.ts.utc free.ts.leap free.ts.dt = false ∧ (Leap.insert midnight).midnightOk = true ∧
      leapInstant 32767 (.insert midnight) = some 119168 ∧ (free.ts.dt : Int) < secTicks 119168) ∧
    (takes .agent0 (.steerLeap .none none) unset = true ∧ leapInstant 0 .none = none) ∧
    (takes .agent0 (.steerStep (.interval .unset)) unset = true ∧ takes .agent0 (.steerStep (.interval .unset)) free = true ∧
      takes .agent0 (.steerStep (.interval (.given true 0 0 1))) free = true ∧
      takes .agent0 (.steerStep (.absolute (.long 0 0 0) .ut)) unset = true ∧
      (∀ x ∈ [SteerScale.dt, .ut], takes .agent0 (.steerStep (.absolute (.unset .long) x)) free = true) ∧
      takes .agent0 (.steerStep (.absolute (.long 0 0 0) .ut))
        (granted (withTs fun t => { t with timeSet := true, utc := -1 })) = true ∧
      (toDt (-1) .none (0 : Nat)).1 < 0) ∧
    (takes .agent0 (.steerLeap .none none) inside = true ∧ insideInserted inside.ts.utc inside.ts.leap inside.ts.dt = true) ∧
    takes .agent0 (.steerLeap (.insert midnight) none) unset = true ∧
    (takes .agent0 (.steerLeap (.insert 1) none) free = true ∧ (Leap.insert 1).midnightOk = false) ∧
    takes .agent0 (.steerLeap .none (some (-32769))) free = true ∧
    (takes .agent0 (.steerLeap (.delete midnight) none) far = true ∧
      leapInstant far.ts.utc (.delete midnight) = some 86399 ∧ secTicks 86399 ≤ (far.ts.dt : Int)) := by decide

theorem test_witness_SelectionIsReexamined :
    let c := withPath 0 (pathIn .candidate 6) none s0
    let own := fun x cls sel => withPath 1 (pathIn x cls) (some 1) sel
    (s0.src.suspended = false ∧ s0.src.selected = none ∧ bestCandidate s0.src = none) ∧
    ({ s0 with src := { s0.src with suspended := true } } : State).src.suspended = true ∧
    (c.src.suspended = false ∧ c.src.selected = none ∧ bestCandidate c.src = some (0, pathIn .candidate 6)) ∧
    ((own .selected 6 c).src.selected = some 1 ∧ (own .selected 6 c).path 1 = some (pathIn .selected 6) ∧
      bestCandidate (own .selected 6 c).src = some (0, pathIn .candidate 6)) ∧
    (bestCandidate (own .selected 7 c).src = some (0, pathIn .candidate 6) ∧ (own .selected 7 c).src.suspended = false) ∧
    (bestCandidate (own .stale 5 c).src = some (0, pathIn .candidate 6) ∧ (own .stale 5 c).path 1 = some (pathIn .stale 5)) ∧
    (bestCandidate (own .barred 5 s0).src = none ∧ (own .barred 5 s0).src.selected = some 1 ∧
      (own .barred 5 s0).path 1 = some (pathIn .barred 5)) ∧
    (∀ s ∈ [s0, c], ({ s with src := { s.src with selected := some 8 } } : State).path 8 = none ∧ s.src.suspended = false) ∧
    (∀ x ∈ [ServoState.freerun, .acquire, .locked, .holdover, .fault], (servoIn x).ts.timeSet = true) ∧
    (s0.src.selected ≠ some 0 ∧ c.path 0 = some (pathIn .candidate 6)) ∧ (own .selected 6 s0).src.selected = some 1 := by decide

theorem test_witness_BestCandidateHasTheLeastKey :
    let t := (withPath 8 (pathIn .candidate 6) none (withPath 0 (pathIn .candidate 6) none s0)).src
    bestCandidate s0.src = none ∧ bestCandidate t = some (0, pathIn .candidate 6) ∧
    t.entries[8]? = some (some (pathIn .candidate 6)) := by decide

theorem test_witness_SelectionReportsMoveTheServo :
    (∀ x ∈ [ServoState.freerun, .holdover, .acquire, .locked], (servoIn x).ts.servo = x) ∧ s0.ts.rateBasis = false ∧
    (65536000 : Int).natAbs ≤ nsTicks s0.ts.settings.lockWindow ∧ ¬(65536001 : Int).natAbs ≤ nsTicks s0.ts.settings.lockWindow ∧
    (∀ x ∈ [ServoState.acquire, .locked],
      (withTs fun t => { t with servo := x, timeSet := true, rateBasis := true }).ts.servo = x) := by decide

set_option maxRecDepth 8000 in
theorem test_witness_SettingsActAtOnce :
    let p := PartSettings.nothing
    let least : PartSettings :=
      ⟨some 10000, some true, some 50, some 1, some 60000000000, some 60000000000, some 250000000, some 1000000, some 100,
        some .none, some false, some 0, some 0, some true, some 1000000000, some 0, some 0, some 0⟩
    let hold := withTs fun t => { t with servo := .holdover, timeSet := true, holdAge := 60 }
    let ref := fun x => withPath 8 { pathIn x 6 with net := none } none
      { s0 with src := { s0.src with settings := { s0.src.settings with refMode := true } } }
    (takes .agent0 (.partConfig { p with maxSlew := some 501 }) s0 = true ∧
      takes .agent0 (.partConfig { p with replyWait := some 10000000, echoInterval := some 639999999 }) s0 = true ∧
      echoFits { p with replyWait := some 10000000, echoInterval := some 639999999 } s0.echo = false) ∧
    (takes .agent0 (.partConfig least) s0 = true ∧ settingsInRange least = true ∧ echoFits least s0.echo = true ∧
      (sourceSettings least s0.src.settings).refMode = false ∧ s0.src.settings.refMode = false) ∧
    (takes .agent0 (.partConfig p) s0 = true ∧ (sourceSettings p s0.src.settings).refClass = s0.src.settings.refClass ∧
      (s0.path 8).isSome = (sourceSettings p s0.src.settings).refMode) ∧
    (takes .agent0 (.partConfig p) hold = true ∧ hold.ts.servo = .holdover ∧
      ¬hold.ts.settings.holdLimit ≤ hold.ts.holdAge * nsPerSec) ∧
    (takes .agent0 (.partConfig { p with holdLimit := some 60000000000 }) hold = true ∧
      60000000000 ≤ hold.ts.holdAge * nsPerSec) ∧
    (takes .agent0 (.partConfig { p with refMode := some true }) s0 = true ∧ s0.path 8 = none ∧ s0.src.entries.length = 9) ∧
    (takes .agent0 (.partConfig { p with refClass := some 14 }) (ref .candidate) = true ∧
      (ref .candidate).path 8 = some { pathIn .candidate 6 with net := none }) ∧
    (∀ x ∈ [PathState.candidate, .selected, .listen, .barred], takes .agent0 (.partConfig { p with refClass := some 13 }) (ref x) = true ∧
      ((ref x).path 8).map (fun q => (q.state, q.listenCount)) = some (x, 2)) ∧
    (sourceSettings { p with refClass := some 13 } (ref .listen).src.settings).refClass ≠ (ref .listen).src.settings.refClass ∧
    takes .agent0 (.partConfig { p with refClass := some 15 }) (ref .stale) = true ∧
    takes .agent0 (.partConfig { p with refMode := some false }) (ref .selected) = true := by decide

theorem test_witness_AcquireTakesAMeasurement :
    let at_ := fun (o : Int) (f : Timescale → Timescale) =>
      flying (fun g => { g with toTimescale := [.offset 0 0 o] })
        (withPath 0 (pathIn .selected 6) (some 0) (withTs fun t => f { t with servo := .acquire }))
    let a := at_ 1 id
    let b := at_ (-1) fun t => { t with timeSet := true, clamp := 3, quality := 10 }
    (a.flight.toTimescale = [.offset 0 0 1] ∧ a.src.selected = some 0 ∧ a.path 0 = some (pathIn .selected 6) ∧
      a.ts.servo = .acquire ∧ a.src.suspended = false ∧ a.ts.timeSet = false ∧ ¬0 ≤ (a.ts.dt : Int) - 1 ∧ a.ts.quality = 15) ∧
    (b.src.selected = some 0 ∧ b.ts.servo = .acquire ∧ b.ts.timeSet = true ∧
      ¬nsTicks b.ts.settings.stepThreshold < (-1 : Int).natAbs) := by decide

theorem test_witness_LockedTakesAMeasurement :
    let f := fun sel => flying (fun g => { g with toTimescale := [.offset 0 0 1] })
      (withPath 0 (pathIn .selected 6) sel (servoIn .locked))
    ((f none).flight.toTimescale = [.offset 0 0 1] ∧ (f none).src.selected ≠ some 0) ∧
    ((f (some 0)).src.selected = some 0 ∧ (f (some 0)).path 0 = some (pathIn .selected 6) ∧ (f (some 0)).ts.servo = .locked ∧
      (f (some 0)).src.suspended = false ∧ (f (some 0)).ts.timeSet = true) := by decide

theorem test_witness_PairsAreAdoptedAndLeapsApplied :
    let f := fun (off : Int) => flying (fun g => { g with toTimescale := [.pair 0 (some off) none 0] })
      (withPath 0 (pathIn .selected 6) (some 0) (servoIn .locked))
    let due := fun (l : Leap) (n : Nat) => withTs fun t => { t with leap := l, dt := n }
    ((f 0).flight.toTimescale = [.pair 0 (some 0) none 0] ∧ (f 0).src.selected = some 0 ∧ (f 0).ts.servo = .locked ∧
      (f 0).ts.utc = 0 ∧ (f 0).ts.leap = .none) ∧
    (f 1).flight.toTimescale = [.pair 0 (some 1) none 0] ∧ s0.ts.leap = .none ∧
    ((due (.insert midnight) (86401 * ticksPerSec - 1)).ts.dt : Int) < secTicks (midnight + 0 + 1) ∧
    secTicks (midnight + 0 + 1) ≤ ((due (.insert midnight) (86401 * ticksPerSec)).ts.dt : Int) ∧
    ((due (.delete midnight) (86399 * ticksPerSec - 1)).ts.dt : Int) < secTicks (midnight - 1 + 0) ∧
    secTicks (midnight - 1 + 0) ≤ ((due (.delete midnight) (86399 * ticksPerSec)).ts.dt : Int) := by decide

/-- Pairs whose instant has come: one of an ill-formed midnight is NONE, one of a midnight is read as applied, and both are
dropped inside an inserted second. -/
theorem test_witness_PairsAreBroughtUpOrDropped :
    let f := fun (l : Leap) (own : Leap) => flying (fun g => { g with toTimescale := [.pair 0 (some 5) (some l) (90000 * ticksPerSec)] })
      (withPath 0 (pathIn .selected 6) (some 0)
        (withTs fun t => { t with servo := .locked, timeSet := true, leap := own, dt := 86400 * ticksPerSec }))
    let pair := fun x => (nextOf (exec .utcPairAdopt x)).map fun t : State => (t.ts.utc, t.ts.leap, t.flight.toSchedule)
    (∀ l ∈ [Leap.insert 86401, .delete 86401], pair (f l .none) = some (5, .none, [.change none])) ∧
    pair (f (.insert 86400) .none) = some (6, .none, [.change none]) ∧
    pair (f (.delete 86400) .none) = some (4, .none, [.change none]) ∧
    insideInserted 0 (.insert 86400) (86400 * ticksPerSec) = true ∧
    pair (f (.delete 86400) (.insert 86400)) = some (0, .insert 86400, []) := by decide

theorem test_witness_TimescaleTimersAct :
    let hold := fun n => withTs fun t => { t with servo := .holdover, timeSet := true, holdAge := n }
    let snap := fun n => withTs fun t => { t with servo := .locked, snapAt := some 60000000000, el := n }
    (withTs fun t => { t with slew := some ⟨false, 0, 0, 1, none⟩ }).ts.slew = some ⟨false, 0, 0, 1, none⟩ ∧
    s0.ts.slew = none ∧ 0 < slewLeft ⟨false, 0, 1, 1, none⟩ ∧ s0.ts.servo ≠ .holdover ∧
    (hold 14399).ts.holdAge * nsPerSec < (hold 14399).ts.settings.holdLimit ∧
    (hold 14400).ts.settings.holdLimit ≤ (hold 14400).ts.holdAge * nsPerSec ∧ (hold 0).ts.servo = .holdover ∧
    (snap 60000000000).ts.snapAt = some 60000000000 ∧ 60000000000 ≤ (snap 60000000000).ts.el ∧
    (snap 59999999999).ts.el < 60000000000 ∧
    .agent2 ∈ (flying (fun f => { f with slewResets := [.agent2] }) s0).flight.slewResets ∧
    .agent2 ∉ s0.flight.slewResets := by decide

/-- Both ports UP. -/
def up : State := { s0 with ports := ⟨{ s0.ports.a with state := .up }, { s0.ports.b with state := .up }⟩ }
/-- A client that is asked on network A. -/
def clientIn (x : ClientState) (w : AdmittedBy) (miss : Nat) : Client :=
  ⟨9, x, w, some 1, ⟨some ⟨⟨some 65536, 4, 0, 0⟩, miss, 0⟩, none⟩, some 0, 1⟩
def withClient (i : Nat) (c : Client) (s : State) : State := s.setClient i (some c)
/-- Network A has the ask `q` of path 0. -/
def asked (x : AskState) (s : State) : State :=
  withPort .netA (fun p => { p with asks := [⟨0, .path 0 7, 0, 4000000, x⟩] }) s

theorem test_witness_PortsEnterAndLeaveUp :
    (∀ n ∈ [Net.netA, .netB], takes .agent0 (.portEnable n) s0 = true ∧ takes .agent0 (.portDisable n) s0 = true ∧
      (s0.port n).state = .disabled ∧ (s0.port n).link = false ∧ takes .agent0 (.portEnable n) up = true ∧
      takes .agent0 (.portDisable n) up = true ∧ (up.port n).state = .up ∧
      (withPort n (fun p => { p with link := true }) s0).port n = { s0.port n with link := true } ∧
      ((withPort n (fun p => { p with state := .down }) s0).port n).state = .down) ∧
    s0.cli.slots.length = 48 ∧ s0.client 0 = none ∧ s0.client 47 = none ∧
    (∀ m ∈ [0, 4], (withClient 47 (clientIn .served .auto m) s0).client 47 = some (clientIn .served .auto m)) ∧
    ((clientIn .served .auto 0).presences.set .netA none) = ⟨none, none⟩ ∧
    (∀ n ∈ [Net.netA, .netB], ((clientIn .served .auto 0).presences.get n).isSome = (n == .netA)) ∧
    (let s := flying (fun f => { f with clientSamples := [⟨.netA, .client 47 9, 65536⟩] }) (withClient 47 (clientIn .served .auto 0) s0)
     ((settleClient 47 9 s).client 47).map (fun c => (c.identity, c.state)) = some (9, .served) ∧ (settleClient 47 9 s).flight.clientSamples = []) := by decide

theorem test_witness_PortsAndSourcesAreRead :
    let s := withPath 8 (pathIn .listen 6) none s0
    takes .agent1 (.portRead .netB) s = true ∧ takes .agent1 (.sourceRead none) s = true ∧
    takes .agent1 (.sourceRead (some 8)) s = true ∧ s.path 8 = some (pathIn .listen 6) ∧
    takes .agent1 (.sourceRead (some 8)) s0 = true ∧ s0.path 8 = none ∧ takes .agent1 (.sourceRead (some 9)) s0 = true ∧
    s0.path 9 = none := by decide

/-- An MTX frame: header of kind and body length, sequence 1, identity 7, then the body. -/
def mtx (v kind len : Nat) (b : List Byte) : List Byte := be 1 v ++ be 1 kind ++ be 1 0 ++ be 2 1 ++ be 6 7 ++ be 2 len ++ b
/-- The body of an ORIGIN: departure 1 s 2 ns, class, accuracy 1000, exponent -1, offset 37, leap kind and midnight 0. -/
def originWith (ns cls kind : Nat) : List Byte :=
  be 6 1 ++ be 4 ns ++ be 2 0 ++ be 1 cls ++ be 4 1000 ++ be 1 255 ++ be 2 37 ++ be 1 kind ++ be 6 0
/-- The body of an ECHO-BACK: t1 with this field of nanoseconds, then t2 and t3 of these nanoseconds. -/
def echoOf (t a b : Nat) : List Byte :=
  be 6 0 ++ be 4 t ++ be 2 0 ++ be 6 0 ++ be 4 a ++ be 2 0 ++ be 6 0 ++ be 4 b ++ be 2 0
/-- An ECHO-BACK whose t1 is UNSET. -/
def echoWith (a b : Nat) : List Byte := echoOf 4294967295 a b

set_option maxRecDepth 8000 in
theorem test_witness_ArrivingFramesAreTested :
    let f := fun (dest type_ : Nat) (ok : Bool) (l : List Byte) => (⟨ok, dest, type_, l⟩ : EthFrame)
    (s0.port .netA).state ≠ .up ∧ (up.port .netA).state = .up ∧ up.wire.station.get .netA = 0 ∧
    (f 1 39485 true []).dest ≠ Config.broadcastAddress ∧ (f 0 39484 true []).etherType ≠ 39485 ∧
    readMtx (mtx 2 5 0 []) = .badVersion ∧ (mtx 1 5 0 []).length = 13 ∧
    (∀ k ∈ [0, 2, 4, 6, 255], readMtx (mtx 1 k 0 []) = .badFormat) ∧
    readMtx (mtx 1 1 26 (originWith 2 6 0)) = .badFormat ∧ readMtx (mtx 1 3 35 (echoWith 0 0)) = .badFormat ∧
    readMtx (mtx 1 5 1 []) = .badFormat ∧ readMtx (mtx 1 1 27 []) = .badFormat ∧
    readMtx (mtx 1 1 27 (originWith 2 16 0)) = .badFormat ∧ readMtx (mtx 1 1 27 (originWith 2 15 3)) = .badFormat ∧
    readMtx (mtx 1 1 27 (originWith 1000000000 15 2)) = .badFormat ∧
    readMtx (mtx 1 3 36 (echoWith 1000000000 0)) = .badFormat ∧ readMtx (mtx 1 3 36 (echoWith 0 1000000000)) = .badFormat ∧
    readMtx (mtx 1 1 27 (originWith 999999999 15 2)) =
      .taken 1 7 (.origin ((1 * 1000000000 + 999999999) * 65536) 15 1000 (-1) 37 (.delete 0)) ∧
    readMtx (mtx 1 3 36 (echoWith 1 2)) = .taken 1 7 (.echoBack .unset 65536 131072) ∧
    readMtx (mtx 1 3 36 (echoOf 999999999 1 2)) = .taken 1 7 (.echoBack (.valid (999999999 * 65536)) 65536 131072) ∧
    readMtx (mtx 1 3 36 (echoOf 1000000000 1 2)) = .badFormat ∧ readMtx (mtx 1 3 36 (echoOf 4294967294 1 2)) = .badFormat ∧
    readMtx (mtx 1 5 0 []) = .taken 1 7 .register := by decide

theorem test_witness_AsksAreIssuedAndEnd :
    let fly := asked (.inFlight (.valid 5) 3) up
    let p := withPath 0 (pathIn .listen 6) none up
    let c := withClient 47 (clientIn .served .auto 0) up
    let at_ := fun k s => withPort .netA (fun p => { p with nextSlot := k }) s
    ((∀ a ∈ (up.port .netA).asks, False) ∧ (fly.port .netA).asks = [⟨0, .path 0 7, 0, 4000000, .inFlight (.valid 5) 3⟩]) ∧
    (delaySample 0 1 0 0 = 32768 ∧ delaySample 0 0 0 1 = 0 ∧ delaySample 0 0 0 3 = -2) ∧
    (64 * (up.port .netA).cycleStart + (up.port .netA).nextSlot * (up.port .netA).cycleInterval ≤ 64 * up.ts.el ∧
      slotTarget .netA 0 up = none) ∧
    ¬64 * ((at_ 1 up).port .netA).cycleStart + ((at_ 1 up).port .netA).nextSlot * ((at_ 1 up).port .netA).cycleInterval ≤
      64 * up.ts.el ∧
    (slotTarget .netA 0 p = some (.path 0 7) ∧ (∀ a ∈ (p.port .netA).asks, a.target ≠ .path 0 7) ∧
      (∃ a ∈ ((asked .queued p).port .netA).asks, a.target = .path 0 7)) ∧
    (pathsOf p.src .netA)[0]? = some (0, pathIn .listen 6) ∧ slotTarget .netA 4 p = none ∧ slotTarget .netA 15 c = none ∧
    (pathsOf p.src .netA)[1]? = none ∧ slotTarget .netA 3 p = none ∧ up.client (16 - 16) = none ∧ slotTarget .netA 16 up = none ∧
    slotTarget .netA 0 (withPath 0 (pathIn .stale 6) none up) = none ∧
    slotTarget .netB 63 c = none ∧ slotTarget .netA 63 (withClient 47 (clientIn .lapsed .auto 0) up) = none ∧
    (p.path 0 = some (pathIn .listen 6) ∧ (pathIn .listen 6).identity = 7 ∧ 7 ≠ 8) ∧
    (c.client (63 - 16) = some (clientIn .served .auto 0) ∧ slotTarget .netA 63 c = some (.client 47 9)) ∧
    (∀ a ∈ (fly.port .netA).asks, a.seq = 0 → fly.ts.el < a.issue + a.wait) ∧
    (let late := asked .dropped { p with ts := { p.ts with el := 4000000 } }
     (late.port .netA).asks = [] ++ ⟨0, .path 0 7, 0, 4000000, .dropped⟩ :: [] ∧ 0 + 4000000 ≤ late.ts.el ∧
      late.path 0 = some (pathIn .listen 6) ∧ 0 < late.src.entries.length) ∧
    (c.client 47).map (fun x => (x.identity, (x.presences.get .netA).isSome)) = some (9, true) := by decide

theorem test_witness_FramesAreQueuedAndDepart :
    let e : EpochFrame := ⟨0, 0, 0, .none, 15, .freerun, none, none, []⟩
    let ask : Class1Frame := .ask 0 0 7
    let tx := fun f g => withPort .netA (fun p => { p with tx := some ⟨f, g⟩ }) up
    let gone : Option Egress := some ⟨⟨0, 0⟩, none⟩
    let seven := { up.ports.a with class1 := List.replicate 7 ask }
    (up.port .netA).tx = none ∧ ((tx (.epoch e) none).port .netA).tx = some ⟨.epoch e, none⟩ ∧
    ((tx (.class1 (.admission 0 9 0 .ok 47)) none).port .netA).tx = some ⟨.class1 (.admission 0 9 0 .ok 47), none⟩ ∧
    ((tx (.class1 ask) none).port .netA).tx = some ⟨.class1 ask, none⟩ ∧
    ((tx (.epoch e) gone).port .netA).tx = some ⟨.epoch e, gone⟩ ∧ ((tx (.epoch e) gone).port .netA).state = .up ∧
    ((tx (.epoch e) gone).port .netA).class0 = none ∧ ((tx (.epoch e) gone).port .netA).class1 = [] ∧
    (withPort .netA (fun p => { p with class0 := some e }) (tx (.epoch e) gone)).ports.a.class0 = some e ∧
    (withPort .netA (fun p => { p with class1 := [ask] }) (tx (.epoch e) gone)).ports.a.class1 = ask :: [] ∧
    7 ≤ seven.class1.length ∧ { seven with class1 := List.replicate 6 ask }.class1.length < 7 ∧ seven.state = .up := by decide

/-- The outlier bounds of a filter with four samples: 10 ms, and the limit from the value. -/
theorem test_witness_DelayFilterKeepsItsLaw :
    let f : Filter := ⟨some 655360000, 4, 0, 0⟩
    (filterTake 10000 f (-1)).2 = .outlier ∧ (filterTake 10000 f 655360000001).2 = .outlier ∧
    (filterTake 10000 f 1310720001).2 = .outlier ∧ (filterTake 10000 f 1310720000).2 = .kept ∧
    (filterTake 10000 f 0).2 = .kept ∧ filterTake 10000 { f with run := 3 } 655360000000 = (⟨some 655360000000, 1, 0, 655360000000⟩, .restart) ∧
    filterTake 10000 { f with run := 3 } (-1) = (⟨none, 0, 0, 0⟩, .restart) ∧
    filterTake 10000 ⟨none, 0, 0, 0⟩ 655360000000 = (⟨some 655360000000, 1, 0, 655360000000⟩, .kept) ∧
    (∀ x ∈ [(1 : Int), 3], (filterTake 10000 ⟨some 2, 1, 0, 2⟩ x).1.value = some 2) ∧
    (∀ x ∈ [((4 : Int), 0), (12, 2)], (filterTake 10000 ⟨some 0, 4, 0, 0⟩ x.1).1.value = some x.2) := by decide

theorem test_witness_SourcesAreBarredAndUnbarred :
    let s := fun x => withPath 8 (pathIn x 6) none s0
    takes .agent0 (.sourceBar 8 255) s0 = true ∧ takes .agent0 (.sourceUnbar 8) s0 = true ∧ s0.path 8 = none ∧
    takes .agent0 (.sourceBar 9 0) s0 = true ∧ takes .agent0 (.sourceUnbar 9) s0 = true ∧ s0.path 9 = none ∧
    (∀ x ∈ [PathState.listen, .barred], takes .agent0 (.sourceBar 8 1) (s x) = true ∧
      takes .agent0 (.sourceUnbar 8) (s x) = true ∧ (s x).path 8 = some (pathIn x 6)) := by decide

theorem test_witness_ReferenceEdgesAreRecordedAndLabelled :
    let ref := fun (x : PathState) (n : Nat) (e : Option EdgeRecord) (t : Nat) => granted (withPath 8
      { pathIn x 6 with net := none, listenCount := n, edge := e } none
      { s0 with ts := { s0.ts with servo := .freerun, timeSet := true, el := t } })
    let e : EdgeRecord := ⟨⟨65536, 1⟩, false⟩
    let edge := fun s => flying (fun f => { f with refEdges := [⟨0, 0⟩] }) s
    let label := Request.refLabel 1 (some 32767) (some (.insert midnight))
    ((edge (ref .listen 0 none 0)).flight.refEdges = [⟨0, 0⟩] ∧ (edge (ref .listen 0 none 0)).path 8 ≠ none ∧
      (edge s0).flight.refEdges = [⟨0, 0⟩] ∧ (edge s0).path 8 = none ∧
      (edge (ref .barred 0 none 0)).path 8 = (ref .barred 0 none 0).path 8) ∧
    (takes .agent0 label (granted s0) = true ∧ (granted s0).path 8 = none) ∧
    takes .agent0 label (ref .barred 0 (some e) 1) = true ∧ takes .agent0 label (ref .listen 0 none 1) = true ∧
    takes .agent0 label (ref .listen 0 (some { e with labelled := true }) 1) = true ∧
    (takes .agent0 label (ref .listen 0 (some e) 500000001) = true ∧ e.stamp.el + 500000000 ≤ 500000001) ∧
    (takes .agent0 (.refLabel 1 (some 32768) none) (ref .listen 0 (some e) 500000000) = true ∧ 500000000 < e.stamp.el + 500000000) ∧
    takes .agent0 (.refLabel 1 none (some (.delete 1))) (ref .listen 0 (some e) 1) = true ∧
    (∀ x ∈ [PathState.listen, .candidate, .selected, .stale], ∀ n ∈ [0, 1, 2],
      takes .agent0 label (ref x n (some e) 1) = true ∧ (ref x n (some e) 1).src.entries.length = 9) := by decide

theorem test_witness_OriginsReachTheirPaths :
    let m : OriginMsg := ⟨.netA, ⟨0, 0⟩, 6, 7, 0, 6, 1000, 4, 0, .none⟩
    let fly := fun m s => flying (fun f => { f with origins := [m] }) s
    let four := withPath 7 { pathIn .listen 6 with identity := 1 } none (withPath 2 { pathIn .listen 6 with identity := 2 } none
      (withPath 1 { pathIn .listen 6 with identity := 3 } none (withPath 0 { pathIn .listen 6 with identity := 4 } none up)))
    ((fly m s0).flight.origins = [m] ∧ (s0.port m.net).state ≠ .up ∧ ¬(-4 ≤ { m with exponent := 5 }.exponent ∧ (5 : Int) ≤ 4)) ∧
    ((up.port m.net).state = .up ∧ -4 ≤ m.exponent ∧ m.exponent ≤ 4) ∧
    (∀ x ∈ [PathState.barred, .stale, .listen], (withPath 7 (pathIn x 6) none (fly m up)).path 7 = some (pathIn x 6)) ∧
    ((pathIn .listen 6).identity = m.identity ∧ (pathIn .listen 6).net = some m.net ∧ (pathIn .listen 6).lastSeq = some 5 ∧
      (m.seq + 65536 - 5) % 65536 = 1 ∧ ({ m with seq := 5 }.seq + 65536 - 5) % 65536 = 0) ∧
    ((∀ i < 8, (fly m up).path i = none) ∧ up.src.entries.length = 9) ∧
    ((List.range 8).countP (fun i => ((fly m four).path i).any fun p => p.net == some m.net) = 4) := by decide

theorem test_witness_SourceSamplesAndMissesAreTaken :
    let s := fun x n => withPath 7 { pathIn x 6 with miss := some n } none (flying (fun f => { f with
      sourceSamples := [⟨.netA, .path 7 7, 65536⟩], sourceMisses := [⟨.netA, .path 7 7, 9⟩] }) s0)
    let bad := flying (fun f => { f with sourceSamples := [⟨.netA, .path 7 7, -1⟩] }) (s .listen 0)
    (s .listen 3).flight.sourceSamples = [⟨.netA, .path 7 7, 65536⟩] ∧ (s .listen 3).path 7 = some { pathIn .listen 6 with miss := some 3 } ∧
    (pathIn .listen 6).identity = 7 ∧ (pathIn .listen 6).state.live = true ∧ (pathIn .stale 6).state.live = false ∧
    (filterTake s0.echo.outlier (pathIn .listen 6).filter 65536).2 = .kept ∧
    (filterTake bad.echo.outlier (pathIn .listen 6).filter (-1)).2 = .outlier ∧
    (s .listen 4).path 7 = some { pathIn .listen 6 with miss := some 4 } ∧
    ((settlePath 7 { pathIn .listen 6 with miss := some 4 } (s .listen 4)).path 7).map (fun q => (q.identity, q.miss)) =
      some (7, some 0) ∧
    (s .listen 4).flight.sourceSamples = [] ++ ⟨.netA, .path 7 7, 65536⟩ :: [] ∧ s0.flight.sourceSamples = [] ∧ s0.flight.sourceMisses = [] ∧
    s0.flight.origins = [] ∧ s0.flight.refEdges = [] := by decide

theorem test_witness_PathsAgeAndAreRemoved :
    let s := fun i x t => withPath i { pathIn x 6 with staleSince := some 0 } none { s0 with ts := { s0.ts with el := t } }
    (∀ i ∈ [0, 7, 8], ((s i .listen 999).path i).map (fun p => (p.state.live, p.deadline)) = some (true, some 1000)) ∧
    (s 7 .listen 999).ts.el < 1000 ∧ 1000 ≤ (s 7 .listen 1000).ts.el ∧
    ((s 7 .stale 59999999999).path 7).map (fun p => (p.state, p.staleSince)) = some (.stale, some 0) ∧
    (s 7 .stale 59999999999).ts.el < 0 + 60000000000 ∧ 0 + 60000000000 ≤ (s 7 .stale 60000000000).ts.el ∧
    s0.path 7 = none := by decide

theorem test_witness_ClientRequestsAreTaken :
    let s := withClient 47 (clientIn .served .auto 0) s0
    let full : State := { s0 with cli := { s0.cli with slots := List.replicate 48 (some (clientIn .served .auto 0)) } }
    (takes .agent0 (.clientAdd 9) s = true ∧ s.cli.slots[47]? = some (some (clientIn .served .auto 0))) ∧
    (takes .agent0 (.clientAdd 10) full = true ∧ full.cli.slots.all Option.isSome = true) ∧
    (takes .agent0 (.clientAdd 10) s0 = true ∧ s0.cli.slots[0]? = some none) ∧
    takes .agent0 (.clientRemove 48) s = true ∧ (takes .agent0 (.clientRemove 0) s = true ∧ s.client 0 = none) ∧
    (takes .agent0 (.clientRemove 47) s = true ∧ s.client 47 = some (clientIn .served .auto 0)) ∧
    takes .agent1 (.clientRead none) s = true ∧ takes .agent1 (.clientRead (some 48)) s = true ∧
    takes .agent1 (.clientRead (some 0)) s = true ∧ takes .agent1 (.clientRead (some 47)) s = true := by decide

theorem test_witness_RegisterIsAnswered :
    let m : RegisterMsg := ⟨.netA, ⟨0, 0⟩, 9, 1⟩
    let fly := fun s => flying (fun f => { f with registers := [m] }) s
    let full : State := { up with cli := { s0.cli with slots := List.replicate 48 (some { clientIn .served .auto 0 with identity := 8 }) } }
    ((fly s0).flight.registers = [m] ∧ (s0.port .netA).state ≠ .up) ∧ (up.port m.net).state = .up ∧
    (∀ x ∈ [ClientState.expected, .lapsed, .measuring, .served],
      (withClient 0 (clientIn x .agent 0) (fly up)).cli.slots[0]? = some (some (clientIn x .agent 0))) ∧
    (clientIn .served .auto 0).identity = m.identity ∧
    ((clientIn .served .auto 0).presences.get .netA).isSome = true ∧ (clientIn .served .auto 0).presences.get .netB = none ∧
    (full.cli.slots.all Option.isSome = true ∧ ∀ c ∈ full.cli.slots, c.map Client.identity ≠ some 9) ∧
    (up.cli.slots[0]? = some none ∧ up.cli.autoAdmit = true ∧
      ({ up with cli := { up.cli with autoAdmit := false } } : State).cli.autoAdmit = false) := by decide

theorem test_witness_ClientsAreServedAndLapse :
    let c := clientIn
    let s := fun x w n t => withClient 47 (c x w n) (flying (fun f => { f with
      clientSamples := [⟨.netA, .client 47 9, 65536⟩], clientMisses := [⟨.netA, .client 47 9, 5⟩] })
      { s0 with ts := { s0.ts with el := t } })
    (s .measuring .auto 3 0).flight.clientSamples = [⟨.netA, .client 47 9, 65536⟩] ∧
    (s .measuring .auto 3 0).client 47 = some (c .measuring .auto 3) ∧ (c .measuring .auto 3).identity = 9 ∧
    ((c .measuring .auto 3).presences.get .netA).map (·.miss) = some 3 ∧
    ((c .served .auto 4).presences.get .netA).map (·.miss) = some 4 ∧ (c .served .auto 4).presences.get .netB = none ∧
    (s .expected .agent 0 0).client 47 = some (c .expected .agent 0) ∧
    ((s .lapsed .auto 0 0).client 47).map (fun x => (x.state, x.lapsedSince, x.by_)) = some (.lapsed, some 0, .auto) ∧
    ((s .lapsed .agent 0 0).client 47).map (fun x => (x.state, x.lapsedSince, x.by_)) = some (.lapsed, some 0, .agent) ∧
    (s .lapsed .auto 0 59999999999).ts.el < 0 + 60000000000 ∧ 0 + 60000000000 ≤ (s .lapsed .auto 0 60000000000).ts.el ∧
    s0.client 47 = none ∧ s0.flight.registers = [] ∧ s0.flight.clientSamples = [] ∧ s0.flight.clientMisses = [] := by decide

theorem test_witness_EpochsAreMadeWithTheirCorrections :
    let s := fun t => { s0 with epoch := { s0.epoch with next := some 65536 }, ts := { s0.ts with dt := t } }
    let served : ClientTable := { s0.cli with slots := List.replicate 48 (some (clientIn .served .auto 0)) }
    s0.epoch.next = none ∧ (s 65535).epoch.next = some 65536 ∧ (s 65535).ts.dt < 65536 ∧ (s 65536).flight.toEpoch = [] ∧
    (∀ x ∈ [65535, 65536], (flying (fun f => { f with toEpoch := [(x, 1), (1, 2)] }) (s 2)).flight.toEpoch = (x, 1) :: [(1, 2)]) ∧
    65536 ≤ (s 65536).ts.dt ∧ served.slots.length = 48 ∧
    (correctionList 47 (offered .netA served)).map Prod.fst = [47, 0, 1, 2, 3, 4, 5, 6, 7, 8, 9, 10] ∧
    cursorAfter 47 (correctionList 47 (offered .netA served)) = 11 ∧ correctionList 0 (offered .netB served) = [] := by decide

theorem test_witness_EpochsAreConfiguredAndRealigned :
    takes .agent0 (.epochConfig 5) s0 = true ∧ takes .agent0 (.epochConfig 4) (servoIn .locked) = true ∧
    takes .agent0 (.epochConfig 0) s0 = true ∧
    takes .agent0 (.epochConfig 4) (flying (fun f => { f with toEpoch := [(0, 1)] }) s0) = true ∧ takes .agent1 .epochRead s0 = true ∧ s0.flight.toEpoch = [] ∧
    (flying (fun f => { f with toEpoch := [(0, 1)] }) s0).flight.toEpoch = [(0, 1)] ∧
    (∀ k ≤ 4, firstEpochAfter k (timeEnd - ticksPerSec / 2 ^ k - 1) = some (timeEnd - ticksPerSec / 2 ^ k) ∧
      firstEpochAfter k (timeEnd - ticksPerSec / 2 ^ k) = none) ∧ firstEpochAfter 4 0 = some 4096000000000 := by decide

/-- Entry `i` of agent 0 with a key, PULSE on line 0. -/
def entryAt (i : Nat) (d : Scale) (key : Nat) : Entry := ⟨⟨i, 1⟩, .agent0, d, key, key, false, .pulse 0, none, none, none, 1⟩
/-- A schedule of these entries. -/
def sched (a b : List Entry) (s : State) : State := { s with sched := { s.sched with timescale := a, elapsed := b } }
/-- Agent 0 owns every output. -/
def owned (s : State) : State :=
  { s with lines := { s.lines with outputs := List.replicate 24 { Output.reset with owner := some .agent0 } } }
/-- SCHED-ADD of SET, `n` ns after the present EL. -/
def addIn (n : Nat) : AddRequest := ⟨.el, .nowPlus (.given false 0 n 0), .set 0, none, none, none⟩

theorem in_order_empty : ScheduleInOrder s0.sched where
  timescale := .nil
  elapsed := .nil
  timescaleDomain := by decide
  elapsedDomain := by decide
  indices := .nil
  range := by decide
  periods := fun e h => absurd h (by change e ∉ ([] : List Entry); simp)
  use := fun ag => by cases ag <;> decide
  quotas := by decide

/-- One entry alone is in order. -/
theorem in_order_one (d : Scale) (h : d = .dt ∨ d = .ut) (key : Nat) : ScheduleInOrder (sched [entryAt 63 d key] [] s0).sched where
  timescale := List.pairwise_singleton _ _
  elapsed := .nil
  timescaleDomain := by rcases h with rfl | rfl <;> simp [sched, entryAt]
  elapsedDomain := by simp [sched]
  indices := List.pairwise_singleton _ _
  range := by simp [sched, Schedule.entries, entryAt]
  periods := by simp [sched, Schedule.entries, entryAt]
  use := fun ag => by cases ag <;> simp [sched, Schedule.use, Schedule.entries, entryAt, s0, State.reset, Schedule.reset, PerAgent.get]
  quotas := le_refl 64

theorem test_witness_ArbiterServesInTurnAndQuotasAreSet :
    let wait := withUnit .agent0 (fun u => { u with link := .busy ⟨pl, .schedRead none⟩ }) s0
    (wait.acceptsRequest .agent1 ⟨pl, .schedRead none⟩ = true ∧ (Request.schedRead none).atArbiter = true ∧
      (wait.withRequest .agent1 ⟨pl, .schedRead none⟩).arbiterChoice = some .agent0) ∧
    takes .agent0 (.quotaSet 64 1 0) s0 = true ∧ takes .agent0 (.quotaSet 64 0 0) s0 = true ∧
    takes .agent0 (.quotaSet 0 16 16) (sched [entryAt 0 .dt 5] [] s0) = true ∧
    (sched [entryAt 0 .dt 5] [] s0).sched.use .agent0 = 1 := by decide

theorem test_witness_ScheduleTakesAnEntry :
    ScheduleInOrder (owned s0).sched ∧
    ((owned s0).takesNow .agent0 ⟨pl, .schedAdd (addIn 2000)⟩ = true ∧
      (owned s0).takesNow .agent0 ⟨{ pl with lateOk := true, condition := some .unordered }, .schedAdd (addIn 1999)⟩ = true ∧
      (owned s0).sched.counter < 4294967295 ∧
      (let e : State := { owned s0 with sched := { s0.sched with counter := 4294967295 } }
       e.takesNow .agent0 ⟨pl, .schedAdd (addIn 2000)⟩ = true ∧ ¬e.sched.counter < 4294967295) ∧ ((owned s0).ctx .agent0).compare = .unordered ∧
      resolveAdd ((owned s0).ctx .agent0) (addIn 2000) s0.ts = some ⟨131072000, 131072000, false, .set 0, none⟩ ∧
      (∀ l ∈ (Action.set 0).lines, ((owned s0).output l).owner = some .agent0) ∧
      (owned s0).sched.use .agent0 < (owned s0).sched.quotas.get .agent0 ∧ ¬131072000 < nsTicks s0.ts.el + 131072000) ∧
    (resolveAdd ((owned s0).ctx .agent0) (addIn 1999) s0.ts = some ⟨131006464, 131006464, false, .set 0, none⟩ ∧
      131006464 < nsTicks s0.ts.el + 131072000) := ⟨in_order_empty, by decide⟩

theorem test_witness_ScheduleChecksAndResolvesRequests :
    let none_ : State := { owned s0 with sched := { s0.sched with quotas := ⟨0, 16, 16⟩ } }
    (s0.takesNow .agent0 ⟨{ pl with condition := some .less }, .schedAdd (addIn 2000)⟩ = true ∧
      (s0.ctx .agent0).compare ≠ .less) ∧
    (takes .agent0 (.schedAdd { addIn 2000 with domain := .dt }) s0 = true ∧ s0.ts.timeSet = false) ∧
    (takes .agent0 (.schedAdd { addIn 2000 with notify := some 16 }) s0 = true ∧
      resolveAdd (s0.ctx .agent0) { addIn 2000 with notify := some 16 } s0.ts = none) ∧
    (takes .agent0 (.schedAdd (addIn 2000)) s0 = true ∧
      resolveAdd (s0.ctx .agent0) (addIn 2000) s0.ts = some ⟨131072000, 131072000, false, .set 0, none⟩ ∧
      (s0.output 0).owner ≠ some .agent0) ∧
    (takes .agent0 (.schedAdd (addIn 2000)) none_ = true ∧ none_.sched.quotas.get .agent0 ≤ none_.sched.use .agent0) ∧
    (takes .agent0 (.schedAdd (addIn 1999)) (owned s0) = true ∧ (131006464 : Nat) < nsTicks s0.ts.el + 131072000) ∧
    (resolveAdd (s0.ctx .agent0) ⟨.dt, .absolute (.long 2592000 0 0), .load 8 0 65535, some (.given false 0 10000 0), some 65535,
        some 15⟩ s0.ts =
      some ⟨2592000 * ticksPerSec, 2592000 * ticksPerSec, false, .load 8 16 65535, some ⟨655360000, 65535, 0⟩⟩) ∧
    (resolveAdd (s0.ctx .agent0) ⟨.ut, .nowPlus (.given false 0 0 0), .alert 15 65535, some (.given false 86400 0 0), none,
        none⟩ s0.ts =
      some ⟨0, 0, false, .alert 15 65535, some ⟨86400 * ticksPerSec, 0, 0⟩⟩) ∧
    (resolveAdd { s0.ctx .agent0 with cursor := .valid 5 } ⟨.el, .cursorPlus (.given true 0 0 5), .pulse 23, none, none, none⟩
      s0.ts = some ⟨0, 0, false, .pulse 23, none⟩) ∧
    (∀ t ∈ [{ s0.ts with utc := 1 }, { s0.ts with utc := 1, dt := ticksPerSec }],
      (resolveAdd (s0.ctx .agent0) ⟨.ut, .nowPlus (.given false 1 0 0), .alert 1 0, none, none, none⟩ t).map (·.due) =
        if t.dt = 0 then none else some ticksPerSec) := by decide

theorem test_witness_EntriesAreCancelledAndRead :
    let s := sched [entryAt 63 .dt 5] [] s0
    ScheduleInOrder s.sched ∧
    (takes .agent0 (.schedCancel ⟨64, 1⟩) s = true ∧ takes .agent0 (.schedRead (some ⟨64, 1⟩)) s = true ∧
      takes .agent0 (.schedCancel ⟨63, 1⟩) s = true ∧ takes .agent0 (.schedRead (some ⟨63, 1⟩)) s = true ∧
      entryAt 63 .dt 5 ∈ s.sched.entries ∧ (entryAt 63 .dt 5).handle = ⟨63, 1⟩ ∧ (entryAt 63 .dt 5).owner = .agent0 ∧
      takes .agent0 (.schedCancel ⟨63, 2⟩) s = true ∧ (∀ e ∈ s.sched.entries, e.handle ≠ ⟨63, 2⟩) ∧
      takes .agent1 (.schedRead (some ⟨63, 1⟩)) s = true ∧ takes .agent1 (.schedRead none) s = true) :=
  ⟨in_order_one .dt (.inl rfl) 5, by decide⟩

theorem test_witness_KeysAreReachedInOrder :
    let s := fun t => sched [entryAt 0 .dt 65536] [entryAt 1 .el 65536] { s0 with ts := { s0.ts with dt := t, el := t / 65536 } }
    let waiting := fun x => flying (fun f => { f with
      toSchedule := [.step 9 70000 none [0], .step x 2 none [1], .step 1 2 none []] }) (s 2)
    s0.sched.timescale = [] ∧ s0.sched.elapsed = [] ∧ (s 65535).sched.timescale = [] ++ entryAt 0 .dt 65536 :: [] ∧
    (s 65535).ts.dt < 65536 ∧ (s 65535).ts.el * 65536 < 65536 ∧ (s 65536).flight.toSchedule = [] ∧ 65536 ≤ (s 65536).ts.dt ∧
    (∀ x ∈ [65535, 65536],
      (waiting x).flight.toSchedule = [.step 9 70000 none [0]] ++ .step x 2 none [1] :: [.step 1 2 none []] ∧
      (waiting x).schedDt (entryAt 0 .dt 65536) = x) ∧
    65536 ≤ (s 65536).ts.el * 65536 := by decide

theorem test_witness_FiringsActAndTrainsGoOn :
    let train := { entryAt 0 .ut 5 with train := some ⟨10, 3, 65535⟩ }
    (∀ l ∈ (entryAt 0 .dt 5).action.lines, ((owned s0).output l).owner = some .agent0) ∧
    (∃ l ∈ (entryAt 0 .dt 5).action.lines, (s0.output l).owner ≠ some .agent0) ∧ (entryAt 0 .dt 5).train = none ∧
    (train.train = some ⟨10, 3, 65535⟩ ∧ 0 < (⟨10, 3, 65535⟩ : Train).period) ∧
    (train.after 0 .none 14).map (fun e => (e.due, e.key, e.train)) = some (15, 15, some ⟨10, 2, 65535⟩) ∧
    (train.after 0 .none 15).map (fun e => (e.due, e.key, e.train)) = some (25, 25, some ⟨10, 1, 65535⟩) ∧
    train.after 0 .none 25 = none ∧
    (({ train with domain := .el } : Entry).after 0 .none 14).map (fun e => (e.due, e.key)) = some (15, 15) ∧
    (∀ x ∈ [((0 : Int), timeEnd - 10), (0, timeEnd - 11), (-1, timeEnd - 10), (1, timeEnd - 11), (-1, 0)],
      (({ train with due := x.2 } : Entry).after x.1 .none (x.2 - 1)).isSome = decide (x = (0, timeEnd - 11))) ∧
    (∀ d ∈ [nsTicks Config.elMax - 10, nsTicks Config.elMax - 9],
      (({ train with domain := .el, due := d } : Entry).after 0 .none d).isSome = decide (d = nsTicks Config.elMax - 10)) ∧
    (({ train with due := 86398 * ticksPerSec, train := some ⟨ticksPerSec, 0, 0⟩ } : Entry).after 0 (.delete midnight)
      (86398 * ticksPerSec)).map (fun e => (e.due, e.key, e.shifted)) = some (86399 * ticksPerSec, 86399 * ticksPerSec, true) ∧
    s0.lines.outputs[23]? = some Output.reset ∧ (8 + 16 ≤ s0.lines.outputs.length) := by decide

theorem test_witness_StepsAndChangesReachTheSchedule :
    let step := fun a b => flying (fun f => { f with toSchedule := [.step a b none [7]] }) s0
    let change := fun x => flying (fun f => { f with toSchedule := [.change x] }) (sched [entryAt 63 .ut 5] [] s0)
    ScheduleInOrder (change (some 5)).sched ∧ ScheduleInOrder (step 0 0).sched ∧
    ((step 1 0).flight.toSchedule = [.step 1 0 none [7]] ∧ (step 0 1).flight.toSchedule = [.step 0 1 none [7]] ∧
      (change (some 5)).flight.toSchedule = [.change (some 5)] ∧ (change none).flight.toSchedule = [.change none] ∧
      (entryAt 63 .ut 5).domain = .ut ∧ (entryAt 63 .ut 5).key = (toDt s0.ts.utc s0.ts.leap (entryAt 63 .ut 5).due).1.toNat) :=
  ⟨in_order_one .ut (.inr rfl) 5, in_order_empty, by decide⟩

/-- Keys at, inside and past a step (old, new] = (4, 5], one at 4 taken after the step, and a UT entry whose new key lies at DT
or after it. -/
theorem test_witness_StepsAndChangesMoveKeys :
    let later := fun l k a b => flying (fun f => { f with toSchedule := [.step a b none l] }) (sched [entryAt 63 .dt k] [] s0)
    let step := later []
    let change := fun (off : Int) (d : Nat) => flying (fun f => { f with toSchedule := [.change none] })
      (sched [entryAt 63 .ut (2 * ticksPerSec)] [] (withTs fun t => { t with utc := off, dt := d }))
    let after := fun x => (nextOf x).map fun t : State => (t.sched.timescale.map (·.key), (t.output 0).level)
    let fired := fun x => after (exec .stepReport { x with lines := (owned s0).lines })
    (∀ k ∈ [4, 5, 6], ScheduleInOrder (step k 4 5).sched) ∧ (∀ off ∈ [(1 : Int), -1], ScheduleInOrder (change off 0).sched) ∧
    (fired (step 4 4 5) = some ([], true) ∧ fired (step 5 4 5) = some ([], true) ∧ fired (step 6 4 5) = some ([6], false) ∧
      (step 4 4 5).sched.timescale = [] ++ entryAt 63 .dt 4 :: []) ∧
    (fired (later [63] 4 4 5) = some ([4], false) ∧ fired (later [63] 5 4 5) = some ([], true)) ∧
    (∀ x ∈ [((1 : Int), 3 * ticksPerSec), (1, 3 * ticksPerSec - 1), (-1, ticksPerSec)],
      after (exec .rekey { change x.1 x.2 with lines := (owned s0).lines }) =
        if x = (1, 3 * ticksPerSec - 1) then some ([3 * ticksPerSec], false) else some ([], true)) :=
  ⟨fun k _ => in_order_one .dt (.inl rfl) k, fun _ _ => in_order_one .ut (.inr rfl) _, by decide⟩

/-- A DT entry accepted for 60 s after a step of 100 s to 200 s and one back to 50 s, whose reports wait, is left by the first
report, which fires an entry of that key that stood before the step (R131). -/
theorem test_step_leaves_a_key_taken_after_it :
    let at_ := fun n => n * ticksPerSec
    let steps := fun l => [.step (at_ 100) (at_ 200) none l, .step (at_ 200) (at_ 50) none l]
    let s := flying (fun f => { f with toSchedule := steps [] }) (owned (withTs fun t => { t with timeSet := true, dt := at_ 50 }))
    let add : AddRequest := ⟨.dt, .absolute (.long 60 0 0), .set 0, none, none, none⟩
    let report := fun x => (nextOf (exec .stepReport x)).map fun t : State => (t.sched.timescale.map (·.key), (t.output 0).level)
    (nextOf (exec (.schedAdd .agent0 pl add) s)).map (fun t => (t.flight.toSchedule, report t)) =
      some (steps [0], some ([at_ 60], false)) ∧
    report (sched [entryAt 0 .dt (at_ 60)] [] s) = some ([], true) := by decide

/-- At the report of an applied DELETE the shifted entry of its removed second fires SHIFTED, and one of the second that a later
DELETE will remove is left (R135). -/
theorem test_only_the_removed_second_fires_shifted :
    let key := fun n => (n * 86400 - 1) * ticksPerSec
    let alarm := fun i n => { entryAt i .ut (key n) with shifted := true, action := .alert 9 7 }
    let s := flying (fun f => { f with toSchedule := [.change (some (key 1))] })
      (sched [alarm 0 1, alarm 1 2] [] (withTs fun t => { t with dt := key 1, leap := .delete 172800 }))
    (nextOf (exec .rekey s)).map (fun t => (t.sched.timescale, t.flight.schedRaises.a0)) =
      some ([alarm 1 2], [⟨9, 7, ⟨0, 1⟩, .shifted, 0⟩]) := by decide

theorem test_witness_OutputsAreSetLoadedAndEndTheirPulses :
    let far := withUnit .agent0 (fun u => { u with ctx := { u.ctx with lineBase := 23 } }) s0
    (∀ d ∈ [(-1 : Int), 0, 23, 24], takes .agent0 (.lineSet d) s0 = true ∧ takes .agent0 (.lineClear d) (owned s0) = true) ∧
    (s0.ctx .agent0).lineBase = 0 ∧ s0.lines.outputs[23]? = some Output.reset ∧ Output.reset.owner ≠ some .agent0 ∧
    (owned s0).lines.outputs[23]? = some { Output.reset with owner := some .agent0 } ∧
    (∀ x ∈ [((-1 : Int), 1), (23, 2), (8, 17), (8, 0), (23, 1)],
      takes .agent0 (.lineLoad x.1 x.2 65535) s0 = true ∧ takes .agent0 (.lineLoad x.1 x.2 65535) (owned s0) = true) ∧
    (∀ j < 16, ((owned s0).output (8 + j)).owner = some .agent0) ∧ (far.ctx .agent0).lineBase = 23 ∧
    (∀ x ∈ [some 0, some 1, none], ({ s0 with lines := { s0.lines with
      outputs := List.replicate 24 { Output.reset with pulseEnd := x } } } : State).lines.outputs[23]? =
        some { Output.reset with pulseEnd := x }) ∧ s0.ts.el = 0 := by decide

theorem test_witness_LinesAreRead :
    let at_ := fun b => withUnit .agent1 (fun u => { u with ctx := { u.ctx with lineBase := b } }) s0
    (∀ b ∈ [0, 23, 24, 31, 32, 47, 48, 55, 56, 63], ∀ d ∈ [(-1 : Int), 0, 1],
      takes .agent1 (.lineTest d) (at_ b) = true ∧ ((at_ b).ctx .agent1).lineBase = b) ∧
    s0.lines.outputs[23]? = some Output.reset ∧ s0.lines.inputs[0]? = some Input.reset ∧ s0.lines.inputs[15]? = some Input.reset ∧
    (∀ x ∈ [(0, 17), (8, 0), (9, 16), (47, 1), (56, 8), (57, 8)], takes .agent1 (.lineStore 0 x.2) (at_ x.1) = true) := by decide

theorem test_witness_LineOwnershipAndSettings :
    let at_ := fun b => withUnit .agent0 (fun u => { u with ctx := { u.ctx with lineBase := b } }) s0
    (∀ x ∈ [(0, (-1 : Int)), (0, 0), (23, 0), (24, 0)], takes .agent0 (.lineOwn x.2 (some .agent2)) (at_ x.1) = true) ∧
    (∀ b ∈ [0, 23, 24, 31, 32, 47, 48], takes .agent0 (.lineConfig 0 ⟨some 50, none, none, none, none⟩) (at_ b) = true) ∧
    (∀ w ∈ [49, 1000000000, 1000000001], takes .agent0 (.lineConfig 0 ⟨some w, none, none, none, none⟩) (at_ 23) = true) ∧
    takes .agent0 (.lineConfig 0 ⟨none, some .both, none, none, none⟩) (at_ 0) = true ∧
    (∀ l ∈ [0, 1, 15, 16], ∀ h ∈ [1000000, 1000001],
      takes .agent0 (.lineConfig 0 ⟨none, some .both, some .agent2, some l, some h⟩) (at_ 47) = true) ∧
    s0.lines.outputs[0]? = some Output.reset ∧ s0.lines.inputs[15]? = some Input.reset := by decide

theorem test_witness_InputEdgesAreCaptured :
    let x : Input := { Input.reset with edge := .rise, holdOff := 10, lastTaken := some 0 }
    let r : Capture := ⟨32, .rise, .unset, 0, 15, 0⟩
    let s := fun el n gap => ({ s0 with
      ts := { s0.ts with el := el }
      lines := { s0.lines with inputs := List.replicate 16 x, captures := ⟨⟨List.replicate n r, gap⟩, ⟨[], 0⟩, ⟨[], 0⟩⟩ } } : State)
    let ref : State := { s0 with src := { s0.src with settings := { s0.src.settings with refMode := true } } }
    ref.src.settings.refMode = true ∧ ref.lines.inputs[15]? = some Input.reset ∧ s0.src.settings.refMode = false ∧
    Input.reset.edge ≠ .both ∧ Input.reset.edge ≠ .rise ∧ (s 9 0 0).lines.inputs[0]? = some x ∧ (s 9 0 0).ts.el < 0 + x.holdOff ∧
    ¬(s 10 0 0).ts.el < 0 + x.holdOff ∧ ((s 10 0 0).captures x.route).records = [] ∧
    ((s 10 15 0).captures x.route).records.length < 16 ∧ 16 ≤ ((s 10 16 254).captures x.route).records.length ∧
    ((s 10 16 254).captures x.route).gap < 255 ∧ 255 ≤ ((s 10 16 255).captures x.route).gap := by decide

theorem test_witness_CapturesAreReadAndReleased :
    let r : Capture := ⟨32, .rise, .valid 65536, 1, 15, 0⟩
    let s := { s0 with lines := { s0.lines with captures := ⟨⟨[r], 0⟩, ⟨[], 0⟩, ⟨[], 0⟩⟩ } }
    let trap := withUnit .agent0
      (fun u => { u with ctx := { u.ctx with form := .short, base := 1, traps := ⟨false, false, true, false⟩ } }) s
    takes .agent0 .captureRead s = true ∧ takes .agent0 .captureRead trap = true ∧
    (let c := trap.ctx .agent0
     let x := shapeTime (effForm pl c) (effRounding pl c) c.base ⟨.valid 65536, noFlags⟩
     trapped c.traps x.raised = true) ∧
    (∀ n ∈ [0, 1, 2, 16, 17], takes .agent0 (.captureRelease n) s = true) ∧ (s.captures .agent0).records.length = 1 := by decide

theorem test_witness_ContextIsSetAndRead :
    let x := ContextSettings.nothing
    takes .agent2 .contextRead s0 = true ∧
    (∀ y ∈ [{ x with base := some 4294967295, lineBase := some 63, threshold := some 15, mask := some 15 },
      { x with base := some 4294967296 }, { x with lineBase := some 64 }, { x with threshold := some 16 },
      { x with mask := some 16 }, { x with cursor := some (.long end48 0 0) }, { x with cursor := some (.long (end48 - 1) 0 0) }],
      takes .agent2 (.contextSet y) s0 = true) ∧
    expand 0 (.long end48 0 0) = .valid timeEnd := by decide

theorem test_witness_GrantPassesByItsTable :
    let s := fun a t => ({ s0 with arbiter := ⟨.held a t, 10000000000⟩ } : State)
    takes .agent1 .grantClaim s0 = true ∧ s0.arbiter.grant = .free ∧
    (takes .agent1 .grantClaim (s .agent1 1) = true ∧ takes .agent1 .grantRenew (s .agent1 1) = true ∧
      takes .agent1 .grantRelease (s .agent1 1) = true ∧ (s .agent1 1).arbiter.grant = .held .agent1 1) ∧
    (takes .agent2 .grantClaim (s .agent1 1) = true ∧ takes .agent2 .grantRenew (s .agent1 1) = true ∧
      takes .agent2 .grantRelease (s .agent1 1) = true) ∧
    (s .agent1 1).takesNow .agent0 ⟨{ pl with preempt := true }, .grantClaim⟩ = true ∧
    ((s .agent1 0).ts.el = 0 ∧ 0 ≤ (s .agent1 0).ts.el ∧ (s .agent1 1).ts.el < 1) ∧ s0.flight.renewals = [] ∧
    (∀ b ∈ [true, false], (flying (fun f => { f with renewals := [⟨.agent1, b⟩] }) (s .agent1 1)).flight.renewals =
      [⟨.agent1, b⟩]) := by decide

/-- A renewal report extends the lease of a grant held ever since, and not one released and claimed anew before it (R164). -/
theorem test_renewal_of_a_lost_grant_changes_nothing :
    let s := flying (fun f => { f with renewals := [⟨.agent1, true⟩] }) ({ s0 with arbiter := ⟨.held .agent1 1, 10000000000⟩ } : State)
    let claimedAnew := fun t : State => { t with arbiter := { t.arbiter with grant := .held .agent1 5 } }
    (nextOf (exec .renewalReport s)).map (·.arbiter.grant) = some (.held .agent1 10000000000) ∧
    ((nextOf (exec (.grantRelease .agent1 pl) s)).bind fun t => nextOf (exec .renewalReport (claimedAnew t))).map
      (fun t => (t.arbiter.grant, t.flight.renewals)) = some (.held .agent1 5, []) := by decide

theorem test_witness_AgentResetClearsAnAgent :
    let s := flying (fun f => { f with schedResets := [.agent2], lineResets := [.agent2], grantResets := [.agent2] }) s0
    takes .agent2 .agentReset s0 = true ∧ .agent2 ∈ s.flight.schedResets ∧ .agent2 ∈ s.flight.lineResets ∧
    .agent2 ∈ s.flight.grantResets ∧ .agent2 ∉ s0.flight.schedResets ∧ .agent2 ∉ s0.flight.lineResets ∧
    .agent2 ∉ s0.flight.grantResets := by decide

theorem test_witness_PartResetReturnsToPowerOn : takes .agent0 .partReset s0 = true := by decide

/-- A FLAGS-READ frame: length 6, code 5, option byte 0, CRC-16. -/
def flagsReadFrame : List Byte := [0x00#8, 0x06#8, 0x05#8, 0x00#8] ++ be 2 (crc16 [0x00#8, 0x06#8, 0x05#8, 0x00#8])

set_option maxRecDepth 8000 in
/-- The statuses of some frames, tested in their order (R182), and a frame that is read. -/
theorem test_witness_AgentFramesAreTestedInOrder :
    let c := s0.ctx .agent0
    let framed := fun (l : List Byte) => l ++ be 2 (crc16 l)
    let error := fun l => match readFrame c l with | .error st => some st | .ok _ => none
    (error [] = some .format ∧ error (be 2 5 ++ [5#8, 0#8, 0#8]) = some .format) ∧
    error (flagsReadFrame.take 5 ++ [0#8]) = some .check ∧ error (framed (be 2 6 ++ [0x7F#8, 0#8])) = some .unknown ∧
    error (framed (be 2 6 ++ [5#8, 0xC0#8])) = some .format ∧ error (framed (be 2 7 ++ [5#8, 0#8, 0#8])) = some .format ∧
    error flagsReadFrame = none ∧
    (match readFrame c flagsReadFrame with | .ok q => q == ⟨pl, .flagsRead⟩ | .error _ => false) = true ∧
    (responseBytes ⟨true, Flags.clear, .ok, .empty⟩).length = 6 ∧
    (responseBytes ⟨true, Flags.clear, .ok, .empty⟩).take 4 = [0x00#8, 0x06#8, 0x00#8, 0x80#8] := by decide

set_option maxRecDepth 16000 in
/-- Frames that read, and fail encoding, rank or grant at the port (R160, R182). -/
theorem test_witness_FramesThatReadAreChecked :
    let framed := fun (l : List Byte) => l ++ be 2 (crc16 l)
    let read := fun l => match readFrame (s0.ctx .agent1) (framed l) with | .ok q => some q | .error _ => none
    let r : SnapshotRecord := ⟨1, 0, 6, 0, ⟨0, 1000000000, 0⟩, 0⟩
    s0.portFree .agent1 = true ∧
    (read (be 2 34 ++ [20#8, 0#8] ++ snapshotBody r ++ be 4 0) = some ⟨pl, .snapshotRestore r⟩ ∧
      Submitted.encodingOk (s0.ctx .agent1) ⟨pl, .snapshotRestore r⟩ = false) ∧
    (read (be 2 6 ++ [94#8, 0#8]) = some ⟨pl, .partReset⟩ ∧ Submitted.encodingOk (s0.ctx .agent1) ⟨pl, .partReset⟩ = true ∧
      Request.partReset.rankZero = true) ∧
    (read (be 2 10 ++ [23#8, 0#8, 0#8, 0#8, 0#8, 0#8]) = some ⟨pl, .steerRate 0⟩ ∧
      Submitted.encodingOk (s0.ctx .agent1) ⟨pl, .steerRate 0⟩ = true ∧ (Request.steerRate 0).needsGrant = true ∧
      s0.holdsGrant .agent1 = false) := by decide

theorem test_witness_WindowsExchangeFrames :
    let busy := withUnit .agent0 (fun u => { u with link := .busy ⟨pl, .flagsRead⟩ }) s0
    let ready := withUnit .agent0 (fun u => { u with link := .ready ⟨false, Flags.clear, .ok, .empty⟩ }) s0
    let reset : State := { s0 with resetIn := true }
    let open_ := fun x d c => withUnit .agent0 (fun u => { u with window := some ⟨some d, x, [], c⟩ }) s0
    (∀ x ∈ [open_ .idle 0x5A#8 true, open_ (.busy ⟨pl, .flagsRead⟩) 0x5A#8 false, open_ (.busy ⟨pl, .flagsRead⟩) 0xA5#8 false],
      (x.unit .agent0).window.isSome = true ∧ x.takesFrames .agent0 = false) ∧ (s0.unit .agent0).window = none ∧
    windowKind (some 0x5B#8) = .other ∧ windowKind none = .other ∧
    reset.takesWindows .agent0 = false ∧ s0.takesWindows .agent0 = true ∧ (busy.unit .agent0).link = .busy ⟨pl, .flagsRead⟩ ∧
    s0.portFree .agent0 = true ∧ s0.acceptsRequest .agent0 ⟨pl, .flagsRead⟩ = true ∧ (s0.unit .agent0).link = .idle ∧
    (ready.unit .agent0).link = .ready ⟨false, Flags.clear, .ok, .empty⟩ ∧
    (responseBytes ⟨false, Flags.clear, .ok, .empty⟩).length = 6 := by decide

theorem test_witness_AlertRequestsAnswer :
    let top : ReturnRecord := ⟨15, .short, .flag (.fault .clamp)⟩
    let s := withUnit .agent1 (fun u => { u with stack := [top] }) s0
    takes .agent1 .alertRead s0 = true ∧ (s0.unit .agent1).stack = [] ∧ takes .agent1 .alertRead s = true ∧
    (s.unit .agent1).stack = top :: [] ∧ takes .agent1 (.alertReturn 17) s = true ∧ takes .agent1 (.alertReturn 16) s0 = true ∧
    takes .agent1 (.alertReturn 1) s = true ∧ takes .agent1 (.alertReturn 0) s = true ∧
    (s.captures .agent1).records.length = 0 ∧ takes .agent1 (.alertMask 15) s = true ∧ takes .agent1 (.alertMask 16) s = true := by
  decide

theorem test_witness_RaisesBecomePending :
    let s := flying (fun f => { f with raises := ⟨[.slew .completed, .fault .clamp], [], []⟩, schedRaises := ⟨[⟨1, 2, ⟨3, 4⟩, .late, 0⟩], [], []⟩ }) s0
    let full := fun n g => withUnit .agent0 (fun u => { u with fifo := List.replicate n ⟨1, 0, ⟨0, 0⟩, .onTime, 0⟩, gap := g }) s
    (s0.flight.raises.get .agent0 = [] ∧ s.flight.raises.get .agent0 = [.slew .completed] ++ .fault .clamp :: [] ∧
      (Raise.slew .completed).kind ≠ .fault ∧ (Raise.fault .clamp).kind = .fault) ∧
    s0.flight.schedRaises.get .agent0 = [] ∧ s.flight.schedRaises.get .agent0 = ⟨1, 2, ⟨3, 4⟩, .late, 0⟩ :: [] ∧
    ((full 7 0).unit .agent0).fifo.length < 8 ∧ 8 ≤ ((full 8 254).unit .agent0).fifo.length ∧
    ((full 8 254).unit .agent0).gap < 255 ∧ 255 ≤ ((full 8 255).unit .agent0).gap := by decide

theorem test_witness_AlertsAreDeliveredByLevel :
    let s := fun m => withUnit .agent0 (fun u => { u with
      ctx := { u.ctx with mask := m }, pending := { u.pending with capture := some (1, 32, .rise) }
      fifo := [⟨1, 0, ⟨0, 0⟩, .onTime, 0⟩] }) s0
    ((s 0).unit .agent0).pending.list.map AlertRecord.flag ++ (((s 0).unit .agent0).fifo.head?.map AlertRecord.schedule).toList =
      [] ++ .flag (.capture 1 32 .rise) :: [.schedule ⟨1, 0, ⟨0, 0⟩, .onTime, 0⟩] ∧
    (AlertRecord.flag (.capture 1 32 .rise)).level = 1 ∧ (AlertRecord.schedule ⟨1, 0, ⟨0, 0⟩, .onTime, 0⟩).level = 1 ∧
    ¬1 ≤ ((s 0).unit .agent0).ctx.mask ∧ 1 ≤ ((s 1).unit .agent0).ctx.mask ∧ ((s 1).unit .agent0).stack = [] ∧
    (s0.unit .agent0).pending.list = [] ∧ (s 0).attention .agent0 = false ∧
    (withUnit .agent0 (fun u => { u with stack := [⟨15, .short, .flag (.fault .clamp)⟩] }) s0).attention .agent0 = true ∧ ((s 1).unit .agent0).pending.capture = some (1, 32, .rise) := by decide

/-- A state with an empty schedule and nothing selected meets the premises of the three properties of every step. -/
theorem test_witness_StepKeepsScheduleOrder : ScheduleInOrder s0.sched ∧ step s0 = .next (advance 1 s0) := ⟨in_order_empty, rfl⟩

theorem test_witness_StepKeepsRoom : RoomKept s0 ∧ step s0 = .next (advance 1 s0) :=
  ⟨⟨fun n => by cases n <;> decide, fun a => by cases a <;> decide, fun a => by cases a <;> decide, fun a => by cases a <;> decide,
    fun a => by cases a <;> decide⟩, rfl⟩

theorem s0_path (i : Nat) : s0.path i = none := by
  change (List.replicate 9 (none : Option SourcePath)).getD i none = none
  rw [List.getD_eq_getElem?_getD, List.getElem?_replicate]
  split <;> rfl

theorem s0_agrees : SelectionAgrees s0 where
  size := rfl
  selected := fun i p h => by rw [s0_path] at h; cases h
  present := fun i h => by cases h
  servo := rfl
  suspended := rfl
  reference := rfl

theorem test_witness_StepKeepsSelection : SelectionAgrees s0 ∧ step s0 = .next (advance 1 s0) := ⟨s0_agrees, rfl⟩

/-! ## Some runs of single steps -/

set_option maxRecDepth 8000 in
/-- A frame submitted through the window is in hand, its request command answers it, and COLLECT returns the answer. -/
theorem test_submit_take_collect :
    let a := (nextOf (exec (.submitWindow .agent0 ⟨flagsReadFrame, true⟩) s0)).getD s0
    let b := (nextOf (exec (.flagsRead .agent0 pl) a)).getD s0
    let c := (nextOf (exec (.collectWindow .agent0 ⟨List.replicate 17 0#8, true⟩) b)).getD s0
    (a.unit .agent0).link = .busy ⟨pl, .flagsRead⟩ ∧ (a.unit .agent0).dataOut = List.replicate 6 0#8 ∧
    (b.unit .agent0).link = .ready ⟨false, Flags.clear, .ok, .flagsAndTraps Flags.clear ⟨false, false, false, false⟩⟩ ∧
    (c.unit .agent0).link = .idle ∧ (c.unit .agent0).dataOut.take 4 = [0x02#8, 0x00#8, 0x0B#8, 0x00#8] := by decide

set_option maxRecDepth 8000 in
/-- A SUBMIT window open when the reset input of its port is asserted is not taken, not even when it is released after the pulse,
and data out turns to IDLE; the window after it is taken (R168). -/
theorem test_window_cut_by_reset :
    let go := fun c s => (nextOf (exec c s)).getD s
    let r := withUnit .agent0 (fun u => { u with link := .ready ⟨false, Flags.clear, .ok, .empty⟩ }) s0
    let a := go (.submitWindow .agent0 ⟨flagsReadFrame.take 4, false⟩) r
    let b := go (.agentResetInputRelease .agent0) (go (.agentResetInput .agent0) a)
    let c := go (.submitWindow .agent0 ⟨flagsReadFrame.drop 4, true⟩) b
    (a.unit .agent0).dataOut = List.replicate 4 2#8 ∧ (c.unit .agent0).link = .idle ∧ (c.unit .agent0).overrun = false ∧
    (c.unit .agent0).dataOut = List.replicate 4 2#8 ++ List.replicate 2 0#8 ∧ (c.unit .agent0).window = none ∧
    ((go (.submitWindow .agent0 ⟨flagsReadFrame, true⟩) c).unit .agent0).link = .busy ⟨pl, .flagsRead⟩ := by decide

/-- After 1 µs of the oscillator at rate 0, DT and EL have moved 1 µs. -/
theorem test_time_passes : (advance 1000 s0).ts.dt = 65536000 ∧ (advance 1000 s0).ts.el = 1000 := by decide

/-- EL goes on while DT stands at the end of its range (R1, log entry 8). -/
theorem test_elapsed_time_outlives_device_time :
    let t := (advance 1000 (withTs fun t => { t with dt := timeEnd - 1 })).ts
    t.dt = timeEnd - 1 ∧ t.el = 1000 := by decide

/-- A sample on its way is taken before a bar ends its ask (R64): the filter has it and the miss count is 0. -/
theorem test_sample_applied_before_bar :
    let s := withPath 0 { pathIn .listen 6 with miss := some 3 } none
      (flying (fun f => { f with sourceSamples := [⟨.netA, .path 0 7, 8⟩] }) s0)
    (nextOf (exec (.sourceBar .agent0 pl 0 1) s)).map
      (fun t => ((t.path 0).map fun p => (p.state, p.filter.value, p.miss), t.flight.sourceSamples)) =
        some (some (.barred, some 1, some 0), []) := by decide

/-- Two steps with an EPOCH-CONFIG between them (R104, R106): an instant that the second step jumped over is not made. -/
theorem test_no_epoch_of_a_jumped_instant :
    let at_ := fun n : Nat => n * (ticksPerSec / 100)
    let s := flying (fun f => { f with toEpoch := [(at_ 580, at_ 520)] }) (withTs fun t => { t with timeSet := true, dt := at_ 520 })
    let a := (nextOf (exec (.epochConfig .agent0 pl 2) s)).getD s0
    let b := flying (fun f => { f with toEpoch := f.toEpoch ++ [(at_ 520, at_ 578)] }) { a with ts := { a.ts with dt := at_ 578 } }
    a.epoch.next = some (at_ 525) ∧ (nextOf (exec .epochInstant b)).map (fun t => (t.epoch.next, t.epoch.seq)) =
      some (some (at_ 525), s0.epoch.seq) ∧
    (nextOf (exec .epochStepReport b)).map (fun t => t.epoch.next) = some (some (at_ 600)) := by decide

/-- An instant reached before a backward step and taken before the step report has its frame built and takes its sequence; the
report then sets the next instant from the new DT, and the instant is made again (R106). -/
theorem test_epoch_reached_before_a_backward_step :
    let at_ := fun n : Nat => n * (ticksPerSec / 100)
    let s := withPort .netA (fun p => { p with state := .up }) { withTs fun t => { t with timeSet := true, dt := at_ 526 } with
      epoch := { s0.epoch with exponent := 2, next := some (at_ 525), seq := 90 } }
    let a := (nextOf (exec .epochInstant (stepTo (at_ 520) 0 s))).getD s0
    let b := (nextOf (exec .epochStepReport a)).getD s0
    a.ts.dt = at_ 520 ∧ (a.port .netA).tx.isSome ∧ a.epoch.seq = 91 ∧ a.epoch.next = some (at_ 550) ∧
    b.epoch.next = some (at_ 525) ∧ b.epoch.seq = 91 := by decide

/-- A key reached before a backward step fires before the step report is taken, an entry that took an earlier key after the step
does not, and the report then fires nothing (R131, R133). -/
theorem test_key_reached_before_a_backward_step :
    let s := sched [entryAt 1 .dt 200, entryAt 0 .dt 65536] [] (flying (fun f => { f with
      toSchedule := [.step 70000 100 none [1]] }) (owned (withTs fun t => { t with timeSet := true, dt := 100 })))
    let a := (nextOf (exec (.keyReached .timescale) s)).getD s0
    (a.output 0).level = true ∧ a.sched.timescale = [entryAt 1 .dt 200] ∧
    (nextOf (exec (.keyReached .timescale) a)).map (·.sched.timescale) = some [entryAt 1 .dt 200] ∧
    (nextOf (exec .stepReport a)).map (·.sched.timescale) = some [entryAt 1 .dt 200] := by decide

/-- A late-ok train keyed 1 µs ahead in the second before a DELETE goes on past its own key (R127, R128). -/
theorem test_late_ok_train_moves_past_its_key :
    let e : Entry := { entryAt 0 .ut 0 with due := 86399 * ticksPerSec, key := 86399 * ticksPerSec, train := some ⟨ticksPerSec, 0, 0⟩ }
    ((e.after 0 (.delete midnight) (86399 * ticksPerSec)).map fun x => (x.due, decide (e.key < x.key), x.train)) =
      some (86401 * ticksPerSec, true, some ⟨ticksPerSec, 0, 1⟩) := by decide

end Sys2Proof.Tests
end

section
/-! Times and flags (chapter 1): how a time request is answered, what it answers for each class of its operands, how
results are rounded and shaped, and that R3 inverts R2. -/

namespace Sys2Proof.Machine

/-! ## Answers of the requests of chapter 1 -/

section
variable (ag : Agent) (o : Options) (q : Submitted) (s : State)

/-- Context and port status of an agent are set one without the other. -/
theorem setCtx_withRequest (c : Context) : (s.withRequest ag q).setCtx ag c = (s.setCtx ag c).withRequest ag q := by
  simp [State.setCtx, State.withRequest]

/-- A refusal by the block that takes the request at once is the answer, and nothing else changes. -/
theorem runRequest_refuse (take : State → Answer) (st : Status) (h : s.takesNow ag q = true)
    (ht : take (s.withRequest ag q) = refuse st (s.withRequest ag q)) : runRequest ag q take s = respond ag st .empty s :=
  runRequest_answer s ag q take h s st .empty ht

/-- A block that takes the request at once and leaves the context `c` is answered on that context. -/
theorem runRequest_setCtx (take : State → Answer) (c : Context) (st : Status) (b : Body) (h : s.takesNow ag q = true)
    (ht : take (s.withRequest ag q) = ⟨(s.withRequest ag q).setCtx ag c, st, b⟩) :
    runRequest ag q take s = respond ag st b (s.setCtx ag c) :=
  runRequest_answer s ag q take h (s.setCtx ag c) st b (by rw [ht, setCtx_withRequest])

/-- A trap leaves compare field and cursor as they are (R10). -/
theorem finishContext_trapped (c : Context) (raised : Flags) (cmp : Compare) (upd : Option TimeVal)
    (h : trapped c.traps raised = true) :
    finishContext o c raised cmp upd = ({ c with flags := raiseFlags c.flags raised }, true) := if_pos h

/-- Record and update options of a request with a time result (R11, R12). -/
theorem finishContext_time (c : Context) (raised : Flags) (cmp : Compare) (v : TimeVal)
    (h : ¬trapped c.traps raised = true) :
    finishContext o c raised cmp (some v) =
      ({ c with
          flags := raiseFlags c.flags raised
          compare := if o.record then cmp else c.compare
          cursor := if o.update then v else c.cursor }, false) := by
  rw [finishContext, if_neg h]
  cases o.record <;> cases o.update <;> rfl

/-- The record option of a request with an interval result, which has no place in the cursor (R11, R17). -/
theorem finishContext_interval (c : Context) (raised : Flags) (cmp : Compare) (h : ¬trapped c.traps raised = true) :
    finishContext o c raised cmp none =
      ({ c with flags := raiseFlags c.flags raised, compare := if o.record then cmp else c.compare }, false) := by
  rw [finishContext, if_neg h]
  cases o.record <;> rfl

/-- Steps 4 to 6 of R13 for a time result, on a request taken at once. -/
theorem runRequest_finishTime (take : State → Answer) (r : ShapedTime) (h : s.takesNow ag q = true)
    (ht : take (s.withRequest ag q) = finishTime ag o r (s.withRequest ag q)) :
    runRequest ag q take s = timeAnswered ag o r s := by
  unfold timeAnswered
  by_cases htrap : trapped (s.ctx ag).traps r.raised = true
  · rw [if_pos htrap]
    exact runRequest_setCtx ag q s take _ _ _ h (by simp [ht, finishTime, finishContext_trapped, htrap])
  · rw [if_neg htrap]
    exact runRequest_setCtx ag q s take _ _ _ h (by simp [ht, finishTime, finishContext_time, htrap])

/-- Steps 4 to 6 of R13 for an interval result, on a request taken at once. -/
theorem runRequest_finishInterval (take : State → Answer) (r : ShapedInterval) (h : s.takesNow ag q = true)
    (ht : take (s.withRequest ag q) = finishInterval ag o r (s.withRequest ag q)) :
    runRequest ag q take s = intervalAnswered ag o r s := by
  unfold intervalAnswered
  by_cases htrap : trapped (s.ctx ag).traps r.raised = true
  · rw [if_pos htrap]
    exact runRequest_setCtx ag q s take _ _ _ h (by simp [ht, finishInterval, finishContext_trapped, htrap])
  · rw [if_neg htrap]
    exact runRequest_setCtx ag q s take _ _ _ h (by simp [ht, finishInterval, finishContext_interval, htrap])

/-- FLAGS-READ (R19). -/
theorem exec_flagsRead (h : s.takesNow ag ⟨o, .flagsRead⟩ = true) :
    exec (.flagsRead ag o) s = .next (respond ag .ok (.flagsAndTraps (s.ctx ag).flags (s.ctx ag).traps) s) := by
  refine congrArg Host.Outcome.next (runRequest_answer s ag _ _ h s _ _ ?_)
  simp [takeFlagsRead, accept]

/-- FLAGS-CLEAR (R20). -/
theorem exec_flagsClear (m : Flags) (h : s.takesNow ag ⟨o, .flagsClear m⟩ = true) :
    exec (.flagsClear ag o m) s =
      .next (respond ag .ok (.flags (s.ctx ag).flags)
        (s.setCtx ag { s.ctx ag with flags := clearFlags (s.ctx ag).flags m })) := by
  refine congrArg Host.Outcome.next (runRequest_setCtx ag _ s _ _ _ _ h ?_)
  simp [takeFlagsClear, accept]

/-- TIME-READ (R14). -/
theorem exec_timeRead (sc : Scale) (h : s.takesNow ag ⟨o, .timeRead sc⟩ = true) :
    exec (.timeRead ag o sc) s =
      .next (timeAnswered ag o (shapeFor o (s.ctx ag) (currentTime s.ts (s.ctx ag).threshold sc)) s) := by
  refine congrArg Host.Outcome.next (runRequest_finishTime ag o _ s _ _ h ?_)
  simp [takeTimeRead]

/-- TIME-CONVERT between EL and another scale (R16). -/
theorem exec_timeConvert_range (a b : Scale) (f : Form) (x : Operand)
    (h : s.takesNow ag ⟨o, .timeConvert a b f x⟩ = true) (hab : ¬(a = .el ↔ b = .el)) :
    exec (.timeConvert ag o a b f x) s = .next (respond ag .range .empty s) := by
  refine congrArg Host.Outcome.next (runRequest_refuse ag _ s _ _ h ?_)
  rw [takeTimeConvert, if_pos (fun e => hab (iff_of_eq e))]

/-- TIME-CONVERT among DT and UT, or of EL to itself (R16). -/
theorem exec_timeConvert (a b : Scale) (f : Form) (x : Operand)
    (h : s.takesNow ag ⟨o, .timeConvert a b f x⟩ = true) (hab : a = .el ↔ b = .el) :
    exec (.timeConvert ag o a b f x) s =
      .next (timeAnswered ag o
        (shapeFor o (s.ctx ag) (convertTime s.ts.utc s.ts.leap a b (operandVal (s.ctx ag) x))) s) := by
  refine congrArg Host.Outcome.next (runRequest_finishTime ag o _ s _ _ h ?_)
  rw [takeTimeConvert, if_neg (not_not.2 (propext hab))]
  simp

/-- TIME-OFFSET (R18). -/
theorem exec_timeOffset (x : Operand) (i : IntervalField) (h : s.takesNow ag ⟨o, .timeOffset x i⟩ = true) :
    exec (.timeOffset ag o x i) s =
      .next (timeAnswered ag o
        (shapeFor o (s.ctx ag) (offsetTime (operandVal (s.ctx ag) x) (intervalVal i))) s) := by
  refine congrArg Host.Outcome.next (runRequest_finishTime ag o _ s _ _ h ?_)
  simp [takeTimeOffset]

/-- TIME-DIFF with the update option (R17). -/
theorem exec_timeDiff_update (x y : Operand) (h : s.takesNow ag ⟨o, .timeDiff x y⟩ = true) (hu : o.update = true) :
    exec (.timeDiff ag o x y) s = .next (respond ag .range .empty s) := by
  refine congrArg Host.Outcome.next (runRequest_refuse ag _ s _ _ h ?_)
  rw [takeTimeDiff, if_pos hu]

/-- TIME-DIFF without the update option (R17), once class and value of the difference are known. -/
theorem exec_timeDiff (x y : Operand) (v : IntervalVal) (r : Flags) (h : s.takesNow ag ⟨o, .timeDiff x y⟩ = true)
    (hu : o.update = false) (hd : diffTimes (operandVal (s.ctx ag) x) (operandVal (s.ctx ag) y) = (v, r)) :
    exec (.timeDiff ag o x y) s =
      .next (intervalAnswered ag o (shapeInterval (effForm o (s.ctx ag)) (effRounding o (s.ctx ag)) v r) s) := by
  refine congrArg Host.Outcome.next (runRequest_finishInterval ag o _ s _ _ h ?_)
  simp [takeTimeDiff, hu, hd]

end

/-! ## The current time (R14) -/

/-- DT and UT while the time is unset. -/
theorem currentTime_of_not_timeSet (t : Timescale) (threshold : Nat) (sc : Scale) (hsc : sc ≠ .el)
    (ht : t.timeSet = false) : currentTime t threshold sc = ⟨.unset, { noFlags with iv := true }⟩ := by
  cases sc with
  | el => exact absurd rfl hsc
  | dt => simp [currentTime, ht]
  | ut => simp [currentTime, ht]

theorem currentTime_dt (t : Timescale) (threshold : Nat) (ht : t.timeSet = true) :
    currentTime t threshold .dt = ⟨.valid t.dt, { noFlags with st := decide (threshold < t.quality) }⟩ := by
  simp [currentTime, ht]

theorem currentTime_ut (t : Timescale) (threshold : Nat) (ht : t.timeSet = true) :
    currentTime t threshold .ut =
      if inTimeRange (toUt t.utc t.leap t.dt).1 then
        ⟨.valid (toUt t.utc t.leap t.dt).1.toNat,
          { noFlags with lh := (toUt t.utc t.leap t.dt).2, st := decide (threshold < t.quality) }⟩
      else ⟨.saturated, { noFlags with ov := true, st := decide (threshold < t.quality) }⟩ := by
  cases hr : inTimeRange (toUt t.utc t.leap t.dt).1 <;> simp [currentTime, ht, exactTime, hr]

/-! ## Results by the classes of the operands (R6, R16 … R18) -/

theorem convertTime_same (off : Int) (l : Leap) (a : Scale) (t : Ticks) :
    convertTime off l a a (.valid t) = exactTime t false := by
  cases a <;> rfl

/-- The row of R6 that gives UNSET with IV. -/
theorem offsetTime_unset (t : TimeVal) (d : IntervalVal)
    (h : t = .unset ∨ d = .unset ∨ (t = .saturated ∧ d = .saturated)) :
    offsetTime t d = ⟨.unset, { noFlags with iv := true }⟩ := by
  rcases h with rfl | rfl | ⟨rfl, rfl⟩
  · rfl
  · cases t <;> rfl
  · rfl

/-- The row of R6 that gives SATURATED with no flag. -/
theorem offsetTime_saturated (t : TimeVal) (d : IntervalVal) (a : Ticks) (b : Int)
    (h : (t = .saturated ∧ d = .valid b) ∨ (t = .valid a ∧ d = .saturated)) : offsetTime t d = ⟨.saturated, noFlags⟩ := by
  obtain ⟨rfl, rfl⟩ | ⟨rfl, rfl⟩ := h <;> rfl

/-- The row of R6 that gives UNSET with IV. -/
theorem diffTimes_unset (t u : TimeVal) (h : t = .unset ∨ u = .unset ∨ (t = .saturated ∧ u = .saturated)) :
    diffTimes t u = (.unset, { noFlags with iv := true }) := by
  rcases h with rfl | rfl | ⟨rfl, rfl⟩
  · rfl
  · cases t <;> rfl
  · rfl

/-- The row of R6 that gives SATURATED with no flag. -/
theorem diffTimes_saturated (t u : TimeVal) (a : Ticks)
    (h : (t = .saturated ∧ u = .valid a) ∨ (t = .valid a ∧ u = .saturated)) : diffTimes t u = (.saturated, noFlags) := by
  obtain ⟨rfl, rfl⟩ | ⟨rfl, rfl⟩ := h <;> rfl

theorem inTimeRange_iff (t : Int) : inTimeRange t = true ↔ 0 ≤ t ∧ t < timeEnd := by
  simp only [inTimeRange, Bool.and_eq_true, decide_eq_true_eq]

theorem exactTime_of_inRange (t : Int) (lh : Bool) (h0 : 0 ≤ t) (h1 : t < timeEnd) :
    exactTime t lh = ⟨.valid t.toNat, { noFlags with lh := lh }⟩ :=
  if_pos ((inTimeRange_iff t).2 ⟨h0, h1⟩)

theorem exactTime_of_outOfRange (t : Int) (lh : Bool) (h : t < 0 ∨ timeEnd ≤ t) :
    exactTime t lh = ⟨.saturated, { noFlags with ov := true }⟩ := by
  refine if_neg fun hr => ?_
  obtain ⟨h0, h1⟩ := (inTimeRange_iff t).1 hr
  exact h.elim h0.not_gt h1.not_ge

/-! ## Operands and options (R4, R7) -/

theorem longTicks_zero (sec ns : Nat) : longTicks sec ns 0 = (sec * 1000000000 + ns) * 65536 :=
  Nat.add_zero _

/-- An S-form time is read against the seconds base. -/
theorem expand_short (base sec ns : Nat) :
    expand base (.short sec ns) = .valid (((base * 65536 + sec) * 1000000000 + ns) * 65536) :=
  congrArg TimeVal.valid (longTicks_zero (base * 65536 + sec) ns)

theorem effForm_eq (o : Options) (c : Context) :
    effForm o c = match o.form with | some x => x | none => c.form := by
  unfold effForm
  cases o.form <;> rfl

theorem effRounding_eq (o : Options) (c : Context) :
    effRounding o c = match o.rounding with | some x => x | none => c.rounding := by
  unfold effRounding
  cases o.rounding <;> rfl

/-! ## Rounding (R7) -/

section
variable (neg : Bool) (q f : Nat) (hf : f < 65536)
include hf

theorem ticks_div_ticksPerNs : (q * 65536 + f) / ticksPerNs = q := by
  simp only [ticksPerNs]
  omega

theorem ticks_mod_ticksPerNs : (q * 65536 + f) % ticksPerNs = f := by
  simp only [ticksPerNs]
  omega

theorem roundNs_zero : roundNs .zero neg (q * 65536 + f) = q := ticks_div_ticksPerNs q f hf

theorem roundNs_up :
    roundNs .up neg (q * 65536 + f) = if neg then q else if f = 0 then q else q + 1 := by
  simp only [roundNs, ticks_div_ticksPerNs q f hf, ticks_mod_ticksPerNs q f hf]
  cases neg <;> simp

theorem roundNs_down :
    roundNs .down neg (q * 65536 + f) = if neg then if f = 0 then q else q + 1 else q := by
  simp only [roundNs, ticks_div_ticksPerNs q f hf, ticks_mod_ticksPerNs q f hf]
  cases neg <;> simp

/-- NEAREST: down below the half, up above it, and at the half to the even neighbour. -/
theorem roundNs_nearest :
    roundNs .nearest neg (q * 65536 + f) = if f < 32768 then q else if f = 32768 then q + q % 2 else q + 1 := by
  simp only [roundNs, ticks_div_ticksPerNs q f hf, ticks_mod_ticksPerNs q f hf]

theorem roundNs_nearest_below (h : f < 32768) : roundNs .nearest neg (q * 65536 + f) = q := by
  rw [roundNs_nearest neg q f hf, if_pos h]

theorem roundNs_nearest_above (h : 32768 < f) : roundNs .nearest neg (q * 65536 + f) = q + 1 := by
  rw [roundNs_nearest neg q f hf, if_neg h.not_gt, if_neg h.ne']

theorem roundNs_nearest_half (h : f = 32768) :
    roundNs .nearest neg (q * 65536 + f) = if q % 2 = 0 then q else q + 1 := by
  rw [roundNs_nearest neg q f hf, if_neg h.not_lt, if_pos h]
  split <;> omega

end

/-! ## Shaping (R8) -/

/-- The fields of a count of fraction units are those it is made of. -/
theorem rawOfTicks_longTicks (sec ns frac : Nat) (hns : ns < 1000000000) (hfrac : frac < 65536) :
    rawOfTicks (longTicks sec ns frac) = ⟨sec, ns, frac⟩ := by
  simp only [rawOfTicks, longTicks, ticksPerSec, ticksPerNs, nsPerSec, RawTime.mk.injEq]
  omega

/-- The fields of a whole count of ns. -/
theorem rawOfTicks_nsTicks (n : Nat) : rawOfTicks (nsTicks n) = ⟨n / 1000000000, n % 1000000000, 0⟩ := by
  simp only [rawOfTicks, nsTicks, ticksPerSec, ticksPerNs, RawTime.mk.injEq]
  omega

/-- A whole count of ns is beyond the range exactly from 2^48 seconds on. -/
theorem timeEnd_le_nsTicks (n : Nat) : timeEnd ≤ nsTicks n ↔ 281474976710656 * 1000000000 ≤ n := by
  simp only [timeEnd, nsTicks, ticksPerSec, ticksPerNs]
  omega

section
variable (m : Rounding) (base : Nat) (raised : Flags)

theorem shapeTime_long (sec ns frac : Nat) (hns : ns < 1000000000) (hfrac : frac < 65536) :
    shapeTime .long m base ⟨.valid (longTicks sec ns frac), raised⟩ =
      ⟨.long sec ns frac, .valid (longTicks sec ns frac), raised⟩ := by
  simp only [shapeTime, rawOfTicks_longTicks sec ns frac hns hfrac]

/-- The rounding carries past the range. -/
theorem shapeTime_short_saturated (t : Ticks) (h : 281474976710656 * 1000000000 ≤ roundNs m false t) :
    shapeTime .short m base ⟨.valid t, raised⟩ =
      ⟨.saturated .short, .saturated, { raised with ov := true, lh := false }⟩ :=
  if_pos ((timeEnd_le_nsTicks _).2 h)

theorem shapeTime_short (t : Ticks) (h : roundNs m false t < 281474976710656 * 1000000000) :
    shapeTime .short m base ⟨.valid t, raised⟩ =
      ⟨.short (roundNs m false t / 1000000000 % 65536) (roundNs m false t % 1000000000),
        .valid (roundNs m false t * 65536),
        { raised with
          ix := raised.ix || decide (t % 65536 ≠ 0)
          wr := raised.wr || decide (roundNs m false t / 1000000000 / 65536 ≠ base) }⟩ := by
  have hr : ¬timeEnd ≤ nsTicks (roundNs m false t) := fun hle => h.not_ge ((timeEnd_le_nsTicks _).1 hle)
  simp only [shapeTime, if_neg hr, shortOfNs, bne, beq_eq_decide, decide_not, ne_eq]
  rfl

/-- Sign and magnitude of an interval; magnitude zero has sign +. -/
theorem intervalField_signed (neg : Bool) (t : Nat) :
    intervalField (if neg then -(t : Int) else t) =
      .given (decide (neg = true ∧ t ≠ 0)) (rawOfTicks t).sec (rawOfTicks t).ns (rawOfTicks t).frac := by
  cases neg <;> simp [intervalField, Nat.pos_iff_ne_zero]

theorem shapeInterval_long (neg : Bool) (sec ns frac : Nat) (hns : ns < 1000000000) (hfrac : frac < 65536)
    (hneg : longTicks sec ns frac = 0 → neg = false) :
    shapeInterval .long m (.valid (if neg then -(longTicks sec ns frac : Int) else longTicks sec ns frac)) raised =
      ⟨.given neg sec ns frac, .valid (if neg then -(longTicks sec ns frac : Int) else longTicks sec ns frac), raised⟩ := by
  have hsign : decide (neg = true ∧ longTicks sec ns frac ≠ 0) = neg := by
    cases neg with
    | false => simp
    | true => simpa using fun h0 => Bool.noConfusion (hneg h0)
  simp only [shapeInterval, intervalField_signed, rawOfTicks_longTicks sec ns frac hns hfrac, hsign]

/-- The rounding carries past the range. -/
theorem shapeInterval_short_saturated (d : Int)
    (h : 281474976710656 * 1000000000 ≤ roundNs m (decide (d < 0)) d.natAbs) :
    shapeInterval .short m (.valid d) raised = ⟨.saturated, .saturated, { raised with ov := true }⟩ :=
  if_pos ((timeEnd_le_nsTicks _).2 h)

theorem shapeInterval_short (d : Int) (n : Nat) (hn : n = roundNs m (decide (d < 0)) d.natAbs)
    (h : n < 281474976710656 * 1000000000) :
    shapeInterval .short m (.valid d) raised =
      ⟨.given (decide (d < 0 ∧ n ≠ 0)) (n / 1000000000) (n % 1000000000) 0,
        .valid (if d < 0 then -((n * 65536 : Nat) : Int) else ((n * 65536 : Nat) : Int)),
        { raised with ix := raised.ix || decide (d.natAbs % 65536 ≠ 0) }⟩ := by
  have hr : ¬timeEnd ≤ nsTicks n := fun hle => h.not_ge ((timeEnd_le_nsTicks n).1 hle)
  have hfield := intervalField_signed (decide (d < 0)) (nsTicks n)
  rw [rawOfTicks_nsTicks] at hfield
  simp only [decide_eq_true_eq] at hfield
  have hzero : nsTicks n ≠ 0 ↔ n ≠ 0 := by simp [nsTicks]
  simp only [shapeInterval, ← hn, if_neg hr, hfield, hzero, bne, beq_eq_decide, decide_not, ne_eq]
  rfl

end

/-! ## The compare field (R11) -/

theorem compareTimes_less (a b : Ticks) (h : a < b) : compareTimes (.valid a) (.valid b) = .less := if_pos h

theorem compareTimes_equal (a b : Ticks) (h : a = b) : compareTimes (.valid a) (.valid b) = .equal :=
  (if_neg h.not_lt).trans (if_pos h)

theorem compareTimes_greater (a b : Ticks) (h : b < a) : compareTimes (.valid a) (.valid b) = .greater :=
  (if_neg h.not_gt).trans (if_neg h.ne')

theorem compareTimes_unordered (x y : TimeVal) (h : (∀ a, x ≠ .valid a) ∨ (∀ b, y ≠ .valid b)) :
    compareTimes x y = .unordered := by
  cases x with
  | unset => rfl
  | saturated => rfl
  | valid a =>
    cases y with
    | unset => rfl
    | saturated => rfl
    | valid b => exact h.elim (fun hx => absurd rfl (hx a)) fun hy => absurd rfl (hy b)

theorem compareSign_less (d : Int) (h : d < 0) : compareSign (.valid d) = .less := if_pos h

theorem compareSign_equal (d : Int) (h : d = 0) : compareSign (.valid d) = .equal :=
  (if_neg h.not_lt).trans (if_pos h)

theorem compareSign_greater (d : Int) (h : 0 < d) : compareSign (.valid d) = .greater :=
  (if_neg h.not_gt).trans (if_neg h.ne')

/-! ## R3 inverts R2 -/

/-- The factor as a numeral, for linear arithmetic. -/
theorem secTicks_eq (x : Int) : secTicks x = x * 65536000000000 := rfl

/-- The way back, before, in and after the inserted second, and on both sides of a deleted one. -/
theorem toDt_toUt (off : Int) (l : Leap) (d : Int) :
    (toDt off l (toUt off l d).1).1 = if (toUt off l d).2 then d - secTicks 1 else d := by
  cases l with
  | none => simp [toUt, toDt]
  | insert m =>
    by_cases hbefore : d < secTicks (m + off)
    · simp only [toUt, if_pos hbefore, toDt, Bool.false_eq_true, if_false]
      split <;> simp only [secTicks_eq] at * <;> omega
    · by_cases hinside : d < secTicks (m + off + 1)
      · simp only [toUt, if_neg hbefore, if_pos hinside, toDt, if_true]
        split <;> simp only [secTicks_eq] at * <;> omega
      · simp only [toUt, if_neg hbefore, if_neg hinside, toDt, Bool.false_eq_true, if_false]
        split <;> simp only [secTicks_eq] at * <;> omega
  | delete m =>
    by_cases hbefore : d < secTicks (m - 1 + off)
    · simp only [toUt, if_pos hbefore, toDt, Bool.false_eq_true, if_false]
      split_ifs <;> simp only [secTicks_eq] at * <;> omega
    · simp only [toUt, if_neg hbefore, toDt, Bool.false_eq_true, if_false]
      split_ifs <;> simp only [secTicks_eq] at * <;> omega

/-- LH marks the instants of the inserted second (R2). -/
theorem toUt_marks_iff (off : Int) (l : Leap) (d : Int) :
    (toUt off l d).2 = true ↔ ∃ m, l = .insert m ∧ secTicks (m + off) ≤ d ∧ d < secTicks (m + off + 1) := by
  cases l with
  | none => simp [toUt]
  | insert m =>
    simp only [toUt, Leap.insert.injEq, exists_eq_left']
    split_ifs <;> simp_all
  | delete m =>
    simp only [toUt]
    split <;> simp

/-! ## The statements -/

/-- Settles O7, from the answers of the two requests. -/
theorem flagsRequestsAnswer : Obligations.FlagsRequestsAnswer :=
  ⟨exec_flagsRead, fun ag o m s h => exec_flagsClear ag o s m h⟩

/-- Settles O6, from the way back of every DT instant and the instants that LH marks. -/
theorem civilTimeIsInverted : Obligations.CivilTimeIsInverted := by
  intro off l d
  have hback := toDt_toUt off l d
  exact ⟨fun h => by rw [hback, h, if_neg Bool.false_ne_true], toUt_marks_iff off l d, fun h => by rw [hback, if_pos h]⟩

/-- Settles O5: each request's answer with the row of R6 that its operands select, then the laws of operands, results,
flags and compare field. -/
theorem timeRequestsAnswer : Obligations.TimeRequestsAnswer := by
  refine ⟨?timeRead, ?timeConvert, ⟨?timeOffset, ?timeDiff⟩, ?operands, ?exact, ?rounding, ?times, ?intervals, ?flags,
    fun a b => ⟨compareTimes_less a b, compareTimes_equal a b, compareTimes_greater a b⟩, compareTimes_unordered,
    fun d => ⟨compareSign_less d, compareSign_equal d, compareSign_greater d⟩, rfl, rfl⟩
  case timeRead =>
    intro ag o sc s h
    rw [exec_timeRead ag o s sc h]
    refine ⟨?_, fun hsc hset => ?_, ?_, ?_⟩
    · rintro rfl; rfl
    · rw [currentTime_of_not_timeSet _ _ sc hsc hset]
    · rintro rfl hset; rw [currentTime_dt _ _ hset]
    · rintro rfl hset; rw [currentTime_ut _ _ hset]
  case timeConvert =>
    intro ag o a b f x s h
    have answered := exec_timeConvert ag o s a b f x h
    refine ⟨fun hab => exec_timeConvert_range ag o s a b f x h (by tauto), ?_, ?_, ?_, ?_, ?_⟩
    · intro hab hx; rw [answered hab, hx]; rfl
    · intro hab hx; rw [answered hab, hx]; rfl
    · rintro t hx rfl; rw [answered Iff.rfl, hx, convertTime_same]
    · rintro t hx rfl rfl; rw [answered (by decide), hx]; rfl
    · rintro t hx rfl rfl; rw [answered (by decide), hx]; rfl
  case timeOffset =>
    intro ag o x i s h
    rw [exec_timeOffset ag o s x i h]
    refine ⟨fun a b ha hb => ?_, fun hrow => ?_, fun a b hrow => ?_⟩
    · rw [ha, hb]; rfl
    · rw [offsetTime_unset _ _ hrow]
    · rw [offsetTime_saturated _ _ a b hrow]
  case timeDiff =>
    intro ag o x y s h
    refine ⟨fun hu a b ha hb => ?_, fun hu hrow => ?_, fun hu a hrow => ?_, exec_timeDiff_update ag o s x y h⟩
    · exact exec_timeDiff ag o s x y _ _ h hu (by rw [ha, hb]; rfl)
    · exact exec_timeDiff ag o s x y _ _ h hu (diffTimes_unset _ _ hrow)
    · exact exec_timeDiff ag o s x y _ _ h hu (diffTimes_saturated _ _ a hrow)
  case operands =>
    intro c o base sec ns frac neg f
    exact ⟨rfl, fun _ => rfl, rfl, expand_short base sec ns, rfl, rfl, rfl, rfl, rfl, effForm_eq o c, effRounding_eq o c⟩
  case exact => exact fun t lh => ⟨exactTime_of_inRange t lh, exactTime_of_outOfRange t lh⟩
  case rounding =>
    intro neg q f hf
    exact ⟨roundNs_zero neg q f hf, roundNs_up neg q f hf, roundNs_down neg q f hf, roundNs_nearest_below neg q f hf,
      roundNs_nearest_above neg q f hf, roundNs_nearest_half neg q f hf⟩
  case times =>
    intro f m base raised
    exact ⟨rfl, rfl, shapeTime_long m base raised,
      fun t => ⟨shapeTime_short_saturated m base raised t, shapeTime_short m base raised t⟩⟩
  case intervals =>
    intro f m raised
    refine ⟨rfl, rfl, fun neg sec ns frac hns hfrac hneg => ?_,
      fun d => ⟨shapeInterval_short_saturated m raised d, shapeInterval_short m raised d _ rfl⟩⟩
    exact shapeInterval_long m raised neg sec ns frac hns hfrac fun h0 => hneg (by exact_mod_cast h0)
  case flags => exact fun f r e => ⟨rfl, rfl⟩

end Sys2Proof.Machine
end

section
/-! What every step keeps of source table, selection and servo (R24, R68, R85), command by command, and that the properties of
every step hold of the part after power-on. -/

namespace Sys2Proof.Machine

/-! ## Commands by what they touch -/

section
variable {s : State}

theorem SelectionAgrees.of_quiet {t : State} (h : SelectionAgrees s) (k : quiet s t) : SelectionAgrees t := h.of_same k.same

/-- A command that answers a state in agreement keeps the agreement. -/
theorem SelectionAgrees.next {t : State} (h : SelectionAgrees t) :
    ∃ u, (.next t : Host.Outcome State Fault Refusal) = .next u ∧ SelectionAgrees u := ⟨t, rfl, h⟩

/-- A request command keeps the agreement when its block does. -/
theorem SelectionAgrees.request (h : SelectionAgrees s) (ag : Agent) (q : Submitted) (take : State → Answer)
    (ht : ∀ u, SelectionAgrees u → SelectionAgrees (take u).state) :
    ∃ u, (.next (runRequest ag q take s) : Host.Outcome State Fault Refusal) = .next u ∧ SelectionAgrees u :=
  (runRequest_keeps SelectionAgrees ag q take (fun _ _ _ hu => hu.of_same ⟨rfl, rfl⟩) ht s h).next

theorem SelectionAgrees.quietRequest (h : SelectionAgrees s) (ag : Agent) (q : Submitted) (take : State → Answer)
    (ht : ∀ u, quiet u (take u).state) :
    ∃ u, (.next (runRequest ag q take s) : Host.Outcome State Fault Refusal) = .next u ∧ SelectionAgrees u :=
  h.request ag q take fun u hu => hu.of_quiet (ht u)

theorem SelectionAgrees.sameRequest (h : SelectionAgrees s) (ag : Agent) (q : Submitted) (take : State → Answer)
    (ht : ∀ u, sameSelection u (take u).state) :
    ∃ u, (.next (runRequest ag q take s) : Host.Outcome State Fault Refusal) = .next u ∧ SelectionAgrees u :=
  h.request ag q take fun u hu => hu.of_same (ht u)

theorem SelectionAgrees.quietNext (h : SelectionAgrees s) {t : State} (k : quiet s t) :
    ∃ u, (.next t : Host.Outcome State Fault Refusal) = .next u ∧ SelectionAgrees u := (h.of_quiet k).next

theorem SelectionAgrees.sameNext (h : SelectionAgrees s) {t : State} (k : sameSelection s t) :
    ∃ u, (.next t : Host.Outcome State Fault Refusal) = .next u ∧ SelectionAgrees u := (h.of_same k).next

theorem SelectionAgrees.setFlight (h : SelectionAgrees s) (f : InFlight) : SelectionAgrees (s.setFlight f) :=
  h.of_same ⟨rfl, rfl⟩

end

/-- An empty source table and a servo in FREERUN agree, as after power-on. -/
theorem selectionAgrees_of_reset {s : State} (hsrc : s.src = SourceTable.reset) (hservo : s.ts.servo = .freerun) :
    SelectionAgrees s := by
  have hpath : ∀ i, s.path i = none := fun i => by
    rw [State.path, hsrc, List.getD_eq_getElem?_getD]
    change ((List.replicate 9 (none : Option SourcePath))[i]?).getD none = none
    rw [List.getElem?_replicate]
    split <;> rfl
  exact
    { size := by rw [hsrc]; rfl
      selected := fun i p hp => by rw [hpath] at hp; cases hp
      present := fun i hi => by rw [hsrc] at hi; cases hi
      servo := by rw [hsrc, hservo]; rfl
      suspended := by rw [hsrc, hservo]; rfl
      reference := by rw [hpath, hsrc]; rfl }

theorem resetPart_agrees (s : State) : SelectionAgrees (resetPart s) := selectionAgrees_of_reset rfl rfl

theorem runPartReset_agrees (ag : Agent) (q : Submitted) (s : State) (h : SelectionAgrees s) :
    SelectionAgrees (runPartReset ag q s) := by
  unfold runPartReset
  dsimp only
  split
  · exact resetPart_agrees _
  · exact h.of_quiet (quiet_bringInHand ag q s)

/-! ## Events that take the oldest message of a list -/

section
variable (s : State) (h : SelectionAgrees s)
include h

theorem execOriginTaken_agrees : ∃ t, execOriginTaken s = .next t ∧ SelectionAgrees t := by
  unfold execOriginTaken
  split
  · exact h.next
  · exact (takeOrigin_agrees _ _ (h.setFlight _)).next

theorem execSourceSample_agrees : ∃ t, execSourceSample s = .next t ∧ SelectionAgrees t := by
  unfold execSourceSample
  split
  · exact h.next
  · exact (takeSourceSample_agrees _ _ (h.setFlight _)).next

theorem execSourceMiss_agrees : ∃ t, execSourceMiss s = .next t ∧ SelectionAgrees t := by
  unfold execSourceMiss
  split
  · exact h.next
  · exact (takeSourceMiss_agrees _ _ (h.setFlight _)).next

theorem execRefEdge_agrees : ∃ t, execRefEdge s = .next t ∧ SelectionAgrees t := by
  unfold execRefEdge
  split
  · exact h.next
  · exact (takeRefEdge_agrees _ _ (h.setFlight _)).next

theorem execRegisterTaken_agrees : ∃ t, execRegisterTaken s = .next t ∧ SelectionAgrees t := by
  unfold execRegisterTaken
  split
  · exact h.next
  · exact (h.setFlight _).quietNext (quiet_takeRegister _ _)

theorem execClientSample_agrees : ∃ t, execClientSample s = .next t ∧ SelectionAgrees t := by
  unfold execClientSample
  split
  · exact h.next
  · exact (h.setFlight _).quietNext (quiet_takeClientSample _ _)

theorem execClientMiss_agrees : ∃ t, execClientMiss s = .next t ∧ SelectionAgrees t := by
  unfold execClientMiss
  split
  · exact h.next
  · exact (h.setFlight _).quietNext (quiet_takeClientMiss _ _)

theorem execEpochStepReport_agrees : ∃ t, execEpochStepReport s = .next t ∧ SelectionAgrees t := by
  unfold execEpochStepReport
  split
  · exact h.next
  · exact (h.setFlight _).quietNext (quiet_setEpoch _ _)

theorem execStepReport_agrees : ∃ t, execStepReport s = .next t ∧ SelectionAgrees t := by
  unfold execStepReport
  split
  · exact (h.setFlight _).sameNext (takeStep_quiet _ _ _ _ _).1
  · exact h.next

theorem execRekey_agrees : ∃ t, execRekey s = .next t ∧ SelectionAgrees t := by
  unfold execRekey
  split
  · exact (h.setFlight _).sameNext (takeChange_facts _ _).2.1
  · exact h.next

theorem execStaleDeadline_agrees (i : Nat) : ∃ t, execStaleDeadline i s = .next t ∧ SelectionAgrees t := by
  unfold execStaleDeadline
  split
  · exact (staleAtDeadline_agrees i s h).next
  · exact h.next

theorem execInputEdge_agrees (k : Nat) (e : EdgeKind) : ∃ t, execInputEdge k e s = .next t ∧ SelectionAgrees t := by
  unfold execInputEdge
  split
  · exact h.quietNext (quiet_takeEdge _ _ s)
  · exact h.next

end

/-! ## Every command, every step -/

/-- Every command keeps the agreement of source table, selection and servo. -/
theorem exec_agrees (c : Instr) (s : State) (h : SelectionAgrees s) : ∃ t, exec c s = .next t ∧ SelectionAgrees t := by
  cases c with
  | timeRead ag o _ => exact h.quietRequest ag _ _ fun u => quiet_finishTime ag o _ u
  | timeConvert ag o a b _ x => exact h.quietRequest ag _ _ fun u => quiet_takeTimeConvert ag o a b x u
  | timeDiff ag o a b => exact h.quietRequest ag _ _ fun u => quiet_takeTimeDiff ag o a b u
  | timeOffset ag o _ _ => exact h.quietRequest ag _ _ fun u => quiet_finishTime ag o _ u
  | flagsRead ag _ => exact h.quietRequest ag _ _ fun u => .refl u
  | flagsClear ag _ _ => exact h.quietRequest ag _ _ fun u => quiet_setCtx u ag _
  | partConfig ag _ c => exact h.request ag _ _ fun u => takePartConfig_agrees c u
  | servoRead ag _ => exact h.quietRequest ag _ _ fun u => .refl u
  | snapshotRead ag _ => exact h.quietRequest ag _ _ fun u => by unfold takeSnapshotRead; split <;> exact .refl u
  | servoRestart ag _ => exact h.request ag _ _ takeServoRestart_agrees
  | snapshotRestore ag _ r => exact h.request ag _ _ (takeSnapshotRestore_agrees r)
  | steerStep ag _ x => exact h.sameRequest ag _ _ (sameSelection_takeSteerStep ag x)
  | steerSlew ag _ i r => exact h.sameRequest ag _ _ (sameSelection_takeSteerSlew ag i r)
  | steerRate ag _ r => exact h.sameRequest ag _ _ (sameSelection_takeSteerRate ag r)
  | steerLeap ag _ l off => exact h.sameRequest ag _ _ (sameSelection_takeSteerLeap ag l off)
  | portEnable ag _ n => exact h.quietRequest ag _ _ (quiet_takePortEnable n)
  | portDisable ag _ n => exact h.request ag _ _ fun u => (takePortDisable_facts n u).1
  | portRead ag _ _ => exact h.quietRequest ag _ _ fun u => .refl u
  | sourceBar ag _ e r => exact h.request ag _ _ (takeSourceBar_agrees e r)
  | sourceUnbar ag _ e => exact h.request ag _ _ (takeSourceUnbar_agrees e)
  | sourceRead ag _ _ =>
    exact h.quietRequest ag _ _ fun u => by
      unfold takeSourceRead
      split
      · exact .refl u
      · split <;> exact .refl u
  | refLabel ag _ x off l => exact h.request ag _ _ (takeRefLabel_agrees ag x off l)
  | clientAdd ag _ j => exact h.quietRequest ag _ _ (quiet_takeClientAdd j)
  | clientRemove ag _ i => exact h.quietRequest ag _ _ (quiet_takeClientRemove i)
  | clientRead ag _ i => exact h.quietRequest ag _ _ (quiet_takeClientRead i)
  | epochConfig ag _ k => exact h.quietRequest ag _ _ (quiet_takeEpochConfig k)
  | epochRead ag _ => exact h.quietRequest ag _ _ fun u => .refl u
  | quotaSet ag _ a b c => exact h.sameRequest ag _ _ fun u => (takeQuotaSet_facts ag a b c u).2.1
  | schedAdd ag o r => exact h.sameRequest ag _ _ fun u => (takeSchedAdd_facts ag o r u).2.1
  | schedCancel ag _ x => exact h.sameRequest ag _ _ fun u => (takeSchedCancel_facts ag x u).2.1
  | schedRead ag _ x => exact h.sameRequest ag _ _ fun u => (takeSchedRead_facts ag x u).2.1
  | lineSet ag _ d => exact h.quietRequest ag _ _ (quiet_takeLineOp ag .set d)
  | lineClear ag _ d => exact h.quietRequest ag _ _ (quiet_takeLineOp ag .clear d)
  | lineLoad ag _ d c v => exact h.quietRequest ag _ _ (quiet_takeLineLoad ag d c v)
  | lineTest ag _ d => exact h.quietRequest ag _ _ (quiet_takeLineTest ag d)
  | lineStore ag _ d c => exact h.quietRequest ag _ _ (quiet_takeLineStore ag d c)
  | lineOwn ag _ d w => exact h.quietRequest ag _ _ (quiet_takeLineOwn ag d w)
  | lineConfig ag _ d c => exact h.quietRequest ag _ _ (quiet_takeLineConfig ag d c)
  | captureRead ag o => exact h.quietRequest ag _ _ (quiet_takeCaptureRead ag o)
  | captureRelease ag _ n => exact h.quietRequest ag _ _ (quiet_takeCaptureRelease ag n)
  | contextSet ag _ x => exact h.quietRequest ag _ _ (quiet_takeContextSet ag x)
  | contextRead ag _ => exact h.quietRequest ag _ _ fun u => .refl u
  | grantClaim ag o => exact h.quietRequest ag _ _ (quiet_takeGrantClaim ag o)
  | grantRenew ag _ => exact h.quietRequest ag _ _ (quiet_takeGrantRenew ag)
  | grantRelease ag _ => exact h.quietRequest ag _ _ (quiet_takeGrantRelease ag)
  | agentReset ag _ => exact h.quietRequest ag _ _ (quiet_agentReset ag)
  | partReset ag _ => exact (runPartReset_agrees ag _ s h).next
  | alertRead ag _ => exact h.quietRequest ag _ _ (quiet_takeAlertRead ag)
  | alertReturn ag _ n => exact h.quietRequest ag _ _ (quiet_takeAlertReturn ag n)
  | alertMask ag _ m => exact h.quietRequest ag _ _ (quiet_takeAlertMask ag m)
  | submitWindow ag x => exact h.quietNext (quiet_selectWindow ag _ x s)
  | collectWindow ag x => exact h.quietNext (quiet_selectWindow ag _ x s)
  | otherWindow ag d x => exact h.quietNext (quiet_selectWindow ag d x s)
  | agentResetInput ag =>
    exact h.quietNext (((quiet_cutOff ag s).trans (quiet_setResetIn ag true _)).trans (quiet_agentReset ag _))
  | resetInput => exact (resetPart_agrees _).next
  | powerOn => exact (selectionAgrees_of_reset (s := powerOn s) rfl rfl).next
  | schedAgentReset ag => exact h.sameNext (schedAgentReset_facts ag s).2.1
  | lineAgentReset ag => exact h.quietNext (quiet_lineAgentReset ag s)
  | grantAgentReset ag => exact h.quietNext (quiet_grantAgentReset ag s)
  | slewNotifyReset ag => exact h.sameNext (sameSelection_slewNotifyReset ag s)
  | linkUp n => exact h.quietNext (linkUp_quiet n s)
  | linkDown n => exact ((linkDown_facts n s).1 h).next
  | frameArrival n f => exact ((receive_facts n f s).1 h).next
  | transmitEnd n => exact h.quietNext (quiet_transmitEnd n s)
  | frameDeparts n => exact h.quietNext (quiet_departs n s)
  | echoSlot n => exact h.quietNext (quiet_echoSlot n s)
  | replyWaitExpiry n q => exact ((replyWaitExpiry_facts n q s).1 h).next
  | originTaken => exact execOriginTaken_agrees s h
  | sourceSample => exact execSourceSample_agrees s h
  | sourceMiss => exact execSourceMiss_agrees s h
  | staleDeadline i => exact execStaleDeadline_agrees s h i
  | refDeadline => exact (staleAtDeadline_agrees 8 s h).next
  | staleRemoval i => exact (removeStale_agrees i s h).next
  | refEdge => exact execRefEdge_agrees s h
  | measurement => exact (takeMeasurement_agrees s h).next
  | utcPairAdopt => exact h.sameNext (sameSelection_takePair s)
  | slewComplete => exact h.sameNext (sameSelection_completeSlew s)
  | leapApply => exact h.sameNext (sameSelection_dueLeap s)
  | holdoverGrade => exact h.sameNext (sameSelection_gradeHoldover s)
  | holdoverExpiry => exact (overHoldover_agrees s h).next
  | snapshotSave => exact h.sameNext (sameSelection_saveSnapshot s)
  | registerTaken => exact execRegisterTaken_agrees s h
  | clientSample => exact execClientSample_agrees s h
  | clientMiss => exact execClientMiss_agrees s h
  | lapseTimer i => exact h.quietNext (quiet_endLapse i s)
  | epochInstant => exact h.quietNext (quiet_makeInstant s)
  | epochStepReport => exact execEpochStepReport_agrees s h
  | stepReport => exact execStepReport_agrees s h
  | rekey => exact execRekey_agrees s h
  | keyReached l => exact h.sameNext (keyReached_facts l s).2.1
  | pulseEnd i => exact h.quietNext (quiet_endPulse i s)
  | inputEdge k e => exact execInputEdge_agrees s h k e
  | grantExpiry => exact h.quietNext (quiet_expireGrant s)
  | renewalReport => exact h.quietNext (quiet_takeRenewal s)
  | alertRaise ag k => exact h.quietNext (quiet_takeRaise ag k s)
  | scheduleAlertRaise ag => exact h.quietNext (quiet_takeSchedRaise ag s)
  | alertDelivery ag => exact h.quietNext (quiet_deliverAlert ag s)
  | resetInputRelease => exact h.sameNext ⟨rfl, rfl⟩
  | agentResetInputRelease ag => exact h.quietNext (quiet_setResetIn ag false s)

/-- A step, of a command or idle, keeps the agreement. -/
theorem step_agrees (s : State) (h : SelectionAgrees s) : ∃ t, step s = .next t ∧ SelectionAgrees t := by
  unfold step
  split
  · exact exec_agrees _ _ (h.of_same ⟨rfl, rfl⟩)
  · split
    · exact exec_agrees _ s h
    · exact h.sameNext (sameSelection_advance s s.span)

/-- Settles O58: every command keeps the agreement, and so does the passing of time. -/
theorem stepKeepsSelection : Obligations.StepKeepsSelection := by
  intro s t h hstep
  obtain ⟨u, hu, hagrees⟩ := step_agrees s h
  rw [hu] at hstep
  cases hstep
  exact hagrees

/-! ## After power-on -/

/-- Settles O57: the source table is empty, the schedule holds no entry, and every queue is empty. -/
theorem propertiesHoldAtReset : Obligations.PropertiesHoldAtReset := by
  refine ⟨selectionAgrees_of_reset rfl rfl, ?schedule, ?room⟩
  case schedule =>
    exact
      { timescale := .nil
        elapsed := .nil
        timescaleDomain := fun e he => absurd he List.not_mem_nil
        elapsedDomain := fun e he => absurd he List.not_mem_nil
        indices := .nil
        range := fun e he => absurd he List.not_mem_nil
        periods := fun e he => absurd he List.not_mem_nil
        use := fun _ => Nat.zero_le _
        quotas := by decide }
  case room =>
    exact
      { class1 := fun n => by cases n <;> exact Nat.zero_le _
        captures := fun ag => by cases ag <;> exact Nat.zero_le _
        fifo := fun ag => by cases ag <;> exact Nat.zero_le _
        urgent := fun ag => by cases ag <;> exact Nat.zero_le _
        nested := fun ag => by cases ag <;> exact Nat.zero_le _ }

end Sys2Proof.Machine
end

section
/-! The timescale unit in closed form: what each of its operations makes of the timescale record, and what it raises. -/

namespace Sys2Proof.Machine

/-! ## The record and the raises -/

/-- The part with the timescale record `t`, and with `f ag` raised toward each agent. -/
def State.retime (s : State) (t : Timescale) (f : Agent → List Raise) : State :=
  { s with ts := t, flight := { s.flight with raises := s.raisesWith f } }

section
variable (s : State)

@[simp] theorem raisesWith_nil : (s.raisesWith fun _ => []) = s.flight.raises := by simp [State.raisesWith]

theorem retime_raisesWith (t : Timescale) (f g : Agent → List Raise) :
    (s.retime t f).raisesWith g = s.raisesWith fun ag => f ag ++ g ag := by
  simp [State.raisesWith, State.retime]

@[simp] theorem retime_ts (t : Timescale) (f : Agent → List Raise) : (s.retime t f).ts = t := rfl
@[simp] theorem retime_src (t : Timescale) (f : Agent → List Raise) : (s.retime t f).src = s.src := rfl

@[simp] theorem retime_retime (t u : Timescale) (f g : Agent → List Raise) :
    (s.retime t f).retime u g = s.retime u fun ag => f ag ++ g ag := by
  simp only [State.retime, State.raisesWith, List.append_assoc]

@[simp] theorem retime_self : s.retime s.ts (fun _ => []) = s := by simp [State.retime]

theorem setTs_eq_retime (t : Timescale) : s.setTs t = s.retime t fun _ => [] := by simp [State.retime, State.setTs]

@[simp] theorem retime_setTs (t u : Timescale) (f : Agent → List Raise) : (s.retime t f).setTs u = s.retime u f := rfl

theorem raiseTo_eq_retime (ag : Agent) (r : Raise) :
    raiseTo ag r s = s.retime s.ts fun b => if b = ag then [r] else [] := by
  cases ag <;>
    simp [raiseTo, State.retime, State.raisesWith, State.setFlight, PerAgent.set, PerAgent.get]

theorem raiseAll_eq_retime (r : Raise) : raiseAll r s = s.retime s.ts fun _ => [r] := rfl

/-- The end of a slew record, whichever it is, or none (R31). -/
theorem endSlew_eq (e : SlewEnd) : endSlew e s = s.retime { s.ts with slew := none } (slewRaise s.ts.slew e) := by
  unfold endSlew
  cases hw : s.ts.slew with
  | none =>
    have hts : ({ s.ts with slew := none } : Timescale) = s.ts := by rw [← hw]
    rw [hts]
    exact (retime_self s).symm
  | some w =>
    cases hn : w.notify with
    | none =>
      have hr : slewRaise (some w) e = fun _ => [] := funext fun ag => by simp [slewRaise, hn]
      simp only [hr, hn, setTs_eq_retime]
    | some a =>
      have hr : slewRaise (some w) e = fun b => if b = a then [.slew e] else [] := funext fun ag => by
        simp [slewRaise, hn, eq_comm]
      simp only [hr, hn, setTs_eq_retime, raiseTo_eq_retime, retime_retime, retime_ts, List.nil_append]

theorem replaceSlew_eq (w : Slew) :
    replaceSlew w s = s.retime { s.ts with slew := some w } (slewRaise s.ts.slew .replaced) := by
  rw [replaceSlew, endSlew_eq]
  rfl

/-- The servo state is set, and SERVO tells of it where it is another (R34). -/
theorem changeServo_eq (x : ServoState) :
    changeServo x s =
      s.retime { s.ts with servo := x } fun _ => if s.ts.servo = x then [] else [.servo s.ts.servo x] := by
  unfold changeServo
  split
  next hx =>
    have hts : ({ s.ts with servo := x } : Timescale) = s.ts := by rw [← hx]
    rw [hts]
    exact (retime_self s).symm
  next => rw [raiseAll_eq_retime, setTs_eq_retime, retime_retime]; rfl

theorem enterAcquire_eq :
    enterAcquire s =
      s.retime { s.ts with servo := .acquire, inWindow := 0, outCount := 0, clamp := 0, snapAt := none, holdAge := 0 }
        fun _ => if s.ts.servo = .acquire then [] else [.servo s.ts.servo .acquire] := by
  rw [enterAcquire, changeServo_eq]
  rfl

theorem enterHoldover_eq (h : s.ts.servo ≠ .holdover) :
    enterHoldover s =
      s.retime
        { s.ts with
          servo := .holdover, slew := none, holdEntry := s.ts.quality, holdAge := 0, holdSince := s.ts.el, snapAt := none }
        fun ag => slewRaise s.ts.slew .dropped ag ++ [.servo s.ts.servo .holdover] := by
  rw [enterHoldover, endSlew_eq, changeServo_eq]
  simp [h]

theorem regrade_eq :
    regrade s = s.retime { s.ts with quality := gradeOf s.ts (s.selectedPath.map SourcePath.cls) } fun _ => [] :=
  setTs_eq_retime _ _

/-- The record after HOLDOVER has expired, the time being set (R29, R34). -/
theorem expireHoldover_eq (h : s.ts.servo = .holdover) (hset : s.ts.timeSet = true) :
    expireHoldover s =
      s.retime { s.ts with servo := .freerun, rateBasis := false, holdAge := 0, quality := 14 }
        fun _ => [.servo .holdover .freerun] := by
  rw [expireHoldover, changeServo_eq, regrade_eq]
  simp [h, gradeOf, hset]

/-! ## Leaps and steps -/

theorem leapDue_insert (off : Int) (m : Nat) (d : Ticks) :
    leapDue off (.insert m) d = decide (secTicks (m + off + 1) ≤ (d : Int)) := rfl

theorem leapDue_delete (off : Int) (m : Nat) (d : Ticks) :
    leapDue off (.delete m) d = decide (secTicks (m - 1 + off) ≤ (d : Int)) := rfl

/-- A leap that has come due in a step is applied after the step is reported (R30, R36). -/
theorem stepTo_eq (new : Ticks) (sub : Nat) : stepTo new sub s = stepped new sub s := by
  rw [stepTo, endSlew_eq]
  cases hl : s.ts.leap with
  | none => simp [stepped, leapTaken, hl, leapDue, leapInstant, reportStep, State.retime, State.setTs, State.setFlight]
  | insert m =>
    by_cases hd : secTicks (m + s.ts.utc + 1) ≤ (new : Int) <;>
      simp [stepped, leapTaken, hl, leapDue_insert, hd, reportStep, applyLeap, reportChange, removedAt, raiseAll_eq_retime,
        State.retime, State.setTs, State.setFlight, State.raisesWith]
  | delete m =>
    by_cases hd : secTicks (m - 1 + s.ts.utc) ≤ (new : Int) <;>
      simp [stepped, leapTaken, hl, leapDue_delete, hd, reportStep, applyLeap, reportChange, removedAt, raiseAll_eq_retime,
        State.retime, State.setTs, State.setFlight, State.raisesWith]

end

end Sys2Proof.Machine
end

section
/-! The reports of selection and the timers of the timescale unit, its reading, and the pairs and leaps it takes. -/

namespace Sys2Proof.Machine

section
variable {s : State}

/-! ## The reports of selection (R24) -/

theorem takeSelected_of_resting (h : s.ts.servo = .freerun ∨ s.ts.servo = .holdover) :
    takeSelected s = enterAcquire s := by
  rcases h with h | h <;> simp [takeSelected, h]

theorem takeMoved_of_acquire (cls : Nat) (last : Option Int) (h : s.ts.servo = .acquire) :
    takeMoved cls last s = enterAcquire s := by
  simp [takeMoved, h]

/-- LOCKED is kept where the new path's last offset is within the lock window. -/
theorem takeMoved_within (cls : Nat) (o : Int) (h : s.ts.servo = .locked)
    (ho : o.natAbs ≤ nsTicks s.ts.settings.lockWindow) :
    takeMoved cls (some o) s = s.setTs { s.ts with lockClass := cls, outCount := 0 } := by
  simp [takeMoved, h, ho]

theorem takeMoved_outside (cls : Nat) (last : Option Int) (h : s.ts.servo = .locked)
    (ho : ¬∃ o, last = some o ∧ o.natAbs ≤ nsTicks s.ts.settings.lockWindow) :
    takeMoved cls last s = enterAcquire s := by
  cases last with
  | none => simp [takeMoved, h]
  | some o =>
    have hout : ¬o.natAbs ≤ nsTicks s.ts.settings.lockWindow := fun hle => ho ⟨o, rfl, hle⟩
    simp [takeMoved, h, hout]

theorem takeLost_of_basis (h : s.ts.servo = .acquire ∨ s.ts.servo = .locked) (hb : s.ts.rateBasis = true)
    (hset : s.ts.timeSet = true) : takeLost s = enterHoldover s := by
  rcases h with h | h <;> simp [takeLost, h, hb, hset]

theorem takeLost_of_no_basis (h : s.ts.servo = .acquire ∨ s.ts.servo = .locked)
    (hb : s.ts.rateBasis = false ∨ s.ts.timeSet = false) :
    takeLost s = s.retime { s.ts with servo := .freerun, snapAt := none } fun _ => [.servo s.ts.servo .freerun] := by
  have hc : (s.ts.rateBasis && s.ts.timeSet) = false := Bool.and_eq_false_iff.2 hb
  rcases h with h | h <;> simp [takeLost, h, hc, changeServo_eq]

/-! ## Timers (R29, R31, R42) -/

theorem slewDone_iff (t : Timescale) : slewDone t = true ↔ ∃ w, t.slew = some w ∧ slewLeft w = 0 := by
  cases h : t.slew <;> simp [slewDone, h]

theorem gradeOf_holdover (t : Timescale) (cls : Option Nat) (h : t.servo = .holdover) (hset : t.timeSet = true) :
    gradeOf t cls = min (t.holdEntry + 1 + t.holdAge * nsPerSec / t.settings.holdStep) 14 := by
  simp [gradeOf, h, hset, holdoverGradeOf]

theorem holdoverOver_iff (t : Timescale) :
    holdoverOver t = true ↔ t.servo = .holdover ∧ t.settings.holdLimit ≤ t.holdAge * nsPerSec := by
  simp [holdoverOver]

theorem saveDue_iff (t : Timescale) : saveDue t = true ↔ ∃ x, t.snapAt = some x ∧ t.servo = .locked ∧ x ≤ t.el := by
  cases h : t.snapAt <;> simp [saveDue, h]

theorem gradeHoldover_of_ne (h : s.ts.servo ≠ .holdover) : gradeHoldover s = s := if_neg h

theorem gradeHoldover_of_holdover (h : s.ts.servo = .holdover) (hset : s.ts.timeSet = true) :
    gradeHoldover s = s.setTs { s.ts with
      quality := min (s.ts.holdEntry + 1 + s.ts.holdAge * nsPerSec / s.ts.settings.holdStep) 14 } := by
  rw [gradeHoldover, if_pos h, regrade, gradeOf_holdover _ _ h hset]

theorem overHoldover_of_not_over (h : ¬holdoverOver s.ts = true) : overHoldover s = s := if_neg h

/-! ## Pairs and leaps (R35, R36) -/

theorem insideInserted_iff (off : Int) (l : Leap) (d : Ticks) :
    insideInserted off l d = true ↔ ∃ m : Nat, l = .insert m ∧ secTicks (m + off) ≤ (d : Int) ∧ (d : Int) < secTicks (m + off + 1) := by
  cases l <;> simp [insideInserted]

theorem bringUp_insert (off : Int) (m : Nat) (d : Ticks) :
    bringUp off (.insert m) d =
      if m % 86400 ≠ 0 then (off, .none)
      else if secTicks (m + off + 1) ≤ (d : Int) then (addOffset off 1, .none) else (off, .insert m) := by
  by_cases hm : m % 86400 = 0
  · simp [bringUp, Leap.midnightOk, hm, leapDue_insert, Leap.isDelete]
  · simp [bringUp, Leap.midnightOk, hm, leapDue, leapInstant]

theorem bringUp_delete (off : Int) (m : Nat) (d : Ticks) :
    bringUp off (.delete m) d =
      if m % 86400 ≠ 0 then (off, .none)
      else if secTicks (m - 1 + off) ≤ (d : Int) then (addOffset off (-1), .none) else (off, .delete m) := by
  by_cases hm : m % 86400 = 0
  · simp [bringUp, Leap.midnightOk, hm, leapDue_delete, Leap.isDelete]
  · simp [bringUp, Leap.midnightOk, hm, leapDue, leapInstant]

/-- A pair is adopted by a servo that follows, outside an inserted second, where it differs (R35). -/
theorem adoptPair_eq (off : Option Int) (l : Option Leap) (arrival : Ticks) :
    adoptPair off l arrival s =
      if (s.ts.servo = .acquire ∨ s.ts.servo = .locked) ∧ insideInserted s.ts.utc s.ts.leap s.ts.dt = false ∧
          bringUp (off.getD s.ts.utc) (l.getD s.ts.leap) (max arrival s.ts.dt) ≠ (s.ts.utc, s.ts.leap) then
        reportChange none (s.setTs { s.ts with
          utc := (bringUp (off.getD s.ts.utc) (l.getD s.ts.leap) (max arrival s.ts.dt)).1
          leap := (bringUp (off.getD s.ts.utc) (l.getD s.ts.leap) (max arrival s.ts.dt)).2 })
      else s := by
  unfold adoptPair
  refine if_congr ?_ rfl rfl
  simp only [Bool.and_eq_true, Bool.or_eq_true, decide_eq_true_eq, Bool.not_eq_true', and_assoc]

/-- A pair at the front of what the source table hands over, taken if its path is the selected one (R24, R35). -/
theorem takePair_of_pair {i : Nat} {off : Option Int} {l : Option Leap} {arrival : Ticks} {rest : List TimescaleMsg}
    (hmsg : s.flight.toTimescale = .pair i off l arrival :: rest) :
    takePair s =
      if s.src.selected = some i then adoptPair off l arrival (s.setFlight { s.flight with toTimescale := rest })
      else s.setFlight { s.flight with toTimescale := rest } := by
  unfold takePair
  rw [hmsg]
  rfl

theorem applyLeap_insert (m : Nat) (h : s.ts.leap = .insert m) :
    applyLeap s =
      reportChange none (s.retime { s.ts with utc := addOffset s.ts.utc 1, leap := .none }
        fun _ => [.leap .insert (addOffset s.ts.utc 1)]) := by
  rw [applyLeap, h]
  rfl

theorem applyLeap_delete (m : Nat) (h : s.ts.leap = .delete m) :
    applyLeap s =
      reportChange (some (secTicks (m - 1 + s.ts.utc)).toNat)
        (s.retime { s.ts with utc := addOffset s.ts.utc (-1), leap := .none }
          fun _ => [.leap .delete (addOffset s.ts.utc (-1))]) := by
  rw [applyLeap, h]
  rfl

theorem dueLeap_of_due (h : leapDue s.ts.utc s.ts.leap s.ts.dt = true) : dueLeap s = applyLeap s := if_pos h

theorem dueLeap_of_not_due (h : leapDue s.ts.utc s.ts.leap s.ts.dt = false) : dueLeap s = s :=
  if_neg (by rw [h]; exact Bool.false_ne_true)

/-- Within its range the offset moves by the leap (R36). -/
theorem addOffset_of_inRange (off d : Int) (h0 : -32768 ≤ off + d) (h1 : off + d ≤ 32767) : addOffset off d = off + d :=
  if_pos ⟨h0, h1⟩

end

/-! ## The statements -/

/-- Settles O8: both requests answer from the record and the store. -/
theorem timescaleIsRead : Obligations.TimescaleIsRead := by
  refine ⟨fun ag o s h => ?_, fun ag o s h => ⟨fun r hr => ?_, fun hr => ?_⟩⟩
  · exact congrArg Host.Outcome.next (runRequest_answer s ag _ _ h s _ _ rfl)
  · refine congrArg Host.Outcome.next (runRequest_answer s ag _ _ h s _ _ ?_)
    simp [takeSnapshotRead, hr, accept]
  · refine congrArg Host.Outcome.next (runRequest_refuse ag _ s _ _ h ?_)
    simp [takeSnapshotRead, hr]

/-- Settles O14, row by row of the table of R24. -/
theorem selectionReportsMoveTheServo : Obligations.SelectionReportsMoveTheServo := by
  intro cls last s
  refine ⟨fun h => ?_, fun h => ?_, fun h hout => ?_, fun h hin => ?_, fun h hb hset => ?_, fun h hb => ?_⟩
  · exact (takeSelected_of_resting h).trans (enterAcquire_eq s)
  · exact (takeMoved_of_acquire cls last h).trans (enterAcquire_eq s)
  · exact (takeMoved_outside cls last h hout).trans (enterAcquire_eq s)
  · obtain ⟨o, rfl, ho⟩ := hin
    exact takeMoved_within cls o h ho
  · have hne : s.ts.servo ≠ .holdover := by rcases h with h | h <;> simp [h]
    exact (takeLost_of_basis h hb hset).trans (enterHoldover_eq s hne)
  · exact takeLost_of_no_basis h hb

/-- Settles O19, timer by timer. -/
theorem timescaleTimersAct : Obligations.TimescaleTimersAct := by
  intro s
  refine ⟨fun w hw hmag hsub => ?complete, fun hleft => ?running, fun h hset => ?grade, fun h => ⟨?noGrade, ?noExpiry⟩,
    fun hage => ?young, fun h hset hage => ?expire, fun x hx h hel => ?save, fun hx => ?noSave, fun ag hag => ?reset,
    fun ag hag => ?noReset⟩
  case complete =>
    have hdone : slewDone s.ts = true := (slewDone_iff _).2 ⟨w, hw, by simp [slewLeft, hmag, hsub]⟩
    refine congrArg Host.Outcome.next ((if_pos hdone).trans ?_)
    rw [endSlew_eq, hw]
    rfl
  case running =>
    refine congrArg Host.Outcome.next (if_neg fun hdone => ?_)
    obtain ⟨w, hw, hzero⟩ := (slewDone_iff _).1 hdone
    rcases hleft with hnone | ⟨v, hv, hpos⟩
    · rw [hw] at hnone; cases hnone
    · rw [hw] at hv; cases hv; omega
  case grade => exact congrArg Host.Outcome.next (gradeHoldover_of_holdover h hset)
  case noGrade => exact congrArg Host.Outcome.next (gradeHoldover_of_ne h)
  case noExpiry =>
    exact congrArg Host.Outcome.next (overHoldover_of_not_over fun hover => h ((holdoverOver_iff _).1 hover).1)
  case young =>
    exact congrArg Host.Outcome.next
      (overHoldover_of_not_over fun hover => hage.not_ge ((holdoverOver_iff _).1 hover).2)
  case expire =>
    exact congrArg Host.Outcome.next ((if_pos ((holdoverOver_iff _).2 ⟨h, hage⟩)).trans (expireHoldover_eq s h hset))
  case save =>
    refine congrArg Host.Outcome.next ((if_pos ((saveDue_iff _).2 ⟨x, hx, h, hel⟩)).trans ?_)
    rw [hx]
    rfl
  case noSave =>
    refine congrArg Host.Outcome.next (if_neg fun hdue => ?_)
    obtain ⟨x, hsnap, hlocked, hel⟩ := (saveDue_iff _).1 hdue
    exact (hx x hsnap hlocked).not_ge hel
  case reset => exact congrArg Host.Outcome.next (if_pos (List.contains_iff_mem.2 hag))
  case noReset => exact congrArg Host.Outcome.next (if_neg fun hc => hag (List.contains_iff_mem.1 hc))

/-- Settles O18: the pair that arrives is brought up to the later of its arrival and DT, and adopted where the servo follows
outside an inserted second; the standing announcement is applied once DT has reached its instant. -/
theorem pairsAreAdoptedAndLeapsApplied : Obligations.PairsAreAdoptedAndLeapsApplied := by
  refine ⟨fun s i off l arrival rest hmsg => ?_, fun s => ⟨fun hl => ?none, fun m hl hd => ?insertBefore,
    fun m hl hd => ?deleteBefore, fun m hl hd => ⟨?insertAt, fun h1 h0 => ?_⟩, fun m hl hd => ⟨?deleteAt, fun h1 h0 => ?_⟩⟩⟩
  · intro t follows inside instant off0 pair u
    have hpair : bringUp off0 (l.getD t.leap) (max arrival t.dt) = pair := by
      show _ = (match l.getD t.leap with | .none => _ | .insert m => _ | .delete m => _)
      cases l.getD t.leap with
      | none => rfl
      | insert m => exact bringUp_insert off0 m _
      | delete m => exact bringUp_delete off0 m _
    have hexec : exec .utcPairAdopt s = .next (if s.src.selected = some i then adoptPair off l arrival u else u) :=
      congrArg Host.Outcome.next (takePair_of_pair hmsg)
    have hinside : insideInserted t.utc t.leap t.dt = true ↔ inside := insideInserted_iff _ _ _
    have hadopt : adoptPair off l arrival u =
        if (t.servo = .acquire ∨ t.servo = .locked) ∧ insideInserted t.utc t.leap t.dt = false ∧ pair ≠ (t.utc, t.leap) then
          reportChange none (u.setTs { t with utc := pair.1, leap := pair.2 })
        else u := hpair ▸ adoptPair_eq off l arrival
    rw [hexec, hadopt]
    refine ⟨fun hdrop => ?_, fun hfollows hout hdiff => ?_⟩
    · refine congrArg Host.Outcome.next ?_
      split
      next hsel =>
        refine if_neg fun ⟨hservo, hout, hdiff⟩ => ?_
        rcases hdrop with hnot | hin | hsame
        · exact hnot ⟨hsel, hservo⟩
        · rw [hinside.2 hin] at hout; cases hout
        · exact hdiff hsame
      next => rfl
    · rw [if_pos hfollows.1, if_pos ⟨hfollows.2, Bool.eq_false_iff.2 fun hin => hout (hinside.1 hin), hdiff⟩]
      rfl
  case none => exact congrArg Host.Outcome.next (dueLeap_of_not_due (by rw [hl]; rfl))
  case insertBefore =>
    exact congrArg Host.Outcome.next (dueLeap_of_not_due (by rw [hl, leapDue_insert, decide_eq_false hd.not_ge]))
  case deleteBefore =>
    exact congrArg Host.Outcome.next (dueLeap_of_not_due (by rw [hl, leapDue_delete, decide_eq_false hd.not_ge]))
  case insertAt =>
    have hdue : leapDue s.ts.utc s.ts.leap s.ts.dt = true := by rw [hl, leapDue_insert, decide_eq_true hd]
    exact congrArg Host.Outcome.next ((dueLeap_of_due hdue).trans (applyLeap_insert m hl))
  case deleteAt =>
    have hdue : leapDue s.ts.utc s.ts.leap s.ts.dt = true := by rw [hl, leapDue_delete, decide_eq_true hd]
    exact congrArg Host.Outcome.next ((dueLeap_of_due hdue).trans (applyLeap_delete m hl))
  · exact addOffset_of_inRange _ _ (by omega) (by omega)
  · exact addOffset_of_inRange _ _ (by omega) (by omega)

end Sys2Proof.Machine
end

section
/-! The requests that restart, restore and steer the timescale unit. -/

namespace Sys2Proof.Machine

section
variable {s : State}

/-! ## Selection and FAULT in closed form (R32, R83, R85) -/

/-- Nothing is selected, and no path is a candidate. -/
theorem reexamine_none (c : SourceCause) (hsel : s.src.selected = none) (hb : bestCandidate s.src = none) :
    reexamine c s = s := by
  unfold reexamine
  split
  · rfl
  · rw [hsel, hb]

/-- The best candidate is selected where no path was. -/
theorem reexamine_first (c : SourceCause) (hsus : s.src.suspended = false) (hsel : s.src.selected = none) {i : Nat}
    {p : SourcePath} (hb : bestCandidate s.src = some (i, p)) :
    reexamine c s = selectPath i p none c takeSelected s := by
  unfold reexamine
  rw [if_neg (by rw [hsus]; exact Bool.false_ne_true), hsel, hb]

/-- The part with entry `i` as its selected path. -/
def State.selecting (s : State) (i : Nat) (p : SourcePath) : State :=
  { s with
    src := { s.src with selected := some i, entries := s.src.entries.set i (some { p with state := .selected }) }
    flight := { s.flight with toTimescale := [] } }

theorem selectPath_eq {i : Nat} {p : SourcePath} (hp : s.path i = some p) (prev : Option (Nat × Nat)) (c : SourceCause)
    (report : State → State) :
    selectPath i p prev c report s =
      regrade (raiseAll (.source ⟨prev, some (i, p.identity), c⟩) (report (s.selecting i p))) := by
  rw [selectPath, setPathState, hp]
  rfl

theorem selectedPath_of_set {i : Nat} {q : SourcePath} {l : List (Option SourcePath)} (hsel : s.src.selected = some i)
    (hl : s.src.entries = l.set i (some q)) (hi : i < l.length) : s.selectedPath = some q := by
  simp [State.selectedPath, hsel, State.path, hl, hi]

theorem selectedPath_of_selected {i : Nat} (hsel : s.src.selected = some i) : s.selectedPath = s.path i := by
  rw [State.selectedPath, hsel]

theorem gradeOf_acquire (t : Timescale) (cls : Nat) (h : t.servo = .acquire) :
    gradeOf t (some cls) = if t.timeSet then min (cls + 4) 14 else 15 := by
  cases hset : t.timeSet <;> simp [gradeOf, h, hset]

theorem gradeOf_freerun (t : Timescale) (cls : Option Nat) (h : t.servo = .freerun) :
    gradeOf t cls = if t.timeSet then 14 else 15 := by
  cases hset : t.timeSet <;> simp [gradeOf, h, hset]

theorem gradeOf_locked (t : Timescale) (cls : Option Nat) (h : t.servo = .locked) (hset : t.timeSet = true) :
    gradeOf t cls = t.lockClass := by
  simp [gradeOf, h, hset]

theorem gradeOf_fault (t : Timescale) (cls : Option Nat) (h : t.servo = .fault) : gradeOf t cls = 15 := by
  cases hset : t.timeSet <;> simp [gradeOf, h, hset]

/-- Suspension while no path is selected (R85). -/
theorem suspendSelection_none (hsel : s.src.selected = none) :
    suspendSelection s = { s with src := { s.src with suspended := true } } := by
  unfold suspendSelection
  split
  · rfl
  · rename_i j hj; rw [hsel] at hj; cases hj

/-- Suspension drops the selected path, and what it has handed over is void (R85). -/
theorem suspendSelection_some {i : Nat} {p : SourcePath} (hsel : s.src.selected = some i) (hp : s.path i = some p) :
    suspendSelection s =
      { s with
        src := { s.src with
          selected := none, suspended := true, entries := s.src.entries.set i (some { p with state := .candidate }) }
        flight := { s.flight with
          toTimescale := [], raises := s.raisesWith fun _ => [.source ⟨some (i, p.identity), none, .fault⟩] } } := by
  unfold suspendSelection
  split
  · rename_i hnone; rw [hsel] at hnone; cases hnone
  · rename_i j hj
    obtain rfl : i = j := Option.some.inj (hsel.symm.trans hj)
    simp only [setPathState, hp]
    rfl

/-- The entry to FAULT as the timescale unit makes it, before the source table is told (R32). -/
theorem enterFault_eq (c : FaultCause) :
    enterFault c s =
      regrade (suspendSelection (s.retime { s.ts with servo := .fault, slew := none, snapAt := none }
        fun ag => slewRaise s.ts.slew .dropped ag ++ [.fault c])) := by
  rw [enterFault, endSlew_eq]
  dsimp only
  rw [raiseAll_eq_retime, retime_setTs, retime_retime]
  rfl

/-- The timescale record once the servo has entered FAULT (R32). -/
def Timescale.faulted (t : Timescale) : Timescale := { t with servo := .fault, slew := none, snapAt := none, quality := 15 }

/-- The entry to FAULT while no path is selected. -/
theorem enterFault_unselected (c : FaultCause) (hsel : s.src.selected = none) :
    enterFault c s =
      { s with
        ts := s.ts.faulted
        src := { s.src with suspended := true }
        flight := { s.flight with raises := s.raisesWith fun ag => slewRaise s.ts.slew .dropped ag ++ [.fault c] } } := by
  rw [enterFault_eq, suspendSelection_none (s := s.retime _ _) hsel, regrade, gradeOf_fault _ _ rfl]
  rfl

/-- The entry to FAULT drops the selected path. -/
theorem enterFault_selected (c : FaultCause) {i : Nat} {p : SourcePath} (hsel : s.src.selected = some i)
    (hp : s.path i = some p) :
    enterFault c s =
      { s with
        ts := s.ts.faulted
        src := { s.src with
          selected := none, suspended := true, entries := s.src.entries.set i (some { p with state := .candidate }) }
        flight := { s.flight with
          toTimescale := []
          raises := s.raisesWith fun ag =>
            slewRaise s.ts.slew .dropped ag ++ [.fault c, .source ⟨some (i, p.identity), none, .fault⟩] } } := by
  rw [enterFault_eq, suspendSelection_some (s := s.retime _ _) hsel hp, regrade, gradeOf_fault _ _ rfl, retime_raisesWith]
  simp only [List.append_assoc]
  rfl

/-! ## Restart (R33) -/

/-- What SERVO-RESTART makes of the timescale unit in FAULT, before selection is made again. -/
def State.restarted (s : State) : State :=
  { s with
    ts := { s.ts with
      servo := .freerun, rate := 0, rateBasis := false, slew := none, inWindow := 0, outCount := 0, clamp := 0
      quality := if s.ts.timeSet then 14 else 15 }
    src := { s.src with suspended := false }
    flight := { s.flight with
      raises := s.raisesWith fun b => slewRaise s.ts.slew .dropped b ++ [.servo .fault .freerun] } }

theorem restartServo_eq (h : s.ts.servo = .fault) : restartServo s = reexamine .restart s.restarted := by
  rw [restartServo, endSlew_eq, changeServo_eq, retime_retime]
  dsimp only
  rw [retime_setTs, regrade, gradeOf_freerun _ _ rfl]
  simp only [retime_ts, h, reduceCtorEq, if_false]
  rfl

/-- A first selection in FREERUN: the servo goes on to ACQUIRE, and its quality class is the path's (R24, R34). -/
theorem selectPath_takeSelected {i : Nat} {p : SourcePath} (hp : s.path i = some p) (c : SourceCause)
    (h : s.ts.servo = .freerun) :
    selectPath i p none c takeSelected s =
      { s with
        ts := { s.ts with
          servo := .acquire, inWindow := 0, outCount := 0, clamp := 0, snapAt := none, holdAge := 0
          quality := if s.ts.timeSet then min (p.cls + 4) 14 else 15 }
        src := { s.src with selected := some i, entries := s.src.entries.set i (some { p with state := .selected }) }
        flight := { s.flight with
          toTimescale := []
          raises := s.raisesWith fun _ => [.servo .freerun .acquire, .source ⟨none, some (i, p.identity), c⟩] } } := by
  have hservo : (s.selecting i p).ts.servo = .freerun := h
  rw [selectPath_eq hp, takeSelected_of_resting (.inl hservo), enterAcquire_eq, raiseAll_eq_retime, retime_retime, regrade,
    selectedPath_of_set (q := { p with state := .selected }) rfl rfl (path_lt hp), Option.map_some, gradeOf_acquire _ _ rfl]
  simp only [hservo, reduceCtorEq, if_false]
  rfl

/-! ## Steering in FREERUN and HOLDOVER (R37 … R41) -/

theorem steerable_iff : steerable s = true ↔ s.ts.servo = .freerun ∨ s.ts.servo = .holdover := by
  simp [steerable]

theorem leapDue_iff (off : Int) (l : Leap) (d : Ticks) :
    leapDue off l d = true ↔ ∃ i, leapInstant off l = some i ∧ secTicks i ≤ (d : Int) := by
  cases l <;> simp [leapDue, leapInstant]

theorem gradeOf_of_steerable (t : Timescale) (cls : Option Nat) (h : t.servo = .freerun ∨ t.servo = .holdover)
    (hset : t.timeSet = true) :
    gradeOf t cls = if t.servo = .holdover then
      min (t.holdEntry + 1 + t.holdAge * nsPerSec / t.settings.holdStep) 14 else 14 := by
  rcases h with h | h <;> simp [gradeOf, h, hset, holdoverGradeOf]

/-- An accepted STEER-SLEW replaces the slew record; a magnitude of zero completes at once (R39). -/
theorem steerSlew_eq (ag : Agent) (d : Int) (ppm : Nat) :
    steerSlew ag d ppm s =
      s.retime { s.ts with slew := if d = 0 then none else some ⟨decide (d < 0), d.natAbs, 0, ppm, some ag⟩ }
        fun b => slewRaise s.ts.slew .replaced b ++ (if d = 0 ∧ b = ag then [.slew .completed] else []) := by
  unfold steerSlew
  by_cases hd : d = 0
  · simp only [hd, if_true, true_and, endSlew_eq, raiseTo_eq_retime, retime_retime, retime_ts]
  · simp only [hd, if_false, false_and, replaceSlew_eq, slewOf, List.append_nil]

/-- Offset and announcement take new values; the schedule is told of a change, and of a change alone (R41, R134). -/
theorem steerPair_eq (off : Int) (l : Leap) :
    steerPair off l s =
      { s with
        ts := { s.ts with utc := off, leap := l }
        flight := { s.flight with
          toSchedule := s.flight.toSchedule ++ (if off = s.ts.utc ∧ l = s.ts.leap then [] else [.change none]) } } := by
  unfold steerPair
  by_cases h : off = s.ts.utc ∧ l = s.ts.leap
  · obtain ⟨rfl, rfl⟩ := h
    simp
  · rw [if_neg (fun hc => h (Prod.mk.inj hc)), if_neg h]
    rfl

end

end Sys2Proof.Machine
end

section
/-! The statements about the requests that restart, restore and steer the timescale unit. -/

namespace Sys2Proof.Machine

section
variable {s : State} {ag : Agent} {o : Options}

/-! ## Answers of these requests -/

/-- A refusal by the block that takes the request at once. -/
theorem exec_refused {c : Instr} {q : Submitted} {take : State → Answer} {st : Status}
    (hc : exec c s = .next (runRequest ag q take s)) (h : s.takesNow ag q = true)
    (ht : take (s.withRequest ag q) = refuse st (s.withRequest ag q)) : exec c s = .next (respond ag st .empty s) :=
  hc.trans (congrArg Host.Outcome.next (runRequest_refuse ag q s take st h ht))

/-- An answer without a result body by the block that takes the request at once, which leaves `t`. -/
theorem exec_answered {c : Instr} {q : Submitted} {take : State → Answer} {st : Status} {t : State}
    (hc : exec c s = .next (runRequest ag q take s)) (h : s.takesNow ag q = true)
    (ht : take (s.withRequest ag q) = ⟨t.withRequest ag q, st, .empty⟩) : exec c s = .next (respond ag st .empty t) :=
  hc.trans (congrArg Host.Outcome.next (runRequest_answer s ag q take h t st .empty ht))

theorem steerable_of {s : State} (h : s.ts.servo = .freerun ∨ s.ts.servo = .holdover) : ¬steerable s = false := by
  rw [steerable_iff.2 h]
  exact Bool.noConfusion

theorem takeServoRestart_of_fault (h : s.ts.servo = .fault) :
    takeServoRestart s = ⟨reexamine .restart s.restarted, .ok, .empty⟩ := by
  rw [takeServoRestart, if_pos h, restartServo_eq h]
  rfl

theorem takeSnapshotRestore_valid {r : SnapshotRecord} (h : s.ts.servo = .freerun) (hr : snapshotValid r = true) :
    takeSnapshotRestore r s =
      accept .empty (s.setTs { s.ts with rate := r.rate, rateBasis := true, store := some (snapshotKept r), clamp := 0 }) := by
  rw [takeSnapshotRestore, if_neg (not_not.2 h), if_pos hr]

theorem takeSnapshotRestore_invalid {r : SnapshotRecord} (h : s.ts.servo = .freerun) (hr : ¬snapshotValid r = true) :
    takeSnapshotRestore r s = ⟨enterFault .restore s, .range, .empty⟩ := by
  rw [takeSnapshotRestore, if_neg (not_not.2 h), if_neg hr]

theorem snapshotValid_iff (r : SnapshotRecord) :
    snapshotValid r = true ↔
      r.version = 1 ∧ crc32 (snapshotBody r) = r.check ∧ -128000000 ≤ r.rate ∧ r.rate ≤ 128000000 := by
  simp [snapshotValid, snapshotChecks, and_assoc]

/-! ## STEER-STEP -/

theorem regrade_of_steerable (h : s.ts.servo = .freerun ∨ s.ts.servo = .holdover) (hset : s.ts.timeSet = true) :
    regrade s = s.setTs { s.ts with
      quality := if s.ts.servo = .holdover then
        min (s.ts.holdEntry + 1 + s.ts.holdAge * nsPerSec / s.ts.settings.holdStep) 14 else 14 } := by
  rw [regrade, gradeOf_of_steerable _ _ h hset]

/-- A step of DT after which the time is set, graded in the states that take steering (R34, R38). -/
theorem regrade_stepped (new : Ticks) (sub : Nat) (h : s.ts.servo = .freerun ∨ s.ts.servo = .holdover) :
    regrade ((stepped new sub s).setTs { (stepped new sub s).ts with timeSet := true }) =
      (stepped new sub s).setTs { (stepped new sub s).ts with
        timeSet := true
        quality := if s.ts.servo = .holdover then
          min (s.ts.holdEntry + 1 + s.ts.holdAge * nsPerSec / s.ts.settings.holdStep) 14 else 14 } :=
  regrade_of_steerable (s := (stepped new sub s).setTs _) h rfl

/-- A step by an interval, for which the time is set already (R38). -/
theorem stepTo_of_timeSet (new : Ticks) (sub : Nat) (hset : s.ts.timeSet = true) :
    stepTo new sub s = (stepped new sub s).setTs { (stepped new sub s).ts with timeSet := true } := by
  have hts : ({ (stepped new sub s).ts with timeSet := true } : Timescale) = (stepped new sub s).ts := by rw [← hset]; rfl
  rw [stepTo_eq, hts]
  rfl

theorem setTime_eq (new : Int) :
    setTime new s = (stepped new.toNat 0 s).setTs { (stepped new.toNat 0 s).ts with timeSet := true } := by
  rw [setTime, stepTo_eq]

section
variable (hservo : s.ts.servo = .freerun ∨ s.ts.servo = .holdover)
include hservo

theorem takeSteerStep_absolute {f : TimeField} {scale : SteerScale} {v : Ticks}
    (hset : scale = .ut → s.ts.timeSet = true) (hv : expand (s.ctx ag).base f = .valid v) :
    takeSteerStep ag (.absolute f scale) s =
      if inTimeRange (steerTarget s.ts scale v) then steered ag (regrade (setTime (steerTarget s.ts scale v) s))
      else refuse .range s := by
  have hut : ¬(scale = .ut ∧ s.ts.timeSet = false) := fun ⟨hsc, hno⟩ => by rw [hset hsc] at hno; cases hno
  simp only [takeSteerStep, if_neg (steerable_of hservo), if_neg hut, hv]

theorem takeSteerStep_absolute_invalid {f : TimeField} {scale : SteerScale} (hset : scale = .ut → s.ts.timeSet = true)
    (hv : ∀ v, expand (s.ctx ag).base f ≠ .valid v) : takeSteerStep ag (.absolute f scale) s = refuse .range s := by
  have hut : ¬(scale = .ut ∧ s.ts.timeSet = false) := fun ⟨hsc, hno⟩ => by rw [hset hsc] at hno; cases hno
  simp only [takeSteerStep, if_neg (steerable_of hservo), if_neg hut]

theorem takeSteerStep_ut_unset {f : TimeField} (hset : s.ts.timeSet = false) :
    takeSteerStep ag (.absolute f .ut) s = refuse .state s := by
  simp only [takeSteerStep, if_neg (steerable_of hservo), hset, and_self, if_true]

theorem takeSteerStep_interval {i : IntervalField} {d : Int} (hset : s.ts.timeSet = true) (hd : intervalVal i = .valid d) :
    takeSteerStep ag (.interval i) s =
      if inTimeRange ((s.ts.dt : Int) + d) then steered ag (regrade (stepTo ((s.ts.dt : Int) + d).toNat s.ts.dtSub s))
      else refuse .range s := by
  simp only [takeSteerStep, if_neg (steerable_of hservo), hset, Bool.true_eq_false, if_false, hd]

theorem takeSteerStep_interval_invalid {i : IntervalField} (hset : s.ts.timeSet = true)
    (hd : ∀ d, intervalVal i ≠ .valid d) : takeSteerStep ag (.interval i) s = refuse .range s := by
  simp only [takeSteerStep, if_neg (steerable_of hservo), hset, Bool.true_eq_false, if_false]

theorem takeSteerStep_interval_unset {i : IntervalField} (hset : s.ts.timeSet = false) :
    takeSteerStep ag (.interval i) s = refuse .state s := by
  simp only [takeSteerStep, if_neg (steerable_of hservo), hset, if_true]

/-! ## STEER-SLEW, STEER-RATE, STEER-LEAP -/

theorem takeSteerSlew_valid {i : IntervalField} {r : Option Nat} {d : Int} (hd : intervalVal i = .valid d) :
    takeSteerSlew ag i r s =
      if ticksPerSec < d.natAbs ∨ r.getD s.ts.settings.maxSlew < 1 ∨ s.ts.settings.maxSlew < r.getD s.ts.settings.maxSlew
      then refuse .range s
      else if s.ts.timeSet = false then refuse .state s
      else steered ag (steerSlew ag d (r.getD s.ts.settings.maxSlew) s) := by
  simp only [takeSteerSlew, if_neg (steerable_of hservo), hd]

theorem takeSteerSlew_invalid {i : IntervalField} {r : Option Nat} (hd : ∀ d, intervalVal i ≠ .valid d) :
    takeSteerSlew ag i r s = refuse .range s := by
  simp only [takeSteerSlew, if_neg (steerable_of hservo)]

theorem takeSteerRate_eq (r : Int) :
    takeSteerRate ag r s =
      if -128000000 ≤ r ∧ r ≤ 128000000 then steered ag (s.setTs { s.ts with rate := r, rateBasis := true })
      else refuse .range s :=
  if_neg (steerable_of hservo)

theorem takeSteerLeap_inside {l : Leap} {off : Option Int} (hin : insideInserted s.ts.utc s.ts.leap s.ts.dt = true) :
    takeSteerLeap ag l off s = refuse .state s := by
  simp only [takeSteerLeap, if_neg (steerable_of hservo), hin, if_true]

theorem takeSteerLeap_unset {l : Leap} {off : Option Int} (hl : l ≠ .none) (hset : s.ts.timeSet = false) :
    takeSteerLeap ag l off s = refuse .state s := by
  simp only [takeSteerLeap, if_neg (steerable_of hservo), hl, hset, ne_eq, not_false_eq_true, and_self, if_true, ite_self]

/-- Outside an inserted second, with the time set where an announcement is named, the fields decide (R41). -/
theorem takeSteerLeap_outside {l : Leap} {off : Option Int}
    (hout : insideInserted s.ts.utc s.ts.leap s.ts.dt = false) (hset : l = .none ∨ s.ts.timeSet = true) :
    takeSteerLeap ag l off s =
      if l.midnightOk = false ∨ off.getD s.ts.utc < -32768 ∨ 32767 < off.getD s.ts.utc then refuse .range s
      else if leapDue (off.getD s.ts.utc) l s.ts.dt then refuse .range s
      else steered ag (steerPair (off.getD s.ts.utc) l s) := by
  have hunset : ¬(l ≠ .none ∧ s.ts.timeSet = false) := by
    rintro ⟨hl, hno⟩
    rcases hset with rfl | hset
    · exact hl rfl
    · rw [hset] at hno; cases hno
  simp only [takeSteerLeap, if_neg (steerable_of hservo), hout, Bool.false_eq_true, if_false, if_neg hunset]

end

end

/-! ## The statements -/

/-- Settles O9: SERVO-RESTART makes selection again from FREERUN; SNAPSHOT-RESTORE tests its record. -/
theorem faultIsLeftAndEnteredByRequest : Obligations.FaultIsLeftAndEnteredByRequest := by
  refine ⟨fun ag o s h => ⟨fun hservo => ?notFault, fun hservo hsel => ?restart⟩, fun ag o r s h => ?restore⟩
  case notFault => exact exec_refused rfl h (if_neg hservo)
  case restart =>
    let u := reexamine .restart s.restarted
    have hu : takeServoRestart (s.withRequest ag ⟨o, .servoRestart⟩) = ⟨u.withRequest ag ⟨o, .servoRestart⟩, .ok, .empty⟩ := by
      rw [takeServoRestart_of_fault (s := s.withRequest ag _) hservo]
      exact congrArg (Answer.mk · .ok .empty) ((aside_withRequest ag ⟨o, .servoRestart⟩).reexamine s.restarted .restart)
    refine ⟨u, exec_answered rfl h hu, fun hbest => ?_, fun i p hbest => ?_⟩
    · exact reexamine_none .restart hsel hbest
    · have hp : s.restarted.path i = some p := (bestCandidate_path hbest).1
      have hfirst : u = selectPath i p none .restart takeSelected s.restarted := reexamine_first (s := s.restarted) .restart rfl hsel hbest
      rw [hfirst, selectPath_takeSelected hp .restart rfl]
      simp only [State.restarted, State.raisesWith, List.append_assoc]
      rfl
  case restore =>
    intro valid zeros kept
    have hvalid : snapshotValid r = true ↔ valid := snapshotValid_iff r
    refine ⟨fun hservo => ?_, fun hservo hr => ?_, fun hservo hsel hr => ?_⟩
    · exact exec_refused rfl h (if_pos hservo)
    · exact exec_answered rfl h (takeSnapshotRestore_valid (s := s.withRequest ag _) hservo (hvalid.2 hr))
    · refine exec_answered rfl h ?_
      rw [takeSnapshotRestore_invalid (s := s.withRequest ag _) hservo (fun hc => hr (hvalid.1 hc)),
        enterFault_unselected (s := s.withRequest ag _) .restore hsel]
      rfl

/-- Settles O10: the step is taken as R30 has it, the time is then set and the class that of FREERUN or HOLDOVER. -/
theorem steerStepMovesDeviceTime : Obligations.SteerStepMovesDeviceTime := by
  intro ag o x new s h hservo hnew0 hnew1 hx sub u
  have hrange : inTimeRange new = true := (inTimeRange_iff new).2 ⟨hnew0, hnew1⟩
  refine exec_answered rfl h ?_
  cases x with
  | absolute f scale =>
    obtain ⟨⟨v, hv, hnew⟩, hset⟩ := hx
    have htarget : steerTarget s.ts scale v = new := by cases scale <;> exact hnew.symm
    rw [takeSteerStep_absolute (s := s.withRequest ag _) hservo hset 
      (by rw [State.withRequest_ctx]; exact hv)]
    have ht : steerTarget (s.withRequest ag ⟨o, .steerStep (.absolute f scale)⟩).ts scale v = new := htarget
    rw [ht, if_pos hrange, setTime_eq, regrade_stepped (s := s.withRequest ag _) _ _ hservo]
    rfl
  | interval i =>
    obtain ⟨hset, d, hd, hnew⟩ := hx
    rw [takeSteerStep_interval (s := s.withRequest ag _) hservo hset hd]
    have ht : ((s.withRequest ag ⟨o, .steerStep (.interval i)⟩).ts.dt : Int) + d = new := hnew.symm
    rw [ht, if_pos hrange, stepTo_of_timeSet (s := s.withRequest ag _) _ _ hset,
      regrade_stepped (s := s.withRequest ag _) _ _ hservo]
    rfl

/-- Settles O11: the requests that are accepted, and those that a row of their table refuses. -/
theorem steeringSetsSlewRateAndLeap : Obligations.SteeringSetsSlewRateAndLeap := by
  refine ⟨fun ag o i r d s h hservo hset hd hmag hlow hhigh => ?slew,
    fun ag o r s h hservo => ⟨fun h0 h1 => ?rate, fun hout => ?rateOutside⟩, ?leap, ?stepRefused, ?slewRefused, ?leapRefused⟩
  case slew =>
    refine exec_answered rfl h ?_
    rw [takeSteerSlew_valid (s := s.withRequest ag _) hservo hd, if_neg, if_neg, steerSlew_eq]
    · simp only [State.retime, State.raisesWith]
      rfl
    · exact fun hno : s.ts.timeSet = false => by rw [hset] at hno; cases hno
    · exact fun hbad => hbad.elim hmag.not_gt (·.elim hlow.not_gt hhigh.not_gt)
  case rate =>
    refine exec_answered rfl h ?_
    rw [takeSteerRate_eq (s := s.withRequest ag _) hservo, if_pos ⟨h0, h1⟩]
    rfl
  case rateOutside =>
    refine exec_refused rfl h ?_
    rw [takeSteerRate_eq (s := s.withRequest ag _) hservo, if_neg (by omega)]
  case leap =>
    intro ag o l off s h hservo new hout hset hmid h0 h1 hbefore
    have hnotDue : ¬leapDue new l s.ts.dt = true := fun hdue => by
      obtain ⟨i, hi, hle⟩ := (leapDue_iff new l s.ts.dt).1 hdue
      exact (hbefore i hi).not_ge hle
    refine exec_answered rfl h ?_
    rw [takeSteerLeap_outside (s := s.withRequest ag _) hservo hout hset, if_neg, if_neg, steerPair_eq]
    · rfl
    · exact hnotDue
    · exact fun hbad => hbad.elim (fun hm => by rw [hmid] at hm; cases hm) (·.elim h0.not_gt h1.not_gt)
  case stepRefused =>
    intro ag o x s h hservo refused
    have hout : ∀ t : Int, t < 0 ∨ (timeEnd : Int) ≤ t → ¬inTimeRange t = true := fun t ht hr => by
      obtain ⟨h0, h1⟩ := (inTimeRange_iff t).1 hr
      exact ht.elim h0.not_gt h1.not_ge
    refine ⟨?_, ?_, ?_, ?_, ?_, ?_, ?_⟩
    · rintro i rfl hset
      exact exec_refused rfl h (takeSteerStep_interval_unset (s := s.withRequest ag _) hservo hset)
    · rintro f rfl hset
      exact exec_refused rfl h (takeSteerStep_ut_unset (s := s.withRequest ag _) hservo hset)
    · rintro i rfl hset hd
      exact exec_refused rfl h (takeSteerStep_interval_invalid (s := s.withRequest ag _) hservo hset hd)
    · rintro i d rfl hset hd hrange
      refine exec_refused rfl h ((takeSteerStep_interval (s := s.withRequest ag _) hservo hset hd).trans ?_)
      exact if_neg (hout _ hrange)
    · rintro f rfl hv
      refine exec_refused rfl h (takeSteerStep_absolute_invalid (s := s.withRequest ag _) hservo (by rintro ⟨⟩) ?_)
      rwa [State.withRequest_ctx]
    · rintro f rfl hset hv
      refine exec_refused rfl h (takeSteerStep_absolute_invalid (s := s.withRequest ag _) hservo (fun _ => hset) ?_)
      rwa [State.withRequest_ctx]
    · rintro f v rfl hset hv hrange
      refine exec_refused rfl h
        ((takeSteerStep_absolute (s := s.withRequest ag _) hservo (fun _ => hset) (by rwa [State.withRequest_ctx])).trans ?_)
      exact if_neg (hout _ hrange)
  case slewRefused =>
    intro ag o i r s h hservo refused
    have hbad : ∀ d p, intervalVal i = .valid d → p = r.getD s.ts.settings.maxSlew →
        ticksPerSec < d.natAbs ∨ p < 1 ∨ s.ts.settings.maxSlew < p → refused .range := by
      rintro d p hd rfl hrange
      exact exec_refused rfl h ((takeSteerSlew_valid (s := s.withRequest ag _) hservo hd).trans (if_pos hrange))
    refine ⟨fun hd => ?_, fun d hd hmag => hbad d _ hd rfl (.inl hmag), fun d hd hp => hbad d _ hd rfl (.inr hp),
      fun d hd hmag hlow hhigh hset => ?_⟩
    · exact exec_refused rfl h (takeSteerSlew_invalid (s := s.withRequest ag _) hservo hd)
    · refine exec_refused rfl h ((takeSteerSlew_valid (s := s.withRequest ag _) hservo hd).trans ?_)
      exact (if_neg fun hbad => hbad.elim hmag.not_gt (·.elim hlow.not_gt hhigh.not_gt)).trans (if_pos hset)
  case leapRefused =>
    intro ag o l off s h hservo refused inside new
    refine ⟨fun hin => ?_, fun hout hl hset => ?_, fun hout hset hbad => ?_, fun hout hset ⟨i, hi, hle⟩ => ?_⟩
    · exact exec_refused rfl h (takeSteerLeap_inside (s := s.withRequest ag _) hservo hin)
    · exact exec_refused rfl h (takeSteerLeap_unset (s := s.withRequest ag _) hservo hl hset)
    · refine exec_refused rfl h ((takeSteerLeap_outside (s := s.withRequest ag _) hservo hout hset).trans ?_)
      exact if_pos hbad
    · refine exec_refused rfl h ((takeSteerLeap_outside (s := s.withRequest ag _) hservo hout hset).trans ?_)
      split
      · rfl
      · exact if_pos ((leapDue_iff new l s.ts.dt).2 ⟨i, hi, hle⟩)

end Sys2Proof.Machine
end

section
/-! The advance of time (R22, R31, R29), and the checks of a request that is brought to a port (R37, R157, R160). -/

namespace Sys2Proof.Machine

/-! ## The advance of time -/

section
variable (n : Nat) (t : Timescale)

/-- The corrected advance as a whole number, the rate correction lying within its limit (R22). -/
theorem correctedAdvance_cast (h : t.rate ≤ Config.rateLimit) :
    ((n * (256000000000 - t.rate).toNat : Nat) : Int) = n * (256000000000 - t.rate) := by
  have hlimit : t.rate ≤ 128000000 := h
  rw [Nat.cast_mul, Int.toNat_of_nonneg (by omega)]

variable (a : Nat)

/-- What a slew uses up, over the integers (R31). -/
theorem slewUse_cast (w : Slew) : ((slewUse a w : Nat) : Int) = min ((a : Int) * w.ppm) (slewLeft w) := by
  rw [slewUse, Nat.cast_min, Nat.cast_mul]

theorem slewLeft_slewAfter_cast (w : Slew) :
    ((slewLeft (slewAfter a w) : Nat) : Int) = slewLeft w - min ((a : Int) * w.ppm) (slewLeft w) := by
  have hle : slewUse a w ≤ slewLeft w := min_le_right _ _
  rw [slewLeft_slewAfter, Nat.cast_sub hle, slewUse_cast]

/-- Count and residue of a counter are its parts. -/
theorem partsWithin_recompose {unit top m : Nat} (h : m < top * unit) :
    partsWithin unit top m / unit * unit + partsWithin unit top m % unit = m := by
  rw [Nat.div_add_mod', partsWithin_below h]

end

/-- Settles O3: EL and DT are counters that take the parts of the corrected advance, DT with the share of the slew, each
within its own range. -/
theorem timeAdvancesAtTheCorrectedRate : Obligations.TimeAdvancesAtTheCorrectedRate := by
  intro n t hlow hhigh hdtSub helSub hppm u a used share el dt
  let k : Nat := n * (256000000000 - t.rate).toNat
  have hk : (k : Int) = a := correctedAdvance_cast n t hhigh
  have hused : ∀ w, ((slewUse k w : Nat) : Int) = used w := fun w => by rw [slewUse_cast, hk]
  have hel : ((t.el * Config.subPerNs + t.elSub + k * 1000000 : Nat) : Int) = el := by
    rw [Nat.cast_add, Nat.cast_add, Nat.cast_mul, Nat.cast_mul, hk]
    rfl
  obtain ⟨m, hm, hdt⟩ := dtParts_eq k t hppm
  have hmdt : (m : Int) = dt := by
    show (m : Int) = t.dt * Config.subPerTick + t.dtSub + a * 1000000 + share
    cases hs : t.slew with
    | none => simpa only [hs, hk, share] using hdt
    | some w => simpa only [hs, hk, hused, share] using hdt
  have huel : u.el = elParts k t / Config.subPerNs := rfl
  have huelSub : u.elSub = elParts k t % Config.subPerNs := rfl
  have hudt : u.dt = dtParts k t / Config.subPerTick := rfl
  have hudtSub : u.dtSub = dtParts k t % Config.subPerTick := rfl
  refine ⟨fun h => ?_, fun h => ?_, fun h => ?_, fun h => ?_, fun h => ?_, fun w h => ⟨slewAfter k w, ?_, ?_, ?_⟩, rfl, rfl⟩
  · rw [huel, huelSub, elParts, partsWithin_recompose, hel]
    exact_mod_cast hel ▸ h
  · rw [huel, huelSub, elParts]
    exact partsWithin_end (by decide) (by exact_mod_cast hel ▸ h) (by decide)
  · rw [hudt, hudtSub, hm, partsWithin_recompose, hmdt]
    exact_mod_cast hmdt ▸ h
  · rw [hudt, hudtSub, hm]
    exact partsWithin_end (by decide) (by exact_mod_cast hmdt ▸ h) (by decide)
  · exact congrArg (Option.map (slewAfter k)) h
  · exact congrArg (Option.map (slewAfter k)) h
  · rw [slewLeft_slewAfter_cast, hk]
  · exact ⟨slewAfter_neg k w, slewAfter_ppm k w, slewAfter_notify k w⟩

/-! ## A request that its port does not bring in hand -/

section
variable {s : State} {ag : Agent} {q : Submitted}

/-- A request that does not come in hand leaves what bringing it to the port has left. -/
theorem exec_requestCommand_of_not_inHand (h : (bringInHand ag q s).inHand ag q = false) :
    exec (requestCommand ag q) s = .next (bringInHand ag q s) := by
  have hif : ∀ {β : State} , (if (bringInHand ag q s).inHand ag q = true then β else bringInHand ag q s) = bringInHand ag q s :=
    if_neg (by rw [h]; exact Bool.false_ne_true)
  obtain ⟨o, r⟩ := q
  cases r <;> exact congrArg Host.Outcome.next hif

theorem inHand_of_link_ne {u : State} (h : (u.unit ag).link ≠ .busy q) : u.inHand ag q = false := by
  simp [State.inHand, h]

theorem submit_of_takesNoFrames (h : s.takesFrames ag = false) : submit ag q s = s :=
  if_neg (by rw [h]; exact Bool.false_ne_true)

theorem submit_of_busy {q' : Submitted} (h : s.takesFrames ag = true) (hl : (s.unit ag).link = .busy q') :
    submit ag q s = overrun ag s := by
  rw [submit, if_pos h, hl]

theorem submit_of_portFree (h : s.takesFrames ag = true) (hfree : s.portFree ag = true) :
    submit ag q s = acceptFrame ag q s := by
  rw [submit, if_pos h]
  unfold State.portFree at hfree
  split
  next hl => rw [hl] at hfree; cases hfree
  next => rfl

theorem bringInHand_of_link_ne (h : (s.unit ag).link ≠ .busy q) : bringInHand ag q s = submit ag q s := if_neg h

theorem link_ne_of_portFree (hfree : s.portFree ag = true) : (s.unit ag).link ≠ .busy q := fun hl => by
  rw [State.portFree, hl] at hfree; cases hfree

/-- A frame that a free port answers at once is not in hand, and the answer stands. -/
theorem exec_requestCommand_of_answered {st : Status} (h : s.takesFrames ag = true) (hfree : s.portFree ag = true)
    (ha : acceptFrame ag q s = respond ag st .empty s) :
    exec (requestCommand ag q) s = .next (respond ag st .empty s) := by
  have hbring : bringInHand ag q s = respond ag st .empty s :=
    (bringInHand_of_link_ne (link_ne_of_portFree hfree)).trans ((submit_of_portFree h hfree).trans ha)
  rw [exec_requestCommand_of_not_inHand, hbring]
  rw [hbring, respond_eq]
  exact inHand_of_link_ne (by rw [State.unit_setUnit]; exact LinkState.noConfusion)

theorem acceptFrame_format (h : q.encodingOk (s.ctx ag) = false) : acceptFrame ag q s = respond ag .format .empty s :=
  if_pos h

theorem acceptFrame_rank (h : q.encodingOk (s.ctx ag) = true) (hr : q.req.rankZero = true) (hag : ag ≠ .agent0) :
    acceptFrame ag q s = respond ag .rank .empty s := by
  simp [acceptFrame, h, hr, hag]

/-- No grant request is a rank-0 request (11.4). -/
theorem not_rankZero_of_needsGrant {r : Request} (h : r.needsGrant = true) : r.rankZero = false := by
  cases r with
  | steerStep | steerSlew | steerRate | steerLeap | refLabel => rfl
  | _ => cases h

theorem acceptFrame_grant (h : q.encodingOk (s.ctx ag) = true) (hg : q.req.needsGrant = true)
    (hno : s.holdsGrant ag = false) : acceptFrame ag q s = respond ag .grant .empty s := by
  simp [acceptFrame, h, not_rankZero_of_needsGrant hg, hg, hno]

/-- A steering request that is taken where the unit takes none is refused with STATE (R37). -/
theorem exec_steering_refused (h : s.takesNow ag q = true) (hg : q.req.needsGrant = true)
    (hlabel : ∀ x off l, q.req ≠ .refLabel x off l) (hst : steerable s = false) :
    exec (requestCommand ag q) s = .next (respond ag .state .empty s) := by
  obtain ⟨o, r⟩ := q
  cases r with
  | steerStep x => exact exec_refused rfl h (if_pos hst)
  | steerSlew i p => exact exec_refused rfl h (if_pos hst)
  | steerRate p => exact exec_refused rfl h (if_pos hst)
  | steerLeap l off => exact exec_refused rfl h (if_pos hst)
  | refLabel x off l => exact absurd rfl (hlabel x off l)
  | _ => cases hg

end

/-- Settles O4: what brings the frame to the port decides, and a request that it answers is not in hand. -/
theorem requestChecksRefuse : Obligations.RequestChecksRefuse := by
  refine ⟨fun ag st b s => rfl, fun ag q s hno hnot => ?noFrames, fun ag q s h => ⟨fun q' hl hne => ?busy, fun hfree henc => ?format,
    fun hfree henc hr hag => ?rank, fun hfree henc hg hno => ?grant, fun hnow hg hlabel hservo => ?state⟩⟩
  case noFrames =>
    have hl : (s.unit ag).link ≠ .busy q := by simpa [State.holdsRequest] using hnot
    have hbring : bringInHand ag q s = s := (bringInHand_of_link_ne hl).trans (submit_of_takesNoFrames hno)
    rw [exec_requestCommand_of_not_inHand (by rw [hbring]; exact inHand_of_link_ne hl), hbring]
  case busy =>
    have hlink : (s.unit ag).link ≠ .busy q := by rw [hl]; exact fun hc => hne (LinkState.busy.inj hc)
    have hbring : bringInHand ag q s = overrun ag s := (bringInHand_of_link_ne hlink).trans (submit_of_busy h hl)
    rw [exec_requestCommand_of_not_inHand, hbring]
    · rfl
    · rw [hbring]
      exact inHand_of_link_ne (by rw [overrun, State.unit_setUnit]; exact hlink)
  case format => exact exec_requestCommand_of_answered h hfree (acceptFrame_format henc)
  case rank => exact exec_requestCommand_of_answered h hfree (acceptFrame_rank henc hr hag)
  case grant => exact exec_requestCommand_of_answered h hfree (acceptFrame_grant henc hg hno)
  case state =>
    refine exec_steering_refused hnow hg hlabel (Bool.eq_false_iff.2 fun hc => ?_)
    rcases steerable_iff.1 hc with hx | hx <;> simp [hx] at hservo

end Sys2Proof.Machine
end

section
/-! The measurements of ACQUIRE and LOCKED (R25 … R28). -/

namespace Sys2Proof.Machine

section
variable {s : State}

/-! ## The parts of a measurement -/

/-- The timescale record after the rate law (R26). -/
def Timescale.ruled (t : Timescale) (k o : Int) : Timescale :=
  { t with
    rate := max (-128000000) (min 128000000 (t.rate + rateDelta k o))
    clamp := if t.rate + rateDelta k o < -128000000 ∨ 128000000 < t.rate + rateDelta k o then t.clamp + 1 else 0 }

theorem rateLaw_eq (k o : Int) : rateLaw k o s = s.setTs (s.ts.ruled k o) := by
  unfold rateLaw Timescale.ruled
  generalize s.ts.rate + rateDelta k o = r
  simp only [Config.rateLimit]
  split
  next h =>
    have h' : 128000000 < r := h
    rw [min_eq_left h'.le, max_eq_right (by omega), if_pos (.inr h')]
  next h =>
    have h' : r ≤ 128000000 := not_lt.1 h
    split
    next hlow =>
      rw [min_eq_right h', max_eq_left hlow.le, if_pos (.inl hlow)]
    next hlow => rw [min_eq_right h', max_eq_right (not_lt.1 hlow), if_neg (not_or.2 ⟨hlow, h⟩)]

/-- The slew of a measurement goes against its offset, toward no agent (R25, R28). -/
theorem slewOf_neg (o : Int) (ppm : Nat) : slewOf (-o) ppm none = ⟨decide (0 < o), o.natAbs, 0, ppm, none⟩ := by
  simp [slewOf]

theorem measurementSlew_eq (o : Int) :
    measurementSlew o s =
      s.retime { s.ts with slew := some ⟨decide (0 < o), o.natAbs, 0, s.ts.settings.maxSlew, none⟩ }
        (slewRaise s.ts.slew .replaced) := by
  rw [measurementSlew, replaceSlew_eq, slewOf_neg]

/-- A slew record without a notify-agent ends unheard. -/
theorem slewRaise_of_no_notify (w : Option Slew) (e : SlewEnd) (h : w.bind Slew.notify = none) (ag : Agent) :
    slewRaise w e ag = [] := by
  simp [slewRaise, h]

theorem regrade_of_graded (h : s.ts.quality = gradeOf s.ts (s.selectedPath.map SourcePath.cls)) : regrade s = s := by
  rw [regrade, ← h]
  rfl

theorem regrade_enterFault (c : FaultCause) : regrade (enterFault c s) = enterFault c s := by
  rw [enterFault]
  rfl

/-- ACQUIRE entered while the path `p` is selected: its class gives the quality class (R24, R34). -/
theorem regrade_enterAcquire {p : SourcePath} (hp : s.selectedPath = some p) (hset : s.ts.timeSet = true) :
    regrade (enterAcquire s) =
      s.retime
        { s.ts with
          servo := .acquire, inWindow := 0, outCount := 0, clamp := 0, snapAt := none, holdAge := 0
          quality := min (p.cls + 4) 14 }
        fun _ => if s.ts.servo = .acquire then [] else [.servo s.ts.servo .acquire] := by
  have hpath : (s.retime { s.ts with
      servo := .acquire, inWindow := 0, outCount := 0, clamp := 0, snapAt := none, holdAge := 0 }
        fun _ => if s.ts.servo = .acquire then [] else [.servo s.ts.servo .acquire]).selectedPath = some p := hp
  rw [enterAcquire_eq, regrade, hpath, Option.map_some, gradeOf_acquire _ _ rfl, retime_setTs]
  simp only [retime_ts, hset, if_true]

/-- The oldest message of the source table is an offset (R24). -/
theorem takeMeasurement_of_offset {i : Nat} {k o : Int} {rest : List TimescaleMsg}
    (hmsg : s.flight.toTimescale = .offset i k o :: rest) :
    takeMeasurement s =
      if s.src.selected = some i then
        takeOffset ((s.selectedPath.map SourcePath.cls).getD 15) k o (s.setFlight { s.flight with toTimescale := rest })
      else s.setFlight { s.flight with toTimescale := rest } := by
  unfold takeMeasurement
  rw [hmsg]
  rfl

/-! ## LOCKED -/

/-- The timescale record after a measurement of LOCKED, before FAULT or ACQUIRE is entered (R28). -/
def Timescale.measuredLocked (t : Timescale) (k o : Int) : Timescale :=
  { t.ruled k o with
    slew := some ⟨decide (0 < o), o.natAbs, 0, t.settings.maxSlew, none⟩
    outCount := if o.natAbs ≤ nsTicks t.settings.lockWindow then 0 else t.outCount + 1 }

theorem measureLocked_eq (k o : Int) :
    measureLocked k o s =
      let u := s.retime (s.ts.measuredLocked k o) (slewRaise s.ts.slew .replaced)
      if 4 ≤ u.ts.clamp then enterFault .clamp u else if 4 ≤ u.ts.outCount then enterAcquire u else u := by
  rw [measureLocked, measurementSlew_eq, rateLaw_eq]
  simp only [inLockWindow, decide_eq_true_eq]
  rfl

end

/-- Settles O17: FAULT on the fourth clamp, else ACQUIRE on the fourth offset out of the window, else LOCKED. -/
theorem lockedTakesAMeasurement : Obligations.LockedTakesAMeasurement := by
  intro s i k o rest hmsg
  refine ⟨fun hsel => ?_, fun p hsel hp hstate hservo hsus hset => ?_⟩
  · exact congrArg Host.Outcome.next ((takeMeasurement_of_offset hmsg).trans (if_neg hsel))
  · intro t sum clamp out fault back
    let v : State := s.setFlight { s.flight with toTimescale := rest }
    let u : State := v.retime (t.measuredLocked k o) (slewRaise t.slew .replaced)
    have hlocked : takeMeasurement s = regrade (measureLocked k o v) := by
      rw [takeMeasurement_of_offset hmsg, if_pos hsel]
      show takeOffset _ k o v = _
      have hv : v.ts.servo = .locked := hservo
      rw [takeOffset, hv]
    have husel : u.src.selected = some i := hsel
    have hcls : u.selectedPath = some p := (selectedPath_of_selected husel).trans hp
    have hnotify : slewRaise u.ts.slew .dropped = fun _ => [] := funext (slewRaise_of_no_notify _ _ rfl)
    rw [measureLocked_eq] at hlocked
    refine ⟨_, rfl, onlySelection_takeMeasurement s, ?_⟩
    by_cases hfault : fault
    · have hback : ¬back := fun h => absurd hfault (not_le.2 h.1)
      have hu : takeMeasurement s = enterFault .clamp u :=
        hlocked.trans ((congrArg regrade (if_pos hfault)).trans (regrade_enterFault _))
      rw [hu, enterFault_selected .clamp husel hp, hnotify, retime_raisesWith]
      simp only [hfault, hback, if_true, if_false, true_or]
      exact ⟨rfl, rfl, rfl⟩
    · by_cases hout : 4 ≤ out
      · have hback : back := ⟨not_le.1 hfault, hout⟩
        have hu : takeMeasurement s = regrade (enterAcquire u) :=
          hlocked.trans (congrArg regrade ((if_neg hfault).trans (if_pos hout)))
        have hservo' : u.ts.servo = .locked := hservo
        rw [hu, regrade_enterAcquire hcls hset, hservo', retime_retime]
        simp only [hfault, hback, if_true, if_false, or_true, reduceCtorEq]
        exact ⟨rfl, rfl, rfl⟩
      · have hback : ¬back := fun h => hout h.2
        have hu : takeMeasurement s = regrade u :=
          hlocked.trans (congrArg regrade ((if_neg hfault).trans (if_neg hout)))
        rw [hu, regrade_eq, gradeOf_locked u.ts _ hservo hset, retime_retime]
        simp only [hfault, hback, if_false, or_false, ← hservo]
        exact ⟨rfl, rfl, rfl⟩

end Sys2Proof.Machine
end

section
/-! The measurement of ACQUIRE (R25, R26, R27). -/

namespace Sys2Proof.Machine

section
variable {s : State}

/-- The measurement `o` steps DT instead of slewing it (R25). -/
abbrev Timescale.StepsBy (t : Timescale) (o : Int) : Prop :=
  t.timeSet = false ∨ (nsTicks t.settings.stepThreshold < o.natAbs ∧ t.settings.stepEnable = true)

/-- The part once a measurement of ACQUIRE has moved DT and the rate, before its counts are looked at (R25, R26). -/
def State.measured (s : State) (k o : Int) : State :=
  let t := s.ts
  let new : Ticks := (t.dt - o).toNat
  let l := if t.StepsBy o then leapTaken t new else (t.utc, t.leap, [])
  let removed := if l.2.2 ≠ [] then removedAt t.utc t.leap else none
  { s with
    ts := { t with
      dt := if t.StepsBy o then new else t.dt
      slew := if t.StepsBy o then none else some ⟨decide (0 < o), o.natAbs, 0, t.settings.maxSlew, none⟩
      stepCount := if t.StepsBy o then min (t.stepCount + 1) 65535 else t.stepCount
      timeSet := true, utc := l.1, leap := l.2.1
      rate := if t.timeSet = false then t.rate else (t.ruled k o).rate
      clamp := if t.timeSet = false then t.clamp else (t.ruled k o).clamp }
    flight := { s.flight with
      toSchedule := s.flight.toSchedule ++
        (if t.StepsBy o then [.step t.dt new removed []] else []) ++ (if l.2.2 ≠ [] then [.change removed] else [])
      toEpoch := s.flight.toEpoch ++ (if t.StepsBy o then [(t.dt, new)] else [])
      raises := s.raisesWith fun ag =>
        slewRaise t.slew (if t.StepsBy o then .dropped else .replaced) ag ++ l.2.2 } }

/-- A measurement that would step DT out of its range is discarded whole (R25). -/
theorem measureAcquire_of_outOfRange (cls : Nat) (k o : Int) (hsteps : s.ts.StepsBy o)
    (hrange : ¬inTimeRange (s.ts.dt - o)) : measureAcquire cls k o s = s := by
  unfold measureAcquire
  by_cases hset : s.ts.timeSet = false
  · simp [hset, hrange]
  · obtain ⟨hlarge, henable⟩ := hsteps.resolve_left hset
    simp [hset, hlarge, henable, hrange]

theorem measureAcquire_eq (cls : Nat) (k o : Int) (hrange : s.ts.StepsBy o → inTimeRange (s.ts.dt - o)) :
    measureAcquire cls k o s = finishAcquire cls o (s.measured k o) := by
  unfold measureAcquire
  by_cases hset : s.ts.timeSet = false
  · have hsteps : s.ts.StepsBy o := .inl hset
    simp only [hset, hrange hsteps, if_true, stepTo_eq]
    simp only [State.measured, hset, hsteps, if_true]
    rfl
  · have hset' : s.ts.timeSet = true := by simpa using hset
    by_cases hlarge : nsTicks s.ts.settings.stepThreshold < o.natAbs ∧ s.ts.settings.stepEnable = true
    · have hsteps : s.ts.StepsBy o := .inr hlarge
      obtain ⟨hthreshold, henable⟩ := hlarge
      simp only [hset', hthreshold, henable, hrange hsteps, if_true, stepTo_eq, rateLaw_eq, decide_true, Bool.and_self,
        Bool.true_eq_false, if_false]
      simp only [State.measured, hset', hsteps, if_true, Bool.true_eq_false, if_false]
      rw [← hset']
      rfl
    · have hsteps : ¬s.ts.StepsBy o := fun h => h.elim hset hlarge
      have hslews : ¬(decide (nsTicks s.ts.settings.stepThreshold < o.natAbs) && s.ts.settings.stepEnable) = true := by
        simpa using hlarge
      rw [if_neg hset, if_neg hslews, measurementSlew_eq, rateLaw_eq]
      simp only [State.measured, hset', hsteps, if_false, Bool.true_eq_false]
      rw [← hset']
      simp only [ne_eq, not_true_eq_false, if_false, List.append_nil]
      rfl

/-- The record with the in-window count of the offset `o` (R27). -/
def Timescale.counted (t : Timescale) (o : Int) : Timescale :=
  { t with inWindow := if o.natAbs ≤ nsTicks t.settings.lockWindow then t.inWindow + 1 else 0 }

theorem finishAcquire_eq (cls : Nat) (o : Int) :
    finishAcquire cls o s =
      let u := s.setTs (s.ts.counted o)
      if 4 ≤ u.ts.clamp then enterFault .clamp u else if 8 ≤ u.ts.inWindow then enterLocked cls u else u := by
  simp only [finishAcquire, inLockWindow, decide_eq_true_eq]
  rfl

/-- LOCKED entered out of ACQUIRE: the class of the path is the lock class and the quality class (R27, R34). -/
theorem regrade_enterLocked (cls : Nat) (h : s.ts.servo = .acquire) (hset : s.ts.timeSet = true) :
    regrade (enterLocked cls s) =
      s.retime
        { s.ts with
          servo := .locked, rateBasis := true, lockClass := cls, outCount := 0, snapAt := some (s.ts.el + 60000000000)
          quality := cls }
        fun _ => [.servo .acquire .locked] := by
  rw [enterLocked, changeServo_eq]
  dsimp only
  rw [retime_setTs, regrade, gradeOf_locked _ _ rfl (by exact hset), h]
  rfl

theorem regrade_of_acquire {p : SourcePath} (hp : s.selectedPath = some p) (h : s.ts.servo = .acquire)
    (hset : s.ts.timeSet = true) : regrade s = s.setTs { s.ts with quality := min (p.cls + 4) 14 } := by
  rw [regrade, hp, Option.map_some, gradeOf_acquire _ _ h, hset]
  rfl

theorem raisesWith_of_raises {u : State} {f : Agent → List Raise} (h : u.flight.raises = s.raisesWith f)
    (g : Agent → List Raise) : u.raisesWith g = s.raisesWith fun ag => f ag ++ g ag := by
  simp [State.raisesWith, h]

end

/-- Settles O16: the measurement moves DT and the rate, then FAULT, LOCKED or ACQUIRE follows. -/
theorem acquireTakesAMeasurement : Obligations.AcquireTakesAMeasurement := by
  intro s i k o rest p hmsg hsel hp _ hservo _ t new steps inRange sum rate clamp inWindow fault locked l removed
  let v : State := s.setFlight { s.flight with toTimescale := rest }
  have hrange : inTimeRange new = true ↔ inRange := by simp [inTimeRange, inRange]
  have hacquire : takeMeasurement s = regrade (measureAcquire p.cls k o v) := by
    rw [takeMeasurement_of_offset hmsg, if_pos hsel, selectedPath_of_selected hsel, hp]
    have hv : v.ts.servo = .acquire := hservo
    show takeOffset p.cls k o v = _
    rw [takeOffset, hv]
  refine ⟨fun hsteps hout hquality => ?_, fun hin => ?_⟩
  · have hgraded : v.ts.quality = gradeOf v.ts (v.selectedPath.map SourcePath.cls) := by
      have hv : v.selectedPath = some p := (selectedPath_of_selected (s := v) hsel).trans hp
      rw [hv, Option.map_some, gradeOf_acquire v.ts _ hservo]
      exact hquality
    rw [measureAcquire_of_outOfRange (s := v) p.cls k o hsteps (mt hrange.1 hout), regrade_of_graded hgraded] at hacquire
    exact congrArg Host.Outcome.next hacquire
  · let x : State := (v.measured k o).setTs ((v.measured k o).ts.counted o)
    have hx : x.selectedPath = some p := (selectedPath_of_selected (s := x) hsel).trans hp
    have hraises : x.flight.raises =
        s.raisesWith fun ag => slewRaise t.slew (if steps then .dropped else .replaced) ag ++ l.2.2 := rfl
    rw [measureAcquire_eq (s := v) p.cls k o fun h => hrange.2 (hin h), finishAcquire_eq] at hacquire
    refine ⟨_, rfl, onlySelection_takeMeasurement s, ?_⟩
    by_cases hfault : fault
    · have hu : takeMeasurement s = enterFault .clamp x :=
        hacquire.trans ((congrArg regrade (if_pos hfault)).trans (regrade_enterFault _))
      have hlocked : ¬locked := fun h => absurd hfault (not_le.2 h.1)
      have hnotify : slewRaise x.ts.slew .dropped = fun _ => [] := by
        refine funext (slewRaise_of_no_notify _ _ ?_)
        show (if steps then none else some _).bind Slew.notify = none
        split <;> rfl
      rw [hu, enterFault_selected (s := x) .clamp hsel hp, hnotify, raisesWith_of_raises hraises]
      simp only [hfault, hlocked, or_true, if_true, if_false]
      exact ⟨rfl, rfl, rfl⟩
    · by_cases hwindow : 8 ≤ inWindow
      · have hlocked : locked := ⟨not_le.1 hfault, hwindow⟩
        have hu : takeMeasurement s = regrade (enterLocked p.cls x) :=
          hacquire.trans (congrArg regrade ((if_neg hfault).trans (if_pos hwindow)))
        rw [hu, regrade_enterLocked (s := x) p.cls hservo rfl, State.retime, raisesWith_of_raises hraises]
        simp only [hfault, hlocked, or_false, if_true, if_false]
        exact ⟨rfl, rfl, rfl⟩
      · have hlocked : ¬locked := fun h => hwindow h.2
        have hu : takeMeasurement s = regrade x :=
          hacquire.trans (congrArg regrade ((if_neg hfault).trans (if_neg hwindow)))
        rw [hu, regrade_of_acquire hx hservo rfl]
        simp only [hfault, hlocked, or_false, if_false, List.append_nil, ← hservo]
        exact ⟨rfl, rfl, rfl⟩

end Sys2Proof.Machine
end

section
/-! What re-examination of selection (R83) leaves: the settings of the timescale, and an entry but for its state. -/

namespace Sys2Proof.Machine

section
variable {s : State}

/-! ## The settings of the timescale unit -/

theorem changeServo_settings (x : ServoState) : (changeServo x s).ts.settings = s.ts.settings := by
  rw [changeServo_eq]
  rfl

theorem enterAcquire_settings : (enterAcquire s).ts.settings = s.ts.settings := by
  rw [enterAcquire_eq]
  rfl

theorem enterHoldover_settings : (enterHoldover s).ts.settings = s.ts.settings := by
  rw [enterHoldover, endSlew_eq, changeServo_eq]
  rfl

theorem expireHoldover_settings : (expireHoldover s).ts.settings = s.ts.settings := by
  rw [expireHoldover, changeServo_eq]
  rfl

theorem takeSelected_settings : (takeSelected s).ts.settings = s.ts.settings := by
  unfold takeSelected
  split
  · exact enterAcquire_settings
  · exact enterAcquire_settings
  · rfl

theorem takeMoved_settings (cls : Nat) (last : Option Int) : (takeMoved cls last s).ts.settings = s.ts.settings := by
  unfold takeMoved
  split
  · exact enterAcquire_settings
  · split
    · split
      · rfl
      · exact enterAcquire_settings
    · exact enterAcquire_settings
  · rfl

/-- Loss of selection leads to HOLDOVER or FREERUN, or nowhere (R24). -/
theorem takeLost_cases :
    takeLost s = enterHoldover s ∨ takeLost s = (changeServo .freerun s).setTs { (changeServo .freerun s).ts with snapAt := none } ∨
      takeLost s = s := by
  unfold takeLost
  dsimp only
  split
  · split
    · exact .inl rfl
    · exact .inr (.inl rfl)
  · split
    · exact .inl rfl
    · exact .inr (.inl rfl)
  · exact .inr (.inr rfl)

theorem takeLost_settings : (takeLost s).ts.settings = s.ts.settings := by
  obtain h | h | h := takeLost_cases (s := s) <;> rw [h]
  · exact enterHoldover_settings
  · exact changeServo_settings .freerun

theorem setPathState_ts (i : Nat) (x : PathState) : (setPathState i x s).ts = s.ts := by
  obtain ⟨-, -, -, -, hts⟩ := setPathState_src i x s
  exact hts

theorem selectPath_settings (i : Nat) (p : SourcePath) (prev : Option (Nat × Nat)) (c : SourceCause) (f : State → State)
    (hf : ∀ u : State, (f u).ts.settings = u.ts.settings) :
    (selectPath i p prev c f s).ts.settings = s.ts.settings := by
  show (f (setSelected (some i) (setPathState i .selected s))).ts.settings = _
  rw [hf]
  exact congrArg Timescale.settings (setPathState_ts i .selected)

theorem reexamine_settings (c : SourceCause) : (reexamine c s).ts.settings = s.ts.settings := by
  unfold reexamine
  split
  · rfl
  · split
    · split
      · rfl
      · exact selectPath_settings _ _ _ _ _ fun _ => takeSelected_settings
    · extract_lets
      split
      · split
        · rfl
        · split
          · exact (selectPath_settings _ _ _ _ _ fun _ => takeMoved_settings _ _).trans
              (congrArg Timescale.settings (setPathState_ts _ _))
          · rfl
      · split
        · exact selectPath_settings _ _ _ _ _ fun _ => takeMoved_settings _ _
        · exact takeLost_settings (s := setSelected none s)

theorem reportClass_settings (i : Nat) : (reportClass i s).ts.settings = s.ts.settings := by
  unfold reportClass
  split
  · split
    · split <;> rfl
    · rfl
  · rfl

/-! ## The entries -/

/-- The path takes part in selection: it is CANDIDATE or SELECTED. -/
def SourcePath.Contends (p : SourcePath) : Prop := p.state = .candidate ∨ p.state = .selected

/-- The entry is as it was, but that a path which takes part in selection may have become CANDIDATE or SELECTED. -/
def Reselects (a b : Option SourcePath) : Prop :=
  b = a ∨ ∃ p x, a = some p ∧ p.Contends ∧ b = some { p with state := x } ∧ (x = .candidate ∨ x = .selected)

theorem Reselects.refl (a : Option SourcePath) : Reselects a a := .inl rfl

theorem Reselects.trans {a b c : Option SourcePath} (h : Reselects a b) (k : Reselects b c) : Reselects a c := by
  obtain rfl | ⟨p, x, ha, hp, rfl, hx⟩ := h
  · exact k
  · obtain rfl | ⟨q, y, hq, -, rfl, hy⟩ := k
    · exact .inr ⟨p, x, ha, hp, rfl, hx⟩
    · obtain rfl := Option.some.inj hq
      exact .inr ⟨p, y, ha, hp, rfl, hy⟩

theorem Reselects.of_not_contends {a b : Option SourcePath} (h : Reselects a b) (ha : ∀ p, a = some p → ¬p.Contends) :
    b = a :=
  h.resolve_right fun ⟨p, _, hp, hc, _⟩ => ha p hp hc

theorem Reselects.of_candidate {p : SourcePath} {b : Option SourcePath} (h : Reselects (some p) b)
    (hp : p.state = .candidate) : ∃ x, b = some { p with state := x } ∧ (x = .candidate ∨ x = .selected) := by
  obtain rfl | ⟨q, x, hq, -, hb, hx⟩ := h
  · exact ⟨.candidate, by rw [← hp], .inl rfl⟩
  · obtain rfl := Option.some.inj hq
    exact ⟨x, hb, hx⟩

theorem Reselects.of_setPathState {i : Nat} {p : SourcePath} {x : PathState} (hp : s.path i = some p) (hc : p.Contends)
    (hx : x = .candidate ∨ x = .selected) (j : Nat) : Reselects (s.path j) ((setPathState i x s).path j) := by
  rw [path_setPathState]
  split
  next hij =>
    subst hij
    rw [hp]
    exact .inr ⟨p, x, rfl, hc, rfl, hx⟩
  next => exact .refl _

theorem Reselects.of_selectPath {i : Nat} {p q : SourcePath} (hp : s.path i = some p) (hc : p.Contends)
    (prev : Option (Nat × Nat)) (c : SourceCause) {f : State → State} (hf : ∀ u : State, (f u).src = u.src) (j : Nat) :
    Reselects (s.path j) ((selectPath i q prev c f s).path j) := by
  have hsrc : (selectPath i q prev c f s).src = (setSelected (some i) (setPathState i .selected s)).src := hf _
  rw [path_of_src hsrc]
  exact Reselects.of_setPathState hp hc (.inr rfl) j

/-- Re-examination changes no entry but for the state of paths that take part in selection. -/
theorem reselects_reexamine (c : SourceCause) (k : Nat) : Reselects (s.path k) ((reexamine c s).path k) := by
  unfold reexamine
  split
  · exact .refl _
  · split
    · split
      · exact .refl _
      next i p hb =>
        obtain ⟨hp, hc⟩ := bestCandidate_path hb
        exact .of_selectPath hp (.inl hc) _ _ takeSelected_src k
    next j _ =>
      extract_lets
      split
      next hj =>
        split
        · exact .refl _
        next i p hb =>
          obtain ⟨hp, hc⟩ := bestCandidate_path hb
          split
          · obtain ⟨q, hq, hqs⟩ : ∃ q, s.path j = some q ∧ q.state = .selected := Option.map_eq_some_iff.1 hj
            have hstep : Reselects (s.path k) ((setPathState j .candidate s).path k) :=
              .of_setPathState hq (.inr hqs) (.inl rfl) k
            obtain ⟨x, hx, hxc⟩ :=
              (hp ▸ Reselects.of_setPathState hq (.inr hqs) (.inl rfl) i :
                Reselects (some p) ((setPathState j .candidate s).path i)).of_candidate hc
            exact hstep.trans (.of_selectPath hx hxc _ _ (takeMoved_src _ _) k)
          · exact .refl _
      · split
        next i p hb =>
          obtain ⟨hp, hc⟩ := bestCandidate_path hb
          exact .of_selectPath hp (.inl hc) _ _ (takeMoved_src _ _) k
        · exact .inl (path_of_src (s := setSelected none s) (takeLost_src _) k)

theorem reportClass_path (i k : Nat) : (reportClass i s).path k = s.path k :=
  path_of_src (sameSelection_reportClass i s).1 k

end

end Sys2Proof.Machine
end

section
/-! PART-CONFIG (R23, R58, R78, R164, R180): its ranges, its effects and their order. -/

namespace Sys2Proof.Machine

/-! ## The ranges -/

theorem optWithin_iff (lo hi : Nat) (x : Option Nat) :
    optWithin lo hi x = true ↔ ∀ v, x = some v → lo ≤ v ∧ v ≤ hi := by
  cases x <;> simp [optWithin]

theorem echoFits_iff (c : PartSettings) (e : EchoSettings) :
    echoFits c e = true ↔ 64 * c.replyWait.getD e.wait ≤ c.echoInterval.getD e.interval := decide_eq_true_iff

/-! ## The reference path (R78, R81) -/

section
variable {p : SourcePath} {el : Nat}

theorem refTested_of_listen (h : p.state = .listen) :
    p.refTested el = { p with state := if p.cls ≤ 13 ∧ 2 ≤ p.listenCount then .candidate else .listen } := by
  have hcls : p.cls < 14 ↔ p.cls ≤ 13 := Nat.lt_succ_iff
  simp only [SourcePath.refTested, h, hcls]
  split
  · rfl
  · rw [← h]

theorem refTested_of_contends_kept (h : p.Contends) (hcls : p.cls ≤ 13) : p.refTested el = p := by
  have hcls' : ¬14 ≤ p.cls := by omega
  obtain h | h := h <;> simp only [SourcePath.refTested, h, hcls', if_false]

theorem refTested_of_contends_left (h : p.Contends) (hcls : 14 ≤ p.cls) :
    p.refTested el =
      { p with state := .listen, listenCount := 0, lastOffset := none, deadline := some (el + 3000000000) } := by
  obtain h | h := h <;> simp only [SourcePath.refTested, h, hcls, if_true]

theorem refTested_of_resting (h : p.state = .stale ∨ p.state = .barred) : p.refTested el = p := by
  obtain h | h := h <;> simp only [SourcePath.refTested, h]

end

section
variable (old new : SourceSettings) (el : Nat)

theorem referenceAfter_off (h : new.refMode = false) (x : Option SourcePath) : referenceAfter old new el x = none := by
  cases x <;> simp [referenceAfter, h]

theorem referenceAfter_created (h : new.refMode = true) : referenceAfter old new el none = some (newReference new el) := by
  simp [referenceAfter, h]

theorem referenceAfter_same_class (h : new.refMode = true) (hcls : new.refClass = old.refClass) (p : SourcePath) :
    referenceAfter old new el (some p) = some { p with cls := new.refClass, accuracy := new.refAccuracy } := by
  simp [referenceAfter, h, hcls]

theorem referenceAfter_new_class (h : new.refMode = true) (hcls : new.refClass ≠ old.refClass) (p : SourcePath) :
    referenceAfter old new el (some p) =
      some (SourcePath.refTested el { p with cls := new.refClass, accuracy := new.refAccuracy }) := by
  simp [referenceAfter, h, hcls]

end

/-! ## The effects at the timescale unit -/

section
variable (s : State) (c : PartSettings)

theorem gradeHoldover_src : (gradeHoldover s).src = s.src := by unfold gradeHoldover; split <;> rfl

theorem gradeHoldover_el : (gradeHoldover s).ts.el = s.ts.el := by unfold gradeHoldover; split <;> rfl

theorem gradeHoldover_settings : (gradeHoldover s).ts.settings = s.ts.settings := by unfold gradeHoldover; split <;> rfl

theorem expireHoldover_src_el : (expireHoldover s).src = s.src ∧ (expireHoldover s).ts.el = s.ts.el := by
  rw [expireHoldover, changeServo_eq]
  exact ⟨rfl, rfl⟩

theorem overHoldover_src : (overHoldover s).src = s.src := by
  unfold overHoldover
  split
  · exact (expireHoldover_src_el s).1
  · rfl

theorem overHoldover_el : (overHoldover s).ts.el = s.ts.el := by
  unfold overHoldover
  split
  · exact (expireHoldover_src_el s).2
  · rfl

theorem overHoldover_settings : (overHoldover s).ts.settings = s.ts.settings := by
  unfold overHoldover
  split
  · exact expireHoldover_settings
  · rfl

/-- The settings are written and the timescale unit has drawn their consequences (R23, R29). -/
def State.withSettings : State := overHoldover (gradeHoldover (writeSettings c s))

theorem withSettings_src : (s.withSettings c).src = { s.src with settings := sourceSettings c s.src.settings } :=
  (overHoldover_src _).trans (gradeHoldover_src _)

theorem withSettings_path (i : Nat) : (s.withSettings c).path i = s.path i := by
  simp only [State.path, withSettings_src]

theorem withSettings_el : (s.withSettings c).ts.el = s.ts.el := (overHoldover_el _).trans (gradeHoldover_el _)

theorem withSettings_settings : (s.withSettings c).ts.settings = timescaleSettings c s.ts.settings :=
  (overHoldover_settings _).trans (gradeHoldover_settings _)

theorem withSettings_of_not_holdover (h : s.ts.servo ≠ .holdover) : s.withSettings c = writeSettings c s := by
  have hg : gradeHoldover (writeSettings c s) = writeSettings c s := gradeHoldover_of_ne h
  have hover : ¬holdoverOver (writeSettings c s).ts = true := fun ho => h ((holdoverOver_iff _).1 ho).1
  rw [State.withSettings, hg, overHoldover_of_not_over hover]

theorem writeSettings_graded_ts (q : Nat) :
    ((writeSettings c s).setTs { (writeSettings c s).ts with quality := q }).ts =
      { s.ts with settings := timescaleSettings c s.ts.settings, quality := q } := rfl

theorem writeSettings_graded_flight (q : Nat) :
    ((writeSettings c s).setTs { (writeSettings c s).ts with quality := q }).flight = s.flight := rfl

/-- In HOLDOVER the class follows the new step at once (R23, R29). -/
theorem gradeHoldover_writeSettings (h : s.ts.servo = .holdover) (hset : s.ts.timeSet = true) :
    gradeHoldover (writeSettings c s) = (writeSettings c s).setTs { (writeSettings c s).ts with
      quality := min (s.ts.holdEntry + 1 +
        s.ts.holdAge * nsPerSec / (timescaleSettings c s.ts.settings).holdStep) 14 } :=
  gradeHoldover_of_holdover (s := writeSettings c s) h hset

theorem overHoldover_of_graded_not_over (q : Nat)
    (hnot : ¬(timescaleSettings c s.ts.settings).holdLimit ≤ s.ts.holdAge * nsPerSec) :
    overHoldover ((writeSettings c s).setTs { (writeSettings c s).ts with quality := q }) =
      (writeSettings c s).setTs { (writeSettings c s).ts with quality := q } :=
  overHoldover_of_not_over fun hover => hnot ((holdoverOver_iff _).1 hover).2

theorem overHoldover_of_graded_over (q : Nat) (h : s.ts.servo = .holdover) (hset : s.ts.timeSet = true)
    (hover : (timescaleSettings c s.ts.settings).holdLimit ≤ s.ts.holdAge * nsPerSec) :
    overHoldover ((writeSettings c s).setTs { (writeSettings c s).ts with quality := q }) =
      (writeSettings c s).retime
        { (writeSettings c s).ts with servo := .freerun, rateBasis := false, holdAge := 0, quality := 14 }
        fun _ => [.servo .holdover .freerun] :=
  (if_pos ((holdoverOver_iff { (writeSettings c s).ts with quality := q }).2 ⟨h, hover⟩)).trans
    (expireHoldover_eq ((writeSettings c s).setTs { (writeSettings c s).ts with quality := q }) h hset)

theorem withSettings_of_not_over (h : s.ts.servo = .holdover) (hset : s.ts.timeSet = true)
    (hnot : ¬(timescaleSettings c s.ts.settings).holdLimit ≤ s.ts.holdAge * nsPerSec) :
    s.withSettings c = (writeSettings c s).setTs { (writeSettings c s).ts with
      quality := min (s.ts.holdEntry + 1 +
        s.ts.holdAge * nsPerSec / (timescaleSettings c s.ts.settings).holdStep) 14 } :=
  (congrArg overHoldover (gradeHoldover_writeSettings s c h hset)).trans
    (overHoldover_of_graded_not_over s c _ hnot)

/-- In HOLDOVER a limit that the age has reached ends it at once (R23, R29). -/
theorem withSettings_of_over (h : s.ts.servo = .holdover) (hset : s.ts.timeSet = true)
    (hover : (timescaleSettings c s.ts.settings).holdLimit ≤ s.ts.holdAge * nsPerSec) :
    s.withSettings c =
      (writeSettings c s).retime
        { (writeSettings c s).ts with servo := .freerun, rateBasis := false, holdAge := 0, quality := 14 }
        fun _ => [.servo .holdover .freerun] :=
  (congrArg overHoldover (gradeHoldover_writeSettings s c h hset)).trans
    (overHoldover_of_graded_over s c _ h hset hover)

/-! ## The effects at the source table -/

/-- Entry 8 once the settings `c` stand. -/
def State.referenceEntry : Option SourcePath :=
  referenceAfter s.src.settings (sourceSettings c s.src.settings) s.ts.el (s.path 8)

/-- The part once an accepted PART-CONFIG has taken effect, its answer apart (log entry 28). -/
def State.configured : State := sourceEffects s.src.settings (s.withSettings c)

theorem configured_same (hmode : (sourceSettings c s.src.settings).refMode = s.src.settings.refMode)
    (hcls : (sourceSettings c s.src.settings).refClass = s.src.settings.refClass) :
    s.configured c = (s.withSettings c).setPath 8 (s.referenceEntry c) := by
  rw [State.configured, sourceEffects, withSettings_src, withSettings_el, withSettings_path, if_pos ⟨hmode, hcls⟩]
  rfl

theorem configured_changed
    (h : (sourceSettings c s.src.settings).refMode ≠ s.src.settings.refMode ∨
      (sourceSettings c s.src.settings).refClass ≠ s.src.settings.refClass) :
    s.configured c = reportClass 8 (reexamine .first ((s.withSettings c).setPath 8 (s.referenceEntry c))) := by
  rw [State.configured, sourceEffects, withSettings_src, withSettings_el, withSettings_path,
    if_neg fun ⟨hmode, hcls⟩ => h.elim (· hmode) (· hcls)]
  rfl

theorem onlySelection_sourceEffects (old : SourceSettings) : onlySelection s (sourceEffects old s) := by
  unfold sourceEffects
  dsimp only
  split
  · exact onlySelection_setPath _ _ _
  · exact ((onlySelection_setPath s _ _).trans (onlySelection_reexamine _ _)).trans (onlySelection_reportClass _ _)

theorem onlySelection_configured : onlySelection (writeSettings c s) (s.configured c) :=
  ((onlySelection_gradeHoldover _).trans (onlySelection_overHoldover _)).trans (onlySelection_sourceEffects _ _)

theorem sourceEffects_settings (old : SourceSettings) :
    (sourceEffects old s).ts.settings = s.ts.settings ∧ (sourceEffects old s).src.settings = s.src.settings := by
  unfold sourceEffects
  dsimp only
  generalize hu : s.setPath 8 (referenceAfter old s.src.settings s.ts.el (s.path 8)) = u
  obtain ⟨hts, hsrc⟩ : u.ts.settings = s.ts.settings ∧ u.src.settings = s.src.settings := by subst hu; exact ⟨rfl, rfl⟩
  rw [← hts, ← hsrc]
  split
  · exact ⟨rfl, rfl⟩
  · refine ⟨(reportClass_settings 8).trans (reexamine_settings .first), ?_⟩
    obtain ⟨hsame, -⟩ := sameSelection_reportClass 8 (reexamine .first u)
    obtain ⟨-, hsettings, -⟩ := reexamine_keeps .first u
    exact (congrArg SourceTable.settings hsame).trans hsettings

/-- Entry 8 in the end: as the settings left it, but for what selection makes of its state. -/
theorem reselects_configured (hlen : s.src.entries.length = 9) :
    Reselects (s.referenceEntry c) ((s.configured c).path 8) := by
  have hset : ((s.withSettings c).setPath 8 (s.referenceEntry c)).path 8 = s.referenceEntry c := by
    rw [State.path_setPath, withSettings_src]
    exact if_pos ⟨rfl, by rw [hlen]; decide⟩
  by_cases h : (sourceSettings c s.src.settings).refMode = s.src.settings.refMode ∧
      (sourceSettings c s.src.settings).refClass = s.src.settings.refClass
  · rw [configured_same s c h.1 h.2, hset]
    exact .refl _
  · have hre := reselects_reexamine (s := (s.withSettings c).setPath 8 (s.referenceEntry c)) .first 8
    rwa [hset, ← reportClass_path 8, ← configured_changed s c (not_and_or.1 h)] at hre

/-! ## The request -/

theorem Aside.gradeHoldover {g : State → State} (h : Aside g) : gradeHoldover (g s) = g (Machine.gradeHoldover s) := by
  unfold Machine.gradeHoldover
  rw [h.ts, h.regrade]
  split <;> rfl

theorem Aside.overHoldover {g : State → State} (h : Aside g) : overHoldover (g s) = g (Machine.overHoldover s) := by
  unfold Machine.overHoldover
  rw [h.ts, h.expireHoldover]
  split <;> rfl

theorem Aside.sourceEffects {g : State → State} (h : Aside g) (old : SourceSettings) :
    sourceEffects old (g s) = g (Machine.sourceEffects old s) := by
  unfold Machine.sourceEffects
  dsimp only
  rw [h.src, h.ts, h.path, h.setPath, h.reexamine, h.reportClass]
  split <;> rfl

theorem configured_withRequest (ag : Agent) (q : Submitted) :
    (s.withRequest ag q).configured c = (s.configured c).withRequest ag q := by
  have hg := aside_withRequest ag q
  have hw : writeSettings c (s.withRequest ag q) = (writeSettings c s).withRequest ag q := rfl
  unfold State.configured State.withSettings
  rw [hw, hg.gradeHoldover, hg.overHoldover, hg.sourceEffects]
  rfl

theorem takePartConfig_accepted (hrange : settingsInRange c = true) (hfits : echoFits c s.echo = true) :
    takePartConfig c s = ⟨s.configured c, .ok, .empty⟩ := by
  rw [takePartConfig, if_pos (Bool.and_eq_true_iff.2 ⟨hrange, hfits⟩)]
  rfl

theorem exec_partConfig_accepted {ag : Agent} {o : Options} (h : s.takesNow ag ⟨o, .partConfig c⟩ = true)
    (hrange : settingsInRange c = true) (hfits : echoFits c s.echo = true) :
    exec (.partConfig ag o c) s = .next (respond ag .ok .empty (s.configured c)) :=
  exec_answered rfl h <|
    (takePartConfig_accepted (s.withRequest ag _) c hrange hfits).trans (by rw [configured_withRequest])

theorem exec_partConfig_refused {ag : Agent} {o : Options} (h : s.takesNow ag ⟨o, .partConfig c⟩ = true)
    (hout : ¬(settingsInRange c = true ∧ echoFits c s.echo = true)) :
    exec (.partConfig ag o c) s = .next (respond ag .range .empty s) :=
  exec_refused rfl h (if_neg (mt Bool.and_eq_true_iff.1 hout))

end

end Sys2Proof.Machine
end

section
/-! The statement about PART-CONFIG. -/

namespace Sys2Proof.Machine

section
variable {s : State} {c : PartSettings}

/-- Entry 8 where reference mode and class stay (R78). -/
theorem referenceEntry_of_same (hcls : (sourceSettings c s.src.settings).refClass = s.src.settings.refClass)
    (hpresent : (s.path 8).isSome = (sourceSettings c s.src.settings).refMode) :
    s.referenceEntry c = (s.path 8).map fun p =>
      { p with cls := (sourceSettings c s.src.settings).refClass
               accuracy := (sourceSettings c s.src.settings).refAccuracy } := by
  unfold State.referenceEntry
  cases hp : s.path 8 with
  | none => exact referenceAfter_off _ _ _ (by rw [← hpresent, hp]; rfl) _
  | some p => exact referenceAfter_same_class _ _ _ (by rw [← hpresent, hp]; rfl) hcls p

theorem referenceEntry_off (hmode : (sourceSettings c s.src.settings).refMode = false) : s.referenceEntry c = none :=
  referenceAfter_off _ _ _ hmode _

theorem referenceEntry_created (hp : s.path 8 = none) (hmode : (sourceSettings c s.src.settings).refMode = true) :
    s.referenceEntry c = some (newReference (sourceSettings c s.src.settings) s.ts.el) := by
  rw [State.referenceEntry, hp]
  exact referenceAfter_created _ _ _ hmode

theorem referenceEntry_same_class {p : SourcePath} (hp : s.path 8 = some p)
    (hmode : (sourceSettings c s.src.settings).refMode = true)
    (hcls : (sourceSettings c s.src.settings).refClass = s.src.settings.refClass) :
    s.referenceEntry c =
      some { p with cls := (sourceSettings c s.src.settings).refClass
                    accuracy := (sourceSettings c s.src.settings).refAccuracy } := by
  rw [State.referenceEntry, hp]
  exact referenceAfter_same_class _ _ _ hmode hcls p

theorem referenceEntry_new_class {p : SourcePath} (hp : s.path 8 = some p)
    (hmode : (sourceSettings c s.src.settings).refMode = true)
    (hcls : (sourceSettings c s.src.settings).refClass ≠ s.src.settings.refClass) :
    s.referenceEntry c =
      some (SourcePath.refTested s.ts.el { p with cls := (sourceSettings c s.src.settings).refClass
                                                  accuracy := (sourceSettings c s.src.settings).refAccuracy }) := by
  rw [State.referenceEntry, hp]
  exact referenceAfter_new_class _ _ _ hmode hcls p

/-- An entry 8 that takes no part in selection stays as PART-CONFIG leaves it. -/
theorem configured_path_of_not_contends {x : Option SourcePath} (hlen : s.src.entries.length = 9)
    (hx : s.referenceEntry c = x) (hrest : ∀ p, x = some p → ¬p.Contends) : (s.configured c).path 8 = x :=
  (hx ▸ reselects_configured s c hlen).of_not_contends hrest

end

/-- Settles O15: the request is taken whole, first at the timescale unit, then at the source table. -/
theorem settingsActAtOnce : Obligations.SettingsActAtOnce := by
  refine ⟨fun ag o c s h => ?_, fun ag o c s h hrange hfits hlen => ?_⟩
  · intro inRange legal set src expired
    have hlegal : legal ↔ settingsInRange c = true ∧ echoFits c s.echo = true := by
      simp only [settingsInRange, Bool.and_eq_true, optWithin_iff, echoFits_iff, and_assoc]
      rfl
    refine ⟨fun hout => ?_, fun hl => ?_, fun hl hmode hcls hpresent => ?_⟩
    · exact exec_partConfig_refused s c h (mt hlegal.2 hout)
    · obtain ⟨hrange, hfits⟩ := hlegal.1 hl
      refine ⟨s.configured c, exec_partConfig_accepted s c h hrange hfits, onlySelection_configured s c, ?_⟩
      obtain ⟨hts, hsrc⟩ := sourceEffects_settings (s.withSettings c) s.src.settings
      exact ⟨hts.trans (withSettings_settings s c), hsrc.trans (by rw [withSettings_src]; rfl)⟩
    · obtain ⟨hrange, hfits⟩ := hlegal.1 hl
      refine ⟨s.configured c, exec_partConfig_accepted s c h hrange hfits, ?_⟩
      rw [configured_same s c hmode hcls, referenceEntry_of_same hcls hpresent]
      refine ⟨?_, fun hservo => ?_, fun hservo hset hnot => ?_, fun hservo hset hover => ?_⟩
      · rw [State.setPath_src, withSettings_src]
        rfl
      · rw [withSettings_of_not_holdover s c hservo]
        exact ⟨rfl, rfl⟩
      · rw [State.setPath_ts, State.setPath_flight, withSettings_of_not_over s c hservo hset hnot]
        exact ⟨writeSettings_graded_ts s c _, writeSettings_graded_flight s c _⟩
      · rw [withSettings_of_over s c hservo hset hover]
        exact ⟨rfl, rfl⟩
  · intro old src written fresh
    refine ⟨gradeHoldover written, s.withSettings c, s.configured c, s.referenceEntry c, rfl, rfl,
      exec_partConfig_accepted s c h hrange hfits, ⟨fun ⟨hmode, hcls⟩ => ?_, fun hchange => ?_⟩,
      referenceEntry_off, fun hmode hp => referenceEntry_created hp hmode, fun p hp hmode => ?_, fun hp hmode => ?_,
      fun hmode => ?_, fun p hp hmode hcls => ?_⟩
    · rw [configured_same s c hmode hcls, State.setPath, withSettings_src]
    · rw [configured_changed s c hchange, State.setPath, withSettings_src]
    · refine ⟨referenceEntry_same_class hp hmode, fun hcls => ?_⟩
      rw [referenceEntry_new_class hp hmode hcls]
      exact ⟨fun hc hlow => congrArg some (refTested_of_contends_kept hc hlow),
        fun hc hhigh => congrArg some (refTested_of_contends_left hc hhigh),
        fun hlisten => congrArg some (refTested_of_listen hlisten),
        fun hrest => congrArg some (refTested_of_resting hrest)⟩
    · refine configured_path_of_not_contends hlen (referenceEntry_created hp hmode) ?_
      rintro _ ⟨⟩ (hc | hc) <;> cases hc
    · refine configured_path_of_not_contends hlen (referenceEntry_off hmode) ?_
      rintro _ ⟨⟩
    · have hentry := referenceEntry_new_class hp hmode hcls
      refine ⟨fun hc hhigh => ?_, fun hlisten hcount hlow => ?_, fun hrest => ?_⟩
      · refine configured_path_of_not_contends hlen
          (hentry.trans (congrArg some (refTested_of_contends_left hc hhigh))) ?_
        rintro _ ⟨⟩ (hl | hl) <;> cases hl
      · have hcandidate : s.referenceEntry c = some { p with
            cls := src.refClass, accuracy := src.refAccuracy, state := .candidate } := by
          rw [hentry, refTested_of_listen (p := { p with cls := src.refClass, accuracy := src.refAccuracy }) hlisten,
            if_pos ⟨hlow, hcount.ge⟩]
        exact (hcandidate ▸ reselects_configured s c hlen).of_candidate rfl
      · refine configured_path_of_not_contends hlen (hentry.trans (congrArg some (refTested_of_resting hrest))) ?_
        rintro _ ⟨⟩ hc
        obtain hc | hc := hc <;> obtain hr | hr := hrest <;> cases hr.symm.trans hc

end Sys2Proof.Machine
end

section
/-! What every step keeps of the room of the queues (R53, R153, R172, R173), command by command. -/

namespace Sys2Proof.Machine

/-! ## Commands by what they touch -/

section
variable {s : State}

/-- A command that answers a state within its room keeps the room. -/
theorem RoomKept.next {t : State} (h : RoomKept t) :
    ∃ u, (.next t : Host.Outcome State Fault Refusal) = .next u ∧ RoomKept u := ⟨t, rfl, h⟩

theorem RoomKept.setFlight (h : RoomKept s) (f : InFlight) : RoomKept (s.setFlight f) := (quiet_setFlight s f).room h

/-- A command of timescale unit and selection touches no queue. -/
theorem RoomKept.onlyNext (h : RoomKept s) {t : State} (k : onlySelection s t) :
    ∃ u, (.next t : Host.Outcome State Fault Refusal) = .next u ∧ RoomKept u := (h.of_only k).next

theorem RoomKept.quietNext (h : RoomKept s) {t : State} (k : quiet s t) :
    ∃ u, (.next t : Host.Outcome State Fault Refusal) = .next u ∧ RoomKept u := (k.room h).next

theorem RoomKept.restNext (h : RoomKept s) {t : State} (k : keepsRest s t) :
    ∃ u, (.next t : Host.Outcome State Fault Refusal) = .next u ∧ RoomKept u := (k.2 h).next

/-- A request command keeps the room when its block does. -/
theorem RoomKept.request (h : RoomKept s) (ag : Agent) (q : Submitted) (take : State → Answer)
    (ht : ∀ u, RoomKept u → RoomKept (take u).state) :
    ∃ u, (.next (runRequest ag q take s) : Host.Outcome State Fault Refusal) = .next u ∧ RoomKept u :=
  (runRequest_keeps RoomKept ag q take
    (fun u l b => (quiet_setUnit u ag { u.unit ag with link := l, overrun := b } rfl rfl).room) ht s h).next

theorem RoomKept.quietRequest (h : RoomKept s) (ag : Agent) (q : Submitted) (take : State → Answer)
    (ht : ∀ u, quiet u (take u).state) :
    ∃ u, (.next (runRequest ag q take s) : Host.Outcome State Fault Refusal) = .next u ∧ RoomKept u :=
  h.request ag q take fun u => (ht u).room

theorem RoomKept.onlyRequest (h : RoomKept s) (ag : Agent) (q : Submitted) (take : State → Answer)
    (ht : ∀ u, onlySelection u (take u).state) :
    ∃ u, (.next (runRequest ag q take s) : Host.Outcome State Fault Refusal) = .next u ∧ RoomKept u :=
  h.request ag q take fun u hu => hu.of_only (ht u)

end

/-! ## Resets -/

/-- A part reset empties every queue (R170). -/
theorem resetPart_room (s : State) : RoomKept (resetPart s) where
  class1 := fun n => by cases n <;> exact Nat.zero_le _
  captures := fun ag => by cases ag <;> exact Nat.zero_le _
  fifo := fun ag => by cases ag <;> exact Nat.zero_le _
  urgent := fun ag => by cases ag <;> exact Nat.zero_le _
  nested := fun ag => by cases ag <;> exact Nat.zero_le _

theorem runPartReset_room (ag : Agent) (q : Submitted) (s : State) (h : RoomKept s) : RoomKept (runPartReset ag q s) := by
  unfold runPartReset
  dsimp only
  split
  · exact resetPart_room _
  · exact (quiet_bringInHand ag q s).room h

/-! ## Events that take the oldest message of a list -/

section
variable (s : State) (h : RoomKept s)
include h

theorem execOriginTaken_room : ∃ t, execOriginTaken s = .next t ∧ RoomKept t := by
  unfold execOriginTaken
  split
  · exact h.next
  · exact (h.setFlight _).restNext (rest_takeOrigin _ _)

theorem execSourceSample_room : ∃ t, execSourceSample s = .next t ∧ RoomKept t := by
  unfold execSourceSample
  split
  · exact h.next
  · exact (h.setFlight _).onlyNext (onlySelection_takeSourceSample _ _)

theorem execSourceMiss_room : ∃ t, execSourceMiss s = .next t ∧ RoomKept t := by
  unfold execSourceMiss
  split
  · exact h.next
  · exact (h.setFlight _).restNext (rest_takeSourceMiss _ _)

theorem execRefEdge_room : ∃ t, execRefEdge s = .next t ∧ RoomKept t := by
  unfold execRefEdge
  split
  · exact h.next
  · exact (h.setFlight _).onlyNext (onlySelection_takeRefEdge _ _)

theorem execRegisterTaken_room : ∃ t, execRegisterTaken s = .next t ∧ RoomKept t := by
  unfold execRegisterTaken
  split
  · exact h.next
  · exact (h.setFlight _).quietNext (quiet_takeRegister _ _)

theorem execClientSample_room : ∃ t, execClientSample s = .next t ∧ RoomKept t := by
  unfold execClientSample
  split
  · exact h.next
  · exact (h.setFlight _).quietNext (quiet_takeClientSample _ _)

theorem execClientMiss_room : ∃ t, execClientMiss s = .next t ∧ RoomKept t := by
  unfold execClientMiss
  split
  · exact h.next
  · exact (h.setFlight _).quietNext (quiet_takeClientMiss _ _)

theorem execEpochStepReport_room : ∃ t, execEpochStepReport s = .next t ∧ RoomKept t := by
  unfold execEpochStepReport
  split
  · exact h.next
  · exact (h.setFlight _).quietNext (quiet_setEpoch _ _)

theorem execStepReport_room : ∃ t, execStepReport s = .next t ∧ RoomKept t := by
  unfold execStepReport
  split
  · exact ((takeStep_quiet _ _ _ _ _).2 (h.setFlight _)).next
  · exact h.next

theorem execRekey_room : ∃ t, execRekey s = .next t ∧ RoomKept t := by
  unfold execRekey
  split
  · exact ((takeChange_facts _ _).2.2 (h.setFlight _)).next
  · exact h.next

theorem execStaleDeadline_room (i : Nat) : ∃ t, execStaleDeadline i s = .next t ∧ RoomKept t := by
  unfold execStaleDeadline
  split
  · exact h.restNext (rest_staleAtDeadline i s)
  · exact h.next

theorem execInputEdge_room (k : Nat) (e : EdgeKind) : ∃ t, execInputEdge k e s = .next t ∧ RoomKept t := by
  unfold execInputEdge
  split
  · exact h.quietNext (quiet_takeEdge _ _ s)
  · exact h.next

end

/-! ## Every command, every step -/

/-- Every command keeps the queues within their room. -/
theorem exec_room (c : Instr) (s : State) (h : RoomKept s) : ∃ t, exec c s = .next t ∧ RoomKept t := by
  cases c with
  | timeRead ag o _ => exact h.quietRequest ag _ _ fun u => quiet_finishTime ag o _ u
  | timeConvert ag o a b _ x => exact h.quietRequest ag _ _ (quiet_takeTimeConvert ag o a b x)
  | timeDiff ag o a b => exact h.quietRequest ag _ _ (quiet_takeTimeDiff ag o a b)
  | timeOffset ag o _ _ => exact h.quietRequest ag _ _ fun u => quiet_finishTime ag o _ u
  | flagsRead ag _ => exact h.request ag _ _ fun _ => id
  | flagsClear ag _ _ => exact h.quietRequest ag _ _ fun u => quiet_setCtx u ag _
  | partConfig ag _ c => exact h.request ag _ _ fun u => (rest_takePartConfig c u).2
  | servoRead ag _ => exact h.request ag _ _ fun _ => id
  | snapshotRead ag _ => exact h.quietRequest ag _ _ fun u => by unfold takeSnapshotRead; split <;> exact .refl u
  | servoRestart ag _ => exact h.onlyRequest ag _ _ onlySelection_takeServoRestart
  | snapshotRestore ag _ r => exact h.onlyRequest ag _ _ (onlySelection_takeSnapshotRestore r)
  | steerStep ag _ x => exact h.onlyRequest ag _ _ (onlySelection_takeSteerStep ag x)
  | steerSlew ag _ i r => exact h.onlyRequest ag _ _ (onlySelection_takeSteerSlew ag i r)
  | steerRate ag _ r => exact h.onlyRequest ag _ _ (onlySelection_takeSteerRate ag r)
  | steerLeap ag _ l off => exact h.onlyRequest ag _ _ (onlySelection_takeSteerLeap ag l off)
  | portEnable ag _ n => exact h.quietRequest ag _ _ (quiet_takePortEnable n)
  | portDisable ag _ n => exact h.request ag _ _ fun u => (takePortDisable_facts n u).2.2
  | portRead ag _ _ => exact h.request ag _ _ fun _ => id
  | sourceBar ag _ e r => exact h.request ag _ _ fun u => (rest_takeSourceBar e r u).2
  | sourceUnbar ag _ e => exact h.onlyRequest ag _ _ (onlySelection_takeSourceUnbar e)
  | sourceRead ag _ _ =>
    exact h.quietRequest ag _ _ fun u => by
      unfold takeSourceRead
      split
      · exact .refl u
      · split <;> exact .refl u
  | refLabel ag _ x off l => exact h.onlyRequest ag _ _ (onlySelection_takeRefLabel ag x off l)
  | clientAdd ag _ j => exact h.quietRequest ag _ _ (quiet_takeClientAdd j)
  | clientRemove ag _ i => exact h.quietRequest ag _ _ (quiet_takeClientRemove i)
  | clientRead ag _ i => exact h.quietRequest ag _ _ (quiet_takeClientRead i)
  | epochConfig ag _ k => exact h.quietRequest ag _ _ (quiet_takeEpochConfig k)
  | epochRead ag _ => exact h.request ag _ _ fun _ => id
  | quotaSet ag _ a b c => exact h.request ag _ _ fun u => (takeQuotaSet_facts ag a b c u).2.2
  | schedAdd ag o r => exact h.request ag _ _ fun u => (takeSchedAdd_facts ag o r u).2.2
  | schedCancel ag _ x => exact h.request ag _ _ fun u => (takeSchedCancel_facts ag x u).2.2
  | schedRead ag _ x => exact h.request ag _ _ fun u => (takeSchedRead_facts ag x u).2.2
  | lineSet ag _ d => exact h.quietRequest ag _ _ (quiet_takeLineOp ag .set d)
  | lineClear ag _ d => exact h.quietRequest ag _ _ (quiet_takeLineOp ag .clear d)
  | lineLoad ag _ d c v => exact h.quietRequest ag _ _ (quiet_takeLineLoad ag d c v)
  | lineTest ag _ d => exact h.quietRequest ag _ _ (quiet_takeLineTest ag d)
  | lineStore ag _ d c => exact h.quietRequest ag _ _ (quiet_takeLineStore ag d c)
  | lineOwn ag _ d w => exact h.quietRequest ag _ _ (quiet_takeLineOwn ag d w)
  | lineConfig ag _ d c => exact h.quietRequest ag _ _ (quiet_takeLineConfig ag d c)
  | captureRead ag o => exact h.quietRequest ag _ _ (quiet_takeCaptureRead ag o)
  | captureRelease ag _ n => exact h.quietRequest ag _ _ (quiet_takeCaptureRelease ag n)
  | contextSet ag _ x => exact h.quietRequest ag _ _ (quiet_takeContextSet ag x)
  | contextRead ag _ => exact h.request ag _ _ fun _ => id
  | grantClaim ag o => exact h.quietRequest ag _ _ (quiet_takeGrantClaim ag o)
  | grantRenew ag _ => exact h.quietRequest ag _ _ (quiet_takeGrantRenew ag)
  | grantRelease ag _ => exact h.quietRequest ag _ _ (quiet_takeGrantRelease ag)
  | agentReset ag _ => exact h.quietRequest ag _ _ (quiet_agentReset ag)
  | partReset ag _ => exact (runPartReset_room ag _ s h).next
  | alertRead ag _ => exact h.quietRequest ag _ _ (quiet_takeAlertRead ag)
  | alertReturn ag _ n => exact h.quietRequest ag _ _ (quiet_takeAlertReturn ag n)
  | alertMask ag _ m => exact h.quietRequest ag _ _ (quiet_takeAlertMask ag m)
  | submitWindow ag x => exact h.quietNext (quiet_selectWindow ag _ x s)
  | collectWindow ag x => exact h.quietNext (quiet_selectWindow ag _ x s)
  | otherWindow ag d x => exact h.quietNext (quiet_selectWindow ag d x s)
  | agentResetInput ag =>
    exact h.quietNext (((quiet_cutOff ag s).trans (quiet_setResetIn ag true _)).trans (quiet_agentReset ag _))
  | resetInput => exact (resetPart_room _).next
  | powerOn => exact ((resetPart_room s).of_only (onlySelection_setTs _ _)).next
  | schedAgentReset ag => exact ((schedAgentReset_facts ag s).2.2 h).next
  | lineAgentReset ag => exact h.quietNext (quiet_lineAgentReset ag s)
  | grantAgentReset ag => exact h.quietNext (quiet_grantAgentReset ag s)
  | slewNotifyReset ag => exact h.onlyNext (onlySelection_slewNotifyReset s ag)
  | linkUp n => exact h.quietNext (linkUp_quiet n s)
  | linkDown n => exact ((linkDown_facts n s).2.2 h).next
  | frameArrival n f => exact ((receive_facts n f s).2.2 h).next
  | transmitEnd n => exact h.quietNext (quiet_transmitEnd n s)
  | frameDeparts n => exact h.quietNext (quiet_departs n s)
  | echoSlot n => exact h.quietNext (quiet_echoSlot n s)
  | replyWaitExpiry n q => exact ((replyWaitExpiry_facts n q s).2.2 h).next
  | originTaken => exact execOriginTaken_room s h
  | sourceSample => exact execSourceSample_room s h
  | sourceMiss => exact execSourceMiss_room s h
  | staleDeadline i => exact execStaleDeadline_room s h i
  | refDeadline => exact h.restNext (rest_staleAtDeadline 8 s)
  | staleRemoval i => exact h.restNext (rest_removeStale i s)
  | refEdge => exact execRefEdge_room s h
  | measurement => exact h.onlyNext (onlySelection_takeMeasurement s)
  | utcPairAdopt => exact h.onlyNext (onlySelection_takePair s)
  | slewComplete => exact h.onlyNext (onlySelection_completeSlew s)
  | leapApply => exact h.onlyNext (onlySelection_dueLeap s)
  | holdoverGrade => exact h.onlyNext (onlySelection_gradeHoldover s)
  | holdoverExpiry => exact h.onlyNext (onlySelection_overHoldover s)
  | snapshotSave => exact h.onlyNext (onlySelection_saveSnapshot s)
  | registerTaken => exact execRegisterTaken_room s h
  | clientSample => exact execClientSample_room s h
  | clientMiss => exact execClientMiss_room s h
  | lapseTimer i => exact h.quietNext (quiet_endLapse i s)
  | epochInstant => exact h.quietNext (quiet_makeInstant s)
  | epochStepReport => exact execEpochStepReport_room s h
  | stepReport => exact execStepReport_room s h
  | rekey => exact execRekey_room s h
  | keyReached l => exact ((keyReached_facts l s).2.2 h).next
  | pulseEnd i => exact h.quietNext (quiet_endPulse i s)
  | inputEdge k e => exact execInputEdge_room s h k e
  | grantExpiry => exact h.quietNext (quiet_expireGrant s)
  | renewalReport => exact h.quietNext (quiet_takeRenewal s)
  | alertRaise ag k => exact h.quietNext (quiet_takeRaise ag k s)
  | scheduleAlertRaise ag => exact h.quietNext (quiet_takeSchedRaise ag s)
  | alertDelivery ag => exact h.quietNext (quiet_deliverAlert ag s)
  | resetInputRelease => exact h.quietNext (.of_eq rfl rfl rfl rfl rfl rfl)
  | agentResetInputRelease ag => exact h.quietNext (quiet_setResetIn ag false s)

/-- A step, of a command or idle, keeps the queues within their room. -/
theorem step_room (s : State) (h : RoomKept s) : ∃ t, step s = .next t ∧ RoomKept t := by
  unfold step
  split
  · next c rest _ =>
    have hrest : quiet s { s with pending := rest } := .of_eq rfl rfl rfl rfl rfl rfl
    exact exec_room c _ (hrest.room h)
  · split
    · exact exec_room _ s h
    · exact h.onlyNext (onlySelection_advance s s.span)

/-- Settles O60: every command keeps the queues within their room, and so does the passing of time. -/
theorem stepKeepsRoom : Obligations.StepKeepsRoom := by
  intro s t h hstep
  obtain ⟨u, hu, hroom⟩ := step_room s h
  rw [hu] at hstep
  cases hstep
  exact hroom

end Sys2Proof.Machine
end

section
/-! The rounding of the echo engine and the delay filters (R62, R65, R66), and the law of the delay filter. -/

namespace Sys2Proof.Machine

/-! ## Quotients to the nearest whole number -/

/-- A quotient rounded to the nearest lies at most half a unit away, and at half a unit it is the even neighbour. -/
theorem divNearestEven_near (a : Int) {b : Nat} (hb : 0 < b) :
    |2 * (b : Int) * divNearestEven a b - 2 * a| ≤ b ∧
      (|2 * (b : Int) * divNearestEven a b - 2 * a| = b → divNearestEven a b % 2 = 0) := by
  have hb' : (0 : Int) < b := by exact_mod_cast hb
  have hr := Int.emod_nonneg a hb'.ne'
  have hlt := Int.emod_lt_of_pos a hb'
  have ha : (b : Int) * (a / b) + a % b = a := Int.mul_ediv_add_emod a b
  have down : 2 * (b : Int) * (a / b) - 2 * a = -(2 * (a % b)) := by linear_combination 2 * ha
  have up : 2 * (b : Int) * (a / b + 1) - 2 * a = 2 * b - 2 * (a % b) := by linear_combination 2 * ha
  unfold divNearestEven
  dsimp only
  split
  case isTrue hbelow =>
    rw [down, abs_neg, abs_of_nonneg (by omega)]
    omega
  case isFalse hnot =>
    split
    case isTrue htie =>
      rcases Int.emod_two_eq_zero_or_one (a / b) with he | ho
      · rw [he, add_zero, down, abs_neg, abs_of_nonneg (by omega)]
        omega
      · rw [ho, up, abs_of_nonneg (by omega)]
        omega
    case isFalse hne =>
      rw [up, abs_of_nonneg (by omega)]
      omega

theorem divNearestEven_nonneg {a : Int} (b : Nat) (ha : 0 ≤ a) : 0 ≤ divNearestEven a b := by
  have hq : 0 ≤ a / (b : Int) := Int.ediv_nonneg ha (Int.natCast_nonneg b)
  unfold divNearestEven
  dsimp only
  split
  · exact hq
  · split <;> omega

/-- Half of a number: exact when it is even, otherwise the even one of its two neighbours (R62). -/
theorem divNearestEven_two (a : Int) :
    (a % 2 = 0 → 2 * divNearestEven a 2 = a) ∧
      (a % 2 ≠ 0 → (2 * divNearestEven a 2 = a + 1 ∨ 2 * divNearestEven a 2 = a - 1) ∧ divNearestEven a 2 % 2 = 0) := by
  obtain ⟨hnear, htie⟩ := divNearestEven_near a (b := 2) (by decide)
  rw [Int.abs_eq_natAbs] at hnear htie
  omega

/-! ## Samples -/

section
variable {limit : Nat} {f : Filter} {x : Int}

theorem sampleInRange_iff : sampleInRange x = true ↔ 0 ≤ x ∧ x ≤ 655360000000 := by
  simp [sampleInRange, Config.filterMax]

/-- The outlier test (R65). -/
theorem isOutlier_iff :
    isOutlier limit f x = true ↔
      ¬(0 ≤ x ∧ x ≤ 655360000000) ∨
        (4 ≤ f.count ∧ ((limit * 65536 : Nat) : Int) < |x - ((f.value.getD 0 : Nat) : Int)|) := by
  rw [← sampleInRange_iff, Int.abs_eq_natAbs, Int.ofNat_lt, isOutlier, Bool.or_eq_true, Bool.and_eq_true,
    decide_eq_true_iff, decide_eq_true_iff, Bool.not_eq_true', Bool.not_eq_true]
  rfl

theorem filterTake_outlier (h : isOutlier limit f x = true) (hrun : f.run < 3) :
    filterTake limit f x = ({ f with run := f.run + 1 }, .outlier) := by
  rw [filterTake, if_pos h, if_pos (by omega)]

/-- The fourth outlier in a row in 0 … 10 ms restarts the filter (R66). -/
theorem filterTake_restart (h : isOutlier limit f x = true) (hrun : 3 ≤ f.run) (hx : sampleInRange x = true) :
    filterTake limit f x = (⟨some x.toNat, 1, 0, x.toNat⟩, .restart) := by
  rw [filterTake, if_pos h, if_neg (by omega), if_pos hx]

/-- The fourth outlier in a row outside 0 … 10 ms empties the filter (R66). -/
theorem filterTake_emptied (h : isOutlier limit f x = true) (hrun : 3 ≤ f.run) (hx : ¬sampleInRange x = true) :
    filterTake limit f x = (⟨none, 0, 0, 0⟩, .restart) := by
  rw [filterTake, if_pos h, if_neg (by omega), if_neg hx]
  rfl

theorem filterTake_kept (h : ¬isOutlier limit f x = true) : filterTake limit f x = (keepSample f x.toNat, .kept) :=
  if_neg h

/-- One of the first four samples: the value becomes their mean (R65). -/
theorem keepSample_mean (n : Nat) (h : f.count < 4) :
    ∃ v : Nat, keepSample f n = ⟨some v, f.count + 1, 0, f.sum + n⟩ ∧
      (v : Int) = divNearestEven ((f.sum + n : Nat) : Int) (f.count + 1) :=
  ⟨_, if_pos h, Int.toNat_of_nonneg (divNearestEven_nonneg _ (Int.natCast_nonneg _))⟩

/-- A later sample moves the value one eighth of the way (R65). -/
theorem keepSample_eighth (n : Nat) (h : 4 ≤ f.count) :
    ∃ v : Nat, keepSample f n = ⟨some v, min (f.count + 1) 65535, 0, f.sum⟩ ∧
      (v : Int) = divNearestEven ((7 * f.value.getD 0 + n : Nat) : Int) 8 :=
  ⟨_, if_neg h.not_gt, Int.toNat_of_nonneg (divNearestEven_nonneg _ (Int.natCast_nonneg _))⟩

end

/-! ## The statement -/

/-- Settles O25: the outlier test, then the three fates of a sample; the values are roundings by `divNearestEven`. -/
theorem delayFilterKeepsItsLaw : Obligations.DelayFilterKeepsItsLaw := by
  intro limit f x inRange outlier u
  have hout : isOutlier limit f x = true ↔ outlier := isOutlier_iff
  have hin : sampleInRange x = true ↔ inRange := sampleInRange_iff
  refine ⟨fun ho => filterTake_outlier (hout.2 ho), fun ho hr hx => filterTake_restart (hout.2 ho) hr (hin.2 hx),
    fun ho hr hx => filterTake_emptied (hout.2 ho) hr (mt hin.1 hx), fun hk hc => ?mean, fun hk hc => ?eighth⟩
  case mean =>
    obtain ⟨v, hv, hval⟩ := keepSample_mean x.toNat hc
    refine ⟨v, (filterTake_kept (mt hout.1 hk)).trans (by rw [hv]), ?_⟩
    obtain ⟨hnear, htie⟩ := divNearestEven_near ((f.sum + x.toNat : Nat) : Int) f.count.succ_pos
    rw [← hval] at hnear htie
    exact ⟨by exact_mod_cast hnear, fun h => by exact_mod_cast htie (by exact_mod_cast h)⟩
  case eighth =>
    obtain ⟨v, hv, hval⟩ := keepSample_eighth x.toNat hc
    refine ⟨v, (filterTake_kept (mt hout.1 hk)).trans (by rw [hv]), ?_⟩
    have hx : 0 ≤ x := (not_not.1 (not_or.1 hk).1).1
    obtain ⟨hnear, htie⟩ := divNearestEven_near ((7 * f.value.getD 0 + x.toNat : Nat) : Int) (b := 8) (by decide)
    rw [← hval] at hnear htie
    have hsum : ((7 * f.value.getD 0 + x.toNat : Nat) : Int) = 7 * ((f.value.getD 0 : Nat) : Int) + x := by
      rw [Nat.cast_add, Nat.cast_mul, Int.toNat_of_nonneg hx]
      rfl
    rw [hsum] at hnear htie
    exact ⟨hnear, fun h => by exact_mod_cast htie h⟩

end Sys2Proof.Machine
end

section
/-! PORT-READ and SOURCE-READ (R57, R86). -/

namespace Sys2Proof.Machine

section
variable (ag : Agent) (o : Options) (s : State)

/-- PORT-READ (R57). -/
theorem exec_portRead (n : Net) (h : s.takesNow ag ⟨o, .portRead n⟩ = true) :
    exec (.portRead ag o n) s = .next (respond ag .ok (takePortRead n s).body s) :=
  congrArg Host.Outcome.next (runRequest_answer s ag _ (takePortRead n) h s _ _ rfl)

/-- SOURCE-READ of ALL (R86). -/
theorem exec_sourceRead_all (h : s.takesNow ag ⟨o, .sourceRead none⟩ = true) :
    exec (.sourceRead ag o none) s =
      .next (respond ag .ok (.paths (s.src.entries.map (Option.map summaryOf)) (sourceTail s.src)) s) :=
  congrArg Host.Outcome.next (runRequest_answer s ag _ (takeSourceRead none) h s _ _ rfl)

/-- SOURCE-READ of a present entry (R86). -/
theorem exec_sourceRead_present {i : Nat} {p : SourcePath} (h : s.takesNow ag ⟨o, .sourceRead (some i)⟩ = true)
    (hp : s.path i = some p) :
    exec (.sourceRead ag o (some i)) s = .next (respond ag .ok (.path p (sourceTail s.src)) s) := by
  refine congrArg Host.Outcome.next (runRequest_answer s ag _ (takeSourceRead (some i)) h s _ _ ?_)
  simp [takeSourceRead, hp, accept]

/-- SOURCE-READ of an absent entry (R86). -/
theorem exec_sourceRead_absent {i : Nat} (h : s.takesNow ag ⟨o, .sourceRead (some i)⟩ = true) (hp : s.path i = none) :
    exec (.sourceRead ag o (some i)) s = .next (respond ag (entryRefusal i) .empty s) := by
  refine congrArg Host.Outcome.next (runRequest_refuse ag _ s (takeSourceRead (some i)) _ h ?_)
  simp [takeSourceRead, hp]

end

theorem entryRefusal_of_entry {i : Nat} (h : i ≤ 8) : entryRefusal i = .noEntry := if_pos (Nat.lt_succ_of_le h)

/-- Which status refuses a number above 8 is free (log entry 5). -/
theorem entryRefusal_cases (i : Nat) : entryRefusal i = .noEntry ∨ entryRefusal i = .range := by
  unfold entryRefusal
  split
  · exact .inl rfl
  · split
    · exact .inr rfl
    · exact .inl rfl

/-- Settles O21: both requests return what stands, by the entry that SOURCE-READ names. -/
theorem portsAndSourcesAreRead : Obligations.PortsAndSourcesAreRead := by
  refine ⟨fun ag o n s h => exec_portRead ag o s n h, fun ag o e s h => ?_⟩
  intro tail
  refine ⟨?all, ?present, ?absent, ?outside⟩
  case all =>
    rintro rfl
    exact exec_sourceRead_all ag o s h
  case present =>
    rintro i p rfl hp
    exact exec_sourceRead_present ag o s h hp
  case absent =>
    rintro i rfl hi hp
    rw [exec_sourceRead_absent ag o s h hp, entryRefusal_of_entry hi]
  case outside =>
    rintro i rfl - hp
    exact ⟨entryRefusal i, entryRefusal_cases i, exec_sourceRead_absent ag o s h hp⟩

end Sys2Proof.Machine
end

section
/-! The transmit queue, the stamping point and the end of a transmission (R51 … R54, R60). -/

namespace Sys2Proof.Machine

/-! ## The start of a transmission (R54) -/

section
variable {p : NetPort}

theorem beginTx_of_busy {t : Transmission} (ht : p.tx = some t) : beginTx p = p := by
  unfold beginTx
  split
  · rw [ht]
  · rfl

theorem beginTx_epoch {f : EpochFrame} (hup : p.state = .up) (ht : p.tx = none) (h0 : p.class0 = some f) :
    beginTx p = { p with class0 := none, tx := some ⟨.epoch f, none⟩ } := by
  rw [beginTx, if_pos hup, ht, h0]

theorem beginTx_class1Frame {f : Class1Frame} {rest : List Class1Frame} (hup : p.state = .up) (ht : p.tx = none)
    (h0 : p.class0 = none) (h1 : p.class1 = f :: rest) :
    beginTx p = { p with class1 := rest, tx := some ⟨.class1 f, none⟩ } := by
  rw [beginTx, if_pos hup, ht, h0, h1]

theorem beginTx_of_empty (ht : p.tx = none) (h0 : p.class0 = none) (h1 : p.class1 = []) : beginTx p = p := by
  unfold beginTx
  split
  · rw [ht, h0, h1]
  · rfl

/-! ## Placing a frame (R52, R53) -/

theorem placeEpoch_of_busy (f : EpochFrame) {t : Transmission} (ht : p.tx = some t) :
    placeEpoch f p = { p with
      class0 := some f
      counters := { p.counters with
        epochReplaced := if p.class0.isSome then bump32 p.counters.epochReplaced else p.counters.epochReplaced } } := by
  unfold placeEpoch
  dsimp only
  rw [beginTx_of_busy (t := t)]
  · split <;> rfl
  · exact ht

theorem placeEpoch_sent (f : EpochFrame) (hup : p.state = .up) (ht : p.tx = none) (h0 : p.class0 = none) :
    placeEpoch f p = { p with tx := some ⟨.epoch f, none⟩ } := by
  unfold placeEpoch
  dsimp only
  rw [beginTx_epoch (f := f)]
  · simp [h0]
  · exact hup
  · exact ht
  · rfl

theorem placeClass1_queued (f : Class1Frame) {t : Transmission} (ht : p.tx = some t) (h1 : p.class1.length < 7) :
    placeClass1 f p = ({ p with class1 := p.class1 ++ [f] }, true) := by
  rw [placeClass1, if_pos h1]
  exact congrArg (·, true) (beginTx_of_busy (t := t) ht)

theorem placeClass1_sent (f : Class1Frame) (hup : p.state = .up) (ht : p.tx = none) (h0 : p.class0 = none)
    (h1 : p.class1 = []) : placeClass1 f p = ({ p with tx := some ⟨.class1 f, none⟩ }, true) := by
  rw [placeClass1, if_pos (by simp [h1]), beginTx_class1Frame (f := f) (rest := [])]
  · simp [h1]
  · exact hup
  · exact ht
  · exact h0
  · simp [h1]

theorem placeClass1_dropped (f : Class1Frame) (h1 : 7 ≤ p.class1.length) : placeClass1 f p = (p, false) :=
  if_neg h1.not_gt

end

/-! ## The stamping point (R51, R60) -/

section
variable {n : Net} {s : State}

theorem departs_of_idle (ht : (s.port n).tx = none) : departs n s = s := by
  simp [departs, ht]

theorem departs_of_departed {t : Transmission} (ht : (s.port n).tx = some t) (he : t.egress.isSome = true) :
    departs n s = s := by
  simp [departs, ht, he]

/-- The asks of a port once this frame has departed: the ask of an ECHO-ASK is IN FLIGHT (R60). -/
def asksDeparted (ts : Timescale) (f : TxFrame) (asks : List Ask) : List Ask :=
  match f with
  | .class1 (.ask _ seq _) => asks.map (Ask.depart seq ((departureField ts f).getD .unset) ts.el)
  | _ => asks

/-- A frame that has not departed is stamped with DT and EL, and its departure field is written. -/
theorem departs_of_waiting {t : Transmission} (ht : (s.port n).tx = some t) (he : t.egress = none) :
    departs n s = s.setPort n { s.port n with
      tx := some { t with egress := some ⟨⟨s.ts.dt, s.ts.el⟩, departureField s.ts t.frame⟩ }
      asks := asksDeparted s.ts t.frame (s.port n).asks } := by
  obtain ⟨frame, egress⟩ := t
  dsimp only at he ⊢
  subst he
  unfold departs
  dsimp only
  rw [ht]
  rcases frame with f | (_ | _) <;> rfl

/-! ## The end of a transmission (R54) -/

theorem transmitEnd_of_idle (ht : (s.port n).tx = none) : transmitEnd n s = s := by
  simp [transmitEnd, ht]

theorem transmitEnd_of_waiting {t : Transmission} (ht : (s.port n).tx = some t) (he : t.egress = none) :
    transmitEnd n s = s := by
  simp [transmitEnd, ht, he]

theorem transmitEnd_of_departed {t : Transmission} (ht : (s.port n).tx = some t) (he : t.egress.isSome = true) :
    transmitEnd n s = s.setPort n (beginTx { s.port n with tx := none }) := by
  simp [transmitEnd, ht, he]

end

/-! ## The statement -/

/-- Settles O24: stamping by the kind of the frame, the end by what is queued, placing by what the port is sending. -/
theorem framesAreQueuedAndDepart : Obligations.FramesAreQueuedAndDepart := by
  refine ⟨fun n s => ?departure, fun p hup => ?placing⟩
  case departure =>
    intro p stamp sent
    refine ⟨fun ht => ⟨congrArg _ (departs_of_idle ht), congrArg _ (transmitEnd_of_idle ht)⟩, ?epoch, ?admission, ?ask,
      fun t ht he => congrArg _ (departs_of_departed ht he),
      fun t ht he => congrArg _ (transmitEnd_of_waiting ht he), ?next⟩
    case epoch =>
      rintro ⟨frame, egress⟩ f  ht he (rfl : frame = _)
      exact congrArg Host.Outcome.next (departs_of_waiting ht he)
    case admission =>
      rintro ⟨frame, egress⟩ a b c d e  ht he (rfl : frame = _)
      exact congrArg Host.Outcome.next (departs_of_waiting ht he)
    case ask =>
      rintro ⟨frame, egress⟩ a q b ht he (rfl : frame = _)
      exact congrArg Host.Outcome.next (departs_of_waiting ht he)
    case next =>
      intro t ht he hup
      have hend := transmitEnd_of_departed ht he
      refine ⟨fun f h0 => ?_, fun f rest h0 h1 => ?_, fun h0 h1 => ?_⟩
      · exact congrArg _ (hend.trans (congrArg _ (beginTx_epoch (p := { p with tx := none }) hup rfl h0)))
      · exact congrArg _ (hend.trans (congrArg _ (beginTx_class1Frame (p := { p with tx := none }) hup rfl h0 h1)))
      · exact congrArg _ (hend.trans (congrArg _ (beginTx_of_empty (p := { p with tx := none }) rfl h0 h1)))
  case placing =>
    exact ⟨fun f t ht => placeEpoch_of_busy f ht, fun f ht h0 => placeEpoch_sent f hup ht h0,
      fun f t ht h1 => placeClass1_queued f ht h1, fun f ht h0 h1 => placeClass1_sent f hup ht h0 h1,
      fun f h1 => placeClass1_dropped f h1⟩

end Sys2Proof.Machine
end

section
/-! Received frames: the tests of R55 in their order, and what the bytes of a frame say (R179, R180). -/

namespace Sys2Proof.Machine

/-! ## The tests before the MTX tests (R55) -/

section
variable (n : Net) (f : EthFrame) (s : State)

/-- The frame reaches the MTX tests: the port is UP, the check sequence agrees, the frame is for the port and of MTX type. -/
def reachesMtxTests : Prop :=
  (s.port n).state = .up ∧ f.fcsOk = true ∧ (f.dest = Config.broadcastAddress ∨ f.dest = s.wire.station.get n) ∧
    f.etherType = 39485

/-- What becomes of the port, and of the frame, by the result of the MTX tests (R55, R56). -/
def State.receives (s : State) (n : Net) : MtxFate → State
  | .badVersion => s.recount n fun c => { c with droppedVersion := bump32 c.droppedVersion }
  | .badFormat => s.recount n fun c => { c with droppedFormat := bump32 c.droppedFormat }
  | .taken seq identity b => handOn n seq identity b (s.recount n fun c => { c with accepted := bump32 c.accepted })

theorem receive_of_not_up (h : (s.port n).state ≠ .up) : receive n f s = s := if_pos h

theorem receive_of_bad_fcs (hup : (s.port n).state = .up) (hf : f.fcsOk = false) :
    receive n f s = s.recount n fun c => { c with droppedFcs := bump32 c.droppedFcs } := by
  rw [receive, if_neg (not_not.2 hup), if_pos hf]

/-- A frame for another station, or of another type, is not received (R55). -/
theorem receive_of_foreign (hup : (s.port n).state = .up) (hf : f.fcsOk = true)
    (h : ¬(f.dest = Config.broadcastAddress ∨ f.dest = s.wire.station.get n) ∨ f.etherType ≠ 39485) :
    receive n f s = s := by
  rw [receive, if_neg (not_not.2 hup), if_neg (by simp [hf])]
  split
  · rfl
  · next hmine => exact if_pos (h.resolve_left (not_not.2 (by tauto)))

theorem receive_of_reaches (h : reachesMtxTests n f s) : receive n f s = s.receives n (readMtx f.payload) := by
  obtain ⟨hup, hf, hmine, htype⟩ := h
  rw [receive, if_neg (not_not.2 hup), if_neg (by simp [hf]), if_neg (by tauto), if_neg (not_not.2 htype)]
  cases readMtx f.payload <;> rfl

end

/-! ## Fields (R179) -/

section
variable {l : List Byte} {o : Nat}

theorem fieldAt_head (v : Byte) (l : List Byte) : fieldAt (v :: l) 0 1 = v.toNat := by
  simp [fieldAt, ofBe]

/-- An L-form time at an offset, as fraction units. -/
def ticksAt (l : List Byte) (o : Nat) : Ticks :=
  (fieldAt l o 6 * 1000000000 + fieldAt l (o + 6) 4) * 65536 + fieldAt l (o + 10) 2

theorem longAt_valid (h : fieldAt l (o + 6) 4 < 1000000000) : longAt l o = some (.valid (ticksAt l o)) := if_pos h

theorem longAt_unset (h : fieldAt l (o + 6) 4 = 4294967295) : longAt l o = some .unset := by
  rw [longAt, timeOfFields, if_neg (by rw [h]; decide), if_pos h]

/-- A nanoseconds field of 10^9 or more that is not that of UNSET is that of SATURATED or illegal (R179). -/
theorem longAt_other (h : 1000000000 ≤ fieldAt l (o + 6) 4) (hu : fieldAt l (o + 6) 4 ≠ 4294967295) :
    longAt l o = some .saturated ∨ longAt l o = none := by
  rw [longAt, timeOfFields, if_neg (show ¬_ < 1000000000 from h.not_gt), if_neg hu]
  split
  · exact .inl rfl
  · exact .inr rfl

theorem validAt_valid (h : fieldAt l (o + 6) 4 < 1000000000) : validAt l o = some (ticksAt l o) := by
  rw [validAt, longAt_valid h]

theorem validAt_none (h : 1000000000 ≤ fieldAt l (o + 6) 4) : validAt l o = none := by
  unfold validAt
  by_cases hu : fieldAt l (o + 6) 4 = 4294967295
  · rw [longAt_unset hu]
  · rcases longAt_other h hu with hs | hn
    · rw [hs]
    · rw [hn]

theorem askTimeAt_valid (h : fieldAt l (o + 6) 4 < 1000000000) : askTimeAt l o = some (.valid (ticksAt l o)) := by
  rw [askTimeAt, longAt_valid h]

theorem askTimeAt_unset (h : fieldAt l (o + 6) 4 = 4294967295) : askTimeAt l o = some .unset := by
  rw [askTimeAt, longAt_unset h]

theorem askTimeAt_none (h : 1000000000 ≤ fieldAt l (o + 6) 4) (hu : fieldAt l (o + 6) 4 ≠ 4294967295) :
    askTimeAt l o = none := by
  unfold askTimeAt
  rcases longAt_other h hu with hs | hn
  · rw [hs]
  · rw [hn]

/-! ## Bodies (R55, R180) -/

theorem leapOf_legal {kind : Nat} (h : kind ≤ 2) (m : Nat) : ∃ leap, leapOf kind m = some leap := by
  obtain rfl | rfl | rfl : kind = 0 ∨ kind = 1 ∨ kind = 2 := by omega
  · exact ⟨_, rfl⟩
  · exact ⟨_, rfl⟩
  · exact ⟨_, rfl⟩

theorem leapOf_illegal {kind : Nat} (h : 2 < kind) (m : Nat) : leapOf kind m = none := by
  obtain ⟨k, rfl⟩ := Nat.exists_eq_add_of_lt h
  rw [show 2 + k + 1 = k + 3 by omega]
  rfl

theorem originBody_none (h : 15 < fieldAt l 12 1 ∨ 2 < fieldAt l 20 1 ∨ 1000000000 ≤ fieldAt l 6 4) :
    originBody l = none := by
  unfold originBody
  split
  · next d leap hd hl =>
    refine if_neg fun hc => ?_
    rcases h with h | h | h
    · exact absurd hc h.not_ge
    · rw [leapOf_illegal h] at hl
      cases hl
    · rw [validAt_none h] at hd
      cases hd
  · rfl

theorem originBody_taken {leap : Leap} (hns : fieldAt l 6 4 < 1000000000) (hc : fieldAt l 12 1 ≤ 15)
    (hl : leapOf (fieldAt l 20 1) (fieldAt l 21 6) = some leap) :
    originBody l = some (.origin (ticksAt l 0) (fieldAt l 12 1) (fieldAt l 13 4) (ofBeSigned 1 (fieldAt l 17 1))
      (ofBeSigned 2 (fieldAt l 18 2)) leap) := by
  rw [originBody, validAt_valid hns, hl]
  exact if_pos hc

theorem echoBackBody_none (h : 1000000000 ≤ fieldAt l 18 4 ∨ 1000000000 ≤ fieldAt l 30 4) : echoBackBody l = none := by
  unfold echoBackBody
  rcases h with h | h
  · rw [validAt_none (o := 12) h]
    cases askTimeAt l 0 <;> rfl
  · rw [validAt_none (o := 24) h]
    cases askTimeAt l 0 <;> cases validAt l 12 <;> rfl

theorem echoBackBody_bad_ask (h : askTimeAt l 0 = none) : echoBackBody l = none := by
  rw [echoBackBody, h]

theorem echoBackBody_taken {t1 : TimeVal} (h1 : askTimeAt l 0 = some t1) (h2 : fieldAt l 18 4 < 1000000000)
    (h3 : fieldAt l 30 4 < 1000000000) : echoBackBody l = some (.echoBack t1 (ticksAt l 12) (ticksAt l 24)) := by
  rw [echoBackBody, h1, validAt_valid (o := 12) h2, validAt_valid (o := 24) h3]

/-! ## The MTX tests (R55) -/

theorem bodyOfKind_unknown {kind : Nat} (len : Nat) (h : kind ≠ 1 ∧ kind ≠ 3 ∧ kind ≠ 5) :
    bodyOfKind kind len l = none := by
  obtain ⟨h1, h3, h5⟩ := h
  unfold bodyOfKind
  split
  · exact absurd rfl h1
  · exact absurd rfl h3
  · exact absurd rfl h5
  · rfl

/-- A body length that is not that of the kind, or that the payload does not hold. -/
theorem bodyOfKind_bad_length {kind len : Nat}
    (h : (kind = 1 ∧ len ≠ 27) ∨ (kind = 3 ∧ len ≠ 36) ∨ (kind = 5 ∧ len ≠ 0) ∨ l.length < len) :
    bodyOfKind kind len l = none := by
  unfold bodyOfKind
  split
  · exact if_neg (by omega)
  · exact if_neg (by omega)
  · exact if_neg (by omega)
  · rfl

theorem bodyOfKind_origin (h : 27 ≤ l.length) : bodyOfKind 1 27 l = originBody l := if_pos ⟨rfl, h⟩

theorem bodyOfKind_echoBack (h : 36 ≤ l.length) : bodyOfKind 3 36 l = echoBackBody l := if_pos ⟨rfl, h⟩

theorem bodyOfKind_origin_none (len : Nat) (h : originBody l = none) : bodyOfKind 1 len l = none := by
  show (if len = 27 ∧ len ≤ l.length then originBody l else none) = none
  rw [h, ite_self]

theorem bodyOfKind_echoBack_none (len : Nat) (h : echoBackBody l = none) : bodyOfKind 3 len l = none := by
  show (if len = 36 ∧ len ≤ l.length then echoBackBody l else none) = none
  rw [h, ite_self]

theorem readMtx_badVersion (hl : 1 ≤ l.length) (hv : fieldAt l 0 1 ≠ 1) : readMtx l = .badVersion := by
  cases l with
  | nil => cases hl
  | cons v l =>
    rw [fieldAt_head] at hv
    exact if_pos fun e => hv (by rw [e]; rfl)

theorem readMtx_badFormat (hl : 13 ≤ l.length) (hv : fieldAt l 0 1 = 1)
    (hb : bodyOfKind (fieldAt l 1 1) (fieldAt l 11 2) (l.drop 13) = none) : readMtx l = .badFormat := by
  cases l with
  | nil => cases hl
  | cons v l =>
    rw [fieldAt_head] at hv
    rw [readMtx, if_neg (not_not.2 (BitVec.eq_of_toNat_eq hv)), if_neg hl.not_gt, hb]

theorem readMtx_taken (hl : 13 ≤ l.length) (hv : fieldAt l 0 1 = 1) {b : MtxBody}
    (hb : bodyOfKind (fieldAt l 1 1) (fieldAt l 11 2) (l.drop 13) = some b) :
    readMtx l = .taken (fieldAt l 3 2) (fieldAt l 5 6) b := by
  cases l with
  | nil => cases hl
  | cons v l =>
    rw [fieldAt_head] at hv
    rw [readMtx, if_neg (not_not.2 (BitVec.eq_of_toNat_eq hv)), if_neg hl.not_gt, hb]

end

/-! ## The statement -/

/-- Settles O22: the tests in their order at the port, then those on the bytes, by the kind of the frame. -/
theorem arrivingFramesAreTested : Obligations.ArrivingFramesAreTested := by
  refine ⟨fun n f s => ?port, fun l => ?bytes⟩
  case port =>
    intro p counted mine reaches stamp
    have hreach : ∀ x, reaches → readMtx f.payload = x → exec (.frameArrival n f) s = .next (s.receives n x) :=
      fun x h hx => congrArg Host.Outcome.next (hx ▸ receive_of_reaches n f s h)
    refine ⟨fun h => congrArg _ (receive_of_not_up n f s h), fun hup hf => congrArg _ (receive_of_bad_fcs n f s hup hf),
      fun hup hf h => congrArg _ (receive_of_foreign n f s hup hf h), hreach .badVersion, hreach .badFormat,
      fun seq id b h hm => ⟨?_, ?_, ?_⟩⟩
    · rintro d cls acc k off l rfl
      exact hreach _ h hm
    · rintro rfl
      exact hreach _ h hm
    · rintro t1 t2 t3 rfl
      exact hreach _ h hm
  case bytes =>
    intro v kind len b
    refine ⟨readMtx_badVersion, fun hl hv hk => readMtx_badFormat hl hv (bodyOfKind_unknown len hk),
      fun hl hv hlen => readMtx_badFormat hl hv (bodyOfKind_bad_length hlen), fun hl hv hk _ h => ?badOrigin,
      fun hl hv hk _ h => ?badEcho, fun hl hv hk hlen hb hc hkind hns => ?origin, fun hl hv hk hlen hb h2 h3 => ?echoBack,
      fun hl hv hk hlen => ?register⟩
    case badOrigin =>
      refine readMtx_badFormat hl hv ?_
      rw [show fieldAt l 1 1 = 1 from hk]
      exact bodyOfKind_origin_none _ (originBody_none h)
    case badEcho =>
      refine readMtx_badFormat hl hv ?_
      rw [show fieldAt l 1 1 = 3 from hk]
      exact bodyOfKind_echoBack_none _ (echoBackBody_none h)
    case origin =>
      obtain ⟨leap, hleap⟩ := leapOf_legal hkind (fieldAt b 21 6)
      refine ⟨leap, hleap, readMtx_taken hl hv ?_⟩
      rw [show fieldAt l 1 1 = 1 from hk, show fieldAt l 11 2 = 27 from hlen, bodyOfKind_origin hb]
      exact originBody_taken hns hc hleap
    case echoBack =>
      intro time taken
      have hbody : bodyOfKind (fieldAt l 1 1) (fieldAt l 11 2) (l.drop 13) = echoBackBody b := by
        rw [show fieldAt l 1 1 = 3 from hk, show fieldAt l 11 2 = 36 from hlen, bodyOfKind_echoBack hb]
      exact ⟨fun h1 => readMtx_taken hl hv (hbody.trans (echoBackBody_taken (askTimeAt_valid h1) h2 h3)),
        fun h1 => readMtx_taken hl hv (hbody.trans (echoBackBody_taken (askTimeAt_unset h1) h2 h3)),
        fun h1 hu => readMtx_badFormat hl hv (hbody.trans (echoBackBody_bad_ask (askTimeAt_none h1 hu)))⟩
    case register =>
      refine readMtx_taken hl hv ?_
      rw [show fieldAt l 1 1 = 5 from hk, show fieldAt l 11 2 = 0 from hlen]
      rfl

end Sys2Proof.Machine
end

section
/-! The echo exchange: asks issued in their slots, resolved by an ECHO-BACK, or ended by their reply wait (R59 … R63). -/

namespace Sys2Proof.Machine

/-! ## The end of asks (R63, R64) -/

/-- An ECHO-ASK leaves the queue when an ended ask has its sequence. -/
theorem isAskOf_ended (g : Ask → Bool) (asks : List Ask) (o q t : Nat) :
    (Class1Frame.ask o q t).isAskOf ((asks.filter g).map Ask.seq) = asks.any fun a => g a && a.seq == q := by
  rw [Class1Frame.isAskOf, List.contains_map, List.any_filter]
  exact congrArg asks.any (funext fun a => congrArg (g a && ·) BEq.comm)

theorem endAsksWhere_eq (g : Ask → Bool) (p : NetPort) :
    endAsksWhere g p = { p with
      asks := p.asks.filter fun a => !g a
      class1 := p.class1.filter fun f =>
        match f with
        | .ask _ q _ => !(p.asks.any fun a => g a && a.seq == q)
        | .admission .. => true } := by
  have stays : (fun f : Class1Frame => !f.isAskOf ((p.asks.filter g).map Ask.seq)) = fun f =>
      match f with
      | .ask _ q _ => !(p.asks.any fun a => g a && a.seq == q)
      | .admission .. => true := by
    funext f
    cases f with
    | ask o q t => exact congrArg (!·) (isAskOf_ended g p.asks o q t)
    | admission => rfl
  unfold endAsksWhere
  dsimp only
  rw [stays]

/-! ## Miss counts (R61, R63) -/

section
variable {s : State} {i id : Nat} (n : Net) (f : Nat → Nat)

theorem recountMiss_path {p : SourcePath} (hp : s.path i = some p) (hid : p.identity = id) :
    s.recountMiss n (.path i id) f = s.setPath i (some { p with miss := p.miss.map f }) := by
  simp [State.recountMiss, hp, hid]

theorem recountMiss_path_gone (h : ∀ p, s.path i = some p → p.identity ≠ id) : s.recountMiss n (.path i id) f = s := by
  unfold State.recountMiss
  dsimp only
  cases hp : s.path i with
  | none => rfl
  | some p => exact if_neg (h p hp)

theorem recountMiss_client {c : Client} {p : Presence} (hc : s.client i = some c) (hid : c.identity = id)
    (hp : c.presences.get n = some p) :
    s.recountMiss n (.client i id) f =
      s.setClient i (some { c with presences := c.presences.set n (some { p with miss := f p.miss }) }) := by
  simp [State.recountMiss, hc, hid, hp]

theorem recountMiss_client_gone (h : ∀ c, s.client i = some c → c.identity ≠ id ∨ c.presences.get n = none) :
    s.recountMiss n (.client i id) f = s := by
  unfold State.recountMiss
  dsimp only
  cases hc : s.client i with
  | none => rfl
  | some c =>
    dsimp only
    cases hp : c.presences.get n with
    | none => rfl
    | some p => exact if_neg ((h c hc).resolve_right (by rw [hp]; exact Option.some_ne_none p))

end

/-! ## An accepted ECHO-BACK (R61, R62) -/

section
variable {seq id : Nat} {t1 : TimeVal} {a : Ask}

/-- The ask is in flight and the ECHO-BACK matches it in sequence, identity and t1 (R61). -/
def Ask.matchedBy (seq id : Nat) (t1 : TimeVal) (a : Ask) : Prop :=
  a.seq = seq ∧ a.target.identity = id ∧ ∃ e1, a.state = .inFlight t1 e1

theorem answeredBy_unmatched (h : ¬a.matchedBy seq id t1) : a.answeredBy seq id t1 = none := by
  unfold Ask.answeredBy
  split
  · next t e hs => exact if_neg fun ⟨hseq, hid, ht⟩ => h ⟨hseq, hid, e, ht ▸ hs⟩
  · rfl

theorem answeredBy_matched {e1 : Nat} (hseq : a.seq = seq) (hid : a.target.identity = id)
    (hs : a.state = .inFlight t1 e1) : a.answeredBy seq id t1 = some (a.target, e1) := by
  rw [Ask.answeredBy, hs]
  exact if_pos ⟨hseq, hid, rfl⟩

variable {n : Net} {s : State} (t2 t3 : Ticks)

theorem resolveEcho_late (h : ∀ a ∈ (s.port n).asks, ¬a.matchedBy seq id t1) :
    resolveEcho n seq id t1 t2 t3 s = s.recount n fun c => { c with lateReplies := bump32 c.lateReplies } := by
  rw [resolveEcho, List.findSome?_eq_none_iff.2 fun a ha => answeredBy_unmatched (h a ha)]

/-- The first ask that the ECHO-BACK matches is ended, and its sample handed on. -/
theorem resolveEcho_sample {before after : List Ask} {e1 : Nat} (hasks : (s.port n).asks = before ++ a :: after)
    (hb : ∀ x ∈ before, ¬x.matchedBy seq id t1) (hseq : a.seq = seq) (hid : a.target.identity = id)
    (hs : a.state = .inFlight t1 e1) :
    resolveEcho n seq id t1 t2 t3 s =
      handSample ⟨n, a.target, delaySample e1 s.ts.el t2 t3⟩
        ((s.setPort n (endAsksWhere (fun x => x.seq == seq) (s.port n))).recountMiss n a.target fun _ => 0) := by
  have hfind : (s.port n).asks.findSome? (Ask.answeredBy seq id t1) = some (a.target, e1) := by
    rw [hasks, List.findSome?_append, List.findSome?_eq_none_iff.2 fun x hx => answeredBy_unmatched (hb x hx),
      List.findSome?_cons, answeredBy_matched hseq hid hs]
    rfl
  rw [resolveEcho, hfind]

end

/-! ## Ask slots (R59, R60) -/

theorem beginTx_asks (p : NetPort) : (beginTx p).asks = p.asks := by
  unfold beginTx
  split
  · split
    · rfl
    · split
      · rfl
      · split <;> rfl
  · rfl

theorem placeClass1_asks (f : Class1Frame) (p : NetPort) : (placeClass1 f p).1.asks = p.asks := by
  unfold placeClass1
  split
  · exact beginTx_asks _
  · rfl

/-- An ask issued takes the next echo sequence; it is QUEUED or, without room for its frame, DROPPED (R60). -/
theorem issueAsk_eq (origin k : Nat) (t : Target) (p : NetPort) :
    issueAsk origin k t p =
      let placed := placeClass1 (.ask origin p.echoSeq t.identity) { p with echoSeq := (p.echoSeq + 1) % 65536 }
      { placed.1 with
        asks := p.asks ++ [⟨p.echoSeq, t, p.cycleStart + (k * p.cycleInterval + 63) / 64, p.cycleWait,
          if placed.2 then .queued else .dropped⟩] } := by
  unfold issueAsk
  dsimp only
  rw [placeClass1_asks]
  rfl

theorem rollCycle_eq (e : EchoSettings) (p : NetPort) :
    rollCycle e p = if p.nextSlot < 64 then p else
      { p with
        cycleStart := p.cycleStart + p.cycleInterval, nextSlot := 0, cycleInterval := e.interval
        cycleWait := e.wait } := by
  unfold rollCycle
  by_cases h : p.nextSlot < 64
  · rw [if_neg h.not_ge, if_pos h]
  · rw [if_pos (not_lt.1 h), if_neg h]

theorem rollCycle_asks (e : EchoSettings) (p : NetPort) : (rollCycle e p).asks = p.asks := by
  unfold rollCycle
  split <;> rfl

section
variable {n : Net} {s : State}

theorem slotDue_iff :
    slotDue n s = true ↔ (s.port n).state = .up ∧
      64 * (s.port n).cycleStart + (s.port n).nextSlot * (s.port n).cycleInterval ≤ 64 * s.ts.el := by
  simp [slotDue]

theorem echoSlot_early (h : ¬slotDue n s = true) : echoSlot n s = s := if_neg h

/-- The port with the slot behind it, and nothing asked. -/
def State.slotPassed (s : State) (n : Net) : NetPort :=
  let q := rollCycle s.echo (s.port n)
  { q with nextSlot := q.nextSlot + 1 }

theorem slotPassed_asks : (s.slotPassed n).asks = (s.port n).asks := rollCycle_asks _ _

theorem echoSlot_no_target (h : slotDue n s = true)
    (ht : slotTarget n (rollCycle s.echo (s.port n)).nextSlot s = none) :
    echoSlot n s = s.setPort n (s.slotPassed n) := by
  rw [echoSlot, if_pos h]
  dsimp only
  rw [ht]
  rfl

theorem hasAsk_iff (t : Target) (p : NetPort) : hasAsk t p = true ↔ ∃ a ∈ p.asks, a.target = t := by
  simp [hasAsk]

theorem echoSlot_asked {t : Target} (h : slotDue n s = true)
    (ht : slotTarget n (rollCycle s.echo (s.port n)).nextSlot s = some t) (ha : ∃ a ∈ (s.port n).asks, a.target = t) :
    echoSlot n s = s.setPort n (s.slotPassed n) := by
  rw [← slotPassed_asks, ← hasAsk_iff] at ha
  rw [echoSlot, if_pos h]
  dsimp only
  rw [ht]
  exact if_pos ha

theorem echoSlot_issues {t : Target} (h : slotDue n s = true)
    (ht : slotTarget n (rollCycle s.echo (s.port n)).nextSlot s = some t) (ha : ∀ a ∈ (s.port n).asks, a.target ≠ t) :
    echoSlot n s =
      s.setPort n (issueAsk s.wire.part (rollCycle s.echo (s.port n)).nextSlot t (s.slotPassed n)) := by
  have hnot : ¬hasAsk t (s.slotPassed n) = true := by
    rw [hasAsk_iff, slotPassed_asks]
    rintro ⟨a, hmem, heq⟩
    exact ha a hmem heq
  rw [echoSlot, if_pos h]
  dsimp only
  rw [ht]
  exact if_neg hnot

/-! ### The targets of the slots -/

variable {k : Nat}

theorem slotTarget_none (h : 4 ≤ k) (hk : k < 16) : slotTarget n k s = none := by
  rw [slotTarget, if_neg h.not_gt, if_pos hk]

theorem slotTarget_path_missing (hk : k < 4) (h : (pathsOf s.src n)[k]? = none) : slotTarget n k s = none := by
  rw [slotTarget, if_pos hk, h]

theorem slotTarget_client_missing (hk : 16 ≤ k) (h : s.client (k - 16) = none) : slotTarget n k s = none := by
  rw [slotTarget, if_neg (by omega), if_neg hk.not_gt, h]

theorem PathState.live_iff (x : PathState) : x.live = true ↔ x = .listen ∨ x = .candidate ∨ x = .selected := by
  cases x <;> simp [PathState.live]

theorem ClientState.asked_iff (x : ClientState) : x.asked = true ↔ x = .measuring ∨ x = .served := by
  cases x <;> simp [ClientState.asked]

theorem slotTarget_path (hk : k < 4) {i : Nat} {c : SourcePath} (h : (pathsOf s.src n)[k]? = some (i, c)) :
    slotTarget n k s =
      if c.state = .listen ∨ c.state = .candidate ∨ c.state = .selected then some (.path i c.identity) else none := by
  rw [slotTarget, if_pos hk, h]
  simp only [PathState.live_iff]

theorem slotTarget_client (hk : 16 ≤ k) {c : Client} (h : s.client (k - 16) = some c) :
    slotTarget n k s =
      if (c.state = .measuring ∨ c.state = .served) ∧ (c.presences.get n).isSome = true then
        some (.client (k - 16) c.identity) else none := by
  rw [slotTarget, if_neg (by omega), if_neg hk.not_gt, h]
  simp only [Bool.and_eq_true, ClientState.asked_iff]

/-! ## The reply wait (R63) -/

theorem expired_iff (seq el : Nat) (a : Ask) : a.expired seq el = true ↔ a.seq = seq ∧ a.issue + a.wait ≤ el := by
  simp [Ask.expired]

variable {seq : Nat}

theorem replyWaitExpiry_early (h : ∀ a ∈ (s.port n).asks, a.seq = seq → s.ts.el < a.issue + a.wait) :
    replyWaitExpiry n seq s = s := by
  rw [replyWaitExpiry, List.find?_eq_none.2]
  intro a ha hexp
  obtain ⟨hseq, hle⟩ := (expired_iff seq s.ts.el a).1 hexp
  exact absurd hle (h a ha hseq).not_ge

/-- The first ask whose reply wait has run out is ended, and its miss counted and reported. -/
theorem replyWaitExpiry_miss {before after : List Ask} {a : Ask} (hasks : (s.port n).asks = before ++ a :: after)
    (hb : ∀ x ∈ before, x.seq = seq → s.ts.el < x.issue + x.wait) (hseq : a.seq = seq)
    (hle : a.issue + a.wait ≤ s.ts.el) :
    replyWaitExpiry n seq s =
      handMiss ⟨n, a.target, a.issue + a.wait⟩
        ((s.setPort n (endAsksWhere (fun x => x.seq == seq) (s.port n))).recountMiss n a.target bump8) := by
  have hfind : (s.port n).asks.find? (Ask.expired seq s.ts.el) = some a := by
    refine List.find?_eq_some_iff_append.2 ⟨(expired_iff _ _ _).2 ⟨hseq, hle⟩, before, after, hasks, fun x hx => ?_⟩
    rw [Bool.not_eq_true', ← Bool.not_eq_true, expired_iff]
    exact fun ⟨hs, hl⟩ => absurd hl (hb x hx hs).not_ge
  rw [replyWaitExpiry, hfind]

end

/-! ## The statement -/

/-- Settles O23: ECHO-BACKs, miss counts, the sample, the end of asks, ask slots and the reply wait, each by its cases. -/
theorem asksAreIssuedAndEnd : Obligations.AsksAreIssuedAndEnd := by
  refine ⟨⟨fun n seq id t1 t2 t3 s => ?echoBack, fun n f i id s => ?miss, fun e1 e4 t2 t3 => ?sample, endAsksWhere_eq⟩,
    fun n s => ?slot, fun n seq s => ?wait⟩
  case echoBack =>
    intro p matched
    refine ⟨fun h => resolveEcho_late t2 t3 h, fun before a after e1 hasks hb hseq hid hs => ?_⟩
    intro u m
    refine (resolveEcho_sample t2 t3 hasks hb hseq hid hs).trans ?_
    change handSample m u = _
    unfold handSample
    cases ht : a.target <;> simp only [m, ht] <;> rfl
  case miss =>
    exact ⟨fun p => recountMiss_path n f, recountMiss_path_gone n f, fun c p => recountMiss_client n f,
      recountMiss_client_gone n f⟩
  case sample => exact divNearestEven_two _
  case slot =>
    intro p due q k next idle
    have hq : rollCycle s.echo (s.port n) = q := rollCycle_eq _ _
    have hdue : due → slotDue n s = true := slotDue_iff.2
    have hnext : s.slotPassed n = next := by rw [State.slotPassed, hq]
    refine ⟨fun h => congrArg _ (echoSlot_early (mt slotDue_iff.1 h)), fun h ht => ?_, fun t h ht ha => ?_,
      fun t h ht ha => ?_, slotTarget_none, slotTarget_path_missing, slotTarget_client_missing,
      fun hk i c => slotTarget_path hk, fun hk c => slotTarget_client hk⟩
    · exact congrArg _ ((echoSlot_no_target (hdue h) (hq ▸ ht)).trans (by rw [hnext]))
    · exact congrArg _ ((echoSlot_asked (hdue h) (hq ▸ ht) ha).trans (by rw [hnext]))
    · intro placed
      refine congrArg Host.Outcome.next ((echoSlot_issues (hdue h) (hq ▸ ht) ha).trans ?_)
      have hasks : p.asks = next.asks := by rw [← hnext, slotPassed_asks]
      rw [issueAsk_eq, hnext, hq, hasks]
  case wait =>
    intro p
    refine ⟨fun h => congrArg _ (replyWaitExpiry_early h), fun before a after hasks hb hseq hle => ?_⟩
    intro s1 m
    have hmiss : exec (.replyWaitExpiry n seq) s = .next (handMiss m (s1.recountMiss n a.target bump8)) :=
      congrArg Host.Outcome.next (replyWaitExpiry_miss hasks hb hseq hle)
    refine ⟨fun i id q ht hp hid _ => ?_, fun i id c q ht hc hid hp => ?_⟩
    · rw [hmiss, ht, recountMiss_path (s := s1) n bump8 hp hid]
      simp only [handMiss, m, ht]
      rfl
    · rw [hmiss, ht, recountMiss_client (s := s1) n bump8 hc hid hp]
      simp only [handMiss, m, ht]
      rfl

end Sys2Proof.Machine
end

section
/-! Ports that enter and leave UP (R46 … R49), and what the loss of a port does to the two tables (R75, R95). -/

namespace Sys2Proof.Machine

/-! ## Port states (R46, R49) -/

@[simp] theorem State.setPort_setPort (s : State) (n : Net) (p q : NetPort) :
    (s.setPort n p).setPort n q = s.setPort n q := by
  simp [State.setPort]

section
variable {n : Net} {s : State}

theorem enterUp_eq {link : Bool} (h : (s.port n).link = link) :
    enterUp n s = s.setPort n { s.port n with
      state := .up, link := link, class0 := none, class1 := [], tx := none, asks := []
      cycleStart := s.ts.el, nextSlot := 0, cycleInterval := s.echo.interval, cycleWait := s.echo.wait } := by
  subst h
  rfl

theorem linkUp_of_down (h : (s.port n).state = .down) :
    linkUp n s = enterUp n (s.setPort n { s.port n with link := true }) :=
  if_pos h

theorem linkUp_of_not_down (h : (s.port n).state ≠ .down) : linkUp n s = s.setPort n { s.port n with link := true } :=
  if_neg h

theorem linkDown_of_up (h : (s.port n).state = .up) :
    linkDown n s = leaveUp n .down (s.setPort n { s.port n with link := false }) :=
  if_pos h

theorem linkDown_of_not_up (h : (s.port n).state ≠ .up) : linkDown n s = s.setPort n { s.port n with link := false } :=
  if_neg h

theorem takePortEnable_down (h : (s.port n).state = .disabled) (hl : (s.port n).link = false) :
    takePortEnable n s = accept (.portState .down) (s.setPort n { s.port n with state := .down }) := by
  simp [takePortEnable, h, hl]

theorem takePortEnable_up (h : (s.port n).state = .disabled) (hl : (s.port n).link = true) :
    takePortEnable n s = accept (.portState .up) (enterUp n s) := by
  simp [takePortEnable, h, hl, enterUp]

theorem takePortEnable_stay (h : (s.port n).state ≠ .disabled) :
    takePortEnable n s = accept (.portState (s.port n).state) s := by
  cases hs : (s.port n).state with
  | disabled => exact absurd hs h
  | down => simp [takePortEnable, hs]
  | up => simp [takePortEnable, hs]

theorem takePortDisable_stay (h : (s.port n).state = .disabled) :
    takePortDisable n s = accept (.portState .disabled) s := by
  simp [takePortDisable, h]

theorem takePortDisable_down (h : (s.port n).state = .down) :
    takePortDisable n s = accept (.portState .disabled) (s.setPort n { s.port n with state := .disabled }) := by
  simp [takePortDisable, h]

end

/-! ## The loss of a port at the source table (R48, R75) -/

/-- The live paths of the network go STALE, and selection is re-examined. -/
theorem portLossSources_eq (n : Net) (s : State) :
    portLossSources n s =
      let v := settleSamples (fun m => m.net == n) s
      reexamine .first { v with src := { v.src with
        entries := v.src.entries.map fun e => e.map fun p =>
          if p.net = some n ∧ (p.state = .listen ∨ p.state = .candidate ∨ p.state = .selected) then p.staled s.ts.el
          else p } } := by
  unfold portLossSources
  simp only [PathState.live_iff]

/-! ## One slot at the loss of a port (R95) -/

/-- The client lapses when its presence on network `n` is cleared: it is asked, and no presence left answers. -/
def Client.lapsesWithout (n : Net) (d : Client) : Bool :=
  d.state.asked && ({ d with presences := d.presences.set n none } : Client).silent

/-- The record with its presence on network `n` cleared, LAPSED since `el` when it lapses. -/
def Client.without (n : Net) (el : Nat) (d : Client) : Client :=
  if d.lapsesWithout n then
    { d with presences := d.presences.set n none, state := .lapsed, lapsedSince := some el }
  else { d with presences := d.presences.set n none }

theorem Client.without_lapses {n : Net} {el : Nat} {d : Client} (h : d.lapsesWithout n = true) :
    d.without n el = { d with presences := d.presences.set n none, state := .lapsed, lapsedSince := some el } := if_pos h

theorem Client.without_stays {n : Net} {el : Nat} {d : Client} (h : d.lapsesWithout n = false) :
    d.without n el = { d with presences := d.presences.set n none } := by
  rw [Client.without, h]
  rfl

/-- The asks that end with the presence on network `n`: those of both networks when the client lapses. -/
def endLostAsks (n : Net) (t : Target) (lapses : Bool) (s : State) : State :=
  if lapses then endAsks t (endAskOn n t s) else endAskOn n t s

theorem clearPresence_stays {n : Net} {d : Client} (i : Nat) (s : State) (h : d.lapsesWithout n = false) :
    clearPresence n i d s =
      voidPresence i d.identity n (s.setClient i (some { d with presences := d.presences.set n none })) := by
  unfold clearPresence
  exact if_neg (ne_true_of_eq_false h)

theorem clearPresence_lapses {n : Net} {d : Client} (i : Nat) (s : State) (h : d.lapsesWithout n = true) :
    clearPresence n i d s =
      lapse i { d with presences := d.presences.set n none } .port s.ts.el
        (voidPresence i d.identity n (s.setClient i (some { d with presences := d.presences.set n none }))) := by
  unfold clearPresence
  exact if_pos h

/-- What the loss of a presence changes: the record, its asks, what is on its way for it, and the raises to agent 0. -/
theorem clearPresence_eq (n : Net) (i : Nat) (d : Client) (s : State) :
    clearPresence n i d s = { s with
      cli := { s.cli with slots := s.cli.slots.set i (some (d.without n s.ts.el)) }
      ports := (endLostAsks n (.client i d.identity) (d.lapsesWithout n) s).ports
      flight := { s.flight with
        clientSamples := s.flight.clientSamples.filter fun m => !(m.target == .client i d.identity && m.net == n)
        clientMisses := s.flight.clientMisses.filter fun m => !(m.target == .client i d.identity && m.net == n)
        raises :=
          if d.lapsesWithout n then
            s.flight.raises.set .agent0
              (s.flight.raises.get .agent0 ++ [.client ⟨i, d.identity, .lapsed, some .port, none⟩])
          else s.flight.raises } } := by
  cases h : d.lapsesWithout n
  · rw [clearPresence_stays i s h, Client.without_stays h]
    rfl
  · rw [clearPresence_lapses i s h, Client.without_lapses h, ← List.set_set]
    rfl

/-! ## The slots one by one -/

/-- The record whose presence on network `n` slot `i` loses, its samples taken; none where it has no presence there. -/
def bereaved (n : Net) (s : State) (i : Nat) : Option Client :=
  match s.client i with
  | none => none
  | some c => if (c.presences.get n).isSome then (settleClient i c.identity s).client i else none

/-- The record of slot `i` after the loss of the port of network `n`. -/
def afterLoss (n : Net) (s : State) (i : Nat) : Option Client :=
  (bereaved n s i).elim (s.client i) fun d => some (d.without n s.ts.el)

/-- What slot `i` raises toward agent 0 at the loss of the port of network `n` (R102). -/
def lossRaise (n : Net) (s : State) (i : Nat) : Option Raise :=
  (bereaved n s i).bind fun d =>
    if d.lapsesWithout n then some (.client ⟨i, d.identity, .lapsed, some .port, none⟩) else none

section
variable {n : Net} {s : State} {i : Nat}

theorem bereaved_of_no_client (h : s.client i = none) : bereaved n s i = none := by rw [bereaved, h]

theorem bereaved_of_no_presence {c : Client} (h : s.client i = some c) (hn : (c.presences.get n).isSome = false) :
    bereaved n s i = none := by
  rw [bereaved, h]
  exact if_neg (ne_true_of_eq_false hn)

theorem bereaved_of_presence {c : Client} (h : s.client i = some c) (hn : (c.presences.get n).isSome = true) :
    bereaved n s i = (settleClient i c.identity s).client i := by
  rw [bereaved, h]
  exact if_pos hn

/-- A slot that loses a presence holds a record, and the samples taken leave its identity. -/
theorem bereaved_cases {d : Client} (h : bereaved n s i = some d) :
    ∃ c, s.client i = some c ∧ (c.presences.get n).isSome = true ∧ d.identity = c.identity ∧
      (settleClient i d.identity s).client i = some d := by
  cases hc : s.client i with
  | none => rw [bereaved_of_no_client hc] at h; cases h
  | some c =>
    cases hn : (c.presences.get n).isSome with
    | false => rw [bereaved_of_no_presence hc hn] at h; cases h
    | true =>
      rw [bereaved_of_presence hc hn] at h
      obtain ⟨e, he, hid⟩ := settleClient_client (id := c.identity) hc
      rw [h, Option.some.injEq] at he
      subst he
      exact ⟨c, rfl, hn, hid, hid ▸ h⟩

theorem lt_of_client {c : Client} (h : s.client i = some c) : i < s.cli.slots.length := by
  by_contra hn
  have hnone : s.client i = none := by
    rw [State.client, List.getD_eq_getElem?_getD, List.getElem?_eq_none (not_lt.1 hn)]
    rfl
  rw [hnone] at h
  cases h

theorem loseSlot_of_none (h : bereaved n s i = none) : loseSlot n s i = s := by
  unfold loseSlot
  cases hc : s.client i with
  | none => rfl
  | some c =>
    refine if_neg fun hn => ?_
    obtain ⟨d, hd, -⟩ := settleClient_client (id := c.identity) hc
    rw [bereaved_of_presence hc hn, hd] at h
    cases h

theorem loseSlot_of_some {d : Client} (h : bereaved n s i = some d) :
    loseSlot n s i = clearPresence n i d (settleClient i d.identity s) := by
  obtain ⟨c, hc, hn, hid, hset⟩ := bereaved_cases h
  unfold loseSlot
  rw [hc]
  dsimp only
  rw [if_pos hn, ← hid, hset]

variable (n s i)

theorem settleClient_frame (id : Nat) (hi : i < s.cli.slots.length) :
    (settleClient i id s).ts = s.ts ∧ (settleClient i id s).echo = s.echo ∧ (settleClient i id s).ports = s.ports ∧
      (settleClient i id s).flight.raises = s.flight.raises := by
  rw [settleClient_eq i id s hi]
  exact ⟨rfl, rfl, rfl, rfl⟩

/-- The loss at a slot leaves time and echo settings as they are. -/
theorem loseSlot_frame : (loseSlot n s i).ts = s.ts ∧ (loseSlot n s i).echo = s.echo := by
  cases h : bereaved n s i with
  | none => rw [loseSlot_of_none h]; exact ⟨rfl, rfl⟩
  | some d =>
    obtain ⟨c, hc, -⟩ := bereaved_cases h
    obtain ⟨hts, hecho, -⟩ := settleClient_frame s i d.identity (lt_of_client hc)
    rw [loseSlot_of_some h, clearPresence_eq]
    exact ⟨hts, hecho⟩

/-- The table after the samples of one client are taken. -/
theorem settleClient_slots (id : Nat) (hi : i < s.cli.slots.length) :
    ∃ x, (settleClient i id s).cli.slots = s.cli.slots.set i x := by
  rw [settleClient_eq i id s hi]
  exact ⟨_, rfl⟩

/-- The loss at slot `i` sets its record. -/
theorem loseSlot_slots : ∃ x, (loseSlot n s i).cli.slots = s.cli.slots.set i x ∧
    (i < s.cli.slots.length → x = afterLoss n s i) := by
  unfold afterLoss
  cases h : bereaved n s i with
  | none =>
    rw [loseSlot_of_none h]
    refine ⟨s.client i, ?_, fun _ => rfl⟩
    exact (congrArg (·.cli.slots) (setClient_client s i)).symm
  | some d =>
    obtain ⟨c, hc, -⟩ := bereaved_cases h
    obtain ⟨x, hx⟩ := settleClient_slots s i d.identity (lt_of_client hc)
    obtain ⟨hts, -⟩ := settleClient_frame s i d.identity (lt_of_client hc)
    rw [loseSlot_of_some h, clearPresence_eq]
    dsimp only
    rw [hx, hts, List.set_set]
    exact ⟨_, rfl, fun _ => rfl⟩

theorem loseSlot_client_other {j : Nat} (hj : j ≠ i) : (loseSlot n s i).client j = s.client j := by
  obtain ⟨x, hx, -⟩ := loseSlot_slots n s i
  rw [State.client, State.client, hx, List.getD_eq_getElem?_getD, List.getElem?_set_ne hj.symm, List.getD_eq_getElem?_getD]

theorem loseSlot_client : (loseSlot n s i).client i = afterLoss n s i := by
  obtain ⟨x, hx, hval⟩ := loseSlot_slots n s i
  by_cases hi : i < s.cli.slots.length
  · rw [State.client, hx, List.getD_eq_getElem?_getD, List.getElem?_set_self hi, hval hi]
    rfl
  · have hnone : s.client i = none := by
      cases hc : s.client i with
      | none => rfl
      | some c => exact absurd (lt_of_client hc) hi
    rw [loseSlot_of_none (bereaved_of_no_client hnone), afterLoss, bereaved_of_no_client hnone]
    rfl

theorem loseSlot_raises (ag : Agent) :
    (loseSlot n s i).flight.raises.get ag =
      s.flight.raises.get ag ++ if ag = .agent0 then (lossRaise n s i).toList else [] := by
  unfold lossRaise
  cases h : bereaved n s i with
  | none =>
    rw [loseSlot_of_none h]
    simp
  | some d =>
    obtain ⟨c, hc, -⟩ := bereaved_cases h
    obtain ⟨-, -, -, hraises⟩ := settleClient_frame s i d.identity (lt_of_client hc)
    rw [loseSlot_of_some h, clearPresence_eq]
    dsimp only
    rw [hraises, Option.bind_some]
    cases d.lapsesWithout n
    · simp
    · cases ag <;> simp [PerAgent.get, PerAgent.set]

theorem mem_asks_endAskOn (t : Target) (m : Net) (a : Ask) :
    a ∈ ((endAskOn n t s).port m).asks ↔ a ∈ (s.port m).asks ∧ (a.target = t → m ≠ n) := by
  by_cases h : m = n
  · subst h
    simp [endAskOn, endAsksWhere]
  · rw [endAskOn, State.port_setPort_other _ _ _ _ h]
    simp [h]

theorem mem_asks_endAsks (t : Target) (m : Net) (a : Ask) :
    a ∈ ((endAsks t s).port m).asks ↔ a ∈ (s.port m).asks ∧ a.target ≠ t := by
  cases m <;> simp [endAsks, State.port, PerNet.get, endAsksWhere]

theorem mem_asks_endLostAsks (t : Target) (lapses : Bool) (m : Net) (a : Ask) :
    a ∈ ((endLostAsks n t lapses s).port m).asks ↔
      a ∈ (s.port m).asks ∧ (a.target = t → m ≠ n ∧ lapses = false) := by
  cases lapses
  · rw [endLostAsks, if_neg Bool.false_ne_true, mem_asks_endAskOn]
    simp
  · rw [endLostAsks, if_pos rfl, mem_asks_endAsks, mem_asks_endAskOn]
    tauto

theorem loseSlot_asks (m : Net) (a : Ask) :
    a ∈ ((loseSlot n s i).port m).asks ↔ a ∈ (s.port m).asks ∧
      ∀ d, bereaved n s i = some d → a.target = .client i d.identity → m ≠ n ∧ d.lapsesWithout n = false := by
  cases h : bereaved n s i with
  | none =>
    rw [loseSlot_of_none h]
    simp
  | some d =>
    obtain ⟨c, hc, -⟩ := bereaved_cases h
    obtain ⟨-, -, hports, -⟩ := settleClient_frame s i d.identity (lt_of_client hc)
    have hport : (settleClient i d.identity s).port m = s.port m := congrArg (·.get m) hports
    rw [loseSlot_of_some h, clearPresence_eq]
    refine (mem_asks_endLostAsks n (settleClient i d.identity s) _ _ m a).trans ?_
    rw [hport]
    simp

theorem loseSlot_samples {j : Nat} (hj : j ≠ i) (id : Nat) :
    (loseSlot n s i).flight.clientSamples.filter (fun m => m.target == .client j id) =
      s.flight.clientSamples.filter fun m => m.target == .client j id := by
  cases h : bereaved n s i with
  | none => rw [loseSlot_of_none h]
  | some d =>
    obtain ⟨c, hc, -⟩ := bereaved_cases h
    rw [loseSlot_of_some h, clearPresence_eq, settleClient_eq i d.identity s (lt_of_client hc)]
    simp only [State.setClient_flight, State.withPresenceSamples, State.setFlight_flight, List.filter_filter]
    refine List.filter_congr fun m _ => ?_
    by_cases hm : m.target = .client j id
    · simp [hm, hj]
    · simp [hm]

end

/-! ## All slots -/

section
variable {n : Net} {s : State} {i j : Nat}

/-- What a slot loses does not depend on what another slot has lost. -/
theorem bereaved_loseSlot (hj : j ≠ i) : bereaved n (loseSlot n s i) j = bereaved n s j := by
  have hclient := loseSlot_client_other n s i hj
  cases hc : s.client j with
  | none => rw [bereaved_of_no_client hc, bereaved_of_no_client (hclient.trans hc)]
  | some c =>
    have hset : (settleClient j c.identity (loseSlot n s i)).client j = (settleClient j c.identity s).client j := by
      have hlt' := lt_of_client (hclient.trans hc)
      rw [settleClient_eq j _ _ hlt', settleClient_eq j _ _ (lt_of_client hc), State.client_setClient,
        State.client_setClient, if_pos ⟨rfl, hlt'⟩, if_pos ⟨rfl, lt_of_client hc⟩, loseSlot_samples n s i hj, hclient,
        (loseSlot_frame n s i).2]
    unfold bereaved
    rw [hclient, hc]
    dsimp only
    rw [hset]

theorem afterLoss_loseSlot (hj : j ≠ i) : afterLoss n (loseSlot n s i) j = afterLoss n s j := by
  rw [afterLoss, afterLoss, bereaved_loseSlot hj, loseSlot_client_other n s i hj, (loseSlot_frame n s i).1]

theorem lossRaise_loseSlot (hj : j ≠ i) : lossRaise n (loseSlot n s i) j = lossRaise n s j := by
  rw [lossRaise, lossRaise, bereaved_loseSlot hj]

end

section
variable (n : Net) {l : List Nat} (hl : l.Nodup)
include hl

/-- Each slot of the list is left by its own loss alone (R95). -/
theorem foldl_loseSlot_client (s : State) (j : Nat) :
    (l.foldl (loseSlot n) s).client j = if j ∈ l then afterLoss n s j else s.client j := by
  induction l generalizing s with
  | nil => rfl
  | cons i l ih =>
    obtain ⟨hi, hl⟩ := List.nodup_cons.1 hl
    rw [List.foldl_cons, ih hl]
    by_cases hj : j = i
    · subst hj
      rw [if_neg hi, if_pos List.mem_cons_self, loseSlot_client]
    · rw [afterLoss_loseSlot hj, loseSlot_client_other n s i hj]
      simp [hj]

/-- The slots raise in the order of the list (R102). -/
theorem foldl_loseSlot_raises (s : State) (ag : Agent) :
    (l.foldl (loseSlot n) s).flight.raises.get ag =
      s.flight.raises.get ag ++ if ag = .agent0 then l.filterMap (lossRaise n s) else [] := by
  induction l generalizing s with
  | nil => simp
  | cons i l ih =>
    obtain ⟨hi, hl⟩ := List.nodup_cons.1 hl
    have rest : l.filterMap (lossRaise n (loseSlot n s i)) = l.filterMap (lossRaise n s) :=
      List.filterMap_congr fun j hj => lossRaise_loseSlot (ne_of_mem_of_not_mem hj hi)
    rw [List.foldl_cons, ih hl, loseSlot_raises, rest, List.filterMap_cons]
    by_cases hag : ag = .agent0
    · cases lossRaise n s i <;> simp [hag]
    · simp [hag]

/-- The asks that stand are those that no slot of the list ends (R64, R95). -/
theorem foldl_loseSlot_asks (s : State) (m : Net) (a : Ask) :
    a ∈ ((l.foldl (loseSlot n) s).port m).asks ↔ a ∈ (s.port m).asks ∧
      ∀ i ∈ l, ∀ d, bereaved n s i = some d → a.target = .client i d.identity → m ≠ n ∧ d.lapsesWithout n = false := by
  induction l generalizing s with
  | nil => simp
  | cons i l ih =>
    obtain ⟨hi, hl⟩ := List.nodup_cons.1 hl
    have rest : ∀ j ∈ l, bereaved n (loseSlot n s i) j = bereaved n s j := fun j hj =>
      bereaved_loseSlot (ne_of_mem_of_not_mem hj hi)
    rw [List.foldl_cons, ih hl, loseSlot_asks, List.forall_mem_cons, and_assoc]
    refine and_congr_right fun _ => and_congr_right fun _ => forall₂_congr fun j hj => ?_
    rw [rest j hj]

end

/-- The slots raise toward agent 0 in ascending order (R102, log entry 45). -/
theorem portLossClients_raises (n : Net) (s : State) :
    (portLossClients n s).flight.raises.get .agent0 =
      s.flight.raises.get .agent0 ++ (List.range Config.clientSlots).filterMap (lossRaise n s) := by
  rw [portLossClients, foldl_loseSlot_raises n List.nodup_range, if_pos rfl]

theorem portLossClients_raises_other (n : Net) (s : State) {ag : Agent} (hag : ag ≠ .agent0) :
    (portLossClients n s).flight.raises.get ag = s.flight.raises.get ag := by
  rw [portLossClients, foldl_loseSlot_raises n List.nodup_range, if_neg hag, List.append_nil]

section
variable (n : Net) {s : State} (hlen : s.cli.slots.length = 48)
include hlen

theorem mem_slots_of_client {i : Nat} {c : Client} (hc : s.client i = some c) : i ∈ List.range Config.clientSlots :=
  List.mem_range.2 ((lt_of_client hc).trans_eq hlen)

theorem portLossClients_client (i : Nat) : (portLossClients n s).client i = afterLoss n s i := by
  rw [portLossClients, foldl_loseSlot_client n List.nodup_range]
  split
  · rfl
  · next hi =>
    cases hc : s.client i with
    | none => rw [afterLoss, bereaved_of_no_client hc]; exact hc.symm
    | some c => exact absurd (mem_slots_of_client hlen hc) hi

theorem portLossClients_asks (m : Net) (a : Ask) :
    a ∈ ((portLossClients n s).port m).asks ↔ a ∈ (s.port m).asks ∧
      ∀ i d, bereaved n s i = some d → a.target = .client i d.identity → m ≠ n ∧ d.lapsesWithout n = false := by
  rw [portLossClients, foldl_loseSlot_asks n List.nodup_range]
  refine and_congr_right fun _ => ?_
  refine forall_congr' fun i => ⟨fun h d hb => ?_, fun h _ => h⟩
  obtain ⟨c, hc, -⟩ := bereaved_cases hb
  exact h (mem_slots_of_client hlen hc) d hb

end

/-! ## A request in hand and the loss of a port -/

section
variable (ag : Agent) (q : Submitted) (s : State)

theorem takeSourceSample_withRequest (m : SampleMsg) :
    takeSourceSample m (s.withRequest ag q) = (takeSourceSample m s).withRequest ag q := by
  have hl : liveTarget m.target (s.withRequest ag q) = liveTarget m.target s := rfl
  unfold takeSourceSample
  rw [hl]
  cases liveTarget m.target s with
  | none => rfl
  | some x =>
    dsimp only
    rw [State.withRequest_echo, (aside_withRequest ag q).setPath, (aside_withRequest ag q).setPath,
      (aside_withRequest ag q).reexamine]
    split <;> rfl

theorem settleSamples_withRequest (g : SampleMsg → Bool) :
    settleSamples g (s.withRequest ag q) = (settleSamples g s).withRequest ag q := by
  unfold settleSamples
  symm
  exact (List.foldl_hom (fun u : State => u.withRequest ag q) fun u m => takeSourceSample_withRequest ag q u m).symm

theorem portLossSources_withRequest (n : Net) :
    portLossSources n (s.withRequest ag q) = (portLossSources n s).withRequest ag q := by
  rw [portLossSources_eq, portLossSources_eq, settleSamples_withRequest]
  symm
  exact ((aside_withRequest ag q).reexamine _ _).symm

theorem takeClientSample_withRequest (m : SampleMsg) :
    takeClientSample m (s.withRequest ag q) = (takeClientSample m s).withRequest ag q := by
  have hl : livePresence m.target m.net (s.withRequest ag q) = livePresence m.target m.net s := rfl
  unfold takeClientSample
  rw [hl]
  cases livePresence m.target m.net s <;> rfl

theorem settleClient_withRequest (i id : Nat) :
    settleClient i id (s.withRequest ag q) = (settleClient i id s).withRequest ag q := by
  unfold settleClient settlePresences
  symm
  exact (List.foldl_hom (fun u : State => u.withRequest ag q) fun u m => takeClientSample_withRequest ag q u m).symm

theorem loseSlot_withRequest (n : Net) (i : Nat) :
    loseSlot n (s.withRequest ag q) i = (loseSlot n s i).withRequest ag q := by
  have hb : bereaved n (s.withRequest ag q) i = bereaved n s i := by
    unfold bereaved
    rw [State.withRequest_client]
    simp only [settleClient_withRequest, State.withRequest_client]
  cases h : bereaved n s i with
  | none => rw [loseSlot_of_none h, loseSlot_of_none (hb.trans h)]
  | some d =>
    rw [loseSlot_of_some h, loseSlot_of_some (hb.trans h), settleClient_withRequest, clearPresence_eq, clearPresence_eq]
    cases d.lapsesWithout n <;> rfl

theorem portLossClients_withRequest (n : Net) :
    portLossClients n (s.withRequest ag q) = (portLossClients n s).withRequest ag q :=
  List.foldl_hom (fun u : State => u.withRequest ag q) fun u i => loseSlot_withRequest ag q u n i

theorem leaveUp_withRequest (n : Net) (st : PortState) :
    leaveUp n st (s.withRequest ag q) = (leaveUp n st s).withRequest ag q := by
  unfold leaveUp
  rw [← portLossClients_withRequest, ← portLossSources_withRequest]
  rfl

end

/-! ### The port that left UP -/

theorem loseSlot_port_state (n : Net) (s : State) (i : Nat) (m : Net) :
    ((loseSlot n s i).port m).state = (s.port m).state := by
  cases h : bereaved n s i with
  | none => rw [loseSlot_of_none h]
  | some d =>
    obtain ⟨c, hc, -⟩ := bereaved_cases h
    obtain ⟨-, -, hports, -⟩ := settleClient_frame s i d.identity (lt_of_client hc)
    have hport : (settleClient i d.identity s).port m = s.port m := congrArg (·.get m) hports
    have hend : ∀ (t : Target) (u : State), ((endLostAsks n t (d.lapsesWithout n) u).port m).state = (u.port m).state := by
      intro t u
      cases d.lapsesWithout n <;> cases n <;> cases m <;> rfl
    rw [loseSlot_of_some h, clearPresence_eq]
    exact (hend _ _).trans (congrArg _ hport)

theorem leaveUp_state (n : Net) (st : PortState) (s : State) : ((leaveUp n st s).port n).state = st := by
  have hfold : ∀ (l : List Nat) (u : State), ((l.foldl (loseSlot n) u).port n).state = (u.port n).state := by
    intro l
    induction l with
    | nil => intro u; rfl
    | cons i l ih => intro u; rw [List.foldl_cons, ih, loseSlot_port_state]
  unfold leaveUp portLossClients
  rw [hfold, State.port, (onlySelection_portLossSources n _).ports]
  simp

theorem takePortDisable_up {n : Net} {s : State} (h : (s.port n).state = .up) :
    takePortDisable n s = accept (.portState .disabled) (leaveUp n .disabled s) := by
  unfold takePortDisable
  rw [h]
  dsimp only
  rw [leaveUp_state]

/-! ## The requests -/

section
variable (ag : Agent) (o : Options) {n : Net} {s : State}

/-- PORT-ENABLE, when what it makes of the port leaves a request in hand alone. -/
theorem exec_portEnable (h : s.takesNow ag ⟨o, .portEnable n⟩ = true) {st : PortState} {u : State}
    (ht : takePortEnable n (s.withRequest ag ⟨o, .portEnable n⟩) =
      accept (.portState st) (u.withRequest ag ⟨o, .portEnable n⟩)) :
    exec (.portEnable ag o n) s = .next (respond ag .ok (.portState st) u) :=
  congrArg Host.Outcome.next (runRequest_answer s ag _ (takePortEnable n) h u _ _ ht)

/-- PORT-DISABLE, likewise. -/
theorem exec_portDisable (h : s.takesNow ag ⟨o, .portDisable n⟩ = true) {st : PortState} {u : State}
    (ht : takePortDisable n (s.withRequest ag ⟨o, .portDisable n⟩) =
      accept (.portState st) (u.withRequest ag ⟨o, .portDisable n⟩)) :
    exec (.portDisable ag o n) s = .next (respond ag .ok (.portState st) u) :=
  congrArg Host.Outcome.next (runRequest_answer s ag _ (takePortDisable n) h u _ _ ht)

end

/-! ## The statement -/

/-- A record is silent when neither of its presences answers (R94, R95). -/
theorem silent_eq (c : Client) :
    c.silent = (!(c.presences.a.any fun p => decide (p.miss < 4)) && !(c.presences.b.any fun p => decide (p.miss < 4))) := by
  have hmiss : ∀ k : Nat, decide (4 ≤ k) = !decide (k < 4) := fun k => by
    rw [← decide_not]
    exact decide_eq_decide.2 not_lt.symm
  unfold Client.silent
  obtain ⟨_ | a, _ | b⟩ := c.presences <;> simp [hmiss]

theorem lapsesWithout_eq (n : Net) (d : Client) :
    d.lapsesWithout n =
      ((d.state == .measuring || d.state == .served) &&
        !((d.presences.set n none).a.any fun p => decide (p.miss < 4)) &&
        !((d.presences.set n none).b.any fun p => decide (p.miss < 4))) := by
  have hasked : d.state.asked = (d.state == .measuring || d.state == .served) := by cases d.state <;> rfl
  rw [Client.lapsesWithout, hasked, silent_eq, Bool.and_assoc]

/-- Settles O20: the ports by their states, then the two tables, the clients slot by slot. -/
theorem portsEnterAndLeaveUp : Obligations.PortsEnterAndLeaveUp := by
  refine ⟨fun n s => ?ports, fun n s => ?tables⟩
  case ports =>
    intro p up left
    refine ⟨fun ag o h => ?enable, fun ag o h => ?disable, fun hd => ?_, fun hd => ?_, fun hu => ?_, fun hu => ?_⟩
    case enable =>
      intro answered
      refine ⟨fun hd hl => exec_portEnable ag o h (takePortEnable_down hd hl), fun hd hl => ?_,
        fun hd => exec_portEnable ag o h (takePortEnable_stay hd)⟩
      exact exec_portEnable ag o h
        ((takePortEnable_up (s := s.withRequest ag ⟨o, .portEnable n⟩) hd hl).trans (congrArg _ (enterUp_eq hl)))
    case disable =>
      intro answered
      refine ⟨fun hd => exec_portDisable ag o h (takePortDisable_stay hd),
        fun hd => exec_portDisable ag o h (takePortDisable_down hd), fun hu => ?_⟩
      exact exec_portDisable ag o h
        ((takePortDisable_up (s := s.withRequest ag ⟨o, .portDisable n⟩) hu).trans
          (congrArg _ (leaveUp_withRequest ag _ s n _)))
    · refine congrArg Host.Outcome.next ((linkUp_of_down hd).trans ((enterUp_eq (link := true) (by simp)).trans ?_))
      simp [up, p]
    · exact congrArg _ (linkUp_of_not_down hd)
    · refine congrArg Host.Outcome.next ((linkDown_of_up hu).trans ?_)
      simp [leaveUp, left, p]
    · exact congrArg _ (linkDown_of_not_up hu)
  case tables =>
    intro aged v
    refine ⟨portLossSources_eq n s, ?_⟩
    intro u settled held kept answers lapses lost hlen
    have hu : u = portLossClients n s := rfl
    have hlapses : ∀ d, lapses d = d.lapsesWithout n := fun d => (lapsesWithout_eq n d).symm
    have hsettled : ∀ i c, s.client i = some c → held c = true →
        ∃ d, settled i c = some d ∧ d.identity = c.identity ∧ bereaved n s i = some d := by
      intro i c hc hn
      obtain ⟨d, hd, hid⟩ := settleClient_client (id := c.identity) hc
      exact ⟨d, hd, hid, (bereaved_of_presence hc hn).trans hd⟩
    have hlost : lossRaise n s = lost := by
      funext i
      cases hc : s.client i with
      | none => simp [lost, hc, lossRaise, bereaved_of_no_client hc]
      | some c =>
        cases hn : held c with
        | false => simp [lost, hc, hn, lossRaise, bereaved_of_no_presence hc hn]
        | true =>
          obtain ⟨d, hd, hid, hb⟩ := hsettled i c hc hn
          simp [lost, hc, hn, lossRaise, hb, hd, hlapses, hid]
    refine ⟨fun i hc => ?_, fun i c hc hn => ?_, fun i c hc hn => ?_, ?_, fun ag hag => ?_, fun m a => ?_⟩
    · rw [portLossClients_client n hlen, afterLoss, bereaved_of_no_client hc]
      exact hc
    · rw [portLossClients_client n hlen, afterLoss, bereaved_of_no_presence hc hn]
      exact hc
    · obtain ⟨d, hd, hid, hb⟩ := hsettled i c hc hn
      have hrecord : u.client i = some (d.without n s.ts.el) := by
        rw [portLossClients_client n hlen, afterLoss, hb]
        rfl
      refine ⟨d, hd, hid, fun hl => ?_, fun hl => ?_⟩
      · rw [hrecord, Client.without_lapses ((hlapses d).symm.trans hl)]
      · rw [hrecord, Client.without_stays ((hlapses d).symm.trans hl)]
    · rw [hu, portLossClients_raises, hlost]
    · rw [hu, portLossClients_raises_other n s hag]
    · refine (portLossClients_asks n hlen m a).trans (and_congr_right fun _ => ?_)
      refine ⟨fun h i c hc hn ht => ?_, fun h i d hb ht => ?_⟩
      · obtain ⟨d, hd, hid, hb⟩ := hsettled i c hc hn
        obtain ⟨hm, hl⟩ := h i d hb (hid ▸ ht)
        exact ⟨hm, by rw [hd, Option.any_some, hlapses, hl]⟩
      · obtain ⟨c, hc, hn, hid, hset⟩ := bereaved_cases hb
        obtain ⟨hm, hl⟩ := h i c hc hn (hid ▸ ht)
        obtain ⟨e, he, -, hb'⟩ := hsettled i c hc hn
        rw [hb, Option.some.injEq] at hb'
        subst hb'
        rw [he, Option.any_some, hlapses] at hl
        exact ⟨hm, hl⟩

end Sys2Proof.Machine
end

section
/-! The best CANDIDATE (R82): the candidate with the least selection key. -/

namespace Sys2Proof.Machine

/-! ## Keys -/

/-- On keys of one length the comparison of R82 is the order of lists. -/
theorem keyLess_iff : ∀ {a b : List Nat}, a.length = b.length → (keyLess a b = true ↔ a < b)
  | [], [], _ => by simp [keyLess]
  | x :: a, y :: b, h => by
    have ih : keyLess a b = true ↔ a < b := keyLess_iff (Nat.succ.inj h)
    rw [keyLess, List.cons_lt_cons_iff, ← ih]
    rcases lt_trichotomy x y with hxy | rfl | hxy
    · simp [hxy]
    · simp
    · simp [hxy, hxy.not_gt, hxy.ne']

theorem preferenceRank_none (n : Option Net) : preferenceRank .none n = 0 := by rcases n with _ | _ | _ <;> rfl

theorem preferenceRank_netA (n : Option Net) : preferenceRank .netA n = if n = some .netA then 0 else 1 := by
  rcases n with _ | _ | _ <;> rfl

theorem preferenceRank_netB (n : Option Net) : preferenceRank .netB n = if n = some .netB then 0 else 1 := by
  rcases n with _ | _ | _ <;> rfl

section
variable (set : SourceSettings)

/-- The key of a numbered path. -/
def SourceSettings.keyOf (c : Nat × SourcePath) : List Nat := selectionKey set c.1 c.2

theorem keyLess_keyOf (c d : Nat × SourcePath) :
    keyLess (selectionKey set c.1 c.2) (selectionKey set d.1 d.2) = true ↔ set.keyOf c < set.keyOf d := keyLess_iff rfl

/-- The entry number, the last part, tells the keys of two entries apart. -/
theorem keyOf_ne {c d : Nat × SourcePath} (h : c.1 ≠ d.1) : set.keyOf c ≠ set.keyOf d := by
  simp only [SourceSettings.keyOf, selectionKey, ne_eq, List.cons.injEq, not_and]
  intro _ _ _ _ hn
  exact absurd hn h

/-! ## The better of two -/

/-- The better of a best so far and a further candidate is one of them, and no key of theirs lies below its own. -/
theorem betterOf_least (b : Option (Nat × SourcePath)) (c : Nat × SourcePath) :
    ∃ d, betterOf set b c = some d ∧ ∀ x, x = c ∨ b = some x → set.keyOf d ≤ set.keyOf x := by
  cases b with
  | none => exact ⟨c, rfl, by rintro x (rfl | hx); exacts [le_rfl, nomatch hx]⟩
  | some b =>
    by_cases h : set.keyOf c < set.keyOf b
    · refine ⟨c, if_pos ((keyLess_keyOf set c b).2 h), ?_⟩
      rintro x (rfl | hx)
      · exact le_rfl
      · exact Option.some.inj hx ▸ h.le
    · refine ⟨b, if_neg (mt (keyLess_keyOf set c b).1 h), ?_⟩
      rintro x (rfl | hx)
      · exact not_lt.1 h
      · exact (Option.some.inj hx ▸ le_rfl)

/-- The best of a list of candidates and a best so far: no key lies below its own. -/
theorem foldl_betterOf_least (l : List (Nat × SourcePath)) :
    ∀ (b : Option (Nat × SourcePath)) {d : Nat × SourcePath}, l.foldl (betterOf set) b = some d →
      ∀ x, x ∈ l ∨ b = some x → set.keyOf d ≤ set.keyOf x := by
  induction l with
  | nil =>
    rintro b d h x (hx | hx)
    · exact nomatch hx
    · exact (Option.some.inj (h.symm.trans hx)) ▸ le_rfl
  | cons c l ih =>
    intro b d h x hx
    obtain ⟨e, he, hleast⟩ := betterOf_least set b c
    have hd : ∀ y, y ∈ l ∨ betterOf set b c = some y → set.keyOf d ≤ set.keyOf y := ih _ h
    rw [List.mem_cons, or_assoc] at hx
    rcases hx with rfl | hx | hx
    · exact (hd e (.inr he)).trans (hleast x (.inl rfl))
    · exact hd x (.inl hx)
    · exact (hd e (.inr he)).trans (hleast x (.inr hx))

theorem foldl_betterOf_eq_none {l : List (Nat × SourcePath)} :
    ∀ {b : Option (Nat × SourcePath)}, l.foldl (betterOf set) b = none ↔ l = [] ∧ b = none := by
  induction l with
  | nil => intro b; simp
  | cons c l ih =>
    intro b
    obtain ⟨d, hd, -⟩ := betterOf_least set b c
    simp [ih, hd]

end

/-! ## The candidates of a table -/

section
variable {t : SourceTable} {i : Nat} {p : SourcePath}

theorem mem_candidates_iff : (i, p) ∈ candidates t ↔ t.entries[i]? = some (some p) ∧ p.state = .candidate := by
  refine ⟨mem_candidates, fun ⟨hp, hc⟩ => ?_⟩
  exact List.mem_filterMap.2 ⟨(some p, i), List.mem_zipIdx_iff_getElem?.2 hp, if_pos hc⟩

theorem bestCandidate_eq_none_iff :
    bestCandidate t = none ↔ ∀ (i : Nat) (p : SourcePath), t.entries[i]? = some (some p) → p.state ≠ .candidate := by
  rw [bestCandidate, foldl_betterOf_eq_none, List.eq_nil_iff_forall_not_mem]
  simp [Prod.forall, mem_candidates_iff]

theorem mem_candidates_of_best (h : bestCandidate t = some (i, p)) : (i, p) ∈ candidates t :=
  (foldl_betterOf_mem _ _ _ h).resolve_right fun hn => nomatch hn

/-- The key of the best CANDIDATE is below that of every other. -/
theorem keyOf_best_lt (h : bestCandidate t = some (i, p)) {j : Nat} {q : SourcePath} (hq : (j, q) ∈ candidates t)
    (hji : j ≠ i) : t.settings.keyOf (i, p) < t.settings.keyOf (j, q) :=
  (foldl_betterOf_least _ _ _ h _ (.inl hq)).lt_of_ne (keyOf_ne _ hji.symm)

end

/-- Settles O13: the best is found by going through the candidates and keeping the better one. -/
theorem bestCandidateHasTheLeastKey : Obligations.BestCandidateHasTheLeastKey := by
  refine fun t => ⟨bestCandidate_eq_none_iff, fun i p hbest => ?_⟩
  obtain ⟨hp, hc⟩ := mem_candidates_iff.1 (mem_candidates_of_best hbest)
  refine ⟨hp, hc, fun j q hq hqc hji => ?_⟩
  intro worse key
  have hkey : ∀ (k : Nat) (x : SourcePath), t.settings.keyOf (k, x) = key k x := by
    intro k x
    have hworse : preferenceRank t.settings.preference x.net = worse x := by
      simp only [worse]
      cases t.settings.preference with
      | none => exact preferenceRank_none _
      | netA => exact preferenceRank_netA _
      | netB => exact preferenceRank_netB _
    simp only [key, ← hworse]
    rfl
  rw [← hkey, ← hkey]
  exact keyOf_best_lt hbest (mem_candidates_iff.2 ⟨hq, hqc⟩) hji

end Sys2Proof.Machine
end

section
/-! Re-examination of selection (R83), row by row: what the table takes, and what the timescale unit makes of the report. -/

namespace Sys2Proof.Machine

/-! ## Reports of selection (R24) -/

/-- `f` acts on the timescale unit alone: what it makes of the record, and what it raises, depends on the record alone. -/
def IsReport (f : State → State) : Prop :=
  ∃ (t : Timescale → Timescale) (r : Timescale → Agent → List Raise), ∀ s : State, f s = s.retime (t s.ts) (r s.ts)

theorem isReport_id : IsReport fun s => s := ⟨fun t => t, fun _ _ => [], fun s => (retime_self s).symm⟩

theorem isReport_setTs (g : Timescale → Timescale) : IsReport fun s => s.setTs (g s.ts) :=
  ⟨g, fun _ _ => [], fun s => setTs_eq_retime s _⟩

theorem isReport_changeServo (x : ServoState) : IsReport (changeServo x) :=
  ⟨fun t => { t with servo := x }, fun t _ => if t.servo = x then [] else [.servo t.servo x], fun s => changeServo_eq s x⟩

theorem isReport_endSlew (e : SlewEnd) : IsReport (endSlew e) :=
  ⟨fun t => { t with slew := none }, fun t => slewRaise t.slew e, fun s => endSlew_eq s e⟩

section
variable {f g : State → State}

theorem IsReport.comp (hg : IsReport g) (hf : IsReport f) : IsReport fun s => g (f s) := by
  obtain ⟨t, r, hf⟩ := hf
  obtain ⟨u, q, hg⟩ := hg
  refine ⟨fun x => u (t x), fun x ag => r x ag ++ q (t x) ag, fun s => ?_⟩
  dsimp only
  rw [hf, hg, retime_ts, retime_retime]

theorem IsReport.ite (c : Timescale → Prop) [DecidablePred c] (hf : IsReport f) (hg : IsReport g) :
    IsReport fun s => if c s.ts then f s else g s := by
  obtain ⟨t, r, hf⟩ := hf
  obtain ⟨u, q, hg⟩ := hg
  refine ⟨fun x => if c x then t x else u x, fun x => if c x then r x else q x, fun s => ?_⟩
  dsimp only
  rw [hf, hg]
  split <;> rfl

/-- A report that goes by the state of the servo is one when it is one in each state. -/
theorem IsReport.of_servo (h : ∀ x : ServoState, ∃ g, IsReport g ∧ ∀ s : State, s.ts.servo = x → f s = g s) :
    IsReport f := by
  choose g hg hfg using h
  choose t r hg using hg
  exact ⟨fun x => t x.servo x, fun x => r x.servo x, fun s => (hfg s.ts.servo s rfl).trans (hg s.ts.servo s)⟩

end

theorem isReport_enterAcquire : IsReport enterAcquire :=
  (isReport_setTs fun t => { t with inWindow := 0, outCount := 0, clamp := 0, snapAt := none, holdAge := 0 }).comp
    (isReport_changeServo .acquire)

theorem isReport_enterHoldover : IsReport enterHoldover :=
  (isReport_setTs fun t => { t with holdEntry := t.quality, holdAge := 0, holdSince := t.el, snapAt := none }).comp
    ((isReport_changeServo .holdover).comp (isReport_endSlew .dropped))

theorem isReport_takeSelected : IsReport takeSelected :=
  IsReport.of_servo fun
    | .freerun => ⟨_, isReport_enterAcquire, fun _ hs => takeSelected_of_resting (.inl hs)⟩
    | .holdover => ⟨_, isReport_enterAcquire, fun _ hs => takeSelected_of_resting (.inr hs)⟩
    | .acquire | .locked | .fault => ⟨_, isReport_id, fun _ hs => by simp only [takeSelected, hs]⟩

theorem isReport_takeMoved (cls : Nat) (last : Option Int) : IsReport (takeMoved cls last) :=
  IsReport.of_servo fun
    | .acquire => ⟨_, isReport_enterAcquire, fun _ hs => takeMoved_of_acquire cls last hs⟩
    | .locked => by
      cases last with
      | none => exact ⟨_, isReport_enterAcquire, fun _ hs => by simp only [takeMoved, hs]⟩
      | some o =>
        exact ⟨_, (isReport_setTs fun t => { t with lockClass := cls, outCount := 0 }).ite
          (fun t => o.natAbs ≤ nsTicks t.settings.lockWindow) isReport_enterAcquire,
          fun _ hs => by simp only [takeMoved, hs]⟩
    | .freerun | .holdover | .fault => ⟨_, isReport_id, fun _ hs => by simp only [takeMoved, hs]⟩

/-- The loss of selection in the states that follow (R24). -/
theorem isReport_lost :
    IsReport fun s => if s.ts.rateBasis && s.ts.timeSet then enterHoldover s
      else (changeServo .freerun s).setTs { (changeServo .freerun s).ts with snapAt := none } :=
  isReport_enterHoldover.ite (fun t => (t.rateBasis && t.timeSet) = true)
    ((isReport_setTs fun t => { t with snapAt := none }).comp (isReport_changeServo .freerun))

theorem isReport_takeLost : IsReport takeLost :=
  IsReport.of_servo fun
    | .acquire | .locked => ⟨_, isReport_lost, fun _ hs => by simp only [takeLost, hs]⟩
    | .freerun | .holdover | .fault => ⟨_, isReport_id, fun _ hs => by simp only [takeLost, hs]⟩

/-! ## The report taken, and SOURCE raised (R34, R84) -/

/-- In `u` the timescale unit of `s` has taken the report `f`, `cls` being the class of the path then selected: `r` is the
last alert raised, and what was handed over before is void (log entry 11). -/
structure ReportTaken (f : State → State) (cls : Option Nat) (r : Raise) (s u : State) : Prop where
  ts : u.ts = { (f s).ts with quality := gradeOf (f s).ts cls }
  flight : u.flight = { s.flight with toTimescale := [], raises := (f s).raisesWith fun _ => [r] }

/-- The part with another source table, and nothing handed over to the timescale unit. -/
def State.withSelection (s : State) (t : SourceTable) : State :=
  { s with src := t, flight := { s.flight with toTimescale := [] } }

section
variable {f : State → State} {s : State}

theorem IsReport.src (hf : IsReport f) (s : State) : (f s).src = s.src := by
  obtain ⟨t, r, hf⟩ := hf
  rw [hf]
  rfl

theorem IsReport.taken (hf : IsReport f) (t : SourceTable) (r : Raise) :
    ReportTaken f ((s.withSelection t).selectedPath.map SourcePath.cls) r s (regrade (raiseAll r (f (s.withSelection t)))) := by
  obtain ⟨x, q, hf⟩ := hf
  rw [hf, raiseAll_eq_retime, retime_retime, regrade_eq, retime_retime]
  refine ⟨?_, ?_⟩
  · rw [hf]
    rfl
  · rw [hf, retime_raisesWith]
    simp only [List.append_nil]
    rfl

/-- In `u` entry `i` has become the selected path, with the record `p` but for its state; the other paths are those of `v`. The
timescale unit of `s` has taken the report `f`, and SOURCE tells `d`. -/
structure Chosen (i : Nat) (p : SourcePath) (d : SourceDetail) (f : State → State) (s v u : State) : Prop where
  selected : u.src.selected = some i
  path : ∀ k, u.path k = if i = k then some { p with state := .selected } else v.path k
  taken : ReportTaken f (some p.cls) (.source d) s u

theorem selectPath_chosen (hf : IsReport f) {v : State} (hv : v = { s with src := v.src }) {i : Nat} {p : SourcePath}
    (hp : v.path i = some p) (prev : Option (Nat × Nat)) (c : SourceCause) :
    Chosen i p ⟨prev, some (i, p.identity), c⟩ f s v (selectPath i p prev c f v) := by
  obtain ⟨t, rfl⟩ : ∃ t, v = { s with src := t } := ⟨v.src, hv⟩
  let t' : SourceTable := { t with selected := some i, entries := t.entries.set i (some { p with state := .selected }) }
  have hpath : ∀ k, (s.withSelection t').path k =
      if i = k then some { p with state := .selected } else ({ s with src := t } : State).path k := by
    intro k
    refine (State.path_setPath { s with src := t } k i (some { p with state := .selected })).trans ?_
    by_cases hk : i = k
    · subst hk
      rw [if_pos ⟨rfl, path_lt hp⟩, if_pos rfl]
    · rw [if_neg (fun h => hk h.1), if_neg hk]
  have hcls : (s.withSelection t').selectedPath.map SourcePath.cls = some p.cls := by
    rw [selectedPath_of_selected (i := i) rfl, hpath, if_pos rfl]
    rfl
  have hsrc : (f (s.withSelection t')).src = t' := hf.src _
  rw [selectPath_eq hp]
  change Chosen _ _ _ _ _ _ (regrade (raiseAll _ (f (s.withSelection t'))))
  refine ⟨congrArg SourceTable.selected hsrc, fun k => ?_, hcls ▸ hf.taken t' _⟩
  rw [← hpath k]
  exact path_of_src (s := s.withSelection t') hsrc k

/-! ## The rows of R83 -/

variable (c : SourceCause)

theorem reexamine_suspended (h : s.src.suspended = true) : reexamine c s = s := if_pos h

section
variable {j i : Nat} {q p : SourcePath} (hsus : s.src.suspended = false) (hsel : s.src.selected = some j)
include hsus hsel

theorem reexamine_stays (hq : s.path j = some q) (hst : q.state = .selected)
    (hbest : ∀ i p, bestCandidate s.src = some (i, p) → q.cls ≤ p.cls) : reexamine c s = s := by
  unfold reexamine
  simp only [hsus, hsel, hq, hst, Option.map_some, Option.getD_some, Bool.false_eq_true, if_false, if_true]
  cases hb : bestCandidate s.src with
  | none => rfl
  | some x => exact if_neg (hbest x.1 x.2 hb).not_gt

theorem reexamine_better (hq : s.path j = some q) (hst : q.state = .selected) (hbest : bestCandidate s.src = some (i, p))
    (hlt : p.cls < q.cls) :
    reexamine c s =
      selectPath i p (some (j, q.identity)) .better (takeMoved p.cls p.lastOffset) (setPathState j .candidate s) := by
  unfold reexamine
  simp only [hsus, hsel, hq, hst, hbest, hlt, Option.map_some, Option.getD_some, Bool.false_eq_true, if_false, if_true]

/-- The selected path has left SELECTED, or was removed. -/
theorem reexamine_replaced (hleft : (s.path j).map SourcePath.state ≠ some .selected)
    (hbest : bestCandidate s.src = some (i, p)) :
    reexamine c s =
      selectPath i p (some (j, ((s.path j).map SourcePath.identity).getD 0)) (leaveCause (s.path j))
        (takeMoved p.cls p.lastOffset) s := by
  unfold reexamine
  simp only [hsus, hsel, hleft, hbest, Bool.false_eq_true, if_false]

theorem reexamine_lost (hleft : (s.path j).map SourcePath.state ≠ some .selected) (hbest : bestCandidate s.src = none) :
    reexamine c s =
      regrade (raiseAll
        (.source ⟨some (j, ((s.path j).map SourcePath.identity).getD 0), none, leaveCause (s.path j)⟩)
        (takeLost (setSelected none s))) := by
  unfold reexamine
  simp only [hsus, hsel, hleft, hbest, Bool.false_eq_true, if_false]

end
end

/-! ## The class of the selected path (R24, R34) -/

section
variable {s : State} {i : Nat} {p : SourcePath}

theorem reportClass_of_unselected (h : s.src.selected ≠ some i) : reportClass i s = s := if_neg h

theorem reportClass_of_selected (hp : s.path i = some p) (h : s.src.selected = some i) :
    reportClass i s = regrade (if s.ts.servo = .locked then s.setTs { s.ts with lockClass := p.cls } else s) := by
  rw [reportClass, if_pos h, hp]

theorem regrade_of_selected (hp : s.path i = some p) (h : s.src.selected = some i) :
    regrade s = s.setTs { s.ts with quality := gradeOf s.ts (some p.cls) } := by
  rw [regrade, selectedPath_of_selected h, hp, Option.map_some]

end

/-! ## The statement -/

/-- Settles O12: the rows of R83, the table of R34, and the report of a new class. -/
theorem selectionIsReexamined : Obligations.SelectionIsReexamined := by
  refine ⟨fun fresh s => ?rows, fun t cls => ?grades, fun i p s hp => ?newClass⟩
  case grades =>
    refine ⟨fun hset c => if_pos hset, fun hset => ⟨fun h c => gradeOf_fault t c h, fun h c => gradeOf_locked t c h hset,
      fun h => ?_, fun h c => gradeOf_holdover t c h hset, fun h c => ?_⟩⟩
    · rw [gradeOf_acquire t cls h, if_pos hset]
    · rw [gradeOf_freerun t c h, if_pos hset]
  case newClass =>
    refine ⟨reportClass_of_unselected, fun hsel => ?_⟩
    intro t
    rw [reportClass_of_selected hp hsel]
    by_cases hl : s.ts.servo = .locked
    · have hu := regrade_of_selected (s := s.setTs { s.ts with lockClass := p.cls }) hp hsel
      simp only [t, if_pos hl, hu]
      rfl
    · simp only [t, if_neg hl, regrade_of_selected hp hsel]
      rfl
  case rows =>
    intro u best told chosen lost cause unchanged
    have hcause : ∀ q, leaveCause (some q) = cause q := fun q => by
      cases h : q.state <;> simp only [leaveCause, cause, h]
    have hchosen : ∀ {i p prev c report v}, Chosen i p ⟨prev, some (i, p.identity), c⟩ report s v u →
        (∀ k, s.src.selected ≠ some k → v.path k = s.path k) → chosen i p prev c report := fun h hv =>
      ⟨h.selected, (h.path _).trans (if_pos rfl), fun j hji hj => (h.path j).trans ((if_neg hji.symm).trans (hv j hj)),
        h.taken.ts, h.taken.flight⟩
    have hlost : ∀ {prev c}, u = regrade (raiseAll (.source ⟨some prev, none, c⟩) (takeLost (setSelected none s))) →
        lost prev c := fun h => by
      obtain ⟨hts, hflight⟩ :=
        isReport_takeLost.taken (s := s) { s.src with selected := none } (.source ⟨some _, none, _⟩)
      exact ⟨(congrArg State.src h).trans (takeLost_src _), (congrArg State.ts h).trans hts,
        (congrArg State.flight h).trans hflight⟩
    refine ⟨reexamine_suspended fresh, fun _ hsel hb => reexamine_none fresh hsel hb, fun i p hsus hsel hb => ?first,
      fun j q hsus hsel hq hst hb => reexamine_stays fresh hsus hsel hq hst hb,
      fun j q i p hsus hsel hq hst hb hlt => ?better, fun j q i p hsus hsel hq hst hb => ?left,
      fun j q hsus hsel hq hst hb => ?leftLost, fun j i p hsus hsel hq hb => ?removed,
      fun j hsus hsel hq hb => ?removedLost, onlySelection_reexamine s fresh⟩
    case first =>
      obtain ⟨hp, -⟩ := bestCandidate_path hb
      have hu : u = selectPath i p none fresh takeSelected s := reexamine_first fresh hsus hsel hb
      exact hchosen (hu ▸ selectPath_chosen isReport_takeSelected rfl hp none fresh) fun _ _ => rfl
    case better =>
      obtain ⟨hp, hc⟩ := bestCandidate_path hb
      have hji : j ≠ i := by
        rintro rfl
        rw [Option.some.inj (hq.symm.trans hp), hc] at hst
        cases hst
      have hother : ∀ k, k ≠ j → (setPathState j .candidate s).path k = s.path k := fun k hk => by
        rw [path_setPathState, if_neg hk.symm]
      have hv : setPathState j .candidate s = { s with src := (setPathState j .candidate s).src } := by
        unfold setPathState
        split <;> rfl
      have hu := reexamine_better fresh hsus hsel hq hst hb hlt
      have hch : Chosen i p _ _ s _ u :=
        hu ▸ selectPath_chosen (isReport_takeMoved p.cls p.lastOffset) hv ((hother i hji.symm).trans hp)
          (some (j, q.identity)) .better
      refine ⟨hchosen hch fun k hk => hother k ?_, ?_⟩
      · rintro rfl
        exact hk hsel
      · rw [hch.path, if_neg hji.symm, path_setPathState, if_pos rfl, hq, Option.map_some]
    case left =>
      obtain ⟨hp, -⟩ := bestCandidate_path hb
      have hu := reexamine_replaced fresh hsus hsel (by simpa [hq] using hst) hb
      rw [hq, hcause] at hu
      have hch := hu ▸ selectPath_chosen (isReport_takeMoved p.cls p.lastOffset) rfl hp (some (j, q.identity)) (cause q)
      exact ⟨hchosen hch fun _ _ => rfl, fun hij => (hch.path j).trans ((if_neg hij).trans hq)⟩
    case leftLost =>
      have hu := reexamine_lost fresh hsus hsel (by simpa [hq] using hst) hb
      rw [hq, hcause] at hu
      exact hlost hu
    case removed =>
      obtain ⟨hp, -⟩ := bestCandidate_path hb
      have hu := reexamine_replaced fresh hsus hsel (by simp [hq]) hb
      rw [hq] at hu
      have hch := hu ▸ selectPath_chosen (isReport_takeMoved p.cls p.lastOffset) rfl hp (some (j, 0)) .removed
      exact hchosen hch fun _ _ => rfl
    case removedLost =>
      have hu := reexamine_lost fresh hsus hsel (by simp [hq]) hb
      rw [hq] at hu
      exact hlost hu

end Sys2Proof.Machine
end

section
/-! ORIGIN frames at the source table (R69 … R72): the entry that takes a frame, and what the path makes of it. -/

namespace Sys2Proof.Machine

/-! ## The network entries (R69) -/

/-- The first number below `n` at which `f` finds something. -/
theorem findSome?_range_of_first {α : Type} {f : Nat → Option α} {i : Nat} {b : α} (h : f i = some b)
    (hfirst : ∀ j, j < i → f j = none) : ∀ n, i < n → (List.range n).findSome? f = some b := by
  intro n hn
  induction n with
  | zero => exact absurd hn (Nat.not_lt_zero i)
  | succ n ih =>
    rw [List.range_succ, List.findSome?_append]
    rcases Nat.lt_succ_iff_lt_or_eq.1 hn with hlt | rfl
    · rw [ih hlt, Option.some_or]
    · have hnone : (List.range i).findSome? f = none :=
        List.findSome?_eq_none_iff.2 fun j hj => hfirst j (List.mem_range.1 hj)
      rw [hnone, Option.none_or, List.findSome?_singleton, h]

theorem networkEntries_eq (t : SourceTable) :
    networkEntries t = (List.range (min 8 t.entries.length)).map fun i => (t.entries.getD i none, i) := by
  refine List.ext_getElem (by simp [networkEntries]) fun k hk _ => ?_
  have hlen : k < t.entries.length := by simp [networkEntries] at hk; omega
  simp [networkEntries, List.getD, hlen]

section
variable {s : State} {n : Net} {id i : Nat}

/-- The path is the one of the pair (identity, network). -/
def SourcePath.IsOf (p : SourcePath) (id : Nat) (n : Net) : Prop := p.identity = id ∧ p.net = some n

theorem findPath_first {p : SourcePath} (hi : i < 8) (hp : s.path i = some p) (hown : p.IsOf id n)
    (hfirst : ∀ j, j < i → ∀ q, s.path j = some q → ¬q.IsOf id n) : findPath s.src id n = some (i, p) := by
  rw [findPath, networkEntries_eq, List.findSome?_map]
  refine findSome?_range_of_first ?_ (fun j hj => ?_) _ (lt_min hi (path_lt hp))
  · rw [State.path] at hp
    simp only [Function.comp_apply, hp]
    exact if_pos hown
  · have hother := hfirst j hj
    rw [State.path] at hother
    rw [Function.comp_apply]
    cases hq : s.src.entries.getD j none with
    | none => rfl
    | some q => exact if_neg (hother q hq)

theorem findPath_none (h : ∀ j, j < 8 → ∀ q, s.path j = some q → ¬q.IsOf id n) : findPath s.src id n = none := by
  cases hf : findPath s.src id n with
  | none => rfl
  | some x =>
    obtain ⟨hi, hp, hown⟩ := findPath_path hf
    exact absurd hown (h x.1 hi x.2 hp)

theorem freeEntry_first (hlen : s.src.entries.length = 9) (hi : i < 8) (hp : s.path i = none)
    (hfirst : ∀ j, j < i → (s.path j).isSome = true) : freeEntry s.src = some i := by
  rw [freeEntry, networkEntries_eq, List.findSome?_map]
  refine findSome?_range_of_first ?_ (fun j hj => ?_) _ (lt_min hi (by omega))
  · rw [State.path] at hp
    simp only [Function.comp_apply, hp]
    rfl
  · have hsome := hfirst j hj
    rw [State.path] at hsome
    obtain ⟨q, hq⟩ := Option.isSome_iff_exists.1 hsome
    simp only [Function.comp_apply, hq]
    rfl

theorem pathsOf_length (hlen : s.src.entries.length = 9) :
    (pathsOf s.src n).length = (List.range 8).countP fun i => (s.path i).any fun p => p.net == some n := by
  rw [pathsOf, networkEntries_eq, hlen, List.filterMap_map, List.length_filterMap_eq_countP]
  refine List.countP_congr fun i _ => ?_
  rw [Function.comp_apply, State.path]
  cases hq : s.src.entries.getD i none with
  | none => simp
  | some q => by_cases hn : q.net = some n <;> simp [hn]

end

/-! ## The entry that takes a frame (R69, R70) -/

section
variable {s : State} {m : OriginMsg} {i : Nat} {p : SourcePath}

theorem exec_originTaken {rest : List OriginMsg} (h : s.flight.origins = m :: rest) :
    exec .originTaken s = .next (takeOrigin m { s with flight := { s.flight with origins := rest } }) := by
  change execOriginTaken s = _
  rw [execOriginTaken, h]
  rfl

/-- The frame may reach a path: its port is UP, and its interval exponent one of those declared (R69). -/
def State.hears (s : State) (m : OriginMsg) : Prop := (s.port m.net).state = .up ∧ -4 ≤ m.exponent ∧ m.exponent ≤ 4

theorem takeOrigin_discarded (h : ¬s.hears m) : takeOrigin m s = s := by
  unfold takeOrigin
  by_cases hup : (s.port m.net).state = .up
  · rw [if_neg (not_not.2 hup), if_pos]
    by_contra hk
    exact h ⟨hup, by omega⟩
  · rw [if_pos hup]

theorem State.hears.guards (h : s.hears m) :
    ¬(s.port m.net).state ≠ .up ∧ ¬(m.exponent < -4 ∨ 4 < m.exponent) := by
  obtain ⟨hup, hlow, hhigh⟩ := h
  exact ⟨not_not.2 hup, by omega⟩

theorem takeOrigin_known (h : s.hears m) (hf : findPath s.src m.identity m.net = some (i, p)) :
    takeOrigin m s = pathTakesOrigin i m p s := by
  obtain ⟨hport, hexp⟩ := h.guards
  rw [takeOrigin, if_neg hport, if_neg hexp, hf]

theorem takeOrigin_created (h : s.hears m) (hf : findPath s.src m.identity m.net = none)
    (hroom : (pathsOf s.src m.net).length < 4) (hfree : freeEntry s.src = some i) :
    takeOrigin m s = takeFrame i m (newPath m) s := by
  obtain ⟨hport, hexp⟩ := h.guards
  rw [takeOrigin, if_neg hport, if_neg hexp, hf, hfree]
  exact if_pos hroom

theorem takeOrigin_full (h : s.hears m) (hf : findPath s.src m.identity m.net = none)
    (hfull : 4 ≤ (pathsOf s.src m.net).length) : takeOrigin m s = countTableFull m.net s := by
  obtain ⟨hport, hexp⟩ := h.guards
  rw [takeOrigin, if_neg hport, if_neg hexp, hf]
  exact if_neg hfull.not_gt

theorem pathTakesOrigin_barred (h : p.state = .barred) :
    pathTakesOrigin i m p s = s.setPath i (some { p with seen := bump32 p.seen }) := by
  rw [pathTakesOrigin, h]

theorem pathTakesOrigin_stale (h : p.state = .stale) : pathTakesOrigin i m p s = takeFrame i m p.afresh s := by
  rw [pathTakesOrigin, h]

theorem pathTakesOrigin_live (h : p.state.live = true) :
    pathTakesOrigin i m p s = if isNewer m.seq p.lastSeq then takeFrame i m p s else s := by
  rcases (PathState.live_iff _).1 h with h | h | h <;> rw [pathTakesOrigin, h]

theorem isNewer_iff (seq last : Nat) :
    isNewer seq (some last) = true ↔ 1 ≤ (seq + 65536 - last) % 65536 ∧ (seq + 65536 - last) % 65536 ≤ 32768 := by
  simp [isNewer]

end

/-! ## The state tests (R72) -/

theorem PathState.live_of_ne {x : PathState} (hs : x ≠ .stale) (hb : x ≠ .barred) : x.live = true := by
  cases x with
  | listen | candidate | selected => rfl
  | stale => exact absurd rfl hs
  | barred => exact absurd rfl hb

section
variable {p : SourcePath}

theorem tested_of_listen (h : p.state = .listen) :
    p.tested = if p.cls ≤ 13 ∧ 2 ≤ p.listenCount ∧ 1 ≤ p.filter.count then { p with state := .candidate } else p := by
  have hcls : p.cls < 14 ↔ p.cls ≤ 13 := Nat.lt_succ_iff
  simp only [SourcePath.tested, h, hcls]

theorem tested_of_contends (h : p.Contends) :
    p.tested = if 14 ≤ p.cls ∨ p.filter.value = none then { p with state := .listen, listenCount := 0, lastOffset := none }
      else p := by
  obtain h | h := h <;> simp only [SourcePath.tested, h]

end

/-! ## What is handed to the timescale unit (R71, R80) -/

/-- An offset, if there is one, and after it the pair, if it has a part. -/
def handed (i : Nat) (k : Int) (o utc : Option Int) (leap : Option Leap) (arrival : Ticks) : List TimescaleMsg :=
  (match o with | some x => [.offset i k x] | none => []) ++
    if utc = none ∧ leap = none then [] else [.pair i utc leap arrival]

theorem handOver_eq (i : Nat) (k : Int) (o utc : Option Int) (leap : Option Leap) (arrival : Ticks) (s : State) :
    handOver i k o utc leap arrival s = { s with flight := { s.flight with
      toTimescale := s.flight.toTimescale ++ if s.src.selected = some i then handed i k o utc leap arrival else [] } } := by
  unfold handOver
  by_cases hsel : s.src.selected = some i
  · rw [if_pos hsel, if_pos hsel]
    cases o <;> cases utc <;> cases leap <;> simp [handed, handToTimescale, State.setFlight]
  · rw [if_neg hsel, if_neg hsel, List.append_nil]

/-! ## A path takes a frame (R70 … R72) -/

section
variable {m : OriginMsg} {p : SourcePath}

theorem takeFields_tested_of_listen (h : p.state = .listen) :
    (p.takeFields m).tested =
      if m.cls ≤ 13 ∧ 2 ≤ min (p.listenCount + 1) 2 ∧ 1 ≤ p.filter.count then
        { p.takeFields m with state := .candidate }
      else p.takeFields m := by
  rw [tested_of_listen (p := p.takeFields m) h]
  simp only [SourcePath.takeFields, h, if_true]

theorem takeFields_tested_of_contends (h : p.Contends) :
    (p.takeFields m).tested =
      if 14 ≤ m.cls ∨ p.filter.value = none then
        { p.takeFields m with state := .listen, listenCount := 0, lastOffset := none }
      else p.takeFields m :=
  tested_of_contends (p := p.takeFields m) h

theorem originOffset_tested : originOffset m (p.takeFields m).tested = originOffset m p := by
  have h : (p.takeFields m).tested.filter = p.filter := by
    unfold SourcePath.tested
    split
    · split <;> rfl
    · split <;> rfl
    · split <;> rfl
    · rfl
  rw [originOffset, h, originOffset]

theorem takeFrame_eq (i : Nat) (s : State) :
    let chosen := reexamine .first (s.setPath i (some { (p.takeFields m).tested with lastOffset := originOffset m p }))
    let told := if m.cls ≠ p.cls then reportClass i chosen else chosen
    takeFrame i m p s =
      if chosen.src.selected = some i then
        { told with flight := { told.flight with
          toTimescale := told.flight.toTimescale ++
            handed i m.exponent (originOffset m p) (some m.utc) (some m.leap) m.stamp.dt } }
      else told := by
  intro chosen told
  have hsel : told.src.selected = chosen.src.selected := by
    simp only [told]
    split
    · exact congrArg SourceTable.selected (sameSelection_reportClass i chosen).1
    · rfl
  have htold : takeFrame i m p s = handOver i m.exponent (originOffset m p) (some m.utc) (some m.leap) m.stamp.dt told := by
    unfold takeFrame
    dsimp only
    rw [originOffset_tested]
  rw [htold]
  rw [handOver_eq, hsel]
  split
  · rfl
  · rw [List.append_nil]

end

/-! ## The statement -/

/-- Settles O28: the entry that takes a frame, then what its path makes of it. -/
theorem originsReachTheirPaths : Obligations.OriginsReachTheirPaths := by
  refine ⟨fun s m rest horigins => ?entry, fun i m p s => ?frame⟩
  case entry =>
    intro u up own stranger count
    have hexec : exec .originTaken s = .next (takeOrigin m u) := exec_originTaken horigins
    rw [hexec]
    have hown : ∀ j, ¬own (s.path j) ↔ ∀ q, u.path j = some q → ¬q.IsOf m.identity m.net := fun j =>
      not_exists.trans (forall_congr' fun q => not_and)
    have hnone : stranger → findPath u.src m.identity m.net = none := fun h =>
      findPath_none fun j hj => (hown j).1 (h j hj)
    refine ⟨fun h => ?_, fun i p h hi hp hmine hfirst => ?known, fun i h hlen hstr hcount hi hp hfirst => ?created,
      fun h hlen hstr hcount => ?full⟩
    · exact congrArg Host.Outcome.next (takeOrigin_discarded (s := u) h)
    case known =>
      obtain ⟨p', hp', hid⟩ := hmine
      obtain rfl := Option.some.inj (hp.symm.trans hp')
      have hf : findPath u.src m.identity m.net = some (i, p) :=
        findPath_first hi hp hid fun j hj => (hown j).1 (hfirst j hj)
      rw [takeOrigin_known (s := u) h hf]
      refine ⟨fun hb => ?_, fun hst => ?_, fun last hlive hlast => ?_⟩
      · rw [pathTakesOrigin_barred hb]
      · rw [pathTakesOrigin_stale hst]
      · intro newer
        rw [pathTakesOrigin_live hlive, hlast]
        exact ⟨fun hn => by rw [if_pos ((isNewer_iff _ _).2 hn)], fun hn => by rw [if_neg (mt (isNewer_iff _ _).1 hn)]⟩
    case created =>
      have hroom : (pathsOf u.src m.net).length < 4 := (pathsOf_length (s := u) hlen).trans_lt hcount
      rw [takeOrigin_created (s := u) h (hnone hstr) hroom (freeEntry_first (s := u) hlen hi hp hfirst)]
      rfl
    case full =>
      intro port
      rw [takeOrigin_full (s := u) h (hnone hstr) (hcount.trans_eq (pathsOf_length (s := u) hlen).symm)]
      rfl
  case frame =>
    intro listen q back up tested offset chosen told hbarred hstale
    have htested :
        ({ (p.takeFields m).tested with lastOffset := offset } : SourcePath) = { tested with lastOffset := offset } := by
      by_cases hl : p.state = .listen
      · have hback : ¬back := fun h => h.2.1 hl
        have hlisten : listen = min (p.listenCount + 1) 2 := if_pos hl
        have hup : up ↔ m.cls ≤ 13 ∧ 2 ≤ min (p.listenCount + 1) 2 ∧ 1 ≤ p.filter.count := by
          simp only [up, hl, hlisten, true_and]
        rw [takeFields_tested_of_listen hl]
        simp only [tested, if_neg hback, hup]
        rfl
      · have hlive : p.state.live = true := PathState.live_of_ne hstale hbarred
        have hc : p.Contends := ((PathState.live_iff _).1 hlive).resolve_left hl
        have hup : ¬up := fun h => hl h.1
        have hback : back ↔ 14 ≤ m.cls ∨ p.filter.value = none := by
          simp only [back, hlive, ne_eq, hl, not_false_eq_true, true_and]
        rw [takeFields_tested_of_contends hc]
        simp only [tested, if_neg hup, hback]
        split <;> rfl
    have hchosen : reexamine .first (s.setPath i (some { (p.takeFields m).tested with lastOffset := originOffset m p })) =
        chosen := congrArg (fun r => reexamine .first (s.setPath i (some r))) htested
    rw [takeFrame_eq, hchosen, List.append_assoc]
    rfl

end Sys2Proof.Machine
end

section
/-! Samples, misses and ageing of source paths, and their barring (R73 … R77). -/

namespace Sys2Proof.Machine

/-! ## Samples and misses (R74) -/

section
variable {s : State} {i id : Nat} {p : SourcePath}

theorem exec_sourceSample {m : SampleMsg} {rest : List SampleMsg} (h : s.flight.sourceSamples = m :: rest) :
    exec .sourceSample s = .next (takeSourceSample m { s with flight := { s.flight with sourceSamples := rest } }) := by
  change execSourceSample s = _
  rw [execSourceSample, h]
  rfl

theorem exec_sourceMiss {m : MissMsg} {rest : List MissMsg} (h : s.flight.sourceMisses = m :: rest) :
    exec .sourceMiss s = .next (takeSourceMiss m { s with flight := { s.flight with sourceMisses := rest } }) := by
  change execSourceMiss s = _
  rw [execSourceMiss, h]
  rfl

theorem liveTarget_of_live (hp : s.path i = some p) (hid : p.identity = id) (hl : p.state.live = true) :
    liveTarget (.path i id) s = some (i, p) := by
  simp only [liveTarget, hp]
  exact if_pos ⟨hid, hl⟩

/-- A path that is gone, another in its entry, or one that is not asked takes nothing. -/
theorem liveTarget_none {t : Target}
    (h : ∀ i id p, t = .path i id → s.path i = some p → p.identity = id → p.state.live = false) :
    liveTarget t s = none := by
  cases hx : liveTarget t s with
  | none => rfl
  | some x =>
    obtain ⟨hp, hl, ht⟩ := liveTarget_path hx
    have hdead := h _ _ _ ht hp rfl
    rw [hl] at hdead
    cases hdead

theorem takeSourceSample_of_live {m : SampleMsg} (h : liveTarget m.target s = some (i, p)) :
    takeSourceSample m s =
      let q := { p with filter := (filterTake s.echo.outlier p.filter m.sample).1, miss := some 0 }
      if (filterTake s.echo.outlier p.filter m.sample).2 = .outlier then s.setPath i (some q)
      else reexamine .first (s.setPath i (some q.tested)) := by
  rw [takeSourceSample, h]

theorem takeSourceSample_of_none {m : SampleMsg} (h : liveTarget m.target s = none) : takeSourceSample m s = s := by
  rw [takeSourceSample, h]

theorem takeSourceMiss_of_live {m : MissMsg} (h : liveTarget m.target s = some (i, p)) :
    takeSourceMiss m s = if 4 ≤ p.miss.getD 0 then makeStale i m.el p s else s := by
  rw [takeSourceMiss, h]

theorem takeSourceMiss_of_none {m : MissMsg} (h : liveTarget m.target s = none) : takeSourceMiss m s = s := by
  rw [takeSourceMiss, h]

/-! ## The end of a path's exchanges (R64): STALE, and BARRED -/

/-- The path stands once its samples are taken, and enters STALE then. -/
theorem makeStale_eq (since : Nat) (hp : s.path i = some p) :
    ∃ q, (settlePath i p s).path i = some q ∧ q.identity = p.identity ∧
      makeStale i since p s =
        reexamine .first (endAsks (.path i p.identity) ((settlePath i p s).setPath i (some (q.staled since)))) := by
  obtain ⟨q, hq, hid⟩ := settlePath_path hp p
  refine ⟨q, hq, hid, ?_⟩
  simp only [makeStale, hq, hid]

/-- Likewise it enters BARRED. -/
theorem barPath_eq (reason : Nat) (hp : s.path i = some p) :
    ∃ q, (settlePath i p s).path i = some q ∧ q.identity = p.identity ∧
      barPath i reason p s =
        reexamine .first (endAsks (.path i p.identity) ((settlePath i p s).setPath i (some (q.barredBy reason)))) := by
  obtain ⟨q, hq, hid⟩ := settlePath_path hp p
  refine ⟨q, hq, hid, ?_⟩
  simp only [barPath, hq, hid]

/-! ## Ageing (R73, R75, R81) -/

/-- The deadline of a network path, and that of the reference path, is one event for each. -/
theorem exec_deadline {c : Instr} (h : i < 8 ∧ c = .staleDeadline i ∨ i = 8 ∧ c = .refDeadline) (s : State) :
    exec c s = .next (staleAtDeadline i s) := by
  obtain ⟨hi, rfl⟩ | ⟨rfl, rfl⟩ := h
  · exact if_pos hi
  · rfl

theorem staleAtDeadline_absent (hp : s.path i = none) : staleAtDeadline i s = s := by
  rw [staleAtDeadline, hp]

theorem staleAtDeadline_of_deadline {d : Nat} (hp : s.path i = some p) (hd : p.deadline = some d)
    (hl : p.state.live = true) : staleAtDeadline i s = if d ≤ s.ts.el then makeStale i d p s else s := by
  simp only [staleAtDeadline, hp, hd, hl, Bool.true_and, decide_eq_true_eq]

theorem staleAtDeadline_resting (hp : s.path i = some p) (h : p.state.live = false ∨ p.deadline = none) :
    staleAtDeadline i s = s := by
  obtain hl | hd := h
  · cases hd : p.deadline <;> simp [staleAtDeadline, hp, hd, hl]
  · simp only [staleAtDeadline, hp, hd]

theorem removalDue_iff (hp : s.path i = some p) :
    removalDue i s = true ↔ p.state = .stale ∧ i < 8 ∧ ∃ t, p.staleSince = some t ∧ t + 60000000000 ≤ s.ts.el := by
  cases ht : p.staleSince <;> simp [removalDue, hp, ht, and_assoc]

theorem removeStale_due (hp : s.path i = some p) (h : removalDue i s = true) :
    removeStale i s = reexamine .first (endAsks (.path i p.identity) (s.setPath i none)) := by
  simp only [removeStale, hp, h, if_true]

theorem removeStale_not_due (h : ¬removalDue i s = true) : removeStale i s = s := by
  unfold removeStale
  split
  · exact if_neg h
  · rfl

/-- No entry but those of the networks is removed for its age. -/
theorem removalDue_lt (h : removalDue i s = true) : i < 8 := by
  cases hp : s.path i with
  | none => simp [removalDue, hp] at h
  | some p =>
    obtain ⟨-, hi, -⟩ := (removalDue_iff hp).1 h
    exact hi

end

/-! ## Requests -/

section
variable {s : State} {ag : Agent} {o : Options} {e : Nat}

theorem barPath_withRequest (q : Submitted) (r : Nat) (p : SourcePath) (hp : s.path e = some p) :
    barPath e r p (s.withRequest ag q) = (barPath e r p s).withRequest ag q := by
  have hsettle : settlePath e p (s.withRequest ag q) = (settlePath e p s).withRequest ag q :=
    settleSamples_withRequest ag q s _
  obtain ⟨x, hx, -, hbar⟩ := barPath_eq r hp
  obtain ⟨y, hy, -, hbar'⟩ := barPath_eq (s := s.withRequest ag q) r hp
  rw [hsettle, State.withRequest_path] at hy
  obtain rfl := Option.some.inj (hx.symm.trans hy)
  rw [hbar, hbar', hsettle]
  exact (aside_withRequest ag q).reexamine (endAsks _ ((settlePath e p s).setPath e _)) .first

theorem takeSourceBar_absent (r : Nat) (hp : s.path e = none) : takeSourceBar e r s = refuse (entryRefusal e) s := by
  rw [takeSourceBar, hp]

theorem takeSourceBar_barred (r : Nat) {p : SourcePath} (hp : s.path e = some p) (h : p.state = .barred) :
    takeSourceBar e r s = accept .empty (s.setPath e (some { p with barReason := some r })) := by
  simp only [takeSourceBar, hp, h, if_true]

theorem takeSourceBar_entered (r : Nat) {p : SourcePath} (hp : s.path e = some p) (h : p.state ≠ .barred) :
    takeSourceBar e r s = accept .empty (barPath e r p s) := by
  simp only [takeSourceBar, hp, h, if_false]

theorem takeSourceUnbar_absent (hp : s.path e = none) : takeSourceUnbar e s = refuse (entryRefusal e) s := by
  rw [takeSourceUnbar, hp]

theorem takeSourceUnbar_refused {p : SourcePath} (hp : s.path e = some p) (h : p.state ≠ .barred) :
    takeSourceUnbar e s = refuse .state s := by
  simp only [takeSourceUnbar, hp, h, if_false]

theorem takeSourceUnbar_barred {p : SourcePath} (hp : s.path e = some p) (h : p.state = .barred) :
    takeSourceUnbar e s =
      accept .empty
        (reexamine .first (s.setPath e (some { p.afresh with deadline := some (unbarDeadline s.ts.el e p) }))) := by
  simp only [takeSourceUnbar, hp, h, if_true]

end

/-! ## The statements -/

/-- Settles O30: a path at its deadline, and one that has been STALE for 60 s. -/
theorem pathsAgeAndAreRemoved : Obligations.PathsAgeAndAreRemoved := by
  refine ⟨fun i c s hc => ?deadline, fun i s => ?removal⟩
  case deadline =>
    rw [exec_deadline hc]
    refine ⟨fun p d hp hl hd => ⟨fun hearly => ?_, fun hdue => ?_⟩, fun p hp hrest => ?_, fun hp => ?_⟩
    · rw [staleAtDeadline_of_deadline hp hd hl, if_neg hearly.not_ge]
    · obtain ⟨q, hq, hid, hstale⟩ := makeStale_eq d hp
      refine ⟨q, hq, hid, ?_⟩
      rw [staleAtDeadline_of_deadline hp hd hl, if_pos hdue]
      exact congrArg Host.Outcome.next hstale
    · rw [staleAtDeadline_resting hp hrest]
    · rw [staleAtDeadline_absent hp]
  case removal =>
    have hexec : exec (.staleRemoval i) s = .next (removeStale i s) := rfl
    rw [hexec]
    refine ⟨fun p t hi hp hst ht => ⟨fun hearly => ?_, fun hdue => ?_⟩, fun p hp hst => ?_, fun hi => ?_⟩
    · refine congrArg _ (removeStale_not_due fun hrem => ?_)
      obtain ⟨-, -, t', ht', hle⟩ := (removalDue_iff hp).1 hrem
      obtain rfl := Option.some.inj (ht.symm.trans ht')
      exact hearly.not_ge hle
    · exact congrArg _ (removeStale_due hp ((removalDue_iff hp).2 ⟨hst, hi, t, ht, hdue⟩))
    · refine congrArg _ (removeStale_not_due fun hrem => ?_)
      obtain ⟨hst', -⟩ := (removalDue_iff hp).1 hrem
      exact hst hst'
    · exact congrArg _ (removeStale_not_due fun hrem => hi.not_gt (removalDue_lt hrem))

/-- Settles O29: samples and misses by whether their path is still asked, and the samples that an end takes first. -/
theorem sourceSamplesAndMissesAreTaken : Obligations.SourceSamplesAndMissesAreTaken := by
  refine ⟨fun s m rest hmsg => ?sample, fun s m rest hmsg => ?miss, fun g s => ?settle, fun s => ?nothing⟩
  case sample =>
    intro u
    rw [exec_sourceSample hmsg]
    refine ⟨fun i id p ht hp hid hl => ?_, fun hdead => ?_⟩
    · have hlive : liveTarget m.target u = some (i, p) := by rw [ht]; exact liveTarget_of_live hp hid hl
      intro f q
      rw [takeSourceSample_of_live hlive]
      exact ⟨fun hout => congrArg _ (if_pos hout), fun hin => congrArg _ (if_neg hin)⟩
    · exact congrArg _ (takeSourceSample_of_none (s := u) (liveTarget_none hdead))
  case miss =>
    intro u
    rw [exec_sourceMiss hmsg]
    refine ⟨fun i id p ht hp hid hl => ?_, fun hdead => ?_⟩
    · have hlive : liveTarget m.target u = some (i, p) := by rw [ht]; exact liveTarget_of_live hp hid hl
      rw [takeSourceMiss_of_live hlive]
      refine ⟨fun hfew => congrArg _ (if_neg hfew.not_ge), fun hmany => ?_⟩
      obtain ⟨q, hq, hqid, hstale⟩ := makeStale_eq (s := u) m.el hp
      rw [hid] at hqid hstale
      exact ⟨q, hq, hqid, congrArg _ ((if_pos hmany).trans hstale)⟩
    · exact congrArg _ (takeSourceMiss_of_none (s := u) (liveTarget_none hdead))
  case settle =>
    intro l
    refine ⟨settleSamples_nil g s, fun before m after hl hb hm => ?_, fun i p => rfl⟩
    exact ⟨takeSourceSample m (s.withSamples (before ++ after)), rfl, settleSamples_cons g s before after m hl hb hm⟩
  case nothing =>
    refine ⟨fun h => ?_, fun h => ?_, fun h => ?_, fun h => ?_⟩
    · change execSourceSample s = _
      rw [execSourceSample, h]
    · change execSourceMiss s = _
      rw [execSourceMiss, h]
    · change execOriginTaken s = _
      rw [execOriginTaken, h]
    · change execRefEdge s = _
      rw [execRefEdge, h]

/-- Settles O26: both requests by the state of the entry that they name. -/
theorem sourcesAreBarredAndUnbarred : Obligations.SourcesAreBarredAndUnbarred := by
  refine ⟨fun ag o e r s h => ?bar, fun ag o e s h => ?unbar⟩
  case bar =>
    have habsent : s.path e = none → exec (.sourceBar ag o e r) s = .next (respond ag (entryRefusal e) .empty s) :=
      fun hp => exec_refused rfl h (takeSourceBar_absent r hp)
    refine ⟨fun he hp => ?_, fun _ hp => ?_, fun p hp hst => ?_, fun p hp hst => ?_⟩
    · rw [habsent hp, entryRefusal_of_entry he]
    · exact ⟨_, entryRefusal_cases e, habsent hp⟩
    · exact exec_answered rfl h (takeSourceBar_barred r hp hst)
    · obtain ⟨q, hq, hid, hbar⟩ := barPath_eq r hp
      refine ⟨q, hq, hid, exec_answered rfl h ?_⟩
      rw [takeSourceBar_entered (s := s.withRequest ag _) r hp hst, barPath_withRequest _ _ _ hp, hbar]
      rfl
  case unbar =>
    have habsent : s.path e = none → exec (.sourceUnbar ag o e) s = .next (respond ag (entryRefusal e) .empty s) :=
      fun hp => exec_refused rfl h (takeSourceUnbar_absent hp)
    refine ⟨fun he hp => ?_, fun _ hp => ?_, fun p hp hst => ?_, fun p hp hst => ?_⟩
    · rw [habsent hp, entryRefusal_of_entry he]
    · exact ⟨_, entryRefusal_cases e, habsent hp⟩
    · exact exec_refused rfl h (takeSourceUnbar_refused hp hst)
    · intro q
      refine exec_answered rfl h ?_
      rw [takeSourceUnbar_barred (s := s.withRequest ag _) hp hst]
      exact congrArg (Answer.mk · .ok .empty) ((aside_withRequest ag _).reexamine (s.setPath e (some q)) .first)

end Sys2Proof.Machine
end

section
/-! The reference path (R79 … R81): edges of line 47, and REF-LABEL. -/

namespace Sys2Proof.Machine

/-! ## Edges of line 47 (R79) -/

theorem exec_refEdge {s : State} {e : Stamp} {rest : List Stamp} (h : s.flight.refEdges = e :: rest) :
    exec .refEdge s = .next (takeRefEdge e { s with flight := { s.flight with refEdges := rest } }) := by
  change execRefEdge s = _
  rw [execRefEdge, h]
  rfl

section
variable {s : State} {p : SourcePath}

theorem takeRefEdge_absent (e : Stamp) (hp : s.path 8 = none) : takeRefEdge e s = s := by
  rw [takeRefEdge, hp]

theorem takeRefEdge_barred (e : Stamp) (hp : s.path 8 = some p) (h : p.state = .barred) : takeRefEdge e s = s := by
  simp only [takeRefEdge, hp, h, if_true]

theorem takeRefEdge_taken (e : Stamp) (hp : s.path 8 = some p) (h : p.state ≠ .barred) :
    takeRefEdge e s = s.setPath 8 (some { p with edge := some ⟨e, false⟩ }) := by
  simp only [takeRefEdge, hp, h, if_false]

end

/-! ## A labelled edge (R80, R81) -/

section
variable (e : Stamp) (x : Int) {p : SourcePath}

/-- The path with the edge `e` labelled, whatever its state; its deadline never moves back (log entry 26). -/
def SourcePath.withLabel (p : SourcePath) : SourcePath :=
  { p with
    edge := some ⟨e, true⟩, lastArrival := some e, lastOffset := some x, seen := bump32 p.seen
    deadline := some (max (p.deadline.getD 0) (e.el + 3000000000)) }

theorem label_of_stale (h : p.state = .stale) :
    p.label e x = ({ p.afresh with listenCount := 1 } : SourcePath).withLabel e x := by
  unfold SourcePath.label
  rw [if_pos h]
  rfl

theorem label_of_listen (h : p.state = .listen) :
    p.label e x = ({ p with
      listenCount := min (p.listenCount + 1) 2
      state := if 1 ≤ p.listenCount ∧ p.cls ≤ 13 then .candidate else .listen } : SourcePath).withLabel e x := by
  have htwo : 2 ≤ min (p.listenCount + 1) 2 ↔ 1 ≤ p.listenCount := by omega
  have hcls : p.cls < 14 ↔ p.cls ≤ 13 := Nat.lt_succ_iff
  simp only [SourcePath.label, h, reduceCtorEq, if_false, if_true, true_and, htwo, hcls]
  by_cases hc : 1 ≤ p.listenCount ∧ p.cls ≤ 13
  · simp only [if_pos hc]
    rfl
  · simp only [if_neg hc, ← h]
    rfl

theorem label_of_contends (h : p.Contends) : p.label e x = p.withLabel e x := by
  have hs : p.state ≠ .stale := by obtain h | h := h <;> simp [h]
  have hl : p.state ≠ .listen := by obtain h | h := h <;> simp [h]
  simp only [SourcePath.label, hs, hl, if_false, false_and]
  rfl

/-- What an edge labelled leaves of every path that is not BARRED. -/
theorem label_fields (h : p.state ≠ .barred) :
    (p.label e x).edge = some ⟨e, true⟩ ∧ (p.label e x).lastArrival = some e ∧ (p.label e x).lastOffset = some x ∧
      (p.label e x).seen = bump32 p.seen ∧
      (p.label e x).deadline = some (max (p.deadline.getD 0) (e.el + 3000000000)) := by
  cases hst : p.state with
  | barred => exact absurd hst h
  | stale => rw [label_of_stale e x hst]; exact ⟨rfl, rfl, rfl, rfl, rfl⟩
  | listen => rw [label_of_listen e x hst]; exact ⟨rfl, rfl, rfl, rfl, rfl⟩
  | candidate => rw [label_of_contends e x (.inl hst)]; exact ⟨rfl, rfl, rfl, rfl, rfl⟩
  | selected => rw [label_of_contends e x (.inr hst)]; exact ⟨rfl, rfl, rfl, rfl, rfl⟩

end

/-! ## REF-LABEL (R80) -/

theorem labellable_eq_some {el : Nat} {r : EdgeRecord} (hl : r.labelled = false) (hel : el < r.stamp.el + 500000000) :
    labellable el (some r) = some r.stamp := by
  simp [labellable, hl, hel]

theorem labellable_eq_none {el : Nat} {r : EdgeRecord} (h : r.labelled = true ∨ r.stamp.el + 500000000 ≤ el) :
    labellable el (some r) = none := by
  obtain h | h := h <;> simp [labellable, h]

theorem utcInRange_eq_false_iff (off : Option Int) :
    utcInRange off = false ↔ ∃ d, off = some d ∧ (d < -32768 ∨ 32767 < d) := by
  cases off <;> simp [utcInRange, imp_iff_not_or]

theorem optLeapOk_eq_false_iff (l : Option Leap) : optLeapOk l = false ↔ ∃ a, l = some a ∧ a.midnightOk = false := by
  cases l <;> simp [optLeapOk]

section
variable {s : State} {ag : Agent} {x : Nat} {off : Option Int} {l : Option Leap} {p : SourcePath}

theorem takeRefLabel_absent (hp : s.path 8 = none) : takeRefLabel ag x off l s = refuse .state s := by
  rw [takeRefLabel, hp]

/-- Without an edge that may be labelled, or on a BARRED path, the request is refused. -/
theorem takeRefLabel_state (hp : s.path 8 = some p) (h : p.state = .barred ∨ labellable s.ts.el p.edge = none) :
    takeRefLabel ag x off l s = refuse .state s := by
  simp only [takeRefLabel, hp]
  split
  · rfl
  · rw [h.resolve_left ‹_›]

theorem takeRefLabel_range {e : Stamp} (hp : s.path 8 = some p) (hst : p.state ≠ .barred)
    (he : labellable s.ts.el p.edge = some e) (hbad : utcInRange off = false ∨ optLeapOk l = false) :
    takeRefLabel ag x off l s = refuse .range s := by
  have hc : (!utcInRange off || !optLeapOk l) = true := by obtain h | h := hbad <;> simp [h]
  simp only [takeRefLabel, hp, hst, he, hc, if_false, if_true]

/-- The part once selection has been re-examined after a labelled edge. -/
def State.labelled (s : State) (p : SourcePath) (e : Stamp) (o : Int) : State :=
  reexamine .first (s.setPath 8 (some (p.label e o)))

theorem takeRefLabel_labelled {e : Stamp} (hp : s.path 8 = some p) (hst : p.state ≠ .barred)
    (he : labellable s.ts.el p.edge = some e) (hgood : utcInRange off = true ∧ optLeapOk l = true) :
    takeRefLabel ag x off l s =
      let o : Int := (e.dt : Int) - secTicks x
      let u := handOver 8 0 (some o) off l e.dt (s.labelled p e o)
      accept (.labelled o (((u.path 8).map SourcePath.state).getD .listen)) (reportRenewal ag u) := by
  have hc : (!utcInRange off || !optLeapOk l) = false := by simp [hgood]
  simp only [takeRefLabel, hp, hst, he, hc, if_false, Bool.false_eq_true]
  rfl

variable (e : Stamp) (o : Int)

/-- The reference path stands after its edge is labelled. -/
theorem labelled_path (hp : s.path 8 = some p) : ∃ r, (s.labelled p e o).path 8 = some r := by
  have hset : ((s.setPath 8 (some (p.label e o))).path 8).isSome = true := by
    rw [State.path_setPath, if_pos ⟨rfl, path_lt hp⟩]
    rfl
  exact Option.isSome_iff_exists.1 (((reexamine_keeps .first _).isSome 8).trans hset)

theorem labelled_withRequest (q : Submitted) :
    (s.withRequest ag q).labelled p e o = (s.labelled p e o).withRequest ag q :=
  (aside_withRequest ag q).reexamine (s.setPath 8 (some (p.label e o))) .first

theorem handOver_withRequest (i : Nat) (k : Int) (y utc : Option Int) (leap : Option Leap) (arrival : Ticks) (q : Submitted)
    (s : State) :
    handOver i k y utc leap arrival (s.withRequest ag q) = (handOver i k y utc leap arrival s).withRequest ag q := by
  rw [handOver_eq, handOver_eq]
  rfl

theorem labelled_holdsGrant (b : Agent) : (s.labelled p e o).holdsGrant b = s.holdsGrant b := by
  have h : onlySelection s (s.labelled p e o) := (onlySelection_setPath s _ _).trans (onlySelection_reexamine _ _)
  rw [h]
  rfl

end

/-! ## The statement -/

/-- Settles O27: edges by the state of entry 8; REF-LABEL by its refusals, then by what a labelled edge brings. -/
theorem referenceEdgesAreRecordedAndLabelled : Obligations.ReferenceEdgesAreRecordedAndLabelled := by
  refine ⟨fun s e rest hmsg => ?edge, fun ag o x off l s h => ?label⟩
  case edge =>
    intro u
    have hexec : exec .refEdge s = .next (takeRefEdge e u) := exec_refEdge hmsg
    rw [hexec]
    refine ⟨fun p hp hst => ?_, fun p hp hst => ?_, fun hp => ?_⟩
    · rw [takeRefEdge_taken (s := u) e hp hst]
    · rw [takeRefEdge_barred (s := u) e hp hst]
    · rw [takeRefEdge_absent (s := u) e hp]
  case label =>
    intro refused badPair
    have hbad : badPair ↔ utcInRange off = false ∨ optLeapOk l = false := by
      rw [utcInRange_eq_false_iff, optLeapOk_eq_false_iff]
    have hstate : ∀ p, s.path 8 = some p → p.state = .barred ∨ labellable s.ts.el p.edge = none → refused .state :=
      fun p hp hno => exec_refused rfl h (takeRefLabel_state (s := s.withRequest ag _) hp hno)
    refine ⟨fun hp => ?_, fun p hp hst => hstate p hp (.inl hst), fun p hp he => hstate p hp (.inr ?_),
      fun p e hp he hold => hstate p hp (.inr ?_), fun p e hp hst he hl hel hpair => ?_,
      fun p e hp hst he hl hel hpair hlen => ?labelled⟩
    · exact exec_refused rfl h (takeRefLabel_absent (s := s.withRequest ag _) hp)
    · rw [he]
      rfl
    · rw [he, labellable_eq_none hold]
    · exact exec_refused rfl h (takeRefLabel_range (s := s.withRequest ag _) hp hst
        (he ▸ labellable_eq_some hl hel) (hbad.1 hpair))
    case labelled =>
      intro offset q chosen told u
      have hgood : utcInRange off = true ∧ optLeapOk l = true := by
        obtain ⟨hutc, hleap⟩ := not_or.1 (mt hbad.2 hpair)
        exact ⟨Bool.eq_true_of_not_eq_false hutc, Bool.eq_true_of_not_eq_false hleap⟩
      have hu : handOver 8 0 (some offset) off l e.stamp.dt (s.labelled p e.stamp offset) = u := handOver_eq _ _ _ _ _ _ _
      obtain ⟨hedge, harrival, hoffset, hseen, hdeadline⟩ := label_fields e.stamp offset hst
      refine ⟨?answer, hedge, harrival, hoffset, hseen, hdeadline, fun hs => ?stale, fun hs hcount => ?listen,
        fun hs => ?contends⟩
      case answer =>
        obtain ⟨r, hr⟩ := labelled_path (s := s) e.stamp offset hp
        have hr' : u.path 8 = some r := hr
        refine ⟨r, hr', congrArg Host.Outcome.next (runRequest_answer s ag _ _ h _ _ _ ?_)⟩
        rw [takeRefLabel_labelled (s := s.withRequest ag _) hp hst (he ▸ labellable_eq_some hl hel) hgood]
        dsimp only
        rw [labelled_withRequest, handOver_withRequest, hu, State.withRequest_path, hr', Option.map_some, Option.getD_some,
          ← labelled_holdsGrant (s := s) (p := p) e.stamp offset ag]
        rfl
      case stale =>
        simp only [q, label_of_stale e.stamp offset hs]
        exact ⟨rfl, rfl, rfl, rfl⟩
      case listen =>
        simp only [q, label_of_listen e.stamp offset hs]
        exact ⟨rfl, rfl⟩
      case contends =>
        simp only [q, label_of_contends e.stamp offset hs]
        exact ⟨rfl, rfl⟩

end Sys2Proof.Machine
end

section
/-! The slots of the client table (R87), and the requests that add, remove and read clients (R99 … R101). -/

namespace Sys2Proof.Machine

/-! ## The slots (R87, R91) -/

section
variable {t : ClientTable} {i id : Nat}

/-- No slot holds the identity. -/
def ClientTable.Lacks (t : ClientTable) (id : Nat) : Prop :=
  ∀ (i : Nat) (c : Client), t.slots[i]? = some (some c) → c.identity ≠ id

/-- The first slot at which `f` finds something. -/
theorem findSome?_slotsOf_of_first {α : Type} {f : Option Client × Nat → Option α} {x : Option Client} {b : α}
    (hx : t.slots[i]? = some x) (hf : f (x, i) = some b)
    (hfirst : ∀ j y, j < i → t.slots[j]? = some y → f (y, j) = none) : (slotsOf t).findSome? f = some b := by
  obtain ⟨hi, rfl⟩ := List.getElem?_eq_some_iff.1 hx
  refine List.findSome?_eq_some_iff.2 ⟨(slotsOf t).take i, (t.slots[i], i), (slotsOf t).drop (i + 1), ?_, hf, ?_⟩
  · have hslot : (slotsOf t)[i]'(by simpa [slotsOf] using hi) = (t.slots[i], i) := by simp [slotsOf]
    rw [← hslot, ← List.drop_eq_getElem_cons, List.take_append_drop]
  · rintro ⟨y, j⟩ hy
    obtain ⟨k, hk, hkj⟩ := List.mem_take_iff_getElem.1 hy
    obtain ⟨rfl, rfl⟩ : t.slots[k]'(by simp [slotsOf] at hk; omega) = y ∧ k = j := by simpa [slotsOf] using hkj
    exact hfirst k _ (by omega) (List.getElem?_eq_getElem _)

theorem findClient_first {c : Client} (hc : t.slots[i]? = some (some c)) (hid : c.identity = id)
    (hfirst : ∀ j d, j < i → t.slots[j]? = some (some d) → d.identity ≠ id) : findClient t id = some (i, c) := by
  refine findSome?_slotsOf_of_first hc (if_pos hid) fun j y hj hy => ?_
  cases y with
  | none => rfl
  | some d => exact if_neg (hfirst j d hj hy)

theorem findClient_eq_none_iff : findClient t id = none ↔ t.Lacks id := by
  refine List.findSome?_eq_none_iff.trans ⟨fun h i c hc hid => ?_, fun h x hx => ?_⟩
  · have hnone := h (some c, i) (List.mem_zipIdx_iff_getElem?.2 hc)
    dsimp only at hnone
    rw [if_pos hid] at hnone
    cases hnone
  · obtain ⟨_ | c, i⟩ := x
    · rfl
    · exact if_neg (h i c (List.mem_zipIdx_iff_getElem?.1 hx))

theorem freeSlot_first (hi : t.slots[i]? = some none) (hfirst : ∀ j, j < i → t.slots[j]? ≠ some none) :
    freeSlot t = some i := by
  refine findSome?_slotsOf_of_first hi rfl fun j y hj hy => ?_
  cases y with
  | none => exact absurd hy (hfirst j hj)
  | some d => rfl

theorem freeSlot_of_full (h : t.slots.all Option.isSome = true) : freeSlot t = none := by
  refine List.findSome?_eq_none_iff.2 fun x hx => ?_
  have hsome : x.1.isSome = true :=
    List.all_eq_true.1 h x.1 (List.mem_of_getElem? (List.mem_zipIdx_iff_getElem?.1 hx))
  obtain ⟨_ | c, i⟩ := x
  · cases hsome
  · rfl

end

/-! ## What the requests make of the table -/

section
variable {s : State} {i id : Nat} {c : Client}

theorem takeClientAdd_held (hc : s.cli.slots[i]? = some (some c)) (hid : c.identity = id) :
    takeClientAdd id s = refuse .range s := by
  refine if_pos (Option.isSome_iff_ne_none.2 fun hnone => ?_)
  exact findClient_eq_none_iff.1 hnone i c hc hid

theorem takeClientAdd_full (h : s.cli.Lacks id) (hfree : freeSlot s.cli = none) :
    takeClientAdd id s = refuse .full s := by
  rw [takeClientAdd, findClient_eq_none_iff.2 h, hfree]
  rfl

theorem takeClientAdd_free (h : s.cli.Lacks id) (hfree : freeSlot s.cli = some i) :
    takeClientAdd id s = accept (.slot i) (s.setClient i (some (expectedClient id))) := by
  rw [takeClientAdd, findClient_eq_none_iff.2 h, hfree]
  rfl

theorem takeClientRemove_range (h : 48 ≤ i) : takeClientRemove i s = refuse .range s := if_pos h

theorem takeClientRemove_absent (h : i < 48) (hc : s.client i = none) : takeClientRemove i s = refuse .noEntry s := by
  rw [takeClientRemove, if_neg (show ¬Config.clientSlots ≤ i from h.not_ge), hc]

theorem takeClientRemove_present (h : i < 48) (hc : s.client i = some c) :
    takeClientRemove i s =
      accept (.identity c.identity)
        (raiseClient i c.identity .removed (some .agent) none ((voidPresences i c.identity s).setClient i none)) := by
  rw [takeClientRemove, if_neg (show ¬Config.clientSlots ≤ i from h.not_ge), hc]

theorem takeClientRead_range (h : 48 ≤ i) : takeClientRead (some i) s = refuse .range s := if_pos h

theorem takeClientRead_absent (h : i < 48) (hc : s.client i = none) : takeClientRead (some i) s = refuse .noEntry s := by
  simp only [takeClientRead, hc]
  exact if_neg h.not_ge

theorem takeClientRead_present (h : i < 48) (hc : s.client i = some c) :
    takeClientRead (some i) s =
      accept (.client i c ⟨hasAsk (.client i c.identity) s.ports.a, hasAsk (.client i c.identity) s.ports.b⟩) s := by
  simp only [takeClientRead, hc]
  exact if_neg h.not_ge

end

/-- The messages that the ends of both presences leave on their way are those for other targets (log entry 10). -/
theorem filter_both_ends {α : Type} (target : α → Target) (net : α → Net) (t : Target) (l : List α) :
    ((l.filter fun m => !(target m == t && net m == .netA)).filter fun m => !(target m == t && net m == .netB)) =
      l.filter fun m => target m != t := by
  rw [List.filter_filter]
  refine List.filter_congr fun m _ => ?_
  rw [bne]
  cases net m <;> cases target m == t <;> rfl

/-- The end of both presences of a slot: their asks end, and what is on its way for them is void (R64, log entry 10). -/
theorem voidPresences_eq (i id : Nat) (s : State) :
    voidPresences i id s = { s with
      ports := ⟨endAsksWhere (fun a => a.target == .client i id) s.ports.a,
        endAsksWhere (fun a => a.target == .client i id) s.ports.b⟩
      flight := { s.flight with
        clientSamples := s.flight.clientSamples.filter fun m => m.target != .client i id
        clientMisses := s.flight.clientMisses.filter fun m => m.target != .client i id } } := by
  rw [← filter_both_ends SampleMsg.target SampleMsg.net, ← filter_both_ends MissMsg.target MissMsg.net]
  rfl

/-- An answer OK by the block that takes the request at once, which leaves `t`. -/
theorem exec_accepted {s t : State} {ag : Agent} {c : Instr} {q : Submitted} {take : State → Answer} {b : Body}
    (hc : exec c s = .next (runRequest ag q take s)) (h : s.takesNow ag q = true)
    (ht : take (s.withRequest ag q) = accept b (t.withRequest ag q)) : exec c s = .next (respond ag .ok b t) :=
  hc.trans (congrArg Host.Outcome.next (runRequest_answer s ag q take h t .ok b ht))

/-- Settles O31: each request by the slot that it names or finds. -/
theorem clientRequestsAreTaken : Obligations.ClientRequestsAreTaken := by
  refine ⟨fun ag o id s h => ?add, fun ag o i s h => ?remove, voidPresences_eq, fun ag o x s h => ?read⟩
  case add =>
    refine ⟨fun ⟨i, c, hc, hid⟩ => exec_refused rfl h (takeClientAdd_held hc hid),
      fun hstranger => ⟨fun hfull => ?_, fun i hi hfirst => ?_⟩⟩
    · exact exec_refused rfl h (takeClientAdd_full hstranger (freeSlot_of_full hfull))
    · exact exec_accepted rfl h
        (takeClientAdd_free (s := s.withRequest ag _) hstranger (freeSlot_first hi hfirst))
  case remove =>
    refine ⟨fun hi => exec_refused rfl h (takeClientRemove_range hi),
      fun hi hc => exec_refused rfl h (takeClientRemove_absent hi hc), fun c hi hc => ?_⟩
    exact exec_accepted rfl h (takeClientRemove_present (s := s.withRequest ag _) hi hc)
  case read =>
    refine ⟨?_, ?_, ?_, ?_⟩
    · rintro rfl
      exact exec_accepted rfl h rfl
    · rintro i rfl hi
      exact exec_refused rfl h (takeClientRead_range hi)
    · rintro i rfl hi hc
      exact exec_refused rfl h (takeClientRead_absent hi hc)
    · rintro i c rfl hi hc
      exact exec_accepted rfl h (takeClientRead_present (s := s.withRequest ag _) hi hc)

end Sys2Proof.Machine
end

section
/-! A REGISTER at the client table (R90 … R92). -/

namespace Sys2Proof.Machine

section
variable {s : State} {m : RegisterMsg} {i : Nat} {c : Client}

theorem exec_registerTaken {rest : List RegisterMsg} (h : s.flight.registers = m :: rest) :
    exec .registerTaken s = .next (takeRegister m { s with flight := { s.flight with registers := rest } }) := by
  change execRegisterTaken s = _
  rw [execRegisterTaken, h]
  rfl

theorem takeRegister_not_up (h : ¬(s.port m.net).state = .up) : takeRegister m s = s := if_neg h

theorem takeRegister_known (hup : (s.port m.net).state = .up) (hf : findClient s.cli m.identity = some (i, c)) :
    takeRegister m s = registerKnown i c m s := by
  rw [takeRegister, if_pos hup, hf]

theorem takeRegister_stranger (hup : (s.port m.net).state = .up) (h : s.cli.Lacks m.identity) :
    takeRegister m s = registerUnknown m s := by
  rw [takeRegister, if_pos hup, findClient_eq_none_iff.2 h]

/-! ## A known identity (R90) -/

theorem registered_of_admitted (h : c.state = .expected ∨ c.state = .lapsed) :
    c.registered m = { c with
      regSeq := some m.seq, taken := bump32 c.taken, state := .measuring, lapsedSince := none
      presences := (⟨none, none⟩ : PerNet (Option Presence)).set m.net (some (newPresence m.stamp.el)) } := by
  rcases h with h | h <;> simp only [Client.registered, h]

theorem registered_of_present (h : c.state = .measuring ∨ c.state = .served)
    (hp : (c.presences.get m.net).isSome = true) :
    c.registered m = { c with regSeq := some m.seq, taken := bump32 c.taken } := by
  obtain ⟨p, hp⟩ := Option.isSome_iff_exists.1 hp
  rcases h with h | h <;> simp only [Client.registered, h, hp]

theorem registered_of_absent (h : c.state = .measuring ∨ c.state = .served) (hp : c.presences.get m.net = none) :
    c.registered m = { c with
      regSeq := some m.seq, taken := bump32 c.taken
      presences := c.presences.set m.net (some (newPresence m.stamp.el)) } := by
  rcases h with h | h <;> simp only [Client.registered, h, hp]

theorem registerKnown_expected (h : c.state = .expected) :
    registerKnown i c m s =
      answerRegister m .ok i
        ((raiseClient i c.identity .admitted (some .expected) (some m.net) s).setClient i (some (c.registered m))) := by
  simp only [registerKnown, h]

theorem registerKnown_lapsed (h : c.state = .lapsed) :
    registerKnown i c m s =
      answerRegister m .ok i
        ((raiseClient i c.identity .admitted (some .back) (some m.net) (voidPresences i c.identity s)).setClient i
          (some (c.registered m))) := by
  simp only [registerKnown, h]

theorem registerKnown_asked (h : c.state = .measuring ∨ c.state = .served) :
    registerKnown i c m s = answerRegister m .ok i (s.setClient i (some (c.registered m))) := by
  rcases h with h | h <;> simp only [registerKnown, h]

/-! ## An unknown identity (R91) -/

theorem registerUnknown_full (h : freeSlot s.cli = none) :
    registerUnknown m s =
      answerRegister m .full 0 { s with cli := { s.cli with refusedFull := bump32 s.cli.refusedFull } } := by
  rw [registerUnknown, h]

theorem registerUnknown_closed (h : freeSlot s.cli = some i) (ha : s.cli.autoAdmit = false) :
    registerUnknown m s =
      answerRegister m .closed 0 { s with cli := { s.cli with refusedClosed := bump32 s.cli.refusedClosed } } := by
  simp only [registerUnknown, h, ha, Bool.false_eq_true, if_false]

theorem registerUnknown_auto (h : freeSlot s.cli = some i) (ha : s.cli.autoAdmit = true) :
    registerUnknown m s =
      answerRegister m .ok i
        (raiseClient i m.identity .admitted (some .auto) (some m.net) (s.setClient i (some (newClient m)))) := by
  simp only [registerUnknown, h, ha, if_true]

end

/-! ## The statement -/

/-- Settles O32: a known identity by the state of its client, an unknown one by the free slot and the setting. -/
theorem registerIsAnswered : Obligations.RegisterIsAnswered := by
  intro s m rest hmsg u up fresh alone stranger admits
  have hadmits : ∀ st slot v, v.wire = s.wire → takeRegister m u = answerRegister m st slot v → admits st slot v := by
    intro st slot v hwire htake
    exact (exec_registerTaken hmsg).trans (congrArg Host.Outcome.next (htake.trans (by rw [answerRegister, hwire])))
  refine ⟨fun hdown => ?down, fun i c hup hc hid hfirst => ?known, fun hup hstranger hfull => ?full,
    fun i hup hstranger hi hfree => ?free⟩
  case down => exact (exec_registerTaken hmsg).trans (congrArg _ (takeRegister_not_up (s := u) hdown))
  case known =>
    have hknown : takeRegister m u = registerKnown i c m u :=
      takeRegister_known hup (findClient_first hc hid hfirst)
    intro c1
    refine ⟨fun hst => hadmits _ _ _ rfl ?_, fun hst => hadmits _ _ _ rfl ?_,
      fun hst => ⟨fun hp => hadmits _ _ _ rfl ?_, fun hp => hadmits _ _ _ rfl ?_⟩⟩
    · rw [hknown, registerKnown_expected hst, registered_of_admitted (.inl hst)]
      rfl
    · rw [hknown, registerKnown_lapsed hst, registered_of_admitted (.inr hst)]
      rfl
    · rw [hknown, registerKnown_asked hst, registered_of_present hst hp]
    · rw [hknown, registerKnown_asked hst, registered_of_absent hst hp]
      rfl
  case full =>
    refine hadmits _ _ _ rfl ?_
    rw [takeRegister_stranger (s := u) hup hstranger]
    exact registerUnknown_full (freeSlot_of_full hfull)
  case free =>
    have hslot : freeSlot u.cli = some i := freeSlot_first hi hfree
    have hunknown : takeRegister m u = registerUnknown m u := takeRegister_stranger hup hstranger
    exact ⟨fun ha => hadmits _ _ _ rfl (hunknown.trans (registerUnknown_closed hslot ha)),
      fun ha => hadmits _ _ _ rfl (hunknown.trans (registerUnknown_auto hslot ha))⟩

end Sys2Proof.Machine
end

section
/-! Samples and misses of client presences (R93, R94), and the lapse timer (R97, R98). -/

namespace Sys2Proof.Machine

/-! ## Samples and misses (R93, R94) -/

section
variable {s : State} {i id : Nat} {c : Client}

theorem exec_clientSample {m : SampleMsg} {rest : List SampleMsg} (h : s.flight.clientSamples = m :: rest) :
    exec .clientSample s = .next (takeClientSample m { s with flight := { s.flight with clientSamples := rest } }) := by
  change execClientSample s = _
  rw [execClientSample, h]
  rfl

theorem exec_clientMiss {m : MissMsg} {rest : List MissMsg} (h : s.flight.clientMisses = m :: rest) :
    exec .clientMiss s = .next (takeClientMiss m { s with flight := { s.flight with clientMisses := rest } }) := by
  change execClientMiss s = _
  rw [execClientMiss, h]
  rfl

theorem ClientState.not_asked_iff (x : ClientState) : x.asked = false ↔ x = .expected ∨ x = .lapsed := by
  cases x <;> simp [ClientState.asked]

theorem livePresence_of_asked {t : Target} {n : Net} {p : Presence} (ht : t = .client i id) (hc : s.client i = some c)
    (hid : c.identity = id) (hp : c.presences.get n = some p) (hs : c.state = .measuring ∨ c.state = .served) :
    livePresence t n s = some (i, c, p) := by
  simp only [ht, livePresence, hc, hp]
  exact if_pos ⟨hid, (ClientState.asked_iff _).2 hs⟩

/-- A client that is gone, another in its slot, one without the presence, or one that is not asked takes nothing. -/
theorem livePresence_none {t : Target} {n : Net}
    (h : ∀ i id c, t = .client i id → s.client i = some c → c.identity = id →
      c.presences.get n = none ∨ c.state = .expected ∨ c.state = .lapsed) : livePresence t n s = none := by
  cases t with
  | path => rfl
  | client i id =>
    cases hc : s.client i with
    | none => simp only [livePresence, hc]
    | some c =>
      cases hp : c.presences.get n with
      | none => simp only [livePresence, hc, hp]
      | some p =>
        simp only [livePresence, hc, hp]
        refine if_neg fun ⟨hid, hs⟩ => ?_
        rcases h i id c rfl hc hid with hnone | hidle
        · exact nomatch hp.symm.trans hnone
        · exact nomatch hs.symm.trans ((ClientState.not_asked_iff _).2 hidle)

theorem takeClientSample_of_none {m : SampleMsg} (h : livePresence m.target m.net s = none) :
    takeClientSample m s = s := by
  rw [takeClientSample, h]

/-- A MEASURING client is SERVED with its fourth kept sample; a SERVED one stays so (R93). -/
theorem takeClientSample_of_live {m : SampleMsg} {p : Presence} (h : livePresence m.target m.net s = some (i, c, p))
    (hs : c.state = .measuring ∨ c.state = .served) :
    takeClientSample m s =
      let f := filterTake s.echo.outlier p.filter m.sample
      s.setClient i (some { c with
        state := if f.2 = .kept ∧ 4 ≤ f.1.count then .served else c.state
        presences := c.presences.set m.net (some { p with filter := f.1, miss := 0 }) }) := by
  rw [takeClientSample, h]
  rcases hs with hs | hs <;> simp [hs]

/-- A record is silent when every presence of it has missed 4 times or more (R94, R95). -/
theorem silent_iff : c.silent = true ↔ ∀ n p, c.presences.get n = some p → 4 ≤ p.miss := by
  have hquiet : ∀ o : Option Presence,
      (o.any fun p => decide (p.miss < 4)) = false ↔ ∀ p, o = some p → 4 ≤ p.miss := by
    intro o
    cases o <;> simp
  rw [silent_eq, Bool.and_eq_true, Bool.not_eq_true', Bool.not_eq_true', hquiet, hquiet]
  refine ⟨fun ⟨ha, hb⟩ n => ?_, fun h => ⟨h .netA, h .netB⟩⟩
  cases n with
  | netA => exact ha
  | netB => exact hb

theorem takeClientMiss_of_none {m : MissMsg} (h : livePresence m.target m.net s = none) : takeClientMiss m s = s := by
  rw [takeClientMiss, h]

theorem takeClientMiss_answering {m : MissMsg} {p : Presence} (h : livePresence m.target m.net s = some (i, c, p))
    (hs : ¬c.silent = true) : takeClientMiss m s = s := by
  simp only [takeClientMiss, h]
  exact if_neg hs

/-- A silent client lapses with the record that the samples on their way leave of it. -/
theorem takeClientMiss_silent {m : MissMsg} {p : Presence} (h : livePresence m.target m.net s = some (i, c, p))
    (hc : s.client i = some c) (hs : c.silent = true) :
    ∃ d, (settleClient i c.identity s).client i = some d ∧ d.identity = c.identity ∧
      takeClientMiss m s = lapse i d .misses m.el (settleClient i c.identity s) := by
  obtain ⟨d, hd, hid⟩ := settleClient_client (id := c.identity) hc
  refine ⟨d, hd, hid, ?_⟩
  simp only [takeClientMiss, h, hd]
  exact if_pos hs

/-! ## The lapse timer (R97, R98) -/

theorem lapseDue_iff (hc : s.client i = some c) :
    lapseDue i s = true ↔ c.state = .lapsed ∧ ∃ t, c.lapsedSince = some t ∧ t + 60000000000 ≤ s.ts.el := by
  cases ht : c.lapsedSince <;> simp [lapseDue, hc, ht]

theorem endLapse_absent (hc : s.client i = none) : endLapse i s = s := by
  rw [endLapse, hc]

theorem endLapse_not_due (h : ¬lapseDue i s = true) : endLapse i s = s := by
  unfold endLapse
  split
  · rfl
  · exact if_neg h

theorem endLapse_auto (hc : s.client i = some c) (h : lapseDue i s = true) (hb : c.by_ = .auto) :
    endLapse i s =
      raiseClient i c.identity .removed (some .timeout) none ((voidPresences i c.identity s).setClient i none) := by
  simp only [endLapse, hc, h, hb, if_true]

theorem endLapse_agent (hc : s.client i = some c) (h : lapseDue i s = true) (hb : c.by_ = .agent) :
    endLapse i s =
      raiseClient i c.identity .released none none ((voidPresences i c.identity s).setClient i (some { c with
        state := .expected, presences := ⟨none, none⟩, regSeq := none, lapsedSince := none })) := by
  simp only [endLapse, hc, h, hb, if_true]

end

/-! ## The statement -/

/-- Settles O33: samples and misses by whether their presence is still asked, the lapse timer, and the samples that an end
takes first. -/
theorem clientsAreServedAndLapse : Obligations.ClientsAreServedAndLapse := by
  refine ⟨fun s m rest hmsg => ?sample, fun s m rest hmsg => ?miss, fun i s => ?timer, fun g s => ?settle,
    fun s => ?nothing⟩
  case sample =>
    intro u
    rw [exec_clientSample hmsg]
    refine ⟨fun i id c p ht hc hid hp hs => ?_, fun hidle => ?_⟩
    · have hlive : livePresence m.target m.net u = some (i, c, p) := livePresence_of_asked ht hc hid hp hs
      exact congrArg Host.Outcome.next (takeClientSample_of_live hlive hs)
    · exact congrArg _ (takeClientSample_of_none (s := u) (livePresence_none hidle))
  case miss =>
    intro u
    rw [exec_clientMiss hmsg]
    refine ⟨fun i id c ht hc hid hp hs => ?_, fun hidle => ?_⟩
    · obtain ⟨p, hp⟩ := Option.isSome_iff_exists.1 hp
      have hlive : livePresence m.target m.net u = some (i, c, p) := livePresence_of_asked ht hc hid hp hs
      refine ⟨fun ⟨n, x, hx, hfew⟩ => ?_, fun hmany => ?_⟩
      · exact congrArg _ (takeClientMiss_answering hlive fun hq => hfew.not_ge (silent_iff.1 hq n x hx))
      · obtain ⟨d, hd, hdid, hlapse⟩ := takeClientMiss_silent hlive hc (silent_iff.2 hmany)
        rw [hid] at hd hdid hlapse
        refine ⟨d, hd, hdid, congrArg Host.Outcome.next (hlapse.trans ?_)⟩
        rw [lapse, hdid]
        rfl
    · exact congrArg _ (takeClientMiss_of_none (s := u) (livePresence_none hidle))
  case timer =>
    have hexec : exec (.lapseTimer i) s = .next (endLapse i s) := rfl
    rw [hexec]
    refine ⟨fun c t hc hst ht => ⟨fun hearly => ?_, fun hdue => ?_⟩, fun c hc hst => ?_, fun hc => ?_⟩
    · refine congrArg _ (endLapse_not_due fun hd => ?_)
      obtain ⟨-, t', ht', hle⟩ := (lapseDue_iff hc).1 hd
      obtain rfl := Option.some.inj (ht.symm.trans ht')
      exact hearly.not_ge hle
    · have hd : lapseDue i s = true := (lapseDue_iff hc).2 ⟨hst, t, ht, hdue⟩
      exact ⟨fun hb => congrArg _ (endLapse_auto hc hd hb), fun hb => congrArg _ (endLapse_agent hc hd hb)⟩
    · refine congrArg _ (endLapse_not_due fun hd => ?_)
      obtain ⟨hst', -⟩ := (lapseDue_iff hc).1 hd
      exact hst hst'
    · exact congrArg _ (endLapse_absent hc)
  case settle =>
    intro l
    refine ⟨settlePresences_nil g s, fun before m after hl hb hm => ?_, fun i id => rfl⟩
    exact ⟨takeClientSample m (s.withPresenceSamples (before ++ after)), rfl,
      settlePresences_cons g s before after m hl hb hm⟩
  case nothing =>
    refine ⟨fun h => ?_, fun h => ?_, fun h => ?_⟩
    · change execRegisterTaken s = _
      rw [execRegisterTaken, h]
    · change execClientSample s = _
      rw [execClientSample, h]
    · change execClientMiss s = _
      rw [execClientMiss, h]

end Sys2Proof.Machine
end

section
/-! Epoch instants and their correction lists (R96, R108 … R111). -/

namespace Sys2Proof.Machine

/-! ## What the client table offers (R96) -/

section
variable {t : ClientTable} {n : Net}

theorem mem_slotsOf_iff {c : Option Client} {i : Nat} : (c, i) ∈ slotsOf t ↔ t.slots[i]? = some c :=
  List.mem_zipIdx_iff_getElem?

/-- What one slot offers: the delay value of the presence of its SERVED client. -/
def offerOf (n : Net) : Option Client × Nat → Option (Nat × Ticks)
  | (none, _) => none
  | (some x, i) =>
    if x.state = .served then ((x.presences.get n).bind fun p => p.filter.value).map fun d => (i, d) else none

theorem offered_eq_filterMap (n : Net) (t : ClientTable) : offered n t = (slotsOf t).filterMap (offerOf n) := by
  refine List.filterMap_congr fun x _ => ?_
  obtain ⟨_ | c, i⟩ := x <;> rfl

theorem offerOf_eq_some_iff {c : Option Client} {i : Nat} {e : Nat × Ticks} :
    offerOf n (c, i) = some e ↔ ∃ x p, c = some x ∧ x.state = .served ∧ x.presences.get n = some p ∧
      p.filter.value = some e.2 ∧ i = e.1 := by
  obtain ⟨j, d⟩ := e
  cases c with
  | none => simp [offerOf]
  | some x => simp [offerOf, Option.bind_eq_some_iff, and_comm]

theorem mem_offered_iff {i : Nat} {d : Ticks} :
    (i, d) ∈ offered n t ↔ ∃ x p, t.slots[i]? = some (some x) ∧ x.state = .served ∧ x.presences.get n = some p ∧
      p.filter.value = some d := by
  rw [offered_eq_filterMap, List.mem_filterMap]
  refine ⟨?_, ?_⟩
  · rintro ⟨⟨c, j⟩, hslot, hoffer⟩
    obtain ⟨x, p, rfl, hs, hp, hv, rfl⟩ := offerOf_eq_some_iff.1 hoffer
    exact ⟨x, p, mem_slotsOf_iff.1 hslot, hs, hp, hv⟩
  · rintro ⟨x, p, hx, hs, hp, hv⟩
    exact ⟨(some x, i), mem_slotsOf_iff.2 hx, offerOf_eq_some_iff.2 ⟨x, p, rfl, hs, hp, hv, rfl⟩⟩

theorem slot_lt_of_mem_offered {e : Nat × Ticks} (h : e ∈ offered n t) : e.1 < t.slots.length := by
  obtain ⟨x, p, hx, -⟩ := mem_offered_iff.1 h
  exact (List.getElem?_eq_some_iff.1 hx).1

theorem slotsOf_ascending (t : ClientTable) : (slotsOf t).Pairwise (fun a b => a.2 < b.2) := by
  rw [← List.pairwise_map (f := Prod.snd) (R := (· < ·)), slotsOf, List.zipIdx_map_snd]
  exact List.pairwise_lt_range'

/-- The table offers its slots in ascending order, each once. -/
theorem offered_ascending (n : Net) (t : ClientTable) : (offered n t).Pairwise (fun a b => a.1 < b.1) := by
  rw [offered_eq_filterMap]
  refine (slotsOf_ascending t).filterMap _ fun ⟨c, i⟩ ⟨c', j⟩ hij a ha b hb => ?_
  obtain ⟨x, p, -, -, -, -, rfl⟩ := offerOf_eq_some_iff.1 ha
  obtain ⟨y, q, -, -, -, -, rfl⟩ := offerOf_eq_some_iff.1 hb
  exact hij

end

/-! ## The rotation from the cursor (R111) -/

/-- The place of a slot in the order upward from the cursor and on from slot 0. -/
def placeFrom (cursor i : Nat) : Nat := (i + 48 - cursor) % 48

/-- The whole offer in the order of the cursor, of which a correction list takes the first 12. -/
def rotated (cursor : Nat) (l : List (Nat × Ticks)) : List (Nat × Ticks) :=
  l.filter (fun e => decide (cursor ≤ e.1)) ++ l.filter (fun e => decide (e.1 < cursor))

section
variable {cursor : Nat} {l : List (Nat × Ticks)}

theorem placeFrom_of_le {i : Nat} (h : cursor ≤ i) (hi : i < 48) : placeFrom cursor i = i - cursor := by
  rw [placeFrom]
  omega

theorem placeFrom_of_lt {i : Nat} (h : i < cursor) : placeFrom cursor i = i + 48 - cursor :=
  Nat.mod_eq_of_lt (by omega)

theorem correctionList_eq_take (cursor : Nat) (l : List (Nat × Ticks)) :
    correctionList cursor l = (rotated cursor l).take 12 := rfl

theorem rotated_perm (cursor : Nat) (l : List (Nat × Ticks)) : (rotated cursor l).Perm l := by
  have hlt : (fun e : Nat × Ticks => decide (e.1 < cursor)) = fun e => !decide (cursor ≤ e.1) := by
    funext e
    rw [← decide_not, decide_eq_decide, Nat.not_le]
  rw [rotated, hlt]
  exact List.filter_append_perm _ l

/-- Slots at or above the cursor keep their order and come before those below it. -/
theorem rotated_inOrder (hl : l.Pairwise fun a b => a.1 < b.1) (hslot : ∀ e ∈ l, e.1 < 48) (hc : cursor < 48) :
    (rotated cursor l).Pairwise fun a b => placeFrom cursor a.1 < placeFrom cursor b.1 := by
  have hupper : ∀ e ∈ l.filter (fun e => decide (cursor ≤ e.1)),
      placeFrom cursor e.1 = e.1 - cursor ∧ cursor ≤ e.1 ∧ e.1 < 48 := by
    intro e he
    obtain ⟨hmem, hle⟩ := List.mem_filter.1 he
    have hle : cursor ≤ e.1 := of_decide_eq_true hle
    exact ⟨placeFrom_of_le hle (hslot e hmem), hle, hslot e hmem⟩
  have hlower : ∀ e ∈ l.filter (fun e => decide (e.1 < cursor)), placeFrom cursor e.1 = e.1 + 48 - cursor :=
    fun e he => placeFrom_of_lt (of_decide_eq_true (List.mem_filter.1 he).2)
  refine List.pairwise_append.2 ⟨?_, ?_, fun a ha b hb => ?_⟩
  · refine (hl.filter _).imp_of_mem fun {a b} ha hb hab => ?_
    have hpa := hupper a ha
    have hpb := hupper b hb
    omega
  · refine (hl.filter _).imp_of_mem fun {a b} ha hb hab => ?_
    have hpa := hlower a ha
    have hpb := hlower b hb
    omega
  · have hpa := hupper a ha
    have hpb := hlower b hb
    omega

/-! ## The correction list -/

theorem mem_of_mem_correctionList {e : Nat × Ticks} (h : e ∈ correctionList cursor l) : e ∈ l :=
  (rotated_perm cursor l).mem_iff.1 (List.mem_of_mem_take h)

theorem correctionList_length (cursor : Nat) (l : List (Nat × Ticks)) :
    (correctionList cursor l).length = min 12 l.length := by
  rw [correctionList_eq_take, List.length_take, (rotated_perm cursor l).length_eq]

/-- What is left out of a list comes after everything taken into it. -/
theorem correctionList_before_left_out {a b : Nat × Ticks} {r : Nat × Ticks → Nat × Ticks → Prop}
    (h : (rotated cursor l).Pairwise r) (ha : a ∈ correctionList cursor l) (hb : b ∈ l)
    (hout : b ∉ correctionList cursor l) : r a b := by
  rw [← List.take_append_drop 12 (rotated cursor l)] at h
  obtain ⟨-, -, hcross⟩ := List.pairwise_append.1 h
  have hmem : b ∈ (rotated cursor l).take 12 ++ (rotated cursor l).drop 12 := by
    rw [List.take_append_drop]
    exact (rotated_perm cursor l).mem_iff.2 hb
  exact hcross a ha b ((List.mem_append.1 hmem).resolve_left hout)

theorem cursorAfter_concat {e : Nat × Ticks} (x : List (Nat × Ticks)) (he : e.1 < 48) :
    cursorAfter cursor (x ++ [e]) = if e.1 = 47 then 0 else e.1 + 1 := by
  have hmod : cursorAfter cursor (x ++ [e]) = (e.1 + 1) % 48 := by
    rw [cursorAfter, List.getLast?_concat]
  rw [hmod]
  split <;> omega

end

/-! ## An instant (R104, R108) -/

section
variable {s : State} {t : Ticks}

/-- One port's part of an instant: an UP port gets its EPOCH, and the rotation of its network moves on. -/
theorem epochFor_eq (n : Net) (seq : Nat) (s : State) :
    epochFor n seq s =
      let list := correctionList (s.epoch.cursor.get n) (offered n s.cli)
      let up := (s.port n).state = .up
      { s with
        ports := s.ports.set n (if up then placeEpoch (assemble seq list s) (s.port n) else s.port n)
        epoch := { s.epoch with
          cursor := s.epoch.cursor.set n (if up then cursorAfter (s.epoch.cursor.get n) list else s.epoch.cursor.get n)
          lastList := s.epoch.lastList.set n (if up then list.map Prod.fst else s.epoch.lastList.get n) } } := by
  by_cases hup : (s.port n).state = .up
  · simp only [hup, if_true]
    exact if_pos hup
  · have hport : s.ports.set n (s.port n) = s.ports := PerNet.set_get _ _
    simp only [epochFor, hup, if_false, hport, PerNet.set_get]

theorem epochDue_iff (h : s.epoch.next = some t) : epochDue s = true ↔ t ≤ s.epochDt := by
  simp [epochDue, h]

theorem makeInstant_of_none (h : s.epoch.next = none) : makeInstant s = s := by
  rw [makeInstant, h]

theorem makeInstant_not_reached (h : s.epoch.next = some t) (ht : s.epochDt < t) : makeInstant s = s := by
  simp only [makeInstant, h]
  exact if_neg fun hdue => ht.not_ge ((epochDue_iff h).1 hdue)

theorem makeInstant_reached (h : s.epoch.next = some t) (ht : t ≤ s.epochDt) :
    makeInstant s =
      let s1 := epochFor .netB s.epoch.seq
        (epochFor .netA s.epoch.seq { s with epoch := { s.epoch with seq := (s.epoch.seq + 1) % 65536 } })
      let next := t + nsTicks (1000000000 / 2 ^ s.epoch.exponent)
      { s1 with epoch := { s1.epoch with next := if next < timeEnd then some next else none } } := by
  simp only [makeInstant, h]
  exact if_pos ((epochDue_iff h).2 ht)

theorem le_epochDt (hnow : s.flight.toEpoch = [] → t ≤ s.ts.dt)
    (hstep : ∀ old new rest, s.flight.toEpoch = (old, new) :: rest → t ≤ old) : t ≤ s.epochDt := by
  cases hf : s.flight.toEpoch with
  | nil => exact (hnow hf).trans_eq (epochDt_of_none hf).symm
  | cons m rest => exact (hstep m.1 m.2 rest hf).trans_eq (epochDt_of_step hf).symm

end

/-! ## The statement -/

/-- Settles O34: an instant by whether the DT that counts has reached it; a correction list as the first 12 of the offer
rotated to the cursor. -/
theorem epochsAreMadeWithTheirCorrections : Obligations.EpochsAreMadeWithTheirCorrections := by
  refine ⟨fun s => ?instant, fun n t cursor hlen hc => ?list⟩
  case instant =>
    have hexec : exec .epochInstant s = .next (makeInstant s) := rfl
    rw [hexec]
    refine ⟨fun h => congrArg _ (makeInstant_of_none h), fun t h hf ht => ?_, fun t old new rest h hf ht => ?_,
      fun t h hnow hstep => ?_⟩
    · exact congrArg _ (makeInstant_not_reached h ((epochDt_of_none hf).trans_lt ht))
    · exact congrArg _ (makeInstant_not_reached h ((epochDt_of_step hf).trans_lt ht))
    · rw [makeInstant_reached h (le_epochDt hnow hstep), epochFor_eq .netA, epochFor_eq .netB]
      rfl
  case list =>
    have hslot : ∀ e ∈ offered n t, e.1 < 48 := fun e he => hlen ▸ slot_lt_of_mem_offered he
    have horder := rotated_inOrder (offered_ascending n t) hslot hc
    refine ⟨fun i d => mem_offered_iff, fun e => mem_of_mem_correctionList, correctionList_length _ _,
      horder.sublist (List.take_sublist _ _), fun a ha b hb hout => correctionList_before_left_out horder ha hb hout,
      fun hnil => ?_, fun x e hx => ?_⟩
    · rw [hnil]
      rfl
    · have he : e ∈ correctionList cursor (offered n t) := by
        rw [hx]
        exact List.mem_concat_self
      rw [hx]
      exact cursorAfter_concat x (hslot e (mem_of_mem_correctionList he))

end Sys2Proof.Machine
end

section
/-! EPOCH-CONFIG, EPOCH-READ and the step reports at the epoch unit (R106, R107, R114). -/

namespace Sys2Proof.Machine

/-! ## The first multiple of the period after a DT (R106) -/

section
variable {p d t : Nat}

/-- No multiple of the period lies between. -/
theorem next_multiple_le (hdvd : p ∣ t) (hlt : d < t) : (d / p + 1) * p ≤ t := by
  obtain ⟨m, rfl⟩ := hdvd
  rw [Nat.mul_comm]
  exact Nat.mul_le_mul_left p (Nat.div_lt_of_lt_mul hlt)

/-- It is the one multiple in the period after `d`. -/
theorem eq_next_multiple_iff (hp : 0 < p) : t = (d / p + 1) * p ↔ p ∣ t ∧ d < t ∧ t ≤ d + p := by
  refine ⟨?_, fun ⟨hdvd, hlt, hle⟩ => le_antisymm ?_ (next_multiple_le hdvd hlt)⟩
  · rintro rfl
    refine ⟨Nat.dvd_mul_left p _, Nat.lt_mul_of_div_lt (Nat.lt_succ_self _) hp, ?_⟩
    rw [Nat.add_mul, Nat.one_mul]
    exact Nat.add_le_add_right (Nat.div_mul_le_self d p) p
  · obtain ⟨m, rfl⟩ := hdvd
    have hm : m ≤ (d + p) / p := (Nat.le_div_iff_mul_le hp).2 (Nat.mul_comm p m ▸ hle)
    rw [Nat.mul_comm, ← Nat.add_div_right d hp]
    exact Nat.mul_le_mul_right p hm

end

section
variable {k : Nat} {d t : Ticks}

/-- The periods that EPOCH-CONFIG admits, in fraction units. -/
theorem periodTicks_pos (hk : k ≤ 4) : 0 < 1000000000 / 2 ^ k * 65536 := by
  interval_cases k <;> decide

theorem firstEpochAfter_eq_ite (k : Nat) (d : Ticks) :
    firstEpochAfter k d =
      let p := 1000000000 / 2 ^ k * 65536
      let t := (d / p + 1) * p
      if t < timeEnd then some t else none := rfl

theorem firstEpochAfter_eq_some_iff (hk : k ≤ 4) :
    let p := 1000000000 / 2 ^ k * 65536
    firstEpochAfter k d = some t ↔ p ∣ t ∧ d < t ∧ t ≤ d + p ∧ t < timeEnd := by
  intro p
  have heq := eq_next_multiple_iff (p := p) (d := d) (t := t) (periodTicks_pos hk)
  rw [firstEpochAfter_eq_ite, Option.ite_none_right_eq_some, Option.some.injEq, eq_comm (b := t)]
  constructor
  · rintro ⟨hrange, ht⟩
    obtain ⟨hdvd, hlt, hle⟩ := heq.1 ht
    exact ⟨hdvd, hlt, hle, ht ▸ hrange⟩
  · rintro ⟨hdvd, hlt, hle, hrange⟩
    have ht := heq.2 ⟨hdvd, hlt, hle⟩
    exact ⟨ht ▸ hrange, ht⟩

theorem firstEpochAfter_eq_none_iff (hk : k ≤ 4) :
    firstEpochAfter k d = none ↔ ∀ t, 1000000000 / 2 ^ k * 65536 ∣ t → d < t → timeEnd ≤ t := by
  obtain ⟨hdvd, hlt, -⟩ := (eq_next_multiple_iff (d := d) (periodTicks_pos hk)).1 rfl
  have hend : firstEpochAfter k d = none ↔
      timeEnd ≤ (d / (1000000000 / 2 ^ k * 65536) + 1) * (1000000000 / 2 ^ k * 65536) := by
    simp [firstEpochAfter_eq_ite]
  exact hend.trans ⟨fun h t hdvd hlt => h.trans (next_multiple_le hdvd hlt), fun h => h _ hdvd hlt⟩

end

/-! ## The requests and the report -/

section
variable {s : State} {k : Nat}

theorem takeEpochConfig_range (h : 4 < k) : takeEpochConfig k s = refuse .range s := if_pos h

/-- An accepted EPOCH-CONFIG takes the step reports that wait and sets the next instant from the present DT (log entry 12). -/
theorem takeEpochConfig_accepted (h : k ≤ 4) :
    takeEpochConfig k s =
      let next := if s.ts.timeSet then firstEpochAfter k s.ts.dt else none
      accept (.epochConfig (1000000000 / 2 ^ k) next) { s with
        epoch := { s.epoch with exponent := k, next := next }, flight := { s.flight with toEpoch := [] } } :=
  if_neg h.not_gt

theorem exec_epochStepReport_of_none (h : s.flight.toEpoch = []) : exec .epochStepReport s = .next s := by
  change execEpochStepReport s = _
  rw [execEpochStepReport, h]

theorem exec_epochStepReport_of_step {old new : Ticks} {rest : List (Ticks × Ticks)}
    (h : s.flight.toEpoch = (old, new) :: rest) :
    exec .epochStepReport s = .next (takeEpochStep new { s with flight := { s.flight with toEpoch := rest } }) := by
  change execEpochStepReport s = _
  rw [execEpochStepReport, h]
  rfl

end

/-! ## The statement -/

/-- Settles O35: the requests by their operand, a report by whether one waits, and the next instant as the least multiple of
the period after a DT. -/
theorem epochsAreConfiguredAndRealigned : Obligations.EpochsAreConfiguredAndRealigned := by
  refine ⟨fun ag o k s h => ⟨fun hk => ?_, fun hk => ?_⟩, fun ag o s h => exec_accepted rfl h rfl,
    fun s => ⟨exec_epochStepReport_of_none, fun old new rest => exec_epochStepReport_of_step⟩,
    fun k d hk => ⟨fun t => firstEpochAfter_eq_some_iff hk, firstEpochAfter_eq_none_iff hk⟩⟩
  · exact exec_refused rfl h (takeEpochConfig_range hk)
  · exact exec_accepted rfl h (takeEpochConfig_accepted (s := s.withRequest ag _) hk)

end Sys2Proof.Machine
end

section
/-! What every step keeps of the order of the schedule (R115, R117, R118), command by command. -/

namespace Sys2Proof.Machine

/-! ## Commands by what they touch -/

section
variable {s : State}

/-- A command that answers a state whose schedule is in order keeps the order. -/
theorem ScheduleInOrder.next {t : State} (h : ScheduleInOrder t.sched) :
    ∃ u, (.next t : Host.Outcome State Fault Refusal) = .next u ∧ ScheduleInOrder u.sched := ⟨t, rfl, h⟩

/-- A command that leaves the schedule as it is. -/
theorem ScheduleInOrder.sameNext (h : ScheduleInOrder s.sched) {t : State} (k : t.sched = s.sched) :
    ∃ u, (.next t : Host.Outcome State Fault Refusal) = .next u ∧ ScheduleInOrder u.sched := ⟨t, rfl, k ▸ h⟩

theorem ScheduleInOrder.setFlight (h : ScheduleInOrder s.sched) (f : InFlight) : ScheduleInOrder (s.setFlight f).sched := h

/-- A request command keeps the order when its block does. -/
theorem ScheduleInOrder.request (h : ScheduleInOrder s.sched) (ag : Agent) (q : Submitted) (take : State → Answer)
    (ht : ∀ u : State, ScheduleInOrder u.sched → ScheduleInOrder (take u).state.sched) :
    ∃ u, (.next (runRequest ag q take s) : Host.Outcome State Fault Refusal) = .next u ∧ ScheduleInOrder u.sched :=
  (runRequest_keeps (fun u => ScheduleInOrder u.sched) ag q take (fun _ _ _ hu => hu) ht s h).next

theorem ScheduleInOrder.sameRequest (h : ScheduleInOrder s.sched) (ag : Agent) (q : Submitted) (take : State → Answer)
    (ht : ∀ u, (take u).state.sched = u.sched) :
    ∃ u, (.next (runRequest ag q take s) : Host.Outcome State Fault Refusal) = .next u ∧ ScheduleInOrder u.sched :=
  h.request ag q take fun u hu => (ht u).symm ▸ hu

theorem ScheduleInOrder.quietRequest (h : ScheduleInOrder s.sched) (ag : Agent) (q : Submitted) (take : State → Answer)
    (ht : ∀ u, quiet u (take u).state) :
    ∃ u, (.next (runRequest ag q take s) : Host.Outcome State Fault Refusal) = .next u ∧ ScheduleInOrder u.sched :=
  h.sameRequest ag q take fun u => (ht u).sched

theorem ScheduleInOrder.onlyRequest (h : ScheduleInOrder s.sched) (ag : Agent) (q : Submitted) (take : State → Answer)
    (ht : ∀ u, onlySelection u (take u).state) :
    ∃ u, (.next (runRequest ag q take s) : Host.Outcome State Fault Refusal) = .next u ∧ ScheduleInOrder u.sched :=
  h.sameRequest ag q take fun u => (ht u).sched

end

/-! ## Resets -/

/-- A part reset frees every entry (R170). -/
theorem resetPart_inOrder {s : State} : ScheduleInOrder (resetPart s).sched := propertiesHoldAtReset.2.1

theorem runPartReset_inOrder (ag : Agent) (q : Submitted) (s : State) (h : ScheduleInOrder s.sched) :
    ScheduleInOrder (runPartReset ag q s).sched := by
  unfold runPartReset
  dsimp only
  split
  · exact resetPart_inOrder
  · exact (quiet_bringInHand ag q s).sched.symm ▸ h

/-! ## Events that take the oldest message of a list -/

section
variable (s : State) (h : ScheduleInOrder s.sched)
include h

theorem execOriginTaken_inOrder : ∃ t, execOriginTaken s = .next t ∧ ScheduleInOrder t.sched := by
  unfold execOriginTaken
  split
  exacts [h.next, h.sameNext (rest_takeOrigin _ _).1]

theorem execSourceSample_inOrder : ∃ t, execSourceSample s = .next t ∧ ScheduleInOrder t.sched := by
  unfold execSourceSample
  split
  exacts [h.next, h.sameNext (onlySelection_takeSourceSample _ _).sched]

theorem execSourceMiss_inOrder : ∃ t, execSourceMiss s = .next t ∧ ScheduleInOrder t.sched := by
  unfold execSourceMiss
  split
  exacts [h.next, h.sameNext (rest_takeSourceMiss _ _).1]

theorem execRefEdge_inOrder : ∃ t, execRefEdge s = .next t ∧ ScheduleInOrder t.sched := by
  unfold execRefEdge
  split
  exacts [h.next, h.sameNext (onlySelection_takeRefEdge _ _).sched]

theorem execRegisterTaken_inOrder : ∃ t, execRegisterTaken s = .next t ∧ ScheduleInOrder t.sched := by
  unfold execRegisterTaken
  split
  exacts [h.next, h.sameNext (quiet_takeRegister _ _).sched]

theorem execClientSample_inOrder : ∃ t, execClientSample s = .next t ∧ ScheduleInOrder t.sched := by
  unfold execClientSample
  split
  exacts [h.next, h.sameNext (quiet_takeClientSample _ _).sched]

theorem execClientMiss_inOrder : ∃ t, execClientMiss s = .next t ∧ ScheduleInOrder t.sched := by
  unfold execClientMiss
  split
  exacts [h.next, h.sameNext (quiet_takeClientMiss _ _).sched]

theorem execEpochStepReport_inOrder : ∃ t, execEpochStepReport s = .next t ∧ ScheduleInOrder t.sched := by
  unfold execEpochStepReport
  split
  exacts [h.next, h.sameNext (quiet_setEpoch _ _).sched]

theorem execStepReport_inOrder : ∃ t, execStepReport s = .next t ∧ ScheduleInOrder t.sched := by
  unfold execStepReport
  split
  exacts [(takeStep_facts _ _ _ _ _ (h.setFlight _)).next, h.next]

theorem execRekey_inOrder : ∃ t, execRekey s = .next t ∧ ScheduleInOrder t.sched := by
  unfold execRekey
  split
  exacts [((takeChange_facts _ _).1 (h.setFlight _)).next, h.next]

theorem execStaleDeadline_inOrder (i : Nat) : ∃ t, execStaleDeadline i s = .next t ∧ ScheduleInOrder t.sched := by
  unfold execStaleDeadline
  split
  exacts [h.sameNext (rest_staleAtDeadline i s).1, h.next]

theorem execInputEdge_inOrder (k : Nat) (e : EdgeKind) : ∃ t, execInputEdge k e s = .next t ∧ ScheduleInOrder t.sched := by
  unfold execInputEdge
  split
  exacts [h.sameNext (quiet_takeEdge _ _ s).sched, h.next]

end

/-! ## Every command, every step -/

/-- Every command keeps the schedule in order. -/
theorem exec_inOrder (c : Instr) (s : State) (h : ScheduleInOrder s.sched) :
    ∃ t, exec c s = .next t ∧ ScheduleInOrder t.sched := by
  cases c with
  | timeRead ag o _ => exact h.quietRequest ag _ _ fun u => quiet_finishTime ag o _ u
  | timeConvert ag o a b _ x => exact h.quietRequest ag _ _ (quiet_takeTimeConvert ag o a b x)
  | timeDiff ag o a b => exact h.quietRequest ag _ _ (quiet_takeTimeDiff ag o a b)
  | timeOffset ag o _ _ => exact h.quietRequest ag _ _ fun u => quiet_finishTime ag o _ u
  | flagsRead ag _ => exact h.sameRequest ag _ _ fun _ => rfl
  | flagsClear ag _ _ => exact h.quietRequest ag _ _ fun u => quiet_setCtx u ag _
  | partConfig ag _ c => exact h.sameRequest ag _ _ fun u => (rest_takePartConfig c u).1
  | servoRead ag _ => exact h.sameRequest ag _ _ fun _ => rfl
  | snapshotRead ag _ => exact h.quietRequest ag _ _ fun u => by unfold takeSnapshotRead; split <;> exact .refl u
  | servoRestart ag _ => exact h.onlyRequest ag _ _ onlySelection_takeServoRestart
  | snapshotRestore ag _ r => exact h.onlyRequest ag _ _ (onlySelection_takeSnapshotRestore r)
  | steerStep ag _ x => exact h.onlyRequest ag _ _ (onlySelection_takeSteerStep ag x)
  | steerSlew ag _ i r => exact h.onlyRequest ag _ _ (onlySelection_takeSteerSlew ag i r)
  | steerRate ag _ r => exact h.onlyRequest ag _ _ (onlySelection_takeSteerRate ag r)
  | steerLeap ag _ l off => exact h.onlyRequest ag _ _ (onlySelection_takeSteerLeap ag l off)
  | portEnable ag _ n => exact h.quietRequest ag _ _ (quiet_takePortEnable n)
  | portDisable ag _ n => exact h.sameRequest ag _ _ fun u => (takePortDisable_facts n u).2.1
  | portRead ag _ _ => exact h.sameRequest ag _ _ fun _ => rfl
  | sourceBar ag _ e r => exact h.sameRequest ag _ _ fun u => (rest_takeSourceBar e r u).1
  | sourceUnbar ag _ e => exact h.onlyRequest ag _ _ (onlySelection_takeSourceUnbar e)
  | sourceRead ag _ _ =>
    exact h.quietRequest ag _ _ fun u => by
      unfold takeSourceRead
      split
      · exact .refl u
      · split <;> exact .refl u
  | refLabel ag _ x off l => exact h.onlyRequest ag _ _ (onlySelection_takeRefLabel ag x off l)
  | clientAdd ag _ j => exact h.quietRequest ag _ _ (quiet_takeClientAdd j)
  | clientRemove ag _ i => exact h.quietRequest ag _ _ (quiet_takeClientRemove i)
  | clientRead ag _ i => exact h.quietRequest ag _ _ (quiet_takeClientRead i)
  | epochConfig ag _ k => exact h.quietRequest ag _ _ (quiet_takeEpochConfig k)
  | epochRead ag _ => exact h.sameRequest ag _ _ fun _ => rfl
  | quotaSet ag _ a b c => exact h.request ag _ _ fun u => (takeQuotaSet_facts ag a b c u).1
  | schedAdd ag o r => exact h.request ag _ _ fun u => (takeSchedAdd_facts ag o r u).1
  | schedCancel ag _ x => exact h.request ag _ _ fun u => (takeSchedCancel_facts ag x u).1
  | schedRead ag _ x => exact h.request ag _ _ fun u => (takeSchedRead_facts ag x u).1
  | lineSet ag _ d => exact h.quietRequest ag _ _ (quiet_takeLineOp ag .set d)
  | lineClear ag _ d => exact h.quietRequest ag _ _ (quiet_takeLineOp ag .clear d)
  | lineLoad ag _ d c v => exact h.quietRequest ag _ _ (quiet_takeLineLoad ag d c v)
  | lineTest ag _ d => exact h.quietRequest ag _ _ (quiet_takeLineTest ag d)
  | lineStore ag _ d c => exact h.quietRequest ag _ _ (quiet_takeLineStore ag d c)
  | lineOwn ag _ d w => exact h.quietRequest ag _ _ (quiet_takeLineOwn ag d w)
  | lineConfig ag _ d c => exact h.quietRequest ag _ _ (quiet_takeLineConfig ag d c)
  | captureRead ag o => exact h.quietRequest ag _ _ (quiet_takeCaptureRead ag o)
  | captureRelease ag _ n => exact h.quietRequest ag _ _ (quiet_takeCaptureRelease ag n)
  | contextSet ag _ x => exact h.quietRequest ag _ _ (quiet_takeContextSet ag x)
  | contextRead ag _ => exact h.sameRequest ag _ _ fun _ => rfl
  | grantClaim ag o => exact h.quietRequest ag _ _ (quiet_takeGrantClaim ag o)
  | grantRenew ag _ => exact h.quietRequest ag _ _ (quiet_takeGrantRenew ag)
  | grantRelease ag _ => exact h.quietRequest ag _ _ (quiet_takeGrantRelease ag)
  | agentReset ag _ => exact h.quietRequest ag _ _ (quiet_agentReset ag)
  | partReset ag _ => exact (runPartReset_inOrder ag _ s h).next
  | alertRead ag _ => exact h.quietRequest ag _ _ (quiet_takeAlertRead ag)
  | alertReturn ag _ n => exact h.quietRequest ag _ _ (quiet_takeAlertReturn ag n)
  | alertMask ag _ m => exact h.quietRequest ag _ _ (quiet_takeAlertMask ag m)
  | submitWindow ag x => exact h.sameNext (quiet_selectWindow ag _ x s).sched
  | collectWindow ag x => exact h.sameNext (quiet_selectWindow ag _ x s).sched
  | otherWindow ag d x => exact h.sameNext (quiet_selectWindow ag d x s).sched
  | agentResetInput ag =>
    exact h.sameNext (((quiet_cutOff ag s).trans (quiet_setResetIn ag true _)).trans (quiet_agentReset ag _)).sched
  | resetInput => exact resetPart_inOrder.next
  | powerOn => exact (resetPart_inOrder (s := s)).sameNext rfl
  | schedAgentReset ag => exact ((schedAgentReset_facts ag s).1 h).next
  | lineAgentReset ag => exact h.sameNext (quiet_lineAgentReset ag s).sched
  | grantAgentReset ag => exact h.sameNext (quiet_grantAgentReset ag s).sched
  | slewNotifyReset ag => exact h.sameNext (onlySelection_slewNotifyReset s ag).sched
  | linkUp n => exact h.sameNext (linkUp_quiet n s).sched
  | linkDown n => exact h.sameNext (linkDown_facts n s).2.1
  | frameArrival n f => exact h.sameNext (receive_facts n f s).2.1
  | transmitEnd n => exact h.sameNext (quiet_transmitEnd n s).sched
  | frameDeparts n => exact h.sameNext (quiet_departs n s).sched
  | echoSlot n => exact h.sameNext (quiet_echoSlot n s).sched
  | replyWaitExpiry n q => exact h.sameNext (replyWaitExpiry_facts n q s).2.1
  | originTaken => exact execOriginTaken_inOrder s h
  | sourceSample => exact execSourceSample_inOrder s h
  | sourceMiss => exact execSourceMiss_inOrder s h
  | staleDeadline i => exact execStaleDeadline_inOrder s h i
  | refDeadline => exact h.sameNext (rest_staleAtDeadline 8 s).1
  | staleRemoval i => exact h.sameNext (rest_removeStale i s).1
  | refEdge => exact execRefEdge_inOrder s h
  | measurement => exact h.sameNext (onlySelection_takeMeasurement s).sched
  | utcPairAdopt => exact h.sameNext (onlySelection_takePair s).sched
  | slewComplete => exact h.sameNext (onlySelection_completeSlew s).sched
  | leapApply => exact h.sameNext (onlySelection_dueLeap s).sched
  | holdoverGrade => exact h.sameNext (onlySelection_gradeHoldover s).sched
  | holdoverExpiry => exact h.sameNext (onlySelection_overHoldover s).sched
  | snapshotSave => exact h.sameNext (onlySelection_saveSnapshot s).sched
  | registerTaken => exact execRegisterTaken_inOrder s h
  | clientSample => exact execClientSample_inOrder s h
  | clientMiss => exact execClientMiss_inOrder s h
  | lapseTimer i => exact h.sameNext (quiet_endLapse i s).sched
  | epochInstant => exact h.sameNext (quiet_makeInstant s).sched
  | epochStepReport => exact execEpochStepReport_inOrder s h
  | stepReport => exact execStepReport_inOrder s h
  | rekey => exact execRekey_inOrder s h
  | keyReached l => exact ((keyReached_facts l s).1 h).next
  | pulseEnd i => exact h.sameNext (quiet_endPulse i s).sched
  | inputEdge k e => exact execInputEdge_inOrder s h k e
  | grantExpiry => exact h.sameNext (quiet_expireGrant s).sched
  | renewalReport => exact h.sameNext (quiet_takeRenewal s).sched
  | alertRaise ag k => exact h.sameNext (quiet_takeRaise ag k s).sched
  | scheduleAlertRaise ag => exact h.sameNext (quiet_takeSchedRaise ag s).sched
  | alertDelivery ag => exact h.sameNext (quiet_deliverAlert ag s).sched
  | resetInputRelease => exact h.sameNext rfl
  | agentResetInputRelease ag => exact h.sameNext (quiet_setResetIn ag false s).sched

/-- A step, of a command or idle, keeps the schedule in order. -/
theorem step_inOrder (s : State) (h : ScheduleInOrder s.sched) : ∃ t, step s = .next t ∧ ScheduleInOrder t.sched := by
  unfold step
  split
  · exact exec_inOrder _ _ h
  · split
    · exact exec_inOrder _ s h
    · exact h.sameNext (onlySelection_advance s s.span).sched

/-- Settles O59: every command keeps the schedule in order, and so does the passing of time. -/
theorem stepKeepsScheduleOrder : Obligations.StepKeepsScheduleOrder := by
  intro s t h hstep
  obtain ⟨u, hu, horder⟩ := step_inOrder s h
  rw [hu] at hstep
  cases hstep
  exact horder

end Sys2Proof.Machine
end

section
/-! The arbiter of the schedule (R120), and QUOTA-SET (R117). -/

namespace Sys2Proof.Machine

theorem Agent.next_next_next (a : Agent) : a.next.next.next = a := by cases a <;> rfl

/-- A request at the arbiter that has not its turn is brought in hand and waits there (R120). -/
theorem runRequest_waits {ag : Agent} {q : Submitted} {s : State} (take : State → Answer)
    (h : s.acceptsRequest ag q = true) (hq : q.req.atArbiter = true)
    (hturn : (s.withRequest ag q).arbiterChoice ≠ some ag) : runRequest ag q take s = s.withRequest ag q := by
  have hbring : bringInHand ag q s = s.withRequest ag q := bringInHand_of_accepts ag q s (by rw [h, Bool.or_true])
  have hwait : (s.withRequest ag q).inHand ag q = false := by simp [State.inHand, hq, hturn]
  simp [runRequest, hbring, hwait]

/-- The four requests of the arbiter are run as requests of their blocks. -/
theorem exec_atArbiter (ag : Agent) (q : Submitted) (s : State) (hq : q.req.atArbiter = true) :
    ∃ take, exec (requestCommand ag q) s = .next (runRequest ag q take s) := by
  obtain ⟨o, r⟩ := q
  cases r with
  | quotaSet q0 q1 q2 => exact ⟨takeQuotaSet ag q0 q1 q2, rfl⟩
  | schedAdd r => exact ⟨takeSchedAdd ag o r, rfl⟩
  | schedCancel h => exact ⟨takeSchedCancel ag h, rfl⟩
  | schedRead h => exact ⟨takeSchedRead ag h, rfl⟩
  | _ => exact absurd hq (by simp [Request.atArbiter])

/-- A request of the schedule that is taken and refused moves the arbiter on, and nothing else. -/
theorem exec_served_refused {ag : Agent} {s : State} {c : Instr} {q : Submitted} {take : State → Answer} {st : Status}
    (hc : exec c s = .next (runRequest ag q take s)) (hnow : s.takesNow ag q = true)
    (ht : take (s.withRequest ag q) = refuse st (served ag (s.withRequest ag q))) :
    exec c s = .next (respond ag st .empty (served ag s)) :=
  exec_answered hc hnow ht

/-- QUOTA-SET with quotas out of range (R117). -/
theorem takeQuotaSet_range {ag : Agent} {q0 q1 q2 : Nat} {s : State}
    (h : 64 < q0 + q1 + q2 ∨ q0 < s.sched.use .agent0 ∨ q1 < s.sched.use .agent1 ∨ q2 < s.sched.use .agent2) :
    takeQuotaSet ag q0 q1 q2 s = ⟨served ag s, .range, quotaBody s.sched⟩ := if_pos h

/-- QUOTA-SET within its range (R117). -/
theorem takeQuotaSet_accepted {ag : Agent} {q0 q1 q2 : Nat} {s : State}
    (h : ¬(64 < q0 + q1 + q2 ∨ q0 < s.sched.use .agent0 ∨ q1 < s.sched.use .agent1 ∨ q2 < s.sched.use .agent2)) :
    takeQuotaSet ag q0 q1 q2 s =
      accept (quotaBody { s.sched with quotas := ⟨q0, q1, q2⟩ })
        (s.setSched { s.sched with lastServed := ag, quotas := ⟨q0, q1, q2⟩ }) := if_neg h

/-- Settles O36: three turns lead back to the agent last served; a request without its turn is brought in hand alone;
QUOTA-SET by its range. -/
theorem arbiterServesInTurnAndQuotasAreSet : Obligations.ArbiterServesInTurnAndQuotasAreSet := by
  refine ⟨⟨fun s => ?choice, fun ag q s h hq hturn => ?waits⟩,
    fun ag o q0 q1 q2 s h => ⟨fun hbad => ?bad, fun hgood => ?good⟩⟩
  case choice => simp only [State.arbiterChoice, Agent.next_next_next]
  case waits =>
    obtain ⟨take, hrun⟩ := exec_atArbiter ag q s hq
    rw [hrun, runRequest_waits take h hq hturn]
    rfl
  case bad =>
    exact congrArg Host.Outcome.next
      (runRequest_answer s ag _ _ h (served ag s) .range _ (takeQuotaSet_range (s := s.withRequest ag _) hbad))
  case good =>
    exact exec_accepted rfl h (takeQuotaSet_accepted (s := s.withRequest ag _) hgood)

end Sys2Proof.Machine
end

section
/-! SCHED-CANCEL and SCHED-READ (R116, R129, R130). -/

namespace Sys2Proof.Machine

section
variable {c : Schedule} {e : Entry} {ag : Agent} {h : Handle}

/-- With the schedule in order, an index finds the one live entry that has it. -/
theorem Schedule.at_eq_some_iff (hc : ScheduleInOrder c) {i : Nat} :
    c.at i = some e ↔ e ∈ c.entries ∧ e.handle.index = i := by
  refine ⟨fun hat => ⟨List.mem_of_find?_eq_some hat, by simpa using List.find?_some hat⟩, fun ⟨hmem, hi⟩ => ?_⟩
  cases hat : c.at i with
  | none => exact absurd (List.find?_eq_none.1 hat e hmem) (by simp [hi])
  | some x =>
    have hx : x.handle.index = i := by simpa using List.find?_some hat
    rw [hc.eq_of_index (List.mem_of_find?_eq_some hat) hmem (hx.trans hi.symm)]

theorem handle_eq_iff {a b : Handle} : a = b ↔ a.index = b.index ∧ a.generation = b.generation := by
  cases a
  cases b
  simp only [Handle.mk.injEq]

theorem namedEntry_range (hi : 64 ≤ h.index) : namedEntry ag h c = .error .range := if_pos hi

/-- A handle names an entry where that entry is live with this very handle and is the requester's (R116). -/
theorem namedEntry_ok (hc : ScheduleInOrder c) (he : e ∈ c.entries) (hh : e.handle = h) (ho : e.owner = ag) :
    namedEntry ag h c = .ok e := by
  subst hh ho
  have hrange : ¬64 ≤ e.handle.index := (hc.range e he).not_ge
  simp [namedEntry, hrange, (Schedule.at_eq_some_iff hc).2 ⟨he, rfl⟩]

/-- It names none where no entry is both: the index is free, or held under another generation or by another owner. -/
theorem namedEntry_noEntry (hi : h.index < 64) (hc : ScheduleInOrder c)
    (hnone : ∀ e, ¬(e ∈ c.entries ∧ e.handle = h ∧ e.owner = ag)) : namedEntry ag h c = .error .noEntry := by
  have hrange : ¬64 ≤ h.index := hi.not_ge
  cases hat : c.at h.index with
  | none => simp [namedEntry, hrange, hat]
  | some e =>
    obtain ⟨he, hidx⟩ := (Schedule.at_eq_some_iff hc).1 hat
    have hother : ¬(e.handle.generation = h.generation ∧ e.owner = ag) := fun ⟨hg, ho⟩ =>
      hnone e ⟨he, handle_eq_iff.2 ⟨hidx, hg⟩, ho⟩
    simp [namedEntry, hrange, hat, hother]

/-- The entry at an index is the one that leaves with it. -/
theorem leave_eq_filter_ne (hc : ScheduleInOrder c) (he : e ∈ c.entries) :
    c.leave e.handle.index =
      { c with timescale := c.timescale.filter fun x => x != e, elapsed := c.elapsed.filter fun x => x != e } := by
  have hne : ∀ x ∈ c.entries, (x.handle.index != e.handle.index) = (x != e) := fun x hx => by
    rw [Bool.eq_iff_iff, bne_iff_ne, bne_iff_ne]
    exact not_congr ⟨fun hi => hc.eq_of_index hx he hi, fun heq => heq ▸ rfl⟩
  simp only [Schedule.leave, Schedule.keep]
  rw [List.filter_congr fun x hx => hne x (List.mem_append_left _ hx),
    List.filter_congr fun x hx => hne x (List.mem_append_right _ hx)]

end

section
variable {ag : Agent} {h : Handle} {s : State}

theorem takeSchedCancel_refused {st : Status} (hn : namedEntry ag h s.sched = .error st) :
    takeSchedCancel ag h s = refuse st (served ag s) := by
  have hn' : namedEntry ag h (served ag s).sched = .error st := hn
  simp [takeSchedCancel, hn']

theorem takeSchedCancel_named {e : Entry} (hn : namedEntry ag h s.sched = .ok e) :
    takeSchedCancel ag h s =
      accept (.cancelled e.last (e.train.map fun t => (t.skip, t.remaining)))
        ((served ag s).setSched ((served ag s).sched.leave e.handle.index)) := by
  have hn' : namedEntry ag h (served ag s).sched = .ok e := hn
  simp [takeSchedCancel, hn']

theorem takeSchedRead_refused {st : Status} (hn : namedEntry ag h s.sched = .error st) :
    takeSchedRead ag (some h) s = refuse st (served ag s) := by
  have hn' : namedEntry ag h (served ag s).sched = .error st := hn
  simp [takeSchedRead, hn']

theorem takeSchedRead_named {e : Entry} (hn : namedEntry ag h s.sched = .ok e) :
    takeSchedRead ag (some h) s = accept (.entry e) (served ag s) := by
  have hn' : namedEntry ag h (served ag s).sched = .ok e := hn
  simp [takeSchedRead, hn']

end

/-- Settles O39: each request by what its handle names. -/
theorem entriesAreCancelledAndRead : Obligations.EntriesAreCancelledAndRead := by
  intro ag o h s u mine
  refine ⟨fun hnow => ⟨fun hi => ?_, fun hi hc hnone => ?_, fun e hi hc he => ?_⟩,
    fun hnow => ⟨fun hi => ?_, fun hi hc hnone => ?_, fun e hi hc he => ?_⟩, fun hnow => ?_⟩
  · exact exec_served_refused rfl hnow (takeSchedCancel_refused (namedEntry_range hi))
  · exact exec_served_refused rfl hnow (takeSchedCancel_refused (namedEntry_noEntry hi hc hnone))
  · obtain ⟨hmem, hh, ho⟩ := he
    refine exec_accepted rfl hnow
      ((takeSchedCancel_named (s := s.withRequest ag _) (namedEntry_ok hc hmem hh ho)).trans ?_)
    have hleave : (served ag (s.withRequest ag ⟨o, .schedCancel h⟩)).sched.leave e.handle.index =
        { u.sched with
          timescale := s.sched.timescale.filter fun x => x != e, elapsed := s.sched.elapsed.filter fun x => x != e } :=
      leave_eq_filter_ne (served_inOrder ag s hc) hmem
    rw [hleave]
    rfl
  · exact exec_served_refused rfl hnow (takeSchedRead_refused (namedEntry_range hi))
  · exact exec_served_refused rfl hnow (takeSchedRead_refused (namedEntry_noEntry hi hc hnone))
  · obtain ⟨hmem, hh, ho⟩ := he
    exact exec_accepted rfl hnow (takeSchedRead_named (s := s.withRequest ag _) (namedEntry_ok hc hmem hh ho))
  · exact exec_accepted rfl hnow rfl

end Sys2Proof.Machine
end

section
/-! Keys reached by DT and EL (R119, R125, R128). -/

namespace Sys2Proof.Machine

section
variable {s : State} {e : Entry}

theorem dtBefore_eq_some {m : ScheduleMsg} {i : Nat} {d : Ticks} (h : m.dtBefore i = some d) :
    ∃ new r later, m = .step d new r later ∧ i ∉ later := by
  cases m with
  | change r => cases h
  | step old new r later =>
    obtain ⟨hout, hd⟩ : i ∉ later ∧ old = d := by simpa [ScheduleMsg.dtBefore] using h
    exact ⟨new, r, later, by rw [hd], hout⟩

theorem dtBefore_step_eq_none {i : Nat} {old new : Ticks} {r : Option Ticks} {later : List Nat}
    (h : (ScheduleMsg.step old new r later).dtBefore i = none) : i ∈ later := by
  simpa [ScheduleMsg.dtBefore] using h

/-- The DT that counts for a key is that before the oldest waiting step which found the entry with it, and the present DT
where there is none (log entry 12). -/
theorem le_schedDt_iff :
    e.key ≤ s.schedDt e ↔
      (∃ before old new r later after, s.flight.toSchedule = before ++ .step old new r later :: after ∧
        (∀ old' new' r' later', .step old' new' r' later' ∈ before → e.handle.index ∈ later') ∧
        e.handle.index ∉ later ∧ e.key ≤ old) ∨
      ((∀ old new r later, .step old new r later ∈ s.flight.toSchedule → e.handle.index ∈ later) ∧ e.key ≤ s.ts.dt) := by
  constructor
  · intro hle
    cases hfind : s.flight.toSchedule.findSome? (ScheduleMsg.dtBefore e.handle.index) with
    | none =>
      have hall := List.findSome?_eq_none_iff.1 hfind
      refine .inr ⟨fun old new r later hm => dtBefore_step_eq_none (hall _ hm), ?_⟩
      simpa [State.schedDt, hfind] using hle
    | some d =>
      obtain ⟨before, m, after, hl, hm, hbefore⟩ := List.findSome?_eq_some_iff.1 hfind
      obtain ⟨new, r, later, rfl, hout⟩ := dtBefore_eq_some hm
      refine .inl ⟨before, d, new, r, later, after, hl, fun _ _ _ _ hm' => dtBefore_step_eq_none (hbefore _ hm'), hout, ?_⟩
      simpa [State.schedDt, hfind] using hle
  · rintro (⟨before, old, new, r, later, after, hl, hbefore, hout, hle⟩ | ⟨hall, hle⟩)
    · rwa [schedDt_of_step hl hout hbefore]
    · rwa [schedDt_of_later hall]

theorem keyReached_of_none {l : ListId} (h : keyDue l s = none) : keyReached l s = s := by
  rw [keyReached, h]

theorem keyReached_of_some {l : ListId} (h : keyDue l s = some e) : keyReached l s = fire false false e.key e s := by
  rw [keyReached, h]

theorem keyDue_timescale_eq_none (h : ∀ x ∈ s.sched.timescale, ¬x.key ≤ s.schedDt x) : keyDue .timescale s = none :=
  List.find?_eq_none.2 fun x hx => by simpa using h x hx

theorem keyDue_timescale_eq_some {before after : List Entry} (hl : s.sched.timescale = before ++ e :: after)
    (hbefore : ∀ x ∈ before, ¬x.key ≤ s.schedDt x) (he : e.key ≤ s.schedDt e) : keyDue .timescale s = some e :=
  List.find?_eq_some_iff_append.2 ⟨by simpa using he, before, after, hl, fun x hx => by simpa using hbefore x hx⟩

theorem keyDue_elapsed_cons {l : List Entry} (hl : s.sched.elapsed = e :: l) :
    keyDue .elapsed s = if e.key ≤ s.ts.el * 65536 then some e else none := by
  rw [keyDue, hl]
  exact if_congr decide_eq_true_iff rfl rfl

end

/-- Settles O40: each list by the first of its entries whose key is reached. -/
theorem keysAreReachedInOrder : Obligations.KeysAreReachedInOrder := by
  refine ⟨fun s => ⟨fun hnone => ?none, fun before e after hl hbefore he => ?first⟩, fun s => ⟨fun hnil => ?empty,
    fun e l hl => ⟨fun hlt => ?early, fun hle => ?head⟩⟩⟩
  case none => exact congrArg _ (keyReached_of_none (keyDue_timescale_eq_none fun x hx => mt le_schedDt_iff.1 (hnone x hx)))
  case first =>
    exact congrArg _ (keyReached_of_some (keyDue_timescale_eq_some hl
      (fun x hx => mt le_schedDt_iff.1 (hbefore x hx)) (le_schedDt_iff.2 he)))
  case empty => exact congrArg _ (keyReached_of_none (by simp [keyDue, hnil]))
  case early => exact congrArg _ (keyReached_of_none ((keyDue_elapsed_cons hl).trans (if_neg hlt.not_ge)))
  case head => exact congrArg _ (keyReached_of_some ((keyDue_elapsed_cons hl).trans (if_pos hle)))

end Sys2Proof.Machine
end

section
/-! Firings: what the action does to its lines, what is raised, and how a train goes on (R125, R126, R127, R132, R148). -/

namespace Sys2Proof.Machine

/-! ## Raises of the schedule (R126) -/

/-- The part with alerts of the schedule raised toward an agent, after those already on their way. -/
def schedRaised (ag : Agent) (l : List SchedAlert) (s : State) : State :=
  { s with flight := { s.flight with schedRaises := s.flight.schedRaises.set ag (s.flight.schedRaises.get ag ++ l) } }

/-- The alert of an ALERT action. -/
def actionAlerts (e : Entry) (x : FireOutcome) : List SchedAlert :=
  match e.action with
  | .alert level tag => [⟨level, tag, e.handle, x, 0⟩]
  | _ => []

/-- The alert of a notify level. -/
def notifyAlerts (e : Entry) (x : FireOutcome) : List SchedAlert :=
  (e.notify.map fun level => (⟨level, e.action.tag, e.handle, x, 0⟩ : SchedAlert)).toList

section
variable {ag : Agent} {s : State} {e : Entry} {x : FireOutcome}

theorem schedRaised_nil : schedRaised ag [] s = s := by
  simp [schedRaised]

theorem schedRaised_append {l m : List SchedAlert} :
    schedRaised ag m (schedRaised ag l s) = schedRaised ag (l ++ m) s := by
  simp [schedRaised]

theorem raiseAction_eq : raiseAction e x s = schedRaised e.owner (actionAlerts e x) s := by
  unfold raiseAction actionAlerts
  cases e.action with
  | alert level tag => rfl
  | _ => exact schedRaised_nil.symm

theorem raiseNotify_eq : raiseNotify e x s = schedRaised e.owner (notifyAlerts e x) s := by
  unfold raiseNotify notifyAlerts
  cases e.notify with
  | none => exact schedRaised_nil.symm
  | some level => rfl

/-! ## Actions (R142, R148) -/

/-- What an operation on one line neither reads nor writes, an action neither reads nor writes. -/
theorem act_comm {f : State → State} (hf : ∀ op i s, driveLine op i (f s) = f (driveLine op i s)) (a : Action) (s : State) :
    a.act (f s) = f (a.act s) := by
  cases a with
  | load b n v => exact List.foldl_hom f fun _ _ => hf _ _ _
  | alert level tag => rfl
  | _ => exact hf _ _ _

theorem performAction_of_owned {a : Action} (h : ∀ l ∈ a.lines, (s.output l).owner = some ag) :
    performAction ag a s = (a.act s, true) :=
  if_pos (List.all_eq_true.2 fun l hl => beq_iff_eq.2 (h l hl))

theorem performAction_of_not_owned {a : Action} (h : ¬∀ l ∈ a.lines, (s.output l).owner = some ag) :
    performAction ag a s = (s, false) :=
  if_neg fun hall => h fun l hl => beq_iff_eq.1 (List.all_eq_true.1 hall l hl)

theorem performAction_comm {f : State → State} (hf : ∀ op i s, driveLine op i (f s) = f (driveLine op i s))
    (hlines : ∀ s, (f s).lines = s.lines) (a : Action) (s : State) :
    performAction ag a (f s) = (f (performAction ag a s).1, (performAction ag a s).2) := by
  have howner : ∀ l, (f s).output l = s.output l := fun l => by rw [State.output, hlines, State.output]
  by_cases h : ∀ l ∈ a.lines, (s.output l).owner = some ag
  · rw [performAction_of_owned h, performAction_of_owned (by simpa only [howner] using h), act_comm hf]
  · rw [performAction_of_not_owned h, performAction_of_not_owned (by simpa only [howner] using h)]

theorem output_of_getElem? {i : Nat} {o : Output} (h : s.lines.outputs[i]? = some o) : s.output i = o := by
  rw [State.output, List.getD_eq_getElem?_getD, h, Option.getD_some]

theorem act_one_line {i : Nat} {o : Output} (h : s.lines.outputs[i]? = some o) :
    (Action.set i).act s = s.setOutput i { o with level := true, pulseEnd := none } ∧
    (Action.clear i).act s = s.setOutput i { o with level := false, pulseEnd := none } ∧
    (Action.pulse i).act s = s.setOutput i { o with level := true, pulseEnd := some (s.ts.el + o.width) } := by
  rw [← output_of_getElem? h]
  exact ⟨rfl, rfl, rfl⟩

/-- The outputs with `n` of them from output `i` on at the bits of a value. -/
def loadedOutputs (i n v : Nat) (l : List Output) : List Output :=
  l.zipIdx.map fun y => if i ≤ y.2 ∧ y.2 < i + n then { y.1 with level := v.testBit (y.2 - i), pulseEnd := none } else y.1

theorem getElem?_loadedOutputs (i n v k : Nat) (l : List Output) :
    (loadedOutputs i n v l)[k]? =
      l[k]?.map fun o => if i ≤ k ∧ k < i + n then { o with level := v.testBit (k - i), pulseEnd := none } else o := by
  simp [loadedOutputs, Function.comp_def]

theorem loadedOutputs_zero (i v : Nat) (l : List Output) : loadedOutputs i 0 v l = l := by
  refine List.ext_getElem? fun k => ?_
  have hnot : ¬(i ≤ k ∧ k < i + 0) := by omega
  rw [getElem?_loadedOutputs]
  simp only [hnot, if_false, Option.map_id']

/-- One line more of the span. -/
theorem loadedOutputs_succ {i n v : Nat} {l : List Output} {o : Output} (h : l[i + n]? = some o) :
    loadedOutputs i (n + 1) v l =
      (loadedOutputs i n v l).set (i + n) { o with level := v.testBit n, pulseEnd := none } := by
  refine List.ext_getElem? fun k => ?_
  rw [getElem?_loadedOutputs, List.getElem?_set, getElem?_loadedOutputs]
  by_cases hk : i + n = k
  · subst hk
    have hlen : i + n < (loadedOutputs i n v l).length := by
      simpa [loadedOutputs] using (List.getElem?_eq_some_iff.1 h).1
    simp [h, hlen]
  · have hsame : (i ≤ k ∧ k < i + (n + 1)) ↔ (i ≤ k ∧ k < i + n) := by omega
    simp only [hk, hsame, if_false]

/-- LOAD takes the lines of its span one after another. -/
theorem act_load {i n v : Nat} (h : i + n ≤ s.lines.outputs.length) :
    (Action.load i n v).act s = s.setLines { s.lines with outputs := loadedOutputs i n v s.lines.outputs } := by
  induction n with
  | zero =>
    rw [loadedOutputs_zero]
    rfl
  | succ n ih =>
    have hstep : (Action.load i (n + 1) v).act s =
        driveLine (if v.testBit n then .set else .clear) (i + n) ((Action.load i n v).act s) := by
      simp [Action.act, Action.lines, loadLines, List.range_succ, List.zipIdx_append]
    have hlen : i + n < s.lines.outputs.length := by omega
    have hget : s.lines.outputs[i + n]? = some (s.output (i + n)) := by
      simp [State.output, List.getD_eq_getElem?_getD, hlen]
    rw [hstep, ih (by omega), loadedOutputs_succ hget]
    have hout : (s.setLines { s.lines with outputs := loadedOutputs i n v s.lines.outputs }).output (i + n) =
        s.output (i + n) := by
      simp [State.output, List.getD_eq_getElem?_getD, getElem?_loadedOutputs]
    rw [driveLine, hout]
    cases v.testBit n <;> rfl

end

/-! ## What a firing leaves (R125, R126, R127) -/

/-- The schedule after a firing with an outcome. -/
def schedAfter (bound : Ticks) (e : Entry) (x : FireOutcome) (s : State) : Schedule :=
  match e.after s.ts.utc s.ts.leap bound with
  | none => s.sched.leave e.handle.index
  | some e1 => (s.sched.leave e.handle.index).join { e1 with last := some x }

/-- The alerts of a firing: of an ALERT action, and of the notify level where the entry is freed. -/
def alertsOf (bound : Ticks) (e : Entry) (x : FireOutcome) (s : State) : List SchedAlert :=
  actionAlerts e x ++ if (e.after s.ts.utc s.ts.leap bound).isNone then notifyAlerts e x else []

/-- A firing in terms of the action, taken on the part as it stands, and the outcome. -/
theorem fire_eq (late applied : Bool) (bound : Ticks) (e : Entry) (s : State) :
    fire late applied bound e s =
      let done := performAction e.owner e.action s
      let x := outcomeOf done.2 late applied e.shifted
      (schedRaised e.owner (alertsOf bound e x s) done.1).setSched (schedAfter bound e x s) := by
  have hdone : performAction e.owner e.action (s.setSched (s.sched.leave e.handle.index)) =
      ((performAction e.owner e.action s).1.setSched (s.sched.leave e.handle.index),
        (performAction e.owner e.action s).2) :=
    performAction_comm (f := fun u => u.setSched (s.sched.leave e.handle.index)) (fun _ _ _ => rfl) (fun _ => rfl) _ _
  simp only [fire, hdone, raiseAction_eq, raiseNotify_eq, schedAfter, alertsOf, schedRaised_append]
  cases e.after s.ts.utc s.ts.leap bound with
  | none => rfl
  | some e1 =>
    simp only [Option.isNone_some, Bool.false_eq_true, if_false, List.append_nil]
    rfl

/-- An update that a firing neither reads nor writes. -/
structure Unread (f : State → State) : Prop where
  drive : ∀ op i s, driveLine op i (f s) = f (driveLine op i s)
  lines : ∀ s, (f s).lines = s.lines
  sched : ∀ s, (f s).sched = s.sched
  ts : ∀ s, (f s).ts = s.ts
  setSched : ∀ c s, (f s).setSched c = f (s.setSched c)
  raised : ∀ ag l s, schedRaised ag l (f s) = f (schedRaised ag l s)

theorem fire_comm {f : State → State} (hf : Unread f) (late applied : Bool) (bound : Ticks) (e : Entry) (s : State) :
    fire late applied bound e (f s) = f (fire late applied bound e s) := by
  have hafter : e.after (f s).ts.utc (f s).ts.leap bound = e.after s.ts.utc s.ts.leap bound := by rw [hf.ts]
  simp only [fire_eq, performAction_comm hf.drive hf.lines, hf.raised, hf.setSched, schedAfter, alertsOf, hafter, hf.sched]

theorem outcomeOf_performed (late applied shifted : Bool) :
    outcomeOf true late applied shifted =
      if applied = true ∧ shifted = true then .shifted else if late then .late else if shifted then .shifted
      else .onTime := by
  simp [outcomeOf]

/-! ## A train after its firing (R127, R132) -/

/-- The key that R3 or the domain gives a due, whatever the range of its clock. -/
def keyFor (off : Int) (l : Leap) (d : Scale) (due : Nat) : Int := if d = .ut then (toDt off l due).1 else due

/-- The due is a time whose key lies in the range of its list's clock (log entries 21, 46). -/
def keyable (off : Int) (l : Leap) (d : Scale) (due : Nat) : Prop :=
  if d = .el then due ≤ nsTicks 18446744073709551615
  else due < timeEnd ∧ 0 ≤ keyFor off l d due ∧ keyFor off l d due < (timeEnd : Int)

/-- The due lies in a second that the announcement removes (R119). -/
def inRemoved (l : Leap) (d : Scale) (due : Nat) : Bool :=
  match d, l with
  | .ut, .delete m => decide (secTicks (m - 1) ≤ due) && decide ((due : Int) < secTicks m)
  | _, _ => false

section
variable {off : Int} {l : Leap} {bound due p : Nat} {d : Scale}

theorem toDt_snd (off : Int) (l : Leap) (due : Nat) : (toDt off l due).2 = inRemoved l .ut due := by
  cases l with
  | none => rfl
  | insert m => simp only [toDt]; split <;> rfl
  | delete m =>
    simp only [toDt, inRemoved]
    split
    · next hlt => simp [hlt.not_ge]
    · next hge => split <;> next hm => simp [not_lt.1 hge, hm]

theorem keyOf_of_keyable (h : keyable off l d due) :
    keyOf off l d due = some ((keyFor off l d due).toNat, inRemoved l d due) := by
  cases d with
  | el => exact if_pos h
  | dt => exact if_pos h.1
  | ut =>
    obtain ⟨hdue, hlow, hhigh⟩ := h
    have hrange : inTimeRange (toDt off l due).1 = true := (inTimeRange_iff _).2 ⟨hlow, hhigh⟩
    simp [keyOf, hdue, hrange, keyFor, toDt_snd]

theorem keyOf_of_not_keyable (h : ¬keyable off l d due) : keyOf off l d due = none := by
  cases d with
  | el => exact if_neg h
  | dt =>
    have hdue : ¬due < timeEnd := fun hlt => h ⟨hlt, Int.natCast_nonneg _, Int.ofNat_lt.2 hlt⟩
    exact if_neg hdue
  | ut =>
    refine if_neg fun hboth => h ?_
    obtain ⟨hdue, hrange⟩ := Bool.and_eq_true_iff.1 hboth
    exact ⟨of_decide_eq_true hdue, (inTimeRange_iff _).1 hrange⟩

/-- The occurrences up to the bound are those whose key lies at or before it. -/
theorem keyFor_le_iff {e : Entry} (hp : 0 < p) (j : Nat) :
    keyFor off l e.domain (e.due + j * p) ≤ bound ↔
      (j : Int) ≤ ((if e.domain = .ut then lastUtAt off l bound else (bound : Int)) - (e.due : Int)) / (p : Int) := by
  have hp' : (0 : Int) < p := Int.ofNat_lt.2 hp
  rw [Int.le_ediv_iff_mul_le hp', keyFor]
  split
  · rw [toDt_le_iff]
    push_cast
    omega
  · push_cast
    omega

/-- The first occurrence after the bound is the first that a firing does not account for. -/
theorem occurrences_spec {e : Entry} (hp : 0 < p) :
    let n := occurrences off l bound p e
    1 ≤ n ∧ (bound : Int) < keyFor off l e.domain (e.due + n * p) ∧
      ∀ j, 1 ≤ j → j < n → keyFor off l e.domain (e.due + j * p) ≤ bound := by
  intro n
  have hn : n = occurrences off l bound p e := rfl
  rw [occurrences] at hn
  refine ⟨by omega, not_le.1 fun hle => ?_, fun j h1 hj => ?_⟩
  · rw [keyFor_le_iff hp] at hle
    omega
  · rw [keyFor_le_iff hp]
    omega

end

section
variable {off : Int} {l : Leap} {bound : Ticks} {e : Entry} {t : Train}

theorem after_of_one_shot (h : e.train = none) : e.after off l bound = none := by
  rw [Entry.after, h]

theorem after_of_spent (h : e.train = some t) (hr : t.remaining ≠ 0)
    (hn : t.remaining ≤ occurrences off l bound t.period e) : e.after off l bound = none := by
  simp only [Entry.after, h]
  exact if_pos ⟨hr, hn⟩

theorem after_of_unspent (h : e.train = some t)
    (hn : t.remaining = 0 ∨ occurrences off l bound t.period e < t.remaining) :
    let n := occurrences off l bound t.period e
    e.after off l bound = (keyOf off l e.domain (e.due + n * t.period)).map fun k =>
      { e with
        due := e.due + n * t.period, key := k.1, shifted := k.2
        train := some { t with remaining := t.remaining - n, skip := min (t.skip + (n - 1)) 65535 } } := by
  intro n
  have hgo : ¬(t.remaining ≠ 0 ∧ t.remaining ≤ n) := fun ⟨hr, hle⟩ => hn.elim hr fun hlt => hlt.not_ge hle
  simp only [Entry.after, h]
  rw [if_neg hgo]
  cases keyOf off l e.domain (e.due + n * t.period) <;> rfl

end

/-- The entry that goes on takes its place in the list of its domain. -/
theorem join_eq_ite (e : Entry) (c : Schedule) :
    c.join e =
      if e.domain = .el then { c with elapsed := placeEntry e c.elapsed }
      else { c with timescale := placeEntry e c.timescale } := by
  split
  · next h => exact join_elapsed e c h
  · next h => exact join_timescale e c h

/-- Settles O41: a firing by whether the owner owns the lines and by what goes on; an action by its lines; a train by the
first of its occurrences that its firing does not account for. -/
theorem firingsActAndTrainsGoOn : Obligations.FiringsActAndTrainsGoOn := by
  refine ⟨fun late applied bound e s => ?firing, fun e l => ⟨placeEntry_perm e l, placeEntry_ordered e l⟩,
    fun i o s h => act_one_line h, fun i n v s h => act_load h, fun a g s => rfl,
    fun off l bound e h => after_of_one_shot h, fun off l bound e t ht hp => ?train⟩
  case firing =>
    intro u owns out raised told left x
    have hraised : ∀ y, raised y = alertsOf bound e y s := fun y => by
      simp only [raised, alertsOf, actionAlerts, notifyAlerts]
      cases e.after s.ts.utc s.ts.leap bound <;> cases e.notify <;> rfl
    have hleft : ∀ y, left y = schedAfter bound e y s := fun y => by
      simp only [left, schedAfter, join_eq_ite]
      cases e.after s.ts.utc s.ts.leap bound <;> rfl
    simp only [told, hraised, hleft]
    refine ⟨fun howns => ?_, fun hnot => ?_⟩
    · have h := fire_eq late applied bound e s
      rw [performAction_of_owned howns] at h
      simp only [outcomeOf_performed] at h
      exact h
    · have h := fire_eq late applied bound e s
      rw [performAction_of_not_owned hnot] at h
      exact h
  case train =>
    intro key
    obtain ⟨h1, hafter, hbefore⟩ := occurrences_spec (off := off) (l := l) (bound := bound) (e := e) hp
    refine ⟨occurrences off l bound t.period e, h1, hafter, hbefore, after_of_spent ht, ?_⟩
    intro due keyed removed
    refine ⟨fun hn hnot => ?_, fun hn hk => ?_⟩
    · rw [after_of_unspent ht hn, keyOf_of_not_keyable hnot]
      rfl
    · rw [after_of_unspent ht hn, keyOf_of_keyable hk]
      rfl

end Sys2Proof.Machine
end

section
/-! The checks of SCHED-ADD in their order, and what its RANGE row resolves (R119, R121, R122, R123). -/

namespace Sys2Proof.Machine

/-! ## The checks of R123 in their order -/

/-- The condition of the request holds, if it has one. -/
def conditionMet (o : Options) (c : Context) : Prop := ∀ v, o.condition = some v → c.compare = v

/-- The clock of the domain is one the part can schedule by: EL always, the others once the time is set. -/
def clockSet (d : Scale) (t : Timescale) : Prop := d = .el ∨ t.timeSet = true

theorem conditionMet_iff (o : Options) (c : Context) :
    conditionMet o c ↔ ¬(o.condition.isSome ∧ o.condition ≠ some c.compare) := by
  cases h : o.condition with
  | none => simp [conditionMet, h]
  | some v => simp [conditionMet, h, eq_comm]

theorem clockSet_iff (d : Scale) (t : Timescale) : clockSet d t ↔ ¬(d ≠ .el ∧ t.timeSet = false) := by
  simp [clockSet, or_iff_not_imp_left]

theorem listNow_eq (d : Scale) (t : Timescale) : listNow d t = if d = .el then nsTicks t.el else t.dt := by
  cases d <;> rfl

section
variable {ag : Agent} {o : Options} {r : AddRequest} {s : State} {x : Resolved}

theorem addEntry_condition (h : ¬conditionMet o (s.ctx ag)) : addEntry ag o r s = refuse .condition s :=
  if_pos (by_contra fun hn => h ((conditionMet_iff _ _).2 hn))

theorem addEntry_state (h1 : conditionMet o (s.ctx ag)) (h2 : ¬clockSet r.domain s.ts) :
    addEntry ag o r s = refuse .state s :=
  (if_neg ((conditionMet_iff _ _).1 h1)).trans (if_pos (by_contra fun hn => h2 ((clockSet_iff _ _).2 hn)))

theorem addEntry_range (h1 : conditionMet o (s.ctx ag)) (h2 : clockSet r.domain s.ts)
    (h3 : resolveAdd (s.ctx ag) r s.ts = none) : addEntry ag o r s = refuse .range s := by
  rw [addEntry, if_neg ((conditionMet_iff _ _).1 h1), if_neg ((clockSet_iff _ _).1 h2), h3]

theorem ownsAll_iff (l : List Nat) : ¬l.all (ownsLine ag s) = false ↔ ∀ i ∈ l, (s.output i).owner = some ag := by
  simp [ownsLine]

section
variable (h1 : conditionMet o (s.ctx ag)) (h2 : clockSet r.domain s.ts) (h3 : resolveAdd (s.ctx ag) r s.ts = some x)
include h1 h2 h3

theorem addEntry_lineOwner (h4 : ¬∀ l ∈ x.action.lines, (s.output l).owner = some ag) :
    addEntry ag o r s = refuse .lineOwner s := by
  have hnot : x.action.lines.all (ownsLine ag s) = false := not_not.1 fun h => h4 ((ownsAll_iff _).1 h)
  rw [addEntry, if_neg ((conditionMet_iff _ _).1 h1), if_neg ((clockSet_iff _ _).1 h2), h3]
  exact if_pos hnot

variable (h4 : ∀ l ∈ x.action.lines, (s.output l).owner = some ag)
include h4

theorem addEntry_full (h5 : s.sched.quotas.get ag ≤ s.sched.use ag) : addEntry ag o r s = refuse .full s := by
  rw [addEntry, if_neg ((conditionMet_iff _ _).1 h1), if_neg ((clockSet_iff _ _).1 h2), h3]
  exact (if_neg ((ownsAll_iff _).2 h4)).trans (if_pos h5)

variable (h5 : s.sched.use ag < s.sched.quotas.get ag)
include h5

theorem addEntry_tooLate (h6 : x.key < listNow r.domain s.ts + 131072000) (hlate : o.lateOk = false) :
    addEntry ag o r s = refuse .tooLate s := by
  rw [addEntry, if_neg ((conditionMet_iff _ _).1 h1), if_neg ((clockSet_iff _ _).1 h2), h3]
  exact (if_neg ((ownsAll_iff _).2 h4)).trans ((if_neg h5.not_ge).trans (if_pos ⟨h6, hlate⟩))

theorem addEntry_accepted (h6 : x.key < listNow r.domain s.ts + 131072000 → o.lateOk = true) {i : Nat}
    (hi : s.sched.freeIndex = some i) :
    addEntry ag o r s = acceptEntry ag o (newEntry ag r x i s.sched.renumbered) s := by
  have hlate : ¬(x.key < listNow r.domain s.ts + Config.schedLead ∧ o.lateOk = false) := fun ⟨hk, hf⟩ =>
    Bool.noConfusion (hf.symm.trans (h6 hk))
  rw [addEntry, if_neg ((conditionMet_iff _ _).1 h1), if_neg ((clockSet_iff _ _).1 h2), h3]
  exact (if_neg ((ownsAll_iff _).2 h4)).trans ((if_neg h5.not_ge).trans ((if_neg hlate).trans (by rw [hi])))

end

end

/-! ## What the RANGE row resolves (R119, R121, R122) -/

section
variable {t : Timescale} {d : Scale} {due : Ticks}

/-- The due is the sum of a time and an interval operand, in range. -/
def dueSum (due : Ticks) (base : Int) (i : IntervalField) : Prop :=
  ∃ m, intervalVal i = .valid m ∧ (due : Int) = base + m ∧ due < timeEnd

theorem sumOf_eq_some_iff {v : TimeVal} {i : IntervalField} :
    sumOf v i = some due ↔
      ∃ u : Ticks, v = .valid u ∧ dueSum due u i := by
  cases v with
  | unset => simp [sumOf]
  | saturated => simp [sumOf]
  | valid u =>
    cases hi : intervalVal i with
    | unset => simp [sumOf, dueSum, hi]
    | saturated => simp [sumOf, dueSum, hi]
    | valid m =>
      simp only [sumOf, dueSum, hi, Option.ite_none_right_eq_some, inTimeRange_iff, Option.some.injEq, TimeVal.valid.injEq,
        IntervalVal.valid.injEq, exists_eq_left']
      constructor
      · rintro ⟨⟨h0, h1⟩, rfl⟩
        exact ⟨Int.toNat_of_nonneg h0, (Int.toNat_lt h0).2 h1⟩
      · rintro ⟨hsum, hlt⟩
        rw [← hsum]
        exact ⟨⟨Int.natCast_nonneg _, Int.ofNat_lt.2 hlt⟩, Int.toNat_natCast _⟩

/-- A UT of the present outside the range is no time to add to (R2, R6). -/
theorem dueNow_ut_eq_valid_iff {u : Ticks} :
    dueNow .ut t = .valid u ↔ (toUt t.utc t.leap t.dt).1 = u ∧ u < timeEnd := by
  have hnow : dueNow .ut t = (exactTime (toUt t.utc t.leap t.dt).1 false).val := rfl
  generalize (toUt t.utc t.leap t.dt).1 = k at hnow
  by_cases hk : 0 ≤ k ∧ k < timeEnd
  · rw [hnow, exactTime_of_inRange k false hk.1 hk.2, TimeVal.valid.injEq]
    refine ⟨fun hu => ?_, fun ⟨hu, _⟩ => hu ▸ Int.toNat_natCast u⟩
    rw [← hu]
    exact ⟨(Int.toNat_of_nonneg hk.1).symm, (Int.toNat_lt hk.1).2 hk.2⟩
  · rw [hnow, exactTime_of_outOfRange k false (by omega)]
    refine ⟨fun hv => TimeVal.noConfusion hv, fun ⟨hu, hlt⟩ => (hk ⟨?_, ?_⟩).elim⟩
    · exact hu ▸ Int.natCast_nonneg u
    · exact hu ▸ Int.ofNat_lt.2 hlt

theorem resolveDue_eq_some_iff {c : Context} {y : DueSpec} :
    resolveDue c d t y = some due ↔
      match y with
      | .absolute f => expand c.base f = .valid due
      | .cursorPlus i => ∃ u : Ticks, c.cursor = .valid u ∧ dueSum due u i
      | .nowPlus i =>
        match d with
        | .dt => dueSum due t.dt i
        | .el => dueSum due (nsTicks t.el) i
        | .ut => 0 ≤ (toUt t.utc t.leap t.dt).1 ∧ (toUt t.utc t.leap t.dt).1 < timeEnd ∧
          dueSum due (toUt t.utc t.leap t.dt).1 i := by
  cases y with
  | absolute f => cases h : expand c.base f <;> simp [resolveDue, h]
  | cursorPlus i => exact sumOf_eq_some_iff
  | nowPlus i =>
    have hsum : resolveDue c d t (.nowPlus i) = some due ↔ ∃ u : Ticks, dueNow d t = .valid u ∧ dueSum due u i :=
      sumOf_eq_some_iff
    rw [hsum]
    cases d with
    | dt => simp [dueNow]
    | el => simp [dueNow]
    | ut =>
      simp only [dueNow_ut_eq_valid_iff]
      constructor
      · rintro ⟨u, ⟨hu, hlt⟩, hdue⟩
        rw [hu]
        exact ⟨Int.natCast_nonneg u, Int.ofNat_lt.2 hlt, hdue⟩
      · rintro ⟨h0, hlt, hdue⟩
        exact ⟨_, ⟨(Int.toNat_of_nonneg h0).symm, (Int.toNat_lt h0).2 hlt⟩, (Int.toNat_of_nonneg h0).symm ▸ hdue⟩

theorem keyOf_eq_some_iff {off : Int} {l : Leap} {k : Ticks × Bool} :
    keyOf off l d due = some k ↔
      match d with
      | .dt => due < timeEnd ∧ k.1 = due ∧ k.2 = false
      | .el => due ≤ nsTicks 18446744073709551615 ∧ k.1 = due ∧ k.2 = false
      | .ut => due < timeEnd ∧ k.1 < timeEnd ∧ ((k.1 : Int), k.2) = toDt off l due := by
  obtain ⟨key, shifted⟩ := k
  cases d with
  | dt => simp [keyOf, eq_comm]
  | el => simp [keyOf, eq_comm]
  | ut =>
    generalize hk : toDt off l due = k
    obtain ⟨k, mark⟩ := k
    simp only [keyOf, hk, Option.ite_none_right_eq_some, Bool.and_eq_true, decide_eq_true_eq, inTimeRange_iff,
      Option.some.injEq, Prod.mk.injEq]
    constructor
    · rintro ⟨⟨hdue, h0, h1⟩, rfl, hmark⟩
      exact ⟨hdue, (Int.toNat_lt h0).2 h1, Int.toNat_of_nonneg h0, hmark.symm⟩
    · rintro ⟨hdue, hlt, rfl, hmark⟩
      exact ⟨⟨hdue, Int.natCast_nonneg _, Int.ofNat_lt.2 hlt⟩, Int.toNat_natCast _, hmark.symm⟩

theorem outputLine_eq_some_iff {base : Nat} {disp : Int} {l : Nat} :
    outputLine base disp = some l ↔ (l : Int) = base + disp ∧ l < 24 := by
  simp only [outputLine, effectiveLine, Option.filter_eq_some_iff, Option.ite_none_right_eq_some, Option.some.injEq,
    isOutput, Config.outputCount, decide_eq_true_eq]
  omega

theorem spanCount_eq_some_iff {n k : Nat} : spanCount n = some k ↔ n ≤ 16 ∧ k = if n = 0 then 16 else n := by
  unfold spanCount
  split
  · next h => simp [h, eq_comm]
  · simp [eq_comm]

theorem effectiveLine_eq_some_iff {base : Nat} {disp : Int} {l : Nat} :
    effectiveLine base disp = some l ↔ (l : Int) = base + disp ∧ l ≤ 63 := by
  simp only [effectiveLine, Option.ite_none_right_eq_some, Option.some.injEq]
  omega

theorem spanLines_eq_some_iff {base n : Nat} {disp : Int} {ls : List Nat} :
    spanLines base disp n = some ls ↔
      ∃ l k, effectiveLine base disp = some l ∧ spanCount n = some k ∧ l + k ≤ 64 ∧ ls = (List.range k).map (l + ·) := by
  cases hl : effectiveLine base disp with
  | none => simp [spanLines, hl]
  | some l =>
    cases hk : spanCount n with
    | none => simp [spanLines, hk]
    | some k => simp [spanLines, hl, hk, @eq_comm _ ls]

/-- A span is one of outputs where its last line is one. -/
theorem all_isOutput_span {l k : Nat} (hk : 0 < k) : ((List.range k).map (l + ·)).all isOutput = true ↔ l + k ≤ 24 := by
  simp only [List.all_map, List.all_eq_true, List.mem_range, Function.comp_apply, isOutput, decide_eq_true_eq,
    Config.outputCount]
  exact ⟨fun h => by have := h (k - 1) (by omega); omega, fun h j hj => by omega⟩

theorem load_span {l k v : Nat} (hk : 0 < k) :
    Action.load (((List.range k).map (l + ·)).headD 0) ((List.range k).map (l + ·)).length v = .load l k v := by
  obtain ⟨j, rfl⟩ := Nat.exists_eq_add_of_lt hk
  simp [List.range_succ_eq_map]

/-- The displacement names the output `l`. -/
def namesOutput (base : Nat) (disp : Int) (l : Nat) : Prop := (l : Int) = base + disp ∧ l < 24

theorem resolveAction_load_iff {base n v : Nat} {disp : Int} {a : Action} :
    resolveAction base (.load disp n v) = some a ↔
      ∃ l, namesOutput base disp l ∧ l + (if n = 0 then 16 else n) ≤ 24 ∧ n ≤ 16 ∧ v < 65536 ∧
        a = .load l (if n = 0 then 16 else n) v := by
  have hsplit : resolveAction base (.load disp n v) = some a ↔
      ∃ ls, spanLines base disp n = some ls ∧ ls.all isOutput = true ∧ v < 65536 ∧
        a = .load (ls.headD 0) ls.length v := by
    cases h : spanLines base disp n with
    | none => simp [resolveAction, h]
    | some ls => simp [resolveAction, h, and_assoc, @eq_comm _ a]
  rw [hsplit]
  have hpos : 0 < if n = 0 then 16 else n := by split <;> omega
  constructor
  · rintro ⟨ls, hspan, hout, hv, rfl⟩
    obtain ⟨l, k, hl, hcount, -, rfl⟩ := spanLines_eq_some_iff.1 hspan
    obtain ⟨hn, rfl⟩ := spanCount_eq_some_iff.1 hcount
    have hle := (all_isOutput_span hpos).1 hout
    exact ⟨l, ⟨(effectiveLine_eq_some_iff.1 hl).1, by omega⟩, hle, hn, hv, load_span hpos⟩
  · rintro ⟨l, ⟨hl, hlt⟩, hle, hn, hv, rfl⟩
    exact ⟨_, spanLines_eq_some_iff.2 ⟨l, _, effectiveLine_eq_some_iff.2 ⟨hl, by omega⟩, spanCount_eq_some_iff.2 ⟨hn, rfl⟩,
      by omega, rfl⟩, (all_isOutput_span hpos).2 hle, hv, (load_span hpos).symm⟩

theorem resolveAction_eq_some_iff {base : Nat} {y : ActionSpec} {a : Action} :
    resolveAction base y = some a ↔
      match y with
      | .pulse d => ∃ l, namesOutput base d l ∧ a = .pulse l
      | .set d => ∃ l, namesOutput base d l ∧ a = .set l
      | .clear d => ∃ l, namesOutput base d l ∧ a = .clear l
      | .load d n v => ∃ l, namesOutput base d l ∧ l + (if n = 0 then 16 else n) ≤ 24 ∧ n ≤ 16 ∧ v < 65536 ∧
        a = .load l (if n = 0 then 16 else n) v
      | .alert x g => 1 ≤ x ∧ x ≤ 15 ∧ g < 65536 ∧ a = .alert x g := by
  cases y with
  | load d n v => exact resolveAction_load_iff
  | alert x g => simp only [resolveAction, Option.ite_none_right_eq_some, Option.some.injEq, @eq_comm _ a, and_assoc]
  | _ d => simp only [resolveAction, Option.map_eq_some_iff, outputLine_eq_some_iff, namesOutput, @eq_comm _ a]

theorem resolveTrain_eq_some_iff {r : AddRequest} {tr : Option Train} :
    resolveTrain r = some tr ↔
      match r.period with
      | none => r.repeatCount = none ∧ tr = none
      | some i => ∃ m, intervalVal i = .valid m ∧ 10000 * 65536 ≤ m ∧ m ≤ 86400 * (ticksPerSec : Int) ∧
        r.repeatCount.getD 0 < 65536 ∧ tr = some ⟨m.toNat, r.repeatCount.getD 0, 0⟩ := by
  unfold resolveTrain
  cases r.period with
  | none => cases r.repeatCount <;> simp [eq_comm]
  | some i =>
    cases hi : intervalVal i with
    | unset => simp [hi]
    | saturated => simp [hi]
    | valid m =>
      simp only [hi, Option.ite_none_right_eq_some, Option.some.injEq, IntervalVal.valid.injEq, exists_eq_left', and_assoc,
        @eq_comm _ tr]
      rfl

/-- What the RANGE row leaves, part by part. -/
theorem resolveAdd_eq_some_iff {c : Context} {r : AddRequest} {x : Resolved} :
    resolveAdd c r t = some x ↔
      resolveDue c r.domain t r.due = some x.due ∧ keyOf t.utc t.leap r.domain x.due = some (x.key, x.shifted) ∧
        resolveAction c.lineBase r.action = some x.action ∧ resolveTrain r = some x.train ∧
        optWithin 1 15 r.notify = true ∧ x.key ≤ listNow r.domain t + Config.schedHorizon := by
  constructor
  · intro h
    unfold resolveAdd at h
    split at h
    · next due a tr hdue ha htr =>
      split at h
      · next k hk =>
        split at h
        · next hc =>
          cases h
          obtain ⟨hnotify, hkey⟩ := Bool.and_eq_true_iff.1 hc
          exact ⟨hdue, hk, ha, htr, hnotify, of_decide_eq_true hkey⟩
        · cases h
      · cases h
    · cases h
  · rintro ⟨hdue, hk, ha, htr, hnotify, hkey⟩
    simp [resolveAdd, hdue, hk, ha, htr, hnotify, hkey]

end

/-- Settles O38: the refusals check by check, and a resolved request part by part. -/
theorem scheduleChecksAndResolvesRequests : Obligations.ScheduleChecksAndResolvesRequests := by
  refine ⟨fun ag o r s hnow => ?checks, fun c r t x => ?resolved⟩
  case checks =>
    intro refused passes1 passes2 now
    have hrefused : ∀ st, (takeSchedAdd ag o r (s.withRequest ag ⟨o, .schedAdd r⟩) =
        refuse st (served ag (s.withRequest ag ⟨o, .schedAdd r⟩))) → refused st := fun st h =>
      exec_served_refused rfl hnow h
    have hctx : (served ag (s.withRequest ag ⟨o, .schedAdd r⟩)).ctx ag = s.ctx ag := State.withRequest_ctx s ag _ ag
    have hnow : now = listNow r.domain s.ts := (listNow_eq _ _).symm
    refine ⟨fun h1 => ?_, fun h1 h2 => ?_, fun h1 h2 h3 => ?_, fun x h1 h2 h3 => ⟨fun h4 => ?_, fun h4 h5 => ?_,
      fun h4 h5 h6 hlate => ?_⟩⟩
    · exact hrefused _ (addEntry_condition (hctx ▸ h1))
    · exact hrefused _ (addEntry_state (hctx ▸ h1) h2)
    · exact hrefused _ (addEntry_range (hctx ▸ h1) h2 (hctx ▸ h3))
    · exact hrefused _ (addEntry_lineOwner (hctx ▸ h1) h2 (hctx ▸ h3) h4)
    · exact hrefused _ (addEntry_full (hctx ▸ h1) h2 (hctx ▸ h3) h4 h5)
    · exact hrefused _ (addEntry_tooLate (hctx ▸ h1) h2 (hctx ▸ h3) h4 h5 (hnow ▸ h6) hlate)
  case resolved =>
    intro sums civil keyed line
    rw [resolveAdd_eq_some_iff, resolveDue_eq_some_iff, keyOf_eq_some_iff, resolveAction_eq_some_iff,
      resolveTrain_eq_some_iff, optWithin_iff, listNow_eq]
    exact Iff.rfl

end Sys2Proof.Machine
end

section
/-! An accepted SCHED-ADD (R116, R117, R118, R124): its index, the renumbering, and the part after it. -/

namespace Sys2Proof.Machine

/-! ## The free index (R116, R117) -/

section
variable {c : Schedule} {ag : Agent}

/-- Every live entry counts for one of the three agents. -/
theorem length_eq_uses (c : Schedule) : c.entries.length = c.use .agent0 + c.use .agent1 + c.use .agent2 := by
  unfold Schedule.use
  induction c.entries with
  | nil => rfl
  | cons e l ih =>
    simp only [List.length_cons, List.countP_cons, ih]
    cases e.owner <;> simp <;> omega

theorem live_lt_of_below_quota (h : ScheduleInOrder c) (hu : c.use ag < c.quotas.get ag) : c.entries.length < 64 := by
  have h0 : c.use .agent0 ≤ c.quotas.a0 := h.use .agent0
  have h1 : c.use .agent1 ≤ c.quotas.a1 := h.use .agent1
  have h2 : c.use .agent2 ≤ c.quotas.a2 := h.use .agent2
  have hsum := h.quotas
  have hlen := length_eq_uses c
  cases ag with
  | agent0 => have : c.use .agent0 < c.quotas.a0 := hu; omega
  | agent1 => have : c.use .agent1 < c.quotas.a1 := hu; omega
  | agent2 => have : c.use .agent2 < c.quotas.a2 := hu; omega

theorem at_isNone_iff {i : Nat} : (c.at i).isNone = true ↔ ∀ e ∈ c.entries, e.handle.index ≠ i := by
  simp [Schedule.at]

/-- An agent below its quota finds a free index, since not all 64 are taken. -/
theorem exists_freeIndex (h : ScheduleInOrder c) (hu : c.use ag < c.quotas.get ag) : ∃ i, c.freeIndex = some i := by
  refine Option.ne_none_iff_exists'.1 fun hnone => ?_
  have htaken : List.range 64 ⊆ c.entries.map fun e => e.handle.index := fun i hi => by
    have hi := List.find?_eq_none.1 hnone i hi
    rw [at_isNone_iff] at hi
    simpa using hi
  have hle := (List.subperm_of_subset List.nodup_range htaken).length_le
  rw [List.length_range, List.length_map] at hle
  exact absurd (live_lt_of_below_quota h hu) hle.not_gt

/-- It is the lowest. -/
theorem freeIndex_lowest {i : Nat} (h : c.freeIndex = some i) :
    i < 64 ∧ (∀ e ∈ c.entries, e.handle.index ≠ i) ∧ ∀ j, j < i → ∃ e ∈ c.entries, e.handle.index = j := by
  obtain ⟨hi, hfree⟩ := freeIndex_facts h
  refine ⟨hi, hfree, fun j hj => ?_⟩
  have hlow := (List.find?_range_eq_some.1 h).2.2 j hj
  rw [Bool.not_eq_true', ← Bool.not_eq_true, at_isNone_iff] at hlow
  simpa using hlow

/-! ## The ranks of a renumbering (R118) -/

theorem acceptRank_pos {e : Entry} (he : e ∈ c.entries) : 1 ≤ c.acceptRank e :=
  List.countP_pos_iff.2 ⟨e, he, by simp⟩

theorem acceptRank_le (e : Entry) : c.acceptRank e ≤ c.entries.length := List.countP_le_length

/-- An entry accepted later counts in its own rank and not in that of an earlier one. -/
theorem acceptRank_lt {a b : Entry} (hb : b ∈ c.entries) (hlt : a.accept < b.accept) : c.acceptRank a < c.acceptRank b := by
  unfold Schedule.acceptRank
  rw [List.countP_eq_countP_filter_add c.entries (fun y => decide (y.accept ≤ b.accept))
    fun y => decide (y.accept ≤ a.accept)]
  have hsame : (c.entries.filter fun y => decide (y.accept ≤ a.accept)).countP (fun y => decide (y.accept ≤ b.accept)) =
      c.entries.countP fun y => decide (y.accept ≤ a.accept) := by
    rw [List.countP_filter]
    refine List.countP_congr fun y _ => ?_
    simp only [Bool.and_eq_true, decide_eq_true_eq]
    omega
  have hown : 0 < (c.entries.filter fun y => !decide (y.accept ≤ a.accept)).countP fun y => decide (y.accept ≤ b.accept) :=
    List.countP_pos_iff.2 ⟨b, List.mem_filter.2 ⟨hb, by simpa using hlt⟩, by simp⟩
  omega

end

/-! ## The acceptance (R116, R118, R124) -/

section
variable (ag : Agent) (s : State) (late applied : Bool) (bound : Ticks) (e : Entry)

theorem unread_setUnit (u : AgentUnit) : Unread fun t => t.setUnit ag u :=
  ⟨fun _ _ _ => rfl, fun _ => rfl, fun _ => rfl, fun _ => rfl, fun _ _ => rfl, fun _ _ _ => rfl⟩

/-- A firing leaves the agent units. -/
theorem fire_unit : (fire late applied bound e s).unit ag = s.unit ag := by
  have h := fire_comm (unread_setUnit ag (s.unit ag)) late applied bound e s
  rw [State.setUnit_unit] at h
  rw [h, State.unit_setUnit]

theorem fire_withRequest (q : Submitted) :
    fire late applied bound e (s.withRequest ag q) = (fire late applied bound e s).withRequest ag q := by
  rw [State.withRequest, State.withRequest, fire_unit]
  exact fire_comm (unread_setUnit ag _) late applied bound e s

end

section
variable (ag : Agent) (q : Submitted) (o : Options) (e : Entry) (s : State)

/-- The turn at the arbiter does not bear on a renumbering. -/
theorem renumbered_served : (served ag s).sched.renumbered = { s.sched.renumbered with lastServed := ag } := by
  unfold Schedule.renumbered
  by_cases hc : s.sched.counter < Config.counterMax
  · rw [if_pos hc]
    exact if_pos hc
  · rw [if_neg hc]
    exact if_neg hc

theorem renumbered_generations (c : Schedule) : c.renumbered.generations = c.generations := by
  unfold Schedule.renumbered
  split <;> rfl

/-- An accepted entry takes its place, its index the next generation, and the counter moves on. -/
theorem accepted_eq (c : Schedule) :
    c.accepted e = { c with
      timescale := if e.domain = .el then c.timescale else placeEntry e c.timescale
      elapsed := if e.domain = .el then placeEntry e c.elapsed else c.elapsed
      generations := c.generations.set e.handle.index e.handle.generation, counter := c.counter + 1 } := by
  unfold Schedule.accepted
  rw [join_eq_ite]
  split <;> rfl

/-- The part with an entry accepted, before late-ok fires it (R124). -/
def withEntry (ag : Agent) (o : Options) (e : Entry) (s : State) : State :=
  (noteKeyed [e.handle.index] (s.setSched (s.sched.renumbered.accepted e))).setCtx ag
    { s.ctx ag with cursor := if o.update then .valid e.key else (s.ctx ag).cursor }

/-- The part with an entry accepted, which late-ok fires where its key is early (R124). -/
def afterAccept (ag : Agent) (o : Options) (e : Entry) (s : State) : State :=
  let now := listNow e.domain s.ts
  if e.key < now + 131072000 then fire true false (max now e.key) e (withEntry ag o e s) else withEntry ag o e s

theorem setCtx_ctx : s.setCtx ag (s.ctx ag) = s := State.setUnit_unit s ag

theorem acceptEntry_eq :
    acceptEntry ag o e s = accept (.added e.handle e.domain e.due e.key) (afterAccept ag o e s) := by
  have hentry : withEntry ag o e s =
      let s1 := noteKeyed [e.handle.index] (s.setSched (s.sched.renumbered.accepted e))
      if o.update then s1.setCtx ag { s1.ctx ag with cursor := .valid e.key } else s1 := by
    unfold withEntry
    cases o.update with
    | true => rfl
    | false => exact setCtx_ctx ag _
  unfold afterAccept
  rw [hentry]
  rfl

theorem withEntry_withRequest : withEntry ag o e (s.withRequest ag q) = (withEntry ag o e s).withRequest ag q := by
  unfold withEntry
  rw [State.withRequest_ctx]
  exact setCtx_withRequest ag q (noteKeyed [e.handle.index] (s.setSched (s.sched.renumbered.accepted e))) _

theorem afterAccept_withRequest : afterAccept ag o e (s.withRequest ag q) = (afterAccept ag o e s).withRequest ag q := by
  unfold afterAccept
  rw [withEntry_withRequest, State.withRequest_ts]
  dsimp only
  split
  · exact fire_withRequest ..
  · rfl

end

/-- Settles O37: below its quota an agent finds a free index; the ranks of a renumbering keep the order of acceptance; the
acceptance leaves the part as it is described, with the request in hand or without. -/
theorem scheduleTakesAnEntry : Obligations.ScheduleTakesAnEntry := by
  intro ag o r x s hnow hs h1 h2 h3 h4 h5 now early live rank ranked c
  refine ⟨fun e he => ⟨acceptRank_pos he, acceptRank_le e⟩, fun a _ b hb => acceptRank_lt hb, fun hearly => ?_⟩
  obtain ⟨i, hi⟩ := exists_freeIndex hs h5
  obtain ⟨hrange, hfree, hlow⟩ := freeIndex_lowest hi
  refine ⟨i, hrange, hfree, hlow, ?_⟩
  intro h e joined told u
  have hlist : now = listNow r.domain s.ts := (listNow_eq _ _).symm
  have hctx : (served ag (s.withRequest ag ⟨o, .schedAdd r⟩)).ctx ag = s.ctx ag := State.withRequest_ctx s ag _ ag
  have hearly' : x.key < listNow r.domain s.ts + 131072000 → o.lateOk = true := fun hk =>
    hearly (show x.key < now + 131072000 from hlist.symm ▸ hk)
  have htake : takeSchedAdd ag o r (s.withRequest ag ⟨o, .schedAdd r⟩) =
      acceptEntry ag o (newEntry ag r x i (served ag s).sched.renumbered)
        ((served ag s).withRequest ag ⟨o, .schedAdd r⟩) :=
    addEntry_accepted (s := served ag (s.withRequest ag ⟨o, .schedAdd r⟩)) (hctx ▸ h1) h2 (hctx ▸ h3) h4 h5 hearly' hi
  have hc : s.sched.renumbered = c := rfl
  have hnew : newEntry ag r x i (served ag s).sched.renumbered = e := by
    rw [renumbered_served, newEntry, renumbered_generations]
    rfl
  have hentry : withEntry ag o e (served ag s) = u := by
    rw [withEntry, renumbered_served, accepted_eq, hc]
    rfl
  rw [hnew, acceptEntry_eq, afterAccept_withRequest] at htake
  rw [exec_accepted rfl hnow htake, afterAccept, hentry, show listNow e.domain (served ag s).ts = now from hlist.symm]

end Sys2Proof.Machine
end

section
/-! Step reports, and changes of offset or announcement, at the schedule (R131 … R135). -/

namespace Sys2Proof.Machine

/-! ## Waiting reports, and the firings that do not read them -/

/-- The part with other reports waiting for the schedule. -/
def withReports (rest : List ScheduleMsg) (s : State) : State := s.setFlight { s.flight with toSchedule := rest }

theorem unread_withReports (rest : List ScheduleMsg) : Unread (withReports rest) :=
  ⟨fun _ _ _ => rfl, fun _ => rfl, fun _ => rfl, fun _ => rfl, fun _ _ => rfl, fun _ _ _ => rfl⟩

/-! ## What a firing makes of the lists -/

section
variable {late applied : Bool} {b : Ticks} {e x : Entry} {s : State}

/-- An entry of the timescale list that fires leaves the elapsed list as it is. -/
theorem fire_elapsed (h : ScheduleInOrder s.sched) (he : e ∈ s.sched.timescale) :
    (fire late applied b e s).sched.elapsed = s.sched.elapsed := by
  have hleave : (s.sched.leave e.handle.index).elapsed = s.sched.elapsed :=
    List.filter_eq_self.2 fun y hy => bne_iff_ne.2 (Ne.symm ((List.pairwise_append.1 h.indices).2.2 e he y hy))
  rcases fire_sched late applied b e s with hs | ⟨e1, ha, hs⟩
  · rw [hs, hleave]
  · have hd : e1.domain ≠ .el := by
      obtain ⟨-, -, hdom, -⟩ := after_facts ha
      exact hdom ▸ h.timescaleDomain e he
    rw [hs, join_timescale e1 _ hd]
    exact hleave

/-- Entries of other indices stay in the timescale list. -/
theorem mem_timescale_fire (hx : x ∈ s.sched.timescale) (hi : x.handle.index ≠ e.handle.index) :
    x ∈ (fire late applied b e s).sched.timescale := by
  have hleave : x ∈ (s.sched.leave e.handle.index).timescale := List.mem_filter.2 ⟨hx, bne_iff_ne.2 hi⟩
  rcases fire_sched late applied b e s with hs | ⟨e1, -, hs⟩
  · rw [hs]
    exact hleave
  · rw [hs, join_eq_ite]
    split
    · exact hleave
    · exact mem_placeEntry.2 (.inr hleave)

/-- After a firing the timescale list holds entries of other indices, and the entry as it goes on. -/
theorem of_mem_timescale_fire (hx : x ∈ (fire late applied b e s).sched.timescale) :
    (x ∈ s.sched.timescale ∧ x.handle.index ≠ e.handle.index) ∨
      e.after s.ts.utc s.ts.leap b = some { x with last := e.last } := by
  have hstay : x ∈ (s.sched.leave e.handle.index).timescale → x ∈ s.sched.timescale ∧ x.handle.index ≠ e.handle.index :=
    fun h => by simpa [Schedule.leave, Schedule.keep] using h
  rcases fire_sched late applied b e s with hs | ⟨e1, ha, hs⟩
  · exact .inl (hstay (hs ▸ hx))
  · rw [hs, join_eq_ite] at hx
    split at hx
    · exact .inl (hstay hx)
    · rcases mem_placeEntry.1 hx with rfl | hx
      · exact .inr ha
      · exact .inl (hstay hx)

end

/-! ## Keys of what goes on -/

section
variable {off : Int} {l : Leap} {b : Ticks} {e e1 : Entry}

theorem lt_of_lt_keyFor {d : Scale} {due b : Nat} {k : Ticks × Bool} (h : keyOf off l d due = some k)
    (hb : (b : Int) < keyFor off l d due) : b < k.1 := by
  by_cases hk : keyable off l d due
  · rw [keyOf_of_keyable hk] at h
    cases h
    exact Int.lt_toNat.2 hb
  · rw [keyOf_of_not_keyable hk] at h
    cases h

/-- The key of what goes on is that of its due, and lies after the bound (R127, R132). -/
theorem after_key (h : e.after off l b = some e1) (hp : ∀ t, e.train = some t → 0 < t.period) :
    keyOf off l e.domain e1.due = some (e1.key, e1.shifted) ∧ b < e1.key := by
  cases ht : e.train with
  | none => rw [after_of_one_shot ht] at h; cases h
  | some t =>
    obtain ⟨-, hafter, -⟩ := occurrences_spec (off := off) (l := l) (bound := b) (e := e) (hp t ht)
    by_cases hn : t.remaining = 0 ∨ occurrences off l b t.period e < t.remaining
    · rw [after_of_unspent ht hn] at h
      obtain ⟨k, hk, rfl⟩ := Option.map_eq_some_iff.1 h
      exact ⟨hk, lt_of_lt_keyFor hk hafter⟩
    · rw [after_of_spent ht (fun h0 => hn (.inl h0)) (not_lt.1 fun hlt => hn (.inr hlt))] at h
      cases h

/-- A UT entry that goes on has the key and mark of R3. -/
theorem after_keyed (h : e.after off l b = some e1) (hp : ∀ t, e.train = some t → 0 < t.period) (hd : e.domain = .ut) :
    e1.key = (toDt off l e1.due).1.toNat ∧ e1.shifted = (toDt off l e1.due).2 := by
  obtain ⟨hkey, -⟩ := after_key h hp
  rw [hd, keyOf_eq_some_iff] at hkey
  obtain ⟨-, -, hpair⟩ := hkey
  rw [← hpair]
  exact ⟨(Int.toNat_natCast _).symm, rfl⟩

end

/-! ## Firings one after another -/

/-- What firings of the entries of a list, all live in the timescale list, leave: the elapsed list, the timescale record and
the entries of other indices; what is new in the timescale list is how one of them goes on. -/
structure FiredEach (b : Entry → Ticks) (l : List Entry) (s t : State) : Prop where
  order : ScheduleInOrder t.sched
  elapsed : t.sched.elapsed = s.sched.elapsed
  ts : t.ts = s.ts
  reports : t.flight.toSchedule = s.flight.toSchedule
  stays : ∀ x ∈ s.sched.timescale, (∀ e ∈ l, x.handle.index ≠ e.handle.index) → x ∈ t.sched.timescale
  comes : ∀ x ∈ t.sched.timescale, (x ∈ s.sched.timescale ∧ ∀ e ∈ l, x.handle.index ≠ e.handle.index) ∨
    ∃ e ∈ l, e.after s.ts.utc s.ts.leap (b e) = some { x with last := e.last }

theorem foldl_fire_fired (late : Bool) (applied : Entry → Bool) (b : Entry → Ticks) (l : List Entry) (s : State)
    (h : ScheduleInOrder s.sched) (hd : l.Pairwise fun x y => x.handle.index ≠ y.handle.index)
    (hl : ∀ e ∈ l, e ∈ s.sched.timescale) :
    FiredEach b l s (l.foldl (fun s e => fire late (applied e) (b e) e s) s) := by
  induction l generalizing s with
  | nil => exact ⟨h, rfl, rfl, rfl, fun x hx _ => hx, fun x hx => .inl ⟨hx, fun e he => absurd he List.not_mem_nil⟩⟩
  | cons e l ih =>
    obtain ⟨hfirst, hrest⟩ := List.pairwise_cons.1 hd
    have he := hl e List.mem_cons_self
    have k := ih (fire late (applied e) (b e) e s) (fire_inOrder _ _ _ e s h (h.carries (timescale_subset he))) hrest
      fun f hf => mem_timescale_fire (hl f (List.mem_cons_of_mem _ hf)) (Ne.symm (hfirst f hf))
    refine ⟨k.order, k.elapsed.trans (fire_elapsed h he), k.ts.trans (fire_ts ..), k.reports.trans (fire_toSchedule ..),
      fun x hx hi => ?stays, fun x hx => ?comes⟩
    case stays =>
      obtain ⟨hie, hil⟩ := List.forall_mem_cons.1 hi
      exact k.stays x (mem_timescale_fire hx hie) hil
    case comes =>
      rcases k.comes x hx with ⟨hx, hil⟩ | ⟨f, hf, ha⟩
      · rcases of_mem_timescale_fire hx with ⟨hx, hie⟩ | ha
        · exact .inl ⟨hx, List.forall_mem_cons.2 ⟨hie, hil⟩⟩
        · exact .inr ⟨e, List.mem_cons_self, ha⟩
      · rw [fire_ts] at ha
        exact .inr ⟨f, List.mem_cons_of_mem _ hf, ha⟩

/-! ## The keys reached before a step (R131) -/

section
variable {old new : Ticks} {removed : Option Ticks} {later : List Nat} {s : State} {e x : Entry}

theorem reachedBy_eq_false_iff : e.reachedBy old later = false ↔ ¬(e.key ≤ old ∧ e.handle.index ∉ later) := by
  rw [← reachedBy_iff, Bool.not_eq_true]

/-- They leave the elapsed list, and the entries whose keys were not reached. -/
theorem fireReached_elapsed (n : Nat) (h : ScheduleInOrder s.sched) :
    (fireReached n old later s).sched.elapsed = s.sched.elapsed := by
  induction n generalizing s with
  | zero => rfl
  | succ n ih =>
    unfold fireReached
    split
    · rfl
    · next e he =>
      have hmem := List.mem_of_find?_eq_some he
      exact (ih (fire_inOrder _ _ _ e s h (h.carries (timescale_subset hmem)))).trans (fire_elapsed h hmem)

theorem mem_fireReached (n : Nat) (h : ScheduleInOrder s.sched) (hx : x ∈ s.sched.timescale)
    (hnot : x.reachedBy old later = false) : x ∈ (fireReached n old later s).sched.timescale := by
  induction n generalizing s with
  | zero => exact hx
  | succ n ih =>
    unfold fireReached
    split
    · exact hx
    · next e he =>
      have hmem := List.mem_of_find?_eq_some he
      have hreached := List.find?_some he
      have hne : x.handle.index ≠ e.handle.index := fun hi => by
        rw [h.eq_of_index (timescale_subset hx) (timescale_subset hmem) hi, hreached] at hnot
        cases hnot
      exact ih (fire_inOrder _ _ _ e s h (h.carries (timescale_subset hmem))) (mem_timescale_fire hx hne)

/-- The first of them fires, and the rest follow from there. -/
theorem fireReached_first {p l : List Entry} (h : ScheduleInOrder s.sched) (hl : s.sched.timescale = p ++ e :: l)
    (hp : ∀ y ∈ p, y.reachedBy old later = false) (he : e.reachedBy old later = true) :
    fireReached (reachedFirings old later s) old later s =
      fireReached (reachedFirings old later (fire false false e.key e s)) old later (fire false false e.key e s) := by
  have hmem : e ∈ s.sched.timescale := hl ▸ List.mem_append_right _ List.mem_cons_self
  have hfind : s.sched.timescale.find? (Entry.reachedBy old later) = some e :=
    List.find?_eq_some_iff_append.2 ⟨he, p, l, hl, fun y hy => by rw [hp y hy]; rfl⟩
  have hfewer := reachedFirings_fire h hmem he
  obtain ⟨n, hn⟩ := Nat.exists_eq_add_of_lt hfewer
  have horder := fire_inOrder false false e.key e s h (h.carries (timescale_subset hmem))
  rw [hn, fireReached, hfind]
  exact fireReached_enough _ _ old later _ horder (by omega) le_rfl

end

/-! ## Step reports (R131, R132, R133) -/

section
variable {old new : Ticks} {removed : Option Ticks} {later : List Nat} {s : State}

theorem atRemoved_eq (removed : Option Ticks) (e : Entry) : e.atRemoved removed = decide (removed = some e.key) :=
  beq_eq_decide _ _

theorem exec_stepReport {rest : List ScheduleMsg} (h : s.flight.toSchedule = .step old new removed later :: rest) :
    exec .stepReport s = .next (takeStep old new removed later (withReports rest s)) := by
  change execStepReport s = _
  rw [execStepReport, h]
  rfl

theorem takeStep_backward (h : new ≤ old) : takeStep old new removed later s = s := if_neg h.not_gt

theorem takeStep_forward (h : old < new) :
    takeStep old new removed later s =
      let s1 := fireReached (reachedFirings old later s) old later s
      (s1.sched.timescale.filter fun e => decide (old < e.key) && decide (e.key ≤ new)).foldl
        (fun w e => fire true (decide (removed = some e.key)) new e w) s1 := by
  simp only [← atRemoved_eq]
  exact if_pos h

/-- The firing of the first reached entry before the report is that which the report begins with. -/
theorem takeStep_first {p l : List Entry} {e : Entry} (hlt : old < new) (h : ScheduleInOrder s.sched)
    (hl : s.sched.timescale = p ++ e :: l) (hp : ∀ y ∈ p, y.reachedBy old later = false)
    (he : e.reachedBy old later = true) :
    takeStep old new removed later s = takeStep old new removed later (fire false false e.key e s) := by
  rw [takeStep_forward hlt, takeStep_forward hlt, fireReached_first h hl hp he]

/-- After a forward step no key that it reached or overtook is left, and the other entries stand as before. -/
theorem takeStep_leaves (hlt : old < new) (h : ScheduleInOrder s.sched) :
    let v := takeStep old new removed later s
    v.sched.elapsed = s.sched.elapsed ∧
      (∀ e ∈ v.sched.timescale, e.reachedBy old later = false ∧ (e.key ≤ old ∨ new < e.key)) ∧
      ∀ e ∈ s.sched.timescale, e.reachedBy old later = false → (e.key ≤ old ∨ new < e.key) → e ∈ v.sched.timescale := by
  intro v
  have hv : v = takeStep old new removed later s := rfl
  rw [takeStep_forward hlt] at hv
  have helapsed := fireReached_elapsed (later := later) (old := old) (reachedFirings old later s) h
  have hdone := fireReached_done _ old later s h le_rfl
  have hstay := fun x => mem_fireReached (later := later) (old := old) (x := x) (reachedFirings old later s) h
  have h1 := fireReached_inOrder (reachedFirings old later s) old later s h
  generalize fireReached (reachedFirings old later s) old later s = s1 at *
  have hfired := foldl_fire_fired true (fun e => decide (removed = some e.key)) (fun _ => new)
    (s1.sched.timescale.filter fun e => decide (old < e.key) && decide (e.key ≤ new)) s1 h1
    ((timescale_indices h1).filter _) fun e he => (List.mem_filter.1 he).1
  rw [← hv] at hfired
  have hover : ∀ e : Entry, (decide (old < e.key) && decide (e.key ≤ new)) = true ↔ ¬(e.key ≤ old ∨ new < e.key) :=
    fun e => by simp
  refine ⟨hfired.elapsed.trans helapsed, fun e he => ?left, fun e he hnot hout => ?other⟩
  case left =>
    rcases hfired.comes e he with ⟨hmem, hne⟩ | ⟨f, hf, ha⟩
    · refine ⟨hdone e hmem, by_contra fun hin => ?_⟩
      exact hne e (List.mem_filter.2 ⟨hmem, (hover e).2 hin⟩) rfl
    · have hkey : new < e.key := (after_key ha (h1.periods f (timescale_subset (List.mem_filter.1 hf).1))).2
      exact ⟨reachedBy_eq_false_iff.2 fun hr => absurd (hlt.trans hkey) hr.1.not_gt, .inr hkey⟩
  case other =>
    have hmem := hstay e he hnot
    refine hfired.stays e hmem fun f hf hi => ?_
    obtain ⟨hfmem, hfkey⟩ := List.mem_filter.1 hf
    have hef := h1.eq_of_index (timescale_subset hmem) (timescale_subset hfmem) hi
    exact (hover f).1 hfkey (hef ▸ hout)

end

/-! ## Re-keys (R134) -/

/-- The part with another timescale list. -/
def withTimescale (l : List Entry) (s : State) : State := s.setSched { s.sched with timescale := l }

/-- What the re-key of the entries of a list, all live in the timescale list, leaves: only the timescale list differs, and it
holds these entries re-keyed, and the others. -/
structure Rekeyed (l : List Entry) (s t : State) : Prop where
  only : t = withTimescale t.sched.timescale s
  order : ScheduleInOrder t.sched
  mem : ∀ x, x ∈ t.sched.timescale ↔ (∃ e ∈ l, x = e.rekeyed s.ts.utc s.ts.leap) ∨
    (x ∈ s.sched.timescale ∧ ∀ e ∈ l, e.handle.index ≠ x.handle.index)

section
variable {s : State} {e x : Entry}

theorem Rekeyed.ts {l : List Entry} {t : State} (h : Rekeyed l s t) : t.ts = s.ts := by
  rw [h.only]
  rfl

theorem Rekeyed.elapsed {l : List Entry} {t : State} (h : Rekeyed l s t) : t.sched.elapsed = s.sched.elapsed := by
  rw [h.only]
  rfl

/-- The re-key of one entry. -/
theorem rekeyEntry_eq (h : ScheduleInOrder s.sched) (he : e ∈ s.sched.timescale) :
    rekeyEntry s e =
      withTimescale (placeEntry (e.rekeyed s.ts.utc s.ts.leap)
        (s.sched.timescale.filter fun y => y.handle.index != e.handle.index)) s := by
  have hleave : (s.sched.leave e.handle.index).elapsed = s.sched.elapsed :=
    List.filter_eq_self.2 fun y hy => bne_iff_ne.2 (Ne.symm ((List.pairwise_append.1 h.indices).2.2 e he y hy))
  rw [rekeyEntry, join_timescale (e.rekeyed s.ts.utc s.ts.leap) _ (h.timescaleDomain e he), hleave]
  rfl

theorem mem_timescale_rekeyEntry (h : ScheduleInOrder s.sched) (he : e ∈ s.sched.timescale) :
    x ∈ (rekeyEntry s e).sched.timescale ↔
      x = e.rekeyed s.ts.utc s.ts.leap ∨ (x ∈ s.sched.timescale ∧ e.handle.index ≠ x.handle.index) := by
  rw [rekeyEntry_eq h he, withTimescale, State.setSched_sched, mem_placeEntry, List.mem_filter, bne_iff_ne,
    @ne_comm _ x.handle.index]

theorem foldl_rekeyEntry_rekeyed (l : List Entry) (s : State) (h : ScheduleInOrder s.sched)
    (hd : l.Pairwise fun x y => x.handle.index ≠ y.handle.index) (hl : ∀ e ∈ l, e ∈ s.sched.timescale) :
    Rekeyed l s (l.foldl rekeyEntry s) := by
  induction l generalizing s with
  | nil => exact ⟨rfl, h, fun x => by simp⟩
  | cons e l ih =>
    obtain ⟨hfirst, hrest⟩ := List.pairwise_cons.1 hd
    have he := hl e List.mem_cons_self
    have hmem := fun x => mem_timescale_rekeyEntry (x := x) h he
    have hover : ∀ m, withTimescale m (rekeyEntry s e) = withTimescale m s := fun m => by
      rw [rekeyEntry_eq h he]
      rfl
    have k := ih (rekeyEntry s e) (rekeyEntry_inOrder s e h (h.carries (timescale_subset he))) hrest fun f hf =>
      (hmem f).2 (.inr ⟨hl f (List.mem_cons_of_mem _ hf), hfirst f hf⟩)
    refine ⟨k.only.trans (hover _), k.order, fun x => (k.mem x).trans ?_⟩
    · rw [hmem]
      have hidx : ∀ f ∈ l, f.handle.index ≠ (e.rekeyed s.ts.utc s.ts.leap).handle.index := fun f hf => Ne.symm (hfirst f hf)
      simp only [List.exists_mem_cons_iff, List.forall_mem_cons]
      constructor
      · rintro (hf | ⟨rfl | ⟨hx, hne⟩, hall⟩)
        · exact .inl (.inr hf)
        · exact .inl (.inl rfl)
        · exact .inr ⟨hx, hne, hall⟩
      · rintro ((rfl | hf) | ⟨hx, hne, hall⟩)
        · exact .inr ⟨.inl rfl, hidx⟩
        · exact .inl hf
        · exact .inr ⟨.inr ⟨hx, hne⟩, hall⟩

end

/-- The entries that a re-key finds late: each once, in the order of the new keys. -/
theorem mem_rekeyedLate {t : Timescale} {l : List Entry} {x : Entry} :
    x ∈ rekeyedLate t l ↔ ∃ e ∈ l, x = e.rekeyed t.utc t.leap ∧ x.key ≠ e.key ∧ x.key ≤ t.dt := by
  rw [(rekeyedLate_perm t l).mem_iff]
  simp only [List.mem_map, List.mem_filter, Bool.and_eq_true, decide_eq_true_eq]
  constructor
  · rintro ⟨e, ⟨he, hne, hle⟩, rfl⟩
    exact ⟨e, he, rfl, hne, hle⟩
  · rintro ⟨e, he, rfl, hne, hle⟩
    exact ⟨e, ⟨he, hne, hle⟩, rfl⟩

theorem foldr_placeEntry_ordered (l : List Entry) : (l.foldr placeEntry []).Pairwise Entry.notAfter := by
  induction l with
  | nil => exact .nil
  | cons e l ih => exact placeEntry_ordered e _ ih

theorem rekeyedLate_pairwise {t : Timescale} {l : List Entry}
    (hd : l.Pairwise fun x y => x.handle.index ≠ y.handle.index) :
    (rekeyedLate t l).Pairwise fun a b => a.notAfter b ∧ a.handle.index ≠ b.handle.index := by
  refine List.pairwise_and_iff.2 ⟨foldr_placeEntry_ordered _, ?_⟩
  refine ((rekeyedLate_perm t l).pairwise_iff fun {a b} hab => Ne.symm hab).2 ?_
  rw [List.pairwise_map]
  exact hd.filter _

/-! ## A change of offset or announcement (R134, R135) -/

/-- The shifted entries of the second that an applied DELETE removed. -/
def shiftedAt (removed : Option Ticks) (c : Schedule) : List Entry :=
  c.timescale.filter fun e => e.domain == .ut && (e.shifted && decide (removed = some e.key))

/-- The other UT entries. -/
def otherUt (removed : Option Ticks) (c : Schedule) : List Entry :=
  c.timescale.filter fun e => e.domain == .ut && !(e.shifted && decide (removed = some e.key))

section
variable {removed : Option Ticks} {c : Schedule} {e f x : Entry}

theorem mem_of_mem_shiftedAt (h : e ∈ shiftedAt removed c) : e ∈ c.timescale ∧ e.domain = .ut := by
  obtain ⟨hmem, hp⟩ := List.mem_filter.1 h
  exact ⟨hmem, beq_iff_eq.1 (Bool.and_eq_true_iff.1 hp).1⟩

theorem mem_of_mem_otherUt (h : e ∈ otherUt removed c) : e ∈ c.timescale ∧ e.domain = .ut := by
  obtain ⟨hmem, hp⟩ := List.mem_filter.1 h
  exact ⟨hmem, beq_iff_eq.1 (Bool.and_eq_true_iff.1 hp).1⟩

theorem shiftedAt_or_otherUt (h : e ∈ c.timescale) (hd : e.domain = .ut) :
    e ∈ shiftedAt removed c ∨ e ∈ otherUt removed c := by
  cases hp : e.shifted && decide (removed = some e.key) with
  | true => exact .inl (List.mem_filter.2 ⟨h, by rw [hd, hp]; rfl⟩)
  | false => exact .inr (List.mem_filter.2 ⟨h, by rw [hd, hp]; rfl⟩)

theorem shiftedAt_index_ne (hc : ScheduleInOrder c) (he : e ∈ otherUt removed c) (hf : f ∈ shiftedAt removed c) :
    e.handle.index ≠ f.handle.index := fun hi => by
  obtain ⟨hemem, hep⟩ := List.mem_filter.1 he
  obtain ⟨hfmem, hfp⟩ := List.mem_filter.1 hf
  rw [hc.eq_of_index (timescale_subset hemem) (timescale_subset hfmem) hi] at hep
  rw [Bool.and_eq_true_iff] at hep hfp
  rw [hfp.2] at hep
  exact Bool.noConfusion hep.2

/-- An entry of DT shares its index with no UT entry. -/
theorem index_ne_of_dt (hc : ScheduleInOrder c) (he : e ∈ c.timescale) (hd : e.domain = .dt)
    (hf : f ∈ c.timescale ∧ f.domain = .ut) : e.handle.index ≠ f.handle.index := fun hi => by
  rw [hc.eq_of_index (timescale_subset he) (timescale_subset hf.1) hi, hf.2] at hd
  cases hd

end

/-- A change of offset or announcement, in the lists that it takes: the shifted entries at the removed second fire, the
others of UT are re-keyed, and the late ones of these fire (R134, R135). -/
theorem takeChange_eq (removed : Option Ticks) (s : State) :
    takeChange removed s =
      let s1 := (shiftedAt removed s.sched).foldl (fun w e => fire true true e.key e w) s
      let other := otherUt removed s.sched
      (rekeyedLate s.ts other).foldl (fun w e => fire true false s.ts.dt e w)
        (noteKeyed (rekeyedIndices s.ts other) (other.foldl rekeyEntry s1)) := by
  simp only [takeChange, fireShifted, fireAll, List.filter_filter, atRemoved_eq, reduceCtorEq, decide_false, Bool.and_comm,
    shiftedAt, otherUt]

/-- The three stages of a change: from `s` the shifted entries of the removed second fire and leave `s1`, the other UT
entries are re-keyed and leave `w`, and the late ones of these fire and leave `v`. -/
structure ChangeStages (removed : Option Ticks) (s s1 w v : State) : Prop where
  before : ScheduleInOrder s.sched
  fired : FiredEach Entry.key (shiftedAt removed s.sched) s s1
  order : ScheduleInOrder w.sched
  ts : w.ts = s1.ts
  elapsed : w.sched.elapsed = s1.sched.elapsed
  mem : ∀ x, x ∈ w.sched.timescale ↔ (∃ e ∈ otherUt removed s.sched, x = e.rekeyed s.ts.utc s.ts.leap) ∨
    (x ∈ s1.sched.timescale ∧ ∀ e ∈ otherUt removed s.sched, e.handle.index ≠ x.handle.index)
  late : FiredEach (fun _ => s.ts.dt) (rekeyedLate s.ts (otherUt removed s.sched)) w v

/-- A change goes through these stages. -/
theorem takeChange_stages (removed : Option Ticks) (s : State) (h : ScheduleInOrder s.sched) :
    let s1 := (shiftedAt removed s.sched).foldl (fun w e => fire true true e.key e w) s
    let other := otherUt removed s.sched
    let r := other.foldl rekeyEntry s1
    ChangeStages removed s s1 (noteKeyed (rekeyedIndices s.ts other) r) (takeChange removed s) ∧
      r = withTimescale r.sched.timescale s1 := by
  intro s1 other r
  have hindices := timescale_indices h
  have hfired : FiredEach Entry.key (shiftedAt removed s.sched) s s1 :=
    foldl_fire_fired true (fun _ => true) Entry.key _ s h (hindices.filter _) fun e he => (mem_of_mem_shiftedAt he).1
  have hrekey : Rekeyed other s1 r :=
    foldl_rekeyEntry_rekeyed other s1 hfired.order (hindices.filter _) fun e he =>
      hfired.stays e (mem_of_mem_otherUt he).1 fun f hf => shiftedAt_index_ne h he hf
  have hmem := hrekey.mem
  rw [hfired.ts] at hmem
  have hlate : ∀ y ∈ rekeyedLate s.ts other, y ∈ r.sched.timescale := fun y hy => by
    obtain ⟨e, he, rfl, -⟩ := mem_rekeyedLate.1 hy
    exact (hmem _).2 (.inl ⟨e, he, rfl⟩)
  have hpairwise := rekeyedLate_pairwise (t := s.ts) (l := other) (hindices.filter _)
  refine ⟨⟨h, hfired, hrekey.order, hrekey.ts, hrekey.elapsed, hmem, ?_⟩, hrekey.only⟩
  rw [takeChange_eq]
  exact foldl_fire_fired true (fun _ => false) (fun _ => s.ts.dt) (rekeyedLate s.ts other)
    (noteKeyed (rekeyedIndices s.ts other) r) hrekey.order (hpairwise.imp And.right) hlate

/-- Where an entry of the timescale list comes from after a change: it stood there and is no entry of UT, it is a re-keyed
entry that is not late, or it goes on after a firing of either stage. -/
inductive ChangeSource (removed : Option Ticks) (s : State) (x : Entry) : Prop
  | stood (h : x ∈ s.sched.timescale) (hd : x.domain ≠ .ut)
  | rekeyed (e : Entry) (he : e ∈ otherUt removed s.sched) (hx : x = e.rekeyed s.ts.utc s.ts.leap)
      (hearly : ¬(x.key ≠ e.key ∧ x.key ≤ s.ts.dt))
  | wentOn (f : Entry) (b : Ticks) (hd : f.domain = .ut) (hp : ∀ t, f.train = some t → 0 < t.period)
      (ha : f.after s.ts.utc s.ts.leap b = some { x with last := f.last })
      (hstage : f ∈ shiftedAt removed s.sched ∨ b = s.ts.dt)

namespace ChangeStages
variable {removed : Option Ticks} {s s1 w v : State} {e x : Entry} (h : ChangeStages removed s s1 w v)
include h

theorem w_ts : w.ts = s.ts := h.ts.trans h.fired.ts

theorem v_elapsed : v.sched.elapsed = s.sched.elapsed := (h.late.elapsed.trans h.elapsed).trans h.fired.elapsed

theorem v_ts : v.ts = s.ts := h.late.ts.trans h.w_ts

/-- An entry of DT stands as before. -/
theorem keeps_dt (he : e ∈ s.sched.timescale) (hd : e.domain = .dt) : e ∈ v.sched.timescale := by
  have hother : ∀ f ∈ otherUt removed s.sched, e.handle.index ≠ f.handle.index := fun f hf =>
    index_ne_of_dt h.before he hd (mem_of_mem_otherUt hf)
  have h1 : e ∈ s1.sched.timescale :=
    h.fired.stays e he fun f hf => index_ne_of_dt h.before he hd (mem_of_mem_shiftedAt hf)
  refine h.late.stays e ((h.mem e).2 (.inr ⟨h1, fun f hf => Ne.symm (hother f hf)⟩)) fun y hy => ?_
  obtain ⟨f, hf, rfl, -⟩ := mem_rekeyedLate.1 hy
  exact hother f hf

/-- A re-keyed entry that is not late stands with its new key. -/
theorem keeps_rekeyed (he : e ∈ otherUt removed s.sched)
    (hearly : ¬((e.rekeyed s.ts.utc s.ts.leap).key ≠ e.key ∧ (e.rekeyed s.ts.utc s.ts.leap).key ≤ s.ts.dt)) :
    e.rekeyed s.ts.utc s.ts.leap ∈ v.sched.timescale := by
  refine h.late.stays _ ((h.mem _).2 (.inl ⟨e, he, rfl⟩)) fun y hy hi => ?_
  obtain ⟨f, hf, rfl, hlate⟩ := mem_rekeyedLate.1 hy
  have hef := h.before.eq_of_index (timescale_subset (mem_of_mem_otherUt he).1)
    (timescale_subset (mem_of_mem_otherUt hf).1) hi
  exact hearly (hef ▸ hlate)

theorem source (hx : x ∈ v.sched.timescale) : ChangeSource removed s x := by
  have hperiods : ∀ f ∈ s.sched.timescale, ∀ t, f.train = some t → 0 < t.period := fun f hf =>
    h.before.periods f (timescale_subset hf)
  rcases h.late.comes x hx with ⟨hw, hnot⟩ | ⟨y, hy, ha⟩
  · rcases (h.mem x).1 hw with ⟨e, he, rfl⟩ | ⟨hs1, hother⟩
    · exact .rekeyed e he rfl fun hlate => hnot _ (mem_rekeyedLate.2 ⟨e, he, rfl, hlate⟩) rfl
    · rcases h.fired.comes x hs1 with ⟨hs, hfirst⟩ | ⟨f, hf, ha⟩
      · refine .stood hs fun hd => ?_
        rcases shiftedAt_or_otherUt hs hd with hmem | hmem
        · exact hfirst x hmem rfl
        · exact hother x hmem rfl
      · obtain ⟨hmem, hd⟩ := mem_of_mem_shiftedAt hf
        exact .wentOn f f.key hd (hperiods f hmem) ha (.inl hf)
  · obtain ⟨e, he, rfl, -⟩ := mem_rekeyedLate.1 hy
    obtain ⟨hmem, hd⟩ := mem_of_mem_otherUt he
    rw [h.w_ts] at ha
    exact .wentOn _ _ hd (hperiods e hmem) ha (.inr rfl)

end ChangeStages

namespace ChangeSource
variable {removed : Option Ticks} {s : State} {x : Entry}

/-- Every UT entry has the key and mark of R3. -/
theorem keyed (h : ChangeSource removed s x) (hd : x.domain = .ut) :
    x.key = (toDt s.ts.utc s.ts.leap x.due).1.toNat ∧ x.shifted = (toDt s.ts.utc s.ts.leap x.due).2 := by
  cases h with
  | stood _ hnot => exact absurd hd hnot
  | rekeyed e _ hx _ => rw [hx]; exact ⟨rfl, rfl⟩
  | wentOn f b hf hp ha _ =>
    have hkey := after_keyed ha hp hf
    exact hkey

theorem of_dt (h : ChangeSource removed s x) (hd : x.domain = .dt) : x ∈ s.sched.timescale := by
  cases h with
  | stood hmem _ => exact hmem
  | rekeyed e he hx _ =>
    rw [hx] at hd
    exact absurd ((mem_of_mem_otherUt he).2.symm.trans hd) Scale.noConfusion
  | wentOn f b hf _ ha _ =>
    obtain ⟨-, -, hdom, -⟩ := after_facts ha
    exact absurd (hf.symm.trans (hdom.symm.trans hd)) Scale.noConfusion

/-- Where no shifted entry fired, a UT entry with a reached key has the key of a live entry from before. -/
theorem of_reached (h : ChangeSource removed s x) (hfirst : shiftedAt removed s.sched = []) (hle : x.key ≤ s.ts.dt) :
    ∃ e ∈ s.sched.timescale, e.handle = x.handle ∧ e.key = x.key := by
  cases h with
  | stood hmem _ => exact ⟨x, hmem, rfl, rfl⟩
  | rekeyed e he hx hearly =>
    have hkey : x.key = e.key := not_not.1 fun hne => hearly ⟨hne, hle⟩
    exact ⟨e, (mem_of_mem_otherUt he).1, by rw [hx]; rfl, hkey.symm⟩
  | wentOn f b _ hp ha hstage =>
    rw [hfirst] at hstage
    have hb : b = s.ts.dt := hstage.resolve_left List.not_mem_nil
    exact absurd hle (hb ▸ (after_key ha hp).2).not_ge

end ChangeSource

theorem exec_rekey {removed : Option Ticks} {rest : List ScheduleMsg} {s : State}
    (h : s.flight.toSchedule = .change removed :: rest) :
    exec .rekey s = .next (takeChange removed (withReports rest s)) := by
  change execRekey s = _
  rw [execRekey, h]
  rfl

/-! ## The statement -/

/-- Settles O42: a step report by its direction and by whether a key was reached before it; a change by its three stages and
by where an entry left in the timescale list comes from. -/
theorem stepsAndChangesReachTheSchedule : Obligations.StepsAndChangesReachTheSchedule := by
  refine ⟨?steps, ?changes⟩
  case steps =>
    intro old new removed later rest s hq u
    rw [exec_stepReport hq]
    refine ⟨fun hle => congrArg _ (takeStep_backward hle), ?_⟩
    intro reached
    have hreached : ∀ e, e.reachedBy old later = false ↔ ¬reached e := fun e => reachedBy_eq_false_iff
    refine ⟨fun p e l hlt h hl hp he => ?first, fun hlt hnone => ?none, fun hlt h => ?left⟩
    case first =>
      have hq' : (fire false false e.key e s).flight.toSchedule = .step old new removed later :: rest :=
        (fire_toSchedule ..).trans hq
      rw [exec_stepReport hq', ← fire_comm (unread_withReports rest)]
      exact congrArg _ (takeStep_first hlt h hl (fun y hy => (hreached y).2 (hp y hy)) ((reachedBy_iff _ _ _).2 he))
    case none =>
      rw [takeStep_forward hlt, fireReached_stay _ old later (withReports rest s) fun e he => (hreached e).2 (hnone e he)]
      rfl
    case left =>
      obtain ⟨helapsed, hleft, hother⟩ := takeStep_leaves (removed := removed) (later := later)
        (s := withReports rest s) hlt h
      exact ⟨_, rfl, helapsed, fun e he => ⟨(hreached e).1 (hleft e he).1, (hleft e he).2⟩,
        fun e he hnot => hother e he ((hreached e).2 hnot)⟩
  case changes =>
    intro removed rest s hq h u keyed moved first other changed s1
    obtain ⟨hstages, honly⟩ := takeChange_stages removed u h
    have hreports : s1.flight.toSchedule = rest := hstages.fired.reports
    refine ⟨_, _, rekeyedLate s.ts other, exec_rekey hq, takeChange_eq removed u, ?stage, hstages.order.timescale,
      hstages.mem, rekeyedLate_pairwise ((timescale_indices h).filter _), fun x => mem_rekeyedLate,
      fun e he _ hlt => hstages.keeps_rekeyed he fun hl => hlt.not_ge hl.2,
      hstages.v_elapsed, hstages.v_ts, fun e he => (hstages.source he).keyed, fun e he => hstages.keeps_dt he,
      fun e he => (hstages.source he).of_dt, fun e he hkey => hstages.keeps_rekeyed he fun hl => hl.1 hkey.symm,
      fun hnil e he _ => (hstages.source he).of_reached hnil⟩
    case stage =>
      rw [← hreports]
      exact congrArg (noteKeyed changed) honly

end Sys2Proof.Machine
end

section
/-! Lines and spans with their kinds and levels (R138 … R140), and the requests and pulse ends that drive outputs
(R142 … R145). -/

namespace Sys2Proof.Machine

/-! ## Effective lines and spans (R140) -/

/-- The number of lines that a count stands for. -/
def spanSize (c : Nat) : Nat := if c = 0 then 16 else c

/-- The lines of a span from line `i` on. -/
def spanFrom (i k : Nat) : List Nat := (List.range k).map (i + ·)

section
variable {base i j c : Nat} {disp : Int}

/-- Base and displacement that add up to a line within 0 … 63 name it. -/
theorem effectiveLine_of_le (hn : (base : Int) + disp = i) (hi : i ≤ 63) : effectiveLine base disp = some i :=
  effectiveLine_eq_some_iff.2 ⟨hn.symm, hi⟩

theorem spanSize_pos (c : Nat) : 0 < spanSize c := by
  unfold spanSize
  split <;> omega

/-- A span is that of its count from its effective line on, where both are within their ranges. -/
theorem spanLines_eq_spanFrom_iff {l : List Nat} :
    spanLines base disp c = some l ↔
      ∃ i : Nat, (base : Int) + disp = i ∧ c ≤ 16 ∧ i + spanSize c ≤ 64 ∧ l = spanFrom i (spanSize c) := by
  have hpos := spanSize_pos c
  rw [spanLines_eq_some_iff]
  constructor
  · rintro ⟨i, k, hi, hk, hle, rfl⟩
    obtain ⟨hc, rfl⟩ := spanCount_eq_some_iff.1 hk
    exact ⟨i, (effectiveLine_eq_some_iff.1 hi).1.symm, hc, hle, rfl⟩
  · rintro ⟨i, hn, hc, hle, rfl⟩
    exact ⟨i, spanSize c, effectiveLine_of_le hn (by omega), spanCount_eq_some_iff.2 ⟨hc, rfl⟩, hle, rfl⟩

theorem mem_spanFrom {k n : Nat} : n ∈ spanFrom i k ↔ ∃ j, j < k ∧ i + j = n := by
  simp [spanFrom]

theorem getElem?_spanFrom (i k j : Nat) : (spanFrom i k)[j]? = if j < k then some (i + j) else none := by
  by_cases h : j < k <;> simp [spanFrom, h]

theorem headD_spanFrom (hc : 0 < c) : (spanFrom i c).headD 0 = i := by
  obtain ⟨k, rfl⟩ := Nat.exists_eq_succ_of_ne_zero hc.ne'
  simp [spanFrom, List.range_succ_eq_map]

theorem length_spanFrom (i k : Nat) : (spanFrom i k).length = k := by
  simp [spanFrom]

/-! ## Kinds of lines (R138) -/

theorem lineKind_output (h : i < 24) : lineKind i = .output i := if_pos h

theorem lineKind_input (h : i < 16) : lineKind (32 + i) = .input i := by
  have hnot : ¬32 + i < 24 ∧ ¬32 + i < 32 ∧ 32 + i < 48 := by omega
  simp [lineKind, hnot]

theorem lineKind_internal (h : i < 8) : lineKind (56 + i) = .internal := by
  have hnot : ¬56 + i < 24 ∧ ¬56 + i < 32 ∧ ¬56 + i < 48 ∧ ¬56 + i < 56 ∧ 56 + i < 64 := by omega
  simp [lineKind, hnot]

theorem lineKind_eq_absent_iff : lineKind i = .absent ↔ (24 ≤ i ∧ i < 32) ∨ (48 ≤ i ∧ i < 56) ∨ 64 ≤ i := by
  unfold lineKind
  split_ifs <;> simp only [false_iff, true_iff] <;> omega

theorem lineKind_eq_output_iff {n : Nat} : lineKind n = .output i ↔ n < 24 ∧ n = i := by
  unfold lineKind
  split_ifs <;> simp only [LineKind.output.injEq, false_iff] <;> omega

theorem lineKind_eq_input_iff {n : Nat} : lineKind n = .input i ↔ n < 48 ∧ n = 32 + i := by
  unfold lineKind
  split_ifs <;> simp only [LineKind.input.injEq, false_iff] <;> omega

/-- A line that is no output is no effective line of one. -/
theorem isOutput_of_outside (h : (base : Int) + disp < 0 ∨ 24 ≤ (base : Int) + disp)
    (hi : effectiveLine base disp = some i) : isOutput i = false := by
  obtain ⟨hn, -⟩ := effectiveLine_eq_some_iff.1 hi
  exact decide_eq_false (by simp only [Config.outputCount]; omega)

theorem isOutput_of_lt (h : i < 24) : isOutput i = true := decide_eq_true h

end

/-! ## Levels (R138, R139) -/

/-- The levels of the internal lines from line 56 on, for the agent that reads them. -/
def internalLevels (ag : Agent) (s : State) : List Bool :=
  [s.ts.servo == .locked, s.ts.servo == .holdover, s.ts.timeSet, s.holdsGrant ag, s.ports.a.state == .up,
    s.ports.b.state == .up, s.ts.leap != .none, s.ts.servo == .fault]

section
variable {s : State} {ag : Agent} {i : Nat}

theorem input_of_getElem? {x : Input} (h : s.lines.inputs[i]? = some x) : s.input i = x := by
  rw [State.input, List.getD_eq_getElem?_getD, h, Option.getD_some]

theorem lineLevel_output {x : Output} (hi : i < 24) (h : s.lines.outputs[i]? = some x) : lineLevel ag s i = x.level := by
  rw [lineLevel, lineKind_output hi, ← output_of_getElem? h]

theorem lineLevel_input {x : Input} (hi : i < 16) (h : s.lines.inputs[i]? = some x) :
    lineLevel ag s (32 + i) = x.level := by
  rw [lineLevel, lineKind_input hi, ← input_of_getElem? h]

theorem internalLevels_lt {b : Bool} (h : (internalLevels ag s)[i]? = some b) : i < 8 :=
  (List.getElem?_eq_some_iff.1 h).1

theorem lineLevel_internal {b : Bool} (h : (internalLevels ag s)[i]? = some b) : lineLevel ag s (56 + i) = b := by
  have hi := internalLevels_lt h
  obtain ⟨-, rfl⟩ := List.getElem?_eq_some_iff.1 h
  rw [lineLevel, lineKind_internal hi]
  interval_cases i <;> simp [internalLevel, internalLevels, bne, beq_eq_decide]

/-- Bit `j` of the value of a list of lines is the level of its line `j`. -/
theorem testBit_spanValue (l : List Nat) (j : Nat) :
    (spanValue ag s l).testBit j = (l[j]?.map (lineLevel ag s)).getD false := by
  induction l generalizing j with
  | nil => simp [spanValue]
  | cons n l ih =>
    have hcons : spanValue ag s (n :: l) = Nat.bit (lineLevel ag s n) (spanValue ag s l) := by
      cases hn : lineLevel ag s n <;> simp [spanValue, Nat.bit, hn]
    rw [hcons]
    cases j with
    | zero => simp
    | succ j => simpa [Nat.testBit_bit_succ] using ih j

theorem testBit_spanValue_spanFrom (k j : Nat) :
    (spanValue ag s (spanFrom i k)).testBit j = (decide (j < k) && lineLevel ag s (i + j)) := by
  rw [testBit_spanValue, getElem?_spanFrom]
  by_cases h : j < k <;> simp [h]

end

/-! ## LINE-SET and LINE-CLEAR (R142, R144) -/

section
variable {s : State} {ag : Agent} {d : Int} {i : Nat} {x : Output}

/-- SET or CLEAR by the level that the output takes. -/
def levelOp (high : Bool) : LineOp := if high then .set else .clear

theorem drive_levelOp (high : Bool) (el : Nat) (x : Output) :
    x.drive (levelOp high) el = { x with level := high, pulseEnd := none } := by
  cases high <;> rfl

theorem exec_lineOp (high : Bool) (ag : Agent) (o : Options) (d : Int) (s : State) :
    exec (if high then .lineSet ag o d else .lineClear ag o d) s =
      .next (runRequest ag ⟨o, if high then .lineSet d else .lineClear d⟩ (takeLineOp ag (levelOp high) d) s) := by
  cases high <;> rfl

theorem takeLineOp_range (op : LineOp) (h : ((s.ctx ag).lineBase : Int) + d < 0 ∨ 24 ≤ ((s.ctx ag).lineBase : Int) + d) :
    takeLineOp ag op d s = refuse .range s := by
  unfold takeLineOp
  split
  next => rfl
  next n hn => rw [if_pos (isOutput_of_outside h hn)]

/-- SET and CLEAR of an output go by its owner alone. -/
theorem takeLineOp_output (op : LineOp) (hn : ((s.ctx ag).lineBase : Int) + d = i) (hi : i < 24) :
    takeLineOp ag op d s =
      if (s.output i).owner = some ag then
        accept (.line i (lineLevel ag (driveLine op i s) i)) (driveLine op i s)
      else refuse .lineOwner s := by
  have he : effectiveLine (s.ctx ag).lineBase d = some i := effectiveLine_of_le hn (by omega)
  by_cases ho : (s.output i).owner = some ag <;> simp [takeLineOp, he, isOutput_of_lt hi, ownsLine, ho]

theorem takeLineOp_not_owned (op : LineOp) (hn : ((s.ctx ag).lineBase : Int) + d = i) (hi : i < 24)
    (hx : s.lines.outputs[i]? = some x) (ho : x.owner ≠ some ag) : takeLineOp ag op d s = refuse .lineOwner s := by
  rw [takeLineOp_output op hn hi, if_neg (output_of_getElem? hx ▸ ho)]

theorem takeLineOp_owned (high : Bool) (hn : ((s.ctx ag).lineBase : Int) + d = i) (hi : i < 24)
    (hx : s.lines.outputs[i]? = some x) (ho : x.owner = some ag) :
    takeLineOp ag (levelOp high) d s =
      accept (.line i high) (s.setOutput i { x with level := high, pulseEnd := none }) := by
  have hlen := (List.getElem?_eq_some_iff.1 hx).1
  have hdrive : driveLine (levelOp high) i s = s.setOutput i { x with level := high, pulseEnd := none } := by
    rw [driveLine, output_of_getElem? hx, drive_levelOp]
  have hlevel : lineLevel ag (s.setOutput i { x with level := high, pulseEnd := none }) i = high :=
    lineLevel_output (x := { x with level := high, pulseEnd := none }) hi (by simp [hlen])
  rw [takeLineOp_output _ hn hi, if_pos (output_of_getElem? hx ▸ ho), hdrive, hlevel]

end

/-! ## LINE-LOAD (R145) -/

section
variable {s : State} {ag : Agent} {d : Int} {c i : Nat}

theorem takeLineLoad_range (v : Nat)
    (h : ((s.ctx ag).lineBase : Int) + d < 0 ∨ 24 < ((s.ctx ag).lineBase : Int) + d + spanSize c ∨ 16 < c) :
    takeLineLoad ag d c v s = refuse .range s := by
  have hpos := spanSize_pos c
  unfold takeLineLoad
  split
  next => rfl
  next l hl =>
    obtain ⟨i, hn, hc, -, rfl⟩ := spanLines_eq_spanFrom_iff.1 hl
    have hout : ¬(spanFrom i (spanSize c)).all isOutput = true := fun hall => by
      have hle := (all_isOutput_span hpos).1 hall
      omega
    exact if_pos (Bool.eq_false_iff.2 hout)

/-- LOAD of a span of outputs goes by their owners alone. -/
theorem takeLineLoad_outputs (v : Nat) (hn : ((s.ctx ag).lineBase : Int) + d = i) (hi : i + spanSize c ≤ 24)
    (hc : c ≤ 16) :
    takeLineLoad ag d c v s =
      if ∀ j, j < spanSize c → (s.output (i + j)).owner = some ag then
        accept (.lineSpan i (spanSize c)
            (spanValue ag (loadLines v (spanFrom i (spanSize c)) s) (spanFrom i (spanSize c))))
          (loadLines v (spanFrom i (spanSize c)) s)
      else refuse .lineOwner s := by
  have hl : spanLines (s.ctx ag).lineBase d c = some (spanFrom i (spanSize c)) :=
    spanLines_eq_spanFrom_iff.2 ⟨i, hn, hc, by omega, rfl⟩
  have hout : (spanFrom i (spanSize c)).all isOutput = true := (all_isOutput_span (spanSize_pos c)).2 hi
  have howns : (spanFrom i (spanSize c)).all (ownsLine ag s) = true ↔
      ∀ j, j < spanSize c → (s.output (i + j)).owner = some ag := by
    simp [spanFrom, ownsLine]
  simp only [takeLineLoad, hl, hout, Bool.true_eq_false, if_false, headD_spanFrom (spanSize_pos c), length_spanFrom,
    ← howns]
  cases (spanFrom i (spanSize c)).all (ownsLine ag s) <;> rfl

/-- Only an output that is there has an owner. -/
theorem lt_length_of_owner (h : (s.output i).owner = some ag) : i < s.lines.outputs.length := by
  by_contra hlen
  rw [State.output, List.getD_eq_default _ _ (not_lt.1 hlen)] at h
  cases h

/-- The lines of a loaded span show the bits of the value. -/
theorem spanValue_loadedOutputs (v : Nat) {k : Nat} (hi : i + k ≤ 24) (hlen : i + k ≤ s.lines.outputs.length) :
    spanValue ag (s.setLines { s.lines with outputs := loadedOutputs i k v s.lines.outputs }) (spanFrom i k) = v % 2 ^ k := by
  refine Nat.eq_of_testBit_eq fun j => ?_
  rw [testBit_spanValue_spanFrom, Nat.testBit_mod_two_pow]
  by_cases hj : j < k
  · have hget : s.lines.outputs[i + j]? = some (s.lines.outputs[i + j]'(by omega)) := List.getElem?_eq_getElem _
    rw [lineLevel_output (x := { s.lines.outputs[i + j]'(by omega) with level := v.testBit j, pulseEnd := none })
      (by omega) (by simp [getElem?_loadedOutputs, hget, hj])]
  · simp [hj]

theorem takeLineLoad_owned (v : Nat) (hn : ((s.ctx ag).lineBase : Int) + d = i) (hi : i + spanSize c ≤ 24)
    (hc : c ≤ 16) (howns : ∀ j, j < spanSize c → (s.output (i + j)).owner = some ag) :
    takeLineLoad ag d c v s =
      accept (.lineSpan i (spanSize c) (v % 2 ^ spanSize c))
        (s.setLines { s.lines with outputs := loadedOutputs i (spanSize c) v s.lines.outputs }) := by
  have hpos := spanSize_pos c
  have hlen : i + spanSize c ≤ s.lines.outputs.length := by
    have := lt_length_of_owner (howns (spanSize c - 1) (by omega))
    omega
  have hload : loadLines v (spanFrom i (spanSize c)) s =
      s.setLines { s.lines with outputs := loadedOutputs i (spanSize c) v s.lines.outputs } := act_load hlen
  rw [takeLineLoad_outputs v hn hi hc, if_pos howns, hload, spanValue_loadedOutputs v hi hlen]

theorem takeLineLoad_not_owned (v : Nat) (hn : ((s.ctx ag).lineBase : Int) + d = i) (hi : i + spanSize c ≤ 24)
    (hc : c ≤ 16) (howns : ¬∀ j, j < spanSize c → (s.output (i + j)).owner = some ag) :
    takeLineLoad ag d c v s = refuse .lineOwner s := by
  rw [takeLineLoad_outputs v hn hi hc, if_neg howns]

/-! ## Pulse ends (R143) -/

theorem endPulse_output {x : Output} (hx : s.lines.outputs[i]? = some x) :
    endPulse i s =
      if ∃ t, x.pulseEnd = some t ∧ t ≤ s.ts.el then s.setOutput i { x with level := false, pulseEnd := none } else s := by
  have hdue : pulseDue i s = true ↔ ∃ t, x.pulseEnd = some t ∧ t ≤ s.ts.el := by
    rw [pulseDue, output_of_getElem? hx]
    cases x.pulseEnd <;> simp
  simp only [endPulse, hdue, output_of_getElem? hx]

end

/-! ## The statement about outputs -/

/-- Settles O43: each request by the kind and the owners of the lines that it names, a pulse end by EL. -/
theorem outputsAreSetLoadedAndEndTheirPulses : Obligations.OutputsAreSetLoadedAndEndTheirPulses := by
  refine ⟨fun ag o d high s hnow => ?set, fun ag o d c v s hnow => ?load, fun i x s hx => ?pulse⟩
  case set =>
    have hc := exec_lineOp high ag o d s
    refine ⟨fun hout => ?_, fun i x hn hx hi => ⟨fun ho => ?_, fun ho => ?_⟩⟩
    · exact exec_refused hc hnow (takeLineOp_range _ (by simpa using hout))
    · exact exec_refused hc hnow (takeLineOp_not_owned _ (by simpa using hn) hi hx ho)
    · exact exec_accepted hc hnow
        (takeLineOp_owned (s := s.withRequest ag _) high (by simpa using hn) hi hx ho)
  case load =>
    refine ⟨fun hout => ?_, fun i hn hi hc => ⟨fun ho => ?_, fun ho => ?_⟩⟩
    · exact exec_refused rfl hnow (takeLineLoad_range v (by rw [State.withRequest_ctx]; exact hout))
    · exact exec_refused rfl hnow (takeLineLoad_not_owned v (by simpa using hn) hi hc ho)
    · exact exec_accepted rfl hnow (takeLineLoad_owned (s := s.withRequest ag _) v (by simpa using hn) hi hc ho)
  case pulse =>
    have hexec : exec (.pulseEnd i) s = .next (endPulse i s) := rfl
    rw [hexec, endPulse_output hx]
    refine ⟨fun t ht hle => ?_, fun t ht hlt => ?_, fun hnone => ?_⟩
    · exact congrArg Host.Outcome.next (if_pos ⟨t, ht, hle⟩)
    · refine congrArg _ (if_neg fun ⟨t', ht', hle⟩ => hlt.not_ge ?_)
      rwa [Option.some.inj (ht.symm.trans ht')]
    · exact congrArg _ (if_neg fun ⟨t, ht, _⟩ => by simp [hnone] at ht)

end Sys2Proof.Machine
end

section
/-! LINE-TEST and LINE-STORE (R138, R139, R146, R147). -/

namespace Sys2Proof.Machine

/-- The line space has no line of this number (R138). -/
def absentAt (l : Int) : Prop := l < 0 ∨ 63 < l ∨ (24 ≤ l ∧ l < 32) ∨ (48 ≤ l ∧ l < 56)

section
variable {s : State} {ag : Agent} {d : Int} {c i : Nat}

theorem lineKind_eq_absent_iff_absentAt : lineKind i = .absent ↔ absentAt i := by
  rw [lineKind_eq_absent_iff]
  unfold absentAt
  omega

/-! ## LINE-TEST (R146) -/

theorem takeLineTest_range (h : absentAt (((s.ctx ag).lineBase : Int) + d)) : takeLineTest ag d s = refuse .range s := by
  unfold takeLineTest
  split
  next => rfl
  next n hn =>
    rw [← (effectiveLine_eq_some_iff.1 hn).1] at h
    rw [lineKind_eq_absent_iff_absentAt.2 h]

theorem takeLineTest_output {x : Output} (hn : ((s.ctx ag).lineBase : Int) + d = i) (hi : i < 24)
    (hx : s.lines.outputs[i]? = some x) : takeLineTest ag d s = accept (.lineTest i x.level (.output x)) s := by
  simp only [takeLineTest, effectiveLine_of_le hn (by omega), lineKind_output hi, lineLevel_output hi hx,
    output_of_getElem? hx]

theorem dedicated_input_iff : dedicated (32 + i) s = true ↔ i = 15 ∧ s.src.settings.refMode = true := by
  have hline : 32 + i = 47 ↔ i = 15 := by omega
  simp [dedicated, hline]

theorem takeLineTest_input {x : Input} (hn : ((s.ctx ag).lineBase : Int) + d = 32 + i) (hi : i < 16)
    (hx : s.lines.inputs[i]? = some x) :
    takeLineTest ag d s =
      accept (.lineTest (32 + i) x.level (.input x (i == 15 && s.src.settings.refMode))) s := by
  have he : effectiveLine (s.ctx ag).lineBase d = some (32 + i) := effectiveLine_of_le (by omega) (by omega)
  have hded : dedicated (32 + i) s = (i == 15 && s.src.settings.refMode) := by
    rw [Bool.eq_iff_iff, dedicated_input_iff, Bool.and_eq_true, beq_iff_eq]
  simp only [takeLineTest, he, lineKind_input hi, lineLevel_input hi hx, input_of_getElem? hx, hded]

theorem takeLineTest_internal {b : Bool} (hn : ((s.ctx ag).lineBase : Int) + d = 56 + i)
    (hb : (internalLevels ag s)[i]? = some b) : takeLineTest ag d s = accept (.lineTest (56 + i) b .internal) s := by
  have hi := internalLevels_lt hb
  have he : effectiveLine (s.ctx ag).lineBase d = some (56 + i) := effectiveLine_of_le (by omega) (by omega)
  simp only [takeLineTest, he, lineKind_internal hi, lineLevel_internal hb]

/-! ## LINE-STORE (R147) -/

theorem takeLineStore_range
    (h : 16 < c ∨ ∃ j : Nat, j < spanSize c ∧ absentAt (((s.ctx ag).lineBase : Int) + d + j)) :
    takeLineStore ag d c s = refuse .range s := by
  unfold takeLineStore
  split
  next => rfl
  next l hl =>
    obtain ⟨i, hn, hc, -, rfl⟩ := spanLines_eq_spanFrom_iff.1 hl
    obtain ⟨j, hj, habs⟩ := h.resolve_left hc.not_gt
    rw [hn, ← Nat.cast_add, ← lineKind_eq_absent_iff_absentAt] at habs
    exact if_pos (List.any_eq_true.2 ⟨i + j, mem_spanFrom.2 ⟨j, hj, rfl⟩, by rw [habs]; rfl⟩)

theorem takeLineStore_present (hn : ((s.ctx ag).lineBase : Int) + d = i) (hc : c ≤ 16)
    (h : ∀ j : Nat, j < spanSize c → ¬absentAt (((s.ctx ag).lineBase : Int) + d + j)) :
    takeLineStore ag d c s = accept (.lineStore (spanValue ag s (spanFrom i (spanSize c)))) s := by
  have hpos := spanSize_pos c
  have hlast := h (spanSize c - 1) (by omega)
  have hle : i + spanSize c ≤ 64 := by
    unfold absentAt at hlast
    omega
  have hl : spanLines (s.ctx ag).lineBase d c = some (spanFrom i (spanSize c)) :=
    spanLines_eq_spanFrom_iff.2 ⟨i, hn, hc, hle, rfl⟩
  have hnone : ¬(spanFrom i (spanSize c)).any (fun n => lineKind n == .absent) = true := fun hany => by
    obtain ⟨n, hmem, habs⟩ := List.any_eq_true.1 hany
    obtain ⟨j, hj, rfl⟩ := mem_spanFrom.1 hmem
    refine h j hj ?_
    rw [hn, ← Nat.cast_add]
    exact lineKind_eq_absent_iff_absentAt.1 (beq_iff_eq.1 habs)
  simp only [takeLineStore, hl]
  exact if_neg hnone

end

/-! ## The statement -/

/-- Settles O44: each request by the kinds of the lines that it names, and the level of a line by its kind. -/
theorem linesAreRead : Obligations.LinesAreRead := by
  refine ⟨fun ag o d s hnow => ?test, fun ag o d c s hnow => ?store, fun ag s => ?level⟩
  case test =>
    have hctx : (s.withRequest ag ⟨o, .lineTest d⟩).ctx ag = s.ctx ag := State.withRequest_ctx ..
    refine ⟨fun habs => ?_, fun i x hn hi hx => ?_, fun i x hn hi hx => ?_, fun i b hn hb => ?_⟩
    · exact exec_refused rfl hnow (takeLineTest_range (by rw [hctx]; exact habs))
    · exact exec_accepted rfl hnow (takeLineTest_output (by rw [hctx]; exact hn) hi hx)
    · exact exec_accepted rfl hnow (takeLineTest_input (by rw [hctx]; exact hn) hi hx)
    · exact exec_accepted rfl hnow (takeLineTest_internal (by rw [hctx]; exact hn) hb)
  case store =>
    have hctx : (s.withRequest ag ⟨o, .lineStore d c⟩).ctx ag = s.ctx ag := State.withRequest_ctx ..
    refine ⟨fun hbad => ?_, fun i hn hc hgood => ⟨spanValue ag s (spanFrom i (spanSize c)), ?_, fun j => ?_⟩⟩
    · exact exec_refused rfl hnow (takeLineStore_range (by rw [hctx]; exact hbad))
    · exact exec_accepted rfl hnow
        (takeLineStore_present (by rw [hctx]; exact hn) hc (by rw [hctx]; exact hgood))
    · exact testBit_spanValue_spanFrom (spanSize c) j
  case level =>
    exact ⟨fun i x hi hx => lineLevel_output hi hx, fun i x hi hx => lineLevel_input hi hx,
      fun i b hb => lineLevel_internal hb⟩

end Sys2Proof.Machine
end

section
/-! LINE-OWN and LINE-CONFIG (R149, R150). -/

namespace Sys2Proof.Machine

section
variable {s : State} {ag : Agent} {d : Int} {i : Nat}

/-! ## LINE-OWN (R149) -/

theorem takeLineOwn_range (w : Option Agent)
    (h : ((s.ctx ag).lineBase : Int) + d < 0 ∨ 24 ≤ ((s.ctx ag).lineBase : Int) + d) :
    takeLineOwn ag d w s = refuse .range s := by
  unfold takeLineOwn
  split
  next => rfl
  next n hn => simp only [isOutput_of_outside h hn, Bool.false_eq_true, if_false]

theorem takeLineOwn_output (w : Option Agent) {x : Output} (hn : ((s.ctx ag).lineBase : Int) + d = i) (hi : i < 24)
    (hx : s.lines.outputs[i]? = some x) :
    takeLineOwn ag d w s = accept (.lineOwner i x.owner w) (s.setOutput i { x with owner := w }) := by
  simp only [takeLineOwn, effectiveLine_of_le hn (by omega), isOutput_of_lt hi, if_true, output_of_getElem? hx]

/-! ## The settings that LINE-CONFIG names (R150) -/

variable {c : LineSettings}

/-- A pulse width outside its range is named. -/
def badWidth (c : LineSettings) : Prop := ∃ w, c.width = some w ∧ (w < 50 ∨ 1000000000 < w)

/-- A setting of an input is named. -/
def namesInput (c : LineSettings) : Prop :=
  c.edge ≠ none ∨ c.route ≠ none ∨ c.level ≠ none ∨ c.holdOff ≠ none

/-- An alert level or a hold-off outside its range is named. -/
def badInput (c : LineSettings) : Prop :=
  (∃ l, c.level = some l ∧ (l < 1 ∨ 15 < l)) ∨ ∃ h, c.holdOff = some h ∧ 1000000 < h

theorem optWithin_iff_none_outside {lo hi : Nat} {v : Option Nat} :
    optWithin lo hi v = true ↔ ¬∃ w, v = some w ∧ (w < lo ∨ hi < w) := by
  simp only [optWithin_iff, not_exists, not_and, not_or, not_lt]

theorem namesNoInput_iff : namesNoInput c = true ↔ ¬namesInput c := by
  simp [namesNoInput, namesInput, and_assoc]

/-- What an output takes. -/
theorem outputSettings_iff :
    (namesNoInput c && optWithin 50 nsPerSec c.width) = true ↔ ¬badWidth c ∧ ¬namesInput c := by
  rw [Bool.and_eq_true, namesNoInput_iff, optWithin_iff_none_outside, and_comm]
  rfl

/-- What an input takes. -/
theorem inputSettings_iff :
    (c.width.isNone && optWithin 1 15 c.level && optWithin 0 1000000 c.holdOff) = true ↔
      ¬badInput c ∧ c.width = none := by
  rw [Bool.and_eq_true, Bool.and_eq_true, optWithin_iff_none_outside, optWithin_iff_none_outside, Option.isNone_iff_eq_none]
  simp only [Nat.not_lt_zero, false_or]
  rw [badInput, not_or, and_assoc, and_comm]

/-- Naming the edge or the hold-off makes the last-taken record absent (R151). -/
theorem configured_eq (x : Input) :
    x.configured c =
      ⟨x.level, c.edge.getD x.edge, c.route.getD x.route, c.level.getD x.alertLevel, c.holdOff.getD x.holdOff,
        if c.edge = none ∧ c.holdOff = none then x.lastTaken else none⟩ := by
  unfold Input.configured
  cases c.edge <;> cases c.holdOff <;> rfl

/-! ## LINE-CONFIG (R150) -/

/-- A line that is neither output nor input has no settings. -/
theorem takeLineConfig_range
    (h : ((s.ctx ag).lineBase : Int) + d < 0 ∨
      (24 ≤ ((s.ctx ag).lineBase : Int) + d ∧ ((s.ctx ag).lineBase : Int) + d < 32) ∨
      48 ≤ ((s.ctx ag).lineBase : Int) + d) :
    takeLineConfig ag d c s = refuse .range s := by
  unfold takeLineConfig
  split
  next => rfl
  next n hn =>
    obtain ⟨hn, -⟩ := effectiveLine_eq_some_iff.1 hn
    split
    next i hk =>
      have hlt := lineKind_eq_output_iff.1 hk
      omega
    next i hk =>
      have hlt := lineKind_eq_input_iff.1 hk
      omega
    next => rfl

theorem takeLineConfig_output (hn : ((s.ctx ag).lineBase : Int) + d = i) (hi : i < 24) :
    takeLineConfig ag d c s =
      if namesNoInput c && optWithin 50 nsPerSec c.width then
        accept (.outputSettings (c.width.getD (s.output i).width))
          (s.setOutput i { s.output i with width := c.width.getD (s.output i).width })
      else refuse .range s := by
  simp only [takeLineConfig, effectiveLine_of_le hn (by omega), lineKind_output hi]

theorem takeLineConfig_input (hn : ((s.ctx ag).lineBase : Int) + d = 32 + i) (hi : i < 16) :
    takeLineConfig ag d c s =
      if c.width.isNone && optWithin 1 15 c.level && optWithin 0 1000000 c.holdOff then
        accept (.inputSettings (c.edge.getD (s.input i).edge) (c.route.getD (s.input i).route)
            (c.level.getD (s.input i).alertLevel) (c.holdOff.getD (s.input i).holdOff))
          (s.setInput i ((s.input i).configured c))
      else refuse .range s := by
  have he : effectiveLine (s.ctx ag).lineBase d = some (32 + i) := effectiveLine_of_le (by omega) (by omega)
  simp only [takeLineConfig, he, lineKind_input hi]
  rfl

theorem takeLineConfig_output_refused (h0 : 0 ≤ ((s.ctx ag).lineBase : Int) + d)
    (h24 : ((s.ctx ag).lineBase : Int) + d < 24) (hbad : badWidth c ∨ namesInput c) :
    takeLineConfig ag d c s = refuse .range s := by
  obtain ⟨i, hn⟩ := Int.eq_ofNat_of_zero_le h0
  rw [takeLineConfig_output hn (by omega)]
  exact if_neg fun hok => not_or.2 (outputSettings_iff.1 hok) hbad

theorem takeLineConfig_output_taken {x : Output} (hn : ((s.ctx ag).lineBase : Int) + d = i) (hi : i < 24)
    (hx : s.lines.outputs[i]? = some x) (hw : ¬badWidth c) (hin : ¬namesInput c) :
    takeLineConfig ag d c s =
      accept (.outputSettings (c.width.getD x.width)) (s.setOutput i { x with width := c.width.getD x.width }) := by
  rw [takeLineConfig_output hn hi, output_of_getElem? hx]
  exact if_pos (outputSettings_iff.2 ⟨hw, hin⟩)

theorem takeLineConfig_input_refused (h32 : 32 ≤ ((s.ctx ag).lineBase : Int) + d)
    (h48 : ((s.ctx ag).lineBase : Int) + d < 48) (hbad : badInput c ∨ c.width ≠ none) :
    takeLineConfig ag d c s = refuse .range s := by
  obtain ⟨i, hn⟩ := Int.eq_ofNat_of_zero_le (sub_nonneg.2 h32)
  rw [takeLineConfig_input (i := i) (by omega) (by omega)]
  exact if_neg fun hok => not_or.2 ⟨(inputSettings_iff.1 hok).1, not_not.2 (inputSettings_iff.1 hok).2⟩ hbad

theorem takeLineConfig_input_taken {x : Input} (hn : ((s.ctx ag).lineBase : Int) + d = 32 + i) (hi : i < 16)
    (hx : s.lines.inputs[i]? = some x) (hbad : ¬badInput c) (hw : c.width = none) :
    takeLineConfig ag d c s =
      accept (.inputSettings (c.edge.getD x.edge) (c.route.getD x.route) (c.level.getD x.alertLevel)
        (c.holdOff.getD x.holdOff)) (s.setInput i (x.configured c)) := by
  rw [takeLineConfig_input hn hi, input_of_getElem? hx]
  exact if_pos (inputSettings_iff.2 ⟨hbad, hw⟩)

end

/-! ## The statement -/

/-- Settles O45: each request by the kind of its line, LINE-CONFIG then by the settings that it names. -/
theorem lineOwnershipAndSettings : Obligations.LineOwnershipAndSettings := by
  refine ⟨fun ag o d w s hnow => ?own, fun ag o d c s hnow => ?config⟩
  case own =>
    have hctx : (s.withRequest ag ⟨o, .lineOwn d w⟩).ctx ag = s.ctx ag := State.withRequest_ctx ..
    refine ⟨fun hout => ?_, fun i x hn hi hx => ?_⟩
    · exact exec_refused rfl hnow (takeLineOwn_range w (by rw [hctx]; exact hout))
    · exact exec_accepted rfl hnow (takeLineOwn_output (s := s.withRequest ag _) w (by rw [hctx]; exact hn) hi hx)
  case config =>
    have hctx : (s.withRequest ag ⟨o, .lineConfig d c⟩).ctx ag = s.ctx ag := State.withRequest_ctx ..
    refine ⟨fun hout => ?_, fun h0 h24 hbad => ?_, fun i x hn hi hx hw hin => ?_, fun h32 h48 hbad => ?_,
      fun i x hn hi hx hbad hw => ?_⟩
    · exact exec_refused rfl hnow (takeLineConfig_range (by rw [hctx]; exact hout))
    · exact exec_refused rfl hnow
        (takeLineConfig_output_refused (by rw [hctx]; exact h0) (by rw [hctx]; exact h24) hbad)
    · exact exec_accepted rfl hnow
        (takeLineConfig_output_taken (s := s.withRequest ag _) (by rw [hctx]; exact hn) hi hx hw hin)
    · exact exec_refused rfl hnow
        (takeLineConfig_input_refused (by rw [hctx]; exact h32) (by rw [hctx]; exact h48) hbad)
    · extract_lets e r l h t
      have htaken : (⟨x.level, e, r, l, h, t⟩ : Input) = x.configured c := (configured_eq x).symm
      rw [htaken]
      exact exec_accepted rfl hnow
        (takeLineConfig_input_taken (s := s.withRequest ag _) (by rw [hctx]; exact hn) hi hx hbad hw)

end Sys2Proof.Machine
end

section
/-! A level change of an input, and the capture queues (R151 … R155). -/

namespace Sys2Proof.Machine

/-! ## Edges (R151) -/

section
variable {i : Nat} {e : EdgeKind} {x : Input} {s : State}

theorem edgeMatches_iff {a : EdgeSetting} :
    edgeMatches a e = true ↔ a = .both ∨ (a = .rise ∧ e = .rise) ∨ (a = .fall ∧ e = .fall) := by
  cases a <;> cases e <;> decide

theorem heldOff_iff {el : Nat} : x.heldOff el = true ↔ ∃ t, x.lastTaken = some t ∧ el < t + x.holdOff := by
  unfold Input.heldOff
  cases x.lastTaken <;> simp

theorem input_setInput {y : Input} (hx : s.lines.inputs[i]? = some x) : (s.setInput i y).input i = y :=
  input_of_getElem? (by simp [(List.getElem?_eq_some_iff.1 hx).1])

/-- The part with the level of an input changed by an edge (log entry 40). -/
def edgeSeen (i : Nat) (e : EdgeKind) (x : Input) (s : State) : State := s.setInput i { x with level := e == .rise }

/-- The rows of R151 in their order. -/
theorem takeEdge_eq (e : EdgeKind) (hx : s.lines.inputs[i]? = some x) :
    takeEdge i e s =
      if dedicated (32 + i) s then
        match e with
        | .rise => (edgeSeen i e x s).setFlight { s.flight with refEdges := s.flight.refEdges ++ [s.stampNow] }
        | .fall => edgeSeen i e x s
      else if !edgeMatches x.edge e then edgeSeen i e x s
      else if x.heldOff s.ts.el then edgeSeen i e x s
      else takeCapture i e (edgeSeen i e x s) := by
  simp only [takeEdge, input_of_getElem? hx]
  rfl

theorem takeEdge_rise_dedicated (hx : s.lines.inputs[i]? = some x) (hd : i = 15 ∧ s.src.settings.refMode = true) :
    takeEdge i .rise s =
      (edgeSeen i .rise x s).setFlight { s.flight with refEdges := s.flight.refEdges ++ [s.stampNow] } := by
  rw [takeEdge_eq _ hx, if_pos (dedicated_input_iff.2 hd)]

theorem takeEdge_fall_dedicated (hx : s.lines.inputs[i]? = some x) (hd : i = 15 ∧ s.src.settings.refMode = true) :
    takeEdge i .fall s = edgeSeen i .fall x s := by
  rw [takeEdge_eq _ hx, if_pos (dedicated_input_iff.2 hd)]

theorem takeEdge_discarded (hx : s.lines.inputs[i]? = some x) (hd : ¬(i = 15 ∧ s.src.settings.refMode = true))
    (h : ¬edgeMatches x.edge e = true ∨ x.heldOff s.ts.el = true) : takeEdge i e s = edgeSeen i e x s := by
  rw [takeEdge_eq _ hx, if_neg (mt dedicated_input_iff.1 hd)]
  obtain hmatch | hheld := h
  · simp [hmatch]
  · simp [hheld]

theorem takeEdge_taken (hx : s.lines.inputs[i]? = some x) (hd : ¬(i = 15 ∧ s.src.settings.refMode = true))
    (hmatch : edgeMatches x.edge e = true) (hheld : ¬x.heldOff s.ts.el = true) :
    takeEdge i e s = takeCapture i e (edgeSeen i e x s) := by
  rw [takeEdge_eq _ hx, if_neg (mt dedicated_input_iff.1 hd), hmatch, if_neg hheld]
  rfl

/-! ## Capture queues (R152, R153) -/

theorem store_of_room {c : Capture} {q : CaptureQueue} (h : q.records.length < 16) :
    q.store c = (⟨q.records ++ [{ c with gap := q.gap }], 0⟩, q.records.isEmpty) := if_pos h

theorem store_of_full {c : Capture} {q : CaptureQueue} (h : 16 ≤ q.records.length) :
    q.store c = (⟨q.records, bump8 q.gap⟩, false) := if_neg h.not_gt

/-- The part after an edge taken for capture, with the queue that the record leaves. -/
def edgeTaken (i : Nat) (e : EdgeKind) (x : Input) (q : CaptureQueue) (s : State) : State :=
  (s.setInput i { x with level := e == .rise, lastTaken := some s.ts.el }).setCaptures x.route q

/-- CAPTURE goes to the agent of the route alone, and only where the queue was empty. -/
theorem takeCapture_edgeSeen (e : EdgeKind) (hx : s.lines.inputs[i]? = some x) :
    takeCapture i e (edgeSeen i e x s) =
      let q := (s.captures x.route).store (captureOf (32 + i) e s.ts)
      if q.2 then raiseTo x.route (.capture x.alertLevel (32 + i) e) (edgeTaken i e x q.1 s)
      else edgeTaken i e x q.1 s := by
  have hinput : (edgeSeen i e x s).input i = { x with level := e == .rise } := input_setInput hx
  have hset : ∀ y z : Input, (s.setInput i y).setInput i z = s.setInput i z := fun y z => by
    simp [State.setInput, State.setLines]
  simp only [takeCapture, hinput, edgeTaken]
  rw [edgeSeen, hset]
  rfl

theorem takeCapture_room (e : EdgeKind) (hx : s.lines.inputs[i]? = some x)
    (hroom : (s.captures x.route).records.length < 16) :
    takeCapture i e (edgeSeen i e x s) =
      let q := s.captures x.route
      let t := edgeTaken i e x ⟨q.records ++ [{ captureOf (32 + i) e s.ts with gap := q.gap }], 0⟩ s
      if q.records.isEmpty then raiseTo x.route (.capture x.alertLevel (32 + i) e) t else t := by
  rw [takeCapture_edgeSeen e hx, store_of_room hroom]

theorem takeCapture_full (e : EdgeKind) (hx : s.lines.inputs[i]? = some x)
    (hfull : 16 ≤ (s.captures x.route).records.length) :
    takeCapture i e (edgeSeen i e x s) =
      edgeTaken i e x ⟨(s.captures x.route).records, bump8 (s.captures x.route).gap⟩ s := by
  rw [takeCapture_edgeSeen e hx, store_of_full hfull]
  rfl

end

/-! ## The statement about edges -/

/-- Settles O46: the rows of R151 in their order, an edge taken then by the room of its queue. -/
theorem inputEdgesAreCaptured : Obligations.InputEdgesAreCaptured := by
  intro i x e s hi hx up seen ded matching held q r taken
  have hexec : exec (.inputEdge i e) s = .next (takeEdge i e s) := if_pos hi
  have hmatch : edgeMatches x.edge e = true ↔ matching := edgeMatches_iff
  have hheld : x.heldOff s.ts.el = true ↔ held := heldOff_iff
  rw [hexec]
  refine ⟨fun hd he => ?rise, fun hd he => ?fall, fun hd hnot => ?discarded, fun hd hm hfree => ?taken⟩
  case rise =>
    subst he
    exact congrArg _ (takeEdge_rise_dedicated hx hd)
  case fall =>
    subst he
    exact congrArg _ (takeEdge_fall_dedicated hx hd)
  case discarded =>
    exact congrArg _ (takeEdge_discarded hx hd (hnot.imp (mt hmatch.1) hheld.2))
  case taken =>
    rw [takeEdge_taken hx hd (hmatch.2 hm) (mt hheld.1 hfree)]
    refine ⟨fun hempty => ?_, fun hsome hroom => ?_, fun hfull hgap => ?_, fun hfull hgap => ?_⟩
    · have hroom : q.records.length < 16 := by simp [hempty]
      have hstored : [r] = q.records ++ [r] := by simp [hempty]
      have hraise : q.records.isEmpty = true := List.isEmpty_iff.2 hempty
      rw [takeCapture_room e hx hroom, hstored]
      refine congrArg Host.Outcome.next ((if_pos hraise).trans ?_)
      rw [raiseTo_eq_retime]
      rfl
    · rw [takeCapture_room e hx hroom]
      exact congrArg _ (if_neg fun h => hsome (List.isEmpty_iff.1 h))
    · have hbump : bump8 q.gap = q.gap + 1 := if_pos hgap
      rw [takeCapture_full e hx hfull, hbump]
      rfl
    · have hbump : bump8 q.gap = q.gap := if_neg hgap.not_gt
      rw [takeCapture_full e hx hfull, hbump]
      rfl

end Sys2Proof.Machine
end

section
/-! CAPTURE-READ and CAPTURE-RELEASE (R154, R155). -/

namespace Sys2Proof.Machine

/-! ## CAPTURE-READ (R154) -/

section
variable {s : State} {ag : Agent} {n : Nat}

/-- The records that CAPTURE-READ shows, each with the flags that its stamps raise. -/
def captureViews (ag : Agent) (o : Options) (s : State) : List (CaptureView × Flags) :=
  ((s.captures ag).records.take 4).map (viewCapture o (s.ctx ag))

/-- The flags that CAPTURE-READ raises. -/
def captureFlags (ag : Agent) (o : Options) (s : State) : Flags :=
  (captureViews ag o s).foldl (fun f v => Flags.or f v.2) noFlags

/-- The requester's context with the flags of its CAPTURE-READ. -/
def captureContext (ag : Agent) (o : Options) (s : State) : Context :=
  { s.ctx ag with flags := raiseFlags (s.ctx ag).flags (captureFlags ag o s) }

section
variable (o : Options) (q : Submitted)

@[simp] theorem captureViews_withRequest : captureViews ag o (s.withRequest ag q) = captureViews ag o s := by
  simp [captureViews]

@[simp] theorem captureFlags_withRequest : captureFlags ag o (s.withRequest ag q) = captureFlags ag o s := by
  simp [captureFlags]

@[simp] theorem captureContext_withRequest : captureContext ag o (s.withRequest ag q) = captureContext ag o s := by
  simp [captureContext]

end

theorem takeCaptureRead_eq (o : Options) :
    takeCaptureRead ag o s =
      let e := finishContext Options.plain (s.ctx ag) (captureFlags ag o s) (s.ctx ag).compare none
      if e.2 then ⟨s.setCtx ag e.1, .exception, .empty⟩
      else accept (.captures (s.captures ag).records.length (s.captures ag).gap ((captureViews ag o s).map Prod.fst))
        (s.setCtx ag e.1) := rfl

theorem takeCaptureRead_trapped (o : Options) (h : trapped (s.ctx ag).traps (captureFlags ag o s) = true) :
    takeCaptureRead ag o s = ⟨s.setCtx ag (captureContext ag o s), .exception, .empty⟩ := by
  rw [takeCaptureRead_eq, finishContext_trapped _ _ _ _ _ h]
  rfl

theorem takeCaptureRead_shown (o : Options) (h : ¬trapped (s.ctx ag).traps (captureFlags ag o s) = true) :
    takeCaptureRead ag o s =
      accept (.captures (s.captures ag).records.length (s.captures ag).gap ((captureViews ag o s).map Prod.fst))
        (s.setCtx ag (captureContext ag o s)) := by
  rw [takeCaptureRead_eq, finishContext_interval _ _ _ _ h]
  rfl

/-! ## The release of captures (R155) -/

theorem releaseCaptures_few (h : (s.captures ag).records.length < n) : releaseCaptures ag n s = none := if_pos h

theorem releaseCaptures_enough (h : n ≤ (s.captures ag).records.length) :
    releaseCaptures ag n s =
      some (s.setCaptures ag ⟨(s.captures ag).records.drop n, (s.captures ag).gap⟩) := if_neg h.not_gt

theorem takeCaptureRelease_range (h : 16 < n) : takeCaptureRelease ag n s = refuse .range s := if_pos h

theorem takeCaptureRelease_count (hn : n ≤ 16) (h : (s.captures ag).records.length < n) :
    takeCaptureRelease ag n s = refuse .count s := by
  simp only [takeCaptureRelease, if_neg hn.not_gt, releaseCaptures_few h]

theorem takeCaptureRelease_released (hn : n ≤ 16) (h : n ≤ (s.captures ag).records.length) :
    takeCaptureRelease ag n s =
      accept (.length ((s.captures ag).records.length - n))
        (s.setCaptures ag ⟨(s.captures ag).records.drop n, (s.captures ag).gap⟩) := by
  simp only [takeCaptureRelease, if_neg hn.not_gt, releaseCaptures_enough h, State.captures_setCaptures,
    List.length_drop]

end

/-! ## The statement -/

/-- Settles O47: CAPTURE-READ by the traps that its stamps raise, CAPTURE-RELEASE by its count. -/
theorem capturesAreReadAndReleased : Obligations.CapturesAreReadAndReleased := by
  refine ⟨fun ag o s hnow => ?read, fun ag o n s hnow => ?release⟩
  case read =>
    intro c q shape views raised u
    have hviews : (captureViews ag o s).map Prod.fst = views := by
      rw [captureViews, List.map_map]
      rfl
    have hraised : captureFlags ag o s = raised := by
      rw [captureFlags, captureViews, List.foldl_map]
      rfl
    have hu : s.setCtx ag (captureContext ag o s) = u := by
      rw [captureContext, hraised]
    rw [← hraised, ← hviews, ← hu]
    refine ⟨fun htrap => ?_, fun hnone => ?_⟩
    · exact congrArg _ (runRequest_setCtx ag _ s _ _ _ _ hnow
        ((takeCaptureRead_trapped o (by simpa using htrap)).trans (by simp)))
    · exact congrArg _ (runRequest_setCtx ag _ s _ _ _ _ hnow
        ((takeCaptureRead_shown o (by simpa using hnone)).trans (by simp [accept, q])))
  case release =>
    refine ⟨fun hn => ?_, fun hn hfew => ?_, fun hn henough => ?_⟩
    · exact exec_refused rfl hnow (takeCaptureRelease_range hn)
    · exact exec_refused rfl hnow (takeCaptureRelease_count hn hfew)
    · exact exec_accepted rfl hnow (takeCaptureRelease_released (s := s.withRequest ag _) hn henough)

end Sys2Proof.Machine
end

section
/-! ALERT-READ, ALERT-RETURN and ALERT-MASK (R176 … R178). -/

namespace Sys2Proof.Machine

section
variable {s : State} {ag : Agent} {n : Nat} {r : ReturnRecord} {l : List ReturnRecord}

theorem stack_withRequest (q : Submitted) : ((s.withRequest ag q).unit ag).stack = (s.unit ag).stack := by
  rw [State.withRequest_unit]

theorem takeAlertRead_empty (h : (s.unit ag).stack = []) : takeAlertRead ag s = refuse .notInAlert s := by
  simp only [takeAlertRead, h]

theorem takeAlertRead_top (h : (s.unit ag).stack = r :: l) :
    takeAlertRead ag s = accept (.alertTop r (l.length + 1)) s := by
  simp only [takeAlertRead, h]

theorem takeAlertReturn_range (h : 16 < n) : takeAlertReturn ag n s = refuse .range s := if_pos h

theorem takeAlertReturn_empty (hn : n ≤ 16) (h : (s.unit ag).stack = []) :
    takeAlertReturn ag n s = refuse .notInAlert s := by
  simp only [takeAlertReturn, if_neg hn.not_gt, h]

theorem takeAlertReturn_count (hn : n ≤ 16) (h : (s.unit ag).stack = r :: l)
    (hfew : (s.captures ag).records.length < n) : takeAlertReturn ag n s = refuse .count s := by
  simp only [takeAlertReturn, if_neg hn.not_gt, h, releaseCaptures_few hfew]

/-- The part after an ALERT-RETURN: captures released, the top record popped into mask and form (R177). -/
def returned (ag : Agent) (n : Nat) (r : ReturnRecord) (l : List ReturnRecord) (s : State) : State :=
  (s.setCaptures ag ⟨(s.captures ag).records.drop n, (s.captures ag).gap⟩).setUnit ag
    { s.unit ag with stack := l, ctx := { s.ctx ag with mask := r.mask, form := r.form } }

theorem returned_withRequest (q : Submitted) :
    returned ag n r l (s.withRequest ag q) = (returned ag n r l s).withRequest ag q := by
  simp [returned, State.withRequest, State.setUnit, State.setCaptures, State.setLines, State.captures, State.unit,
    State.ctx]

theorem takeAlertReturn_returned (hn : n ≤ 16) (h : (s.unit ag).stack = r :: l)
    (henough : n ≤ (s.captures ag).records.length) :
    takeAlertReturn ag n s =
      accept (.alertReturned ((s.captures ag).records.length - n) l.length r.mask) (returned ag n r l s) := by
  have hleft : (returned ag n r l s).captures ag = ⟨(s.captures ag).records.drop n, (s.captures ag).gap⟩ :=
    State.captures_setCaptures ..
  have hlength : (s.captures ag).records.length - n = ((returned ag n r l s).captures ag).records.length := by
    rw [hleft, List.length_drop]
  simp only [takeAlertReturn, if_neg hn.not_gt, h, releaseCaptures_enough henough, hlength]
  rfl

theorem takeAlertMask_range {m : Nat} (h : 15 < m) : takeAlertMask ag m s = refuse .range s := if_pos h

theorem takeAlertMask_set {m : Nat} (h : m ≤ 15) :
    takeAlertMask ag m s = accept (.masks (s.ctx ag).mask m) (s.setCtx ag { s.ctx ag with mask := m }) :=
  if_neg h.not_gt

end

/-! ## The statement -/

/-- Settles O54: each request by the return stack, ALERT-RETURN also by its count. -/
theorem alertRequestsAnswer : Obligations.AlertRequestsAnswer := by
  refine ⟨fun ag o s hnow => ?read, fun ag o n s hnow => ?pop, fun ag o m s hnow => ?mask⟩
  case read =>
    refine ⟨fun hempty => ?_, fun r l hstack => ?_⟩
    · exact exec_refused rfl hnow (takeAlertRead_empty ((stack_withRequest _).trans hempty))
    · exact exec_accepted rfl hnow (takeAlertRead_top ((stack_withRequest _).trans hstack))
  case pop =>
    refine ⟨fun hn => ?_, fun hn hempty => ?_, fun r l hn hstack hfew => ?_, fun r l hn hstack henough => ?_⟩
    · exact exec_refused rfl hnow (takeAlertReturn_range hn)
    · exact exec_refused rfl hnow (takeAlertReturn_empty hn ((stack_withRequest _).trans hempty))
    · exact exec_refused rfl hnow (takeAlertReturn_count hn ((stack_withRequest _).trans hstack) hfew)
    · have htake := takeAlertReturn_returned (s := s.withRequest ag ⟨o, .alertReturn n⟩) hn
        ((stack_withRequest _).trans hstack) henough
      rw [returned_withRequest] at htake
      exact exec_accepted rfl hnow htake
  case mask =>
    refine ⟨fun hm => ?_, fun hm => ?_⟩
    · exact exec_refused rfl hnow (takeAlertMask_range hm)
    · refine exec_accepted rfl hnow ((takeAlertMask_set hm).trans ?_)
      rw [State.withRequest_ctx, setCtx_withRequest]

end Sys2Proof.Machine
end

section
/-! CONTEXT-SET and CONTEXT-READ (R162, R163). -/

namespace Sys2Proof.Machine

section
variable {s : State} {ag : Agent} {x : ContextSettings}

/-! ## The report (R163) -/

@[simp] theorem contextReport_withRequest (q : Submitted) :
    contextReport ag (s.withRequest ag q) = contextReport ag s := by
  simp [contextReport]

theorem contextReport_setCtx (c : Context) :
    contextReport ag (s.setCtx ag c) = { contextReport ag s with ctx := c } := by
  have hunit : (s.setCtx ag c).unit ag = { s.unit ag with ctx := c } := State.unit_setUnit ..
  simp only [contextReport, hunit]
  rfl

/-! ## Values out of range (log entry 41) -/

/-- A value that CONTEXT-SET names lies outside its range, with `base` the base that then stands. -/
def contextOutside (x : ContextSettings) (base : Nat) : Prop :=
  (∃ b, x.base = some b ∧ 4294967295 < b) ∨ (∃ b, x.lineBase = some b ∧ 63 < b) ∨
    (∃ b, x.threshold = some b ∧ 15 < b) ∨ (∃ b, x.mask = some b ∧ 15 < b) ∨
    ∃ v t, x.cursor = some v ∧ expand base v = .valid t ∧ timeEnd ≤ t

theorem contextInRange_iff {c : Context} :
    contextInRange x (namedCursor x c) = true ↔ ¬contextOutside x (x.base.getD c.base) := by
  have hcursor : (∃ t, namedCursor x c = some (.valid t) ∧ timeEnd ≤ t) ↔
      ∃ v t, x.cursor = some v ∧ expand (x.base.getD c.base) v = .valid t ∧ timeEnd ≤ t := by
    simp only [namedCursor, Option.map_eq_some_iff]
    exact ⟨fun ⟨t, ⟨v, hv, he⟩, ht⟩ => ⟨v, t, hv, he, ht⟩, fun ⟨v, t, hv, he, ht⟩ => ⟨t, ⟨v, hv, he⟩, ht⟩⟩
  rw [contextOutside, ← hcursor]
  simp only [contextInRange, Bool.and_eq_true, optWithin_iff_none_outside, Nat.not_lt_zero, false_or, not_or, and_assoc]
  obtain hnone | ⟨v, hv⟩ := (namedCursor x c).eq_none_or_eq_some
  · simp [hnone]
  · cases v <;> simp [hv]

/-! ## CONTEXT-SET (R162) -/

theorem takeContextSet_range (h : contextOutside x (x.base.getD (s.ctx ag).base)) :
    takeContextSet ag x s = refuse .range s :=
  if_neg fun hin => contextInRange_iff.1 hin h

theorem takeContextSet_written (h : ¬contextOutside x (x.base.getD (s.ctx ag).base)) :
    takeContextSet ag x s =
      accept (.context { contextReport ag s with ctx := (s.ctx ag).written x }) (s.setCtx ag ((s.ctx ag).written x)) := by
  rw [takeContextSet, if_pos (contextInRange_iff.2 h), ← contextReport_setCtx]

end

/-! ## The statement -/

/-- Settles O48: CONTEXT-SET by whether a value that it names is out of range. -/
theorem contextIsSetAndRead : Obligations.ContextIsSetAndRead := by
  refine fun ag o s => ⟨fun hnow => ?read, fun x hnow => ⟨fun hbad => ?range, fun hgood => ?written⟩⟩
  case read =>
    refine exec_accepted (t := s) rfl hnow ?_
    rw [takeContextRead, contextReport_withRequest]
    rfl
  case range =>
    refine exec_refused rfl hnow (takeContextSet_range ?_)
    rw [State.withRequest_ctx]
    exact hbad
  case written =>
    refine exec_accepted (t := s.setCtx ag ((s.ctx ag).written x)) rfl hnow ((takeContextSet_written ?_).trans ?_)
    · rw [State.withRequest_ctx]
      exact hgood
    · rw [State.withRequest_ctx, setCtx_withRequest, contextReport_withRequest]
      rfl

end Sys2Proof.Machine
end

section
/-! The steering grant (R164 … R167). -/

namespace Sys2Proof.Machine

section
variable {s : State} {ag a : Agent} {t : Nat} (q : Submitted)

/-! ## Who holds the grant -/

theorem holdsGrant_iff : s.holdsGrant ag = true ↔ ∃ t, s.arbiter.grant = .held ag t := by
  cases h : s.arbiter.grant <;> simp [State.holdsGrant, h]

theorem not_holdsGrant_iff : ¬s.holdsGrant ag = true ↔ ∀ t, s.arbiter.grant ≠ .held ag t := by
  rw [holdsGrant_iff, not_exists]

/-! ## The operations of the arbiter -/

/-- A lease just begun is returned whole. -/
theorem grantAnswer_giveGrant (st : Status) :
    grantAnswer st (giveGrant ag s) = ⟨giveGrant ag s, st, .grant (.held ag s.arbiter.lease)⟩ := by
  simp [grantAnswer, grantReport, giveGrant]

theorem grantAnswer_withRequest (st : Status) :
    grantAnswer st (s.withRequest ag q) = ⟨s.withRequest ag q, st, .grant (grantReport s)⟩ := rfl

/-- The part after the grant has passed from `a` to `ag` by a claim that preempts (R165). -/
def grantPreempted (ag a : Agent) (s : State) : State := giveGrant ag (voidRenewals (raiseTo a (.grant .preempted) s))

theorem grantPreempted_eq :
    grantPreempted ag a s =
      { giveGrant ag s with
        flight := { s.flight with
          renewals := s.flight.renewals.map fun r => { r with stands := false }
          raises := s.raisesWith fun x => if x = a then [.grant .preempted] else [] } } := by
  rw [grantPreempted, raiseTo_eq_retime]
  rfl

theorem grantPreempted_withRequest :
    grantPreempted ag a (s.withRequest ag q) = (grantPreempted ag a s).withRequest ag q := by
  rw [grantPreempted_eq, grantPreempted_eq]
  rfl

/-! ## GRANT-CLAIM (R165) -/

theorem takeGrantClaim_own (o : Options) (h : s.arbiter.grant = .free ∨ ∃ t, s.arbiter.grant = .held ag t) :
    takeGrantClaim ag o s = accept (.grant (.held ag s.arbiter.lease)) (giveGrant ag s) := by
  have hgive := grantAnswer_giveGrant (s := s) (ag := ag) .ok
  obtain hfree | ⟨t, hheld⟩ := h
  · simp only [takeGrantClaim, hfree, hgive, accept]
  · simp only [takeGrantClaim, hheld, if_true, hgive, accept]

theorem takeGrantClaim_held (o : Options) (h : s.arbiter.grant = .held a t) (ha : a ≠ ag)
    (hno : ¬(o.preempt = true ∧ ag = .agent0)) : takeGrantClaim ag o s = grantAnswer .held s := by
  simp only [takeGrantClaim, h, if_neg ha, if_neg hno]

theorem takeGrantClaim_preempts (o : Options) (h : s.arbiter.grant = .held a t) (ha : a ≠ ag)
    (hpre : o.preempt = true ∧ ag = .agent0) :
    takeGrantClaim ag o s = accept (.grant (.held ag s.arbiter.lease)) (grantPreempted ag a s) := by
  simp only [takeGrantClaim, h, if_neg ha, if_pos hpre, grantAnswer_giveGrant]
  rfl

/-! ## GRANT-RENEW and GRANT-RELEASE (R166) -/

theorem takeGrantRenew_holder (h : s.holdsGrant ag = true) :
    takeGrantRenew ag s = accept (.grant (.held ag s.arbiter.lease)) (giveGrant ag s) := by
  rw [takeGrantRenew, if_pos h, grantAnswer_giveGrant, accept]

theorem takeGrantRenew_other (h : ¬s.holdsGrant ag = true) : takeGrantRenew ag s = grantAnswer .grant s := if_neg h

theorem takeGrantRelease_holder (h : s.holdsGrant ag = true) :
    takeGrantRelease ag s = accept (.grant .free) (freeGrant s) := if_pos h

theorem takeGrantRelease_other (h : ¬s.holdsGrant ag = true) : takeGrantRelease ag s = grantAnswer .grant s := if_neg h

/-- A grant request that leaves the grant as it is, taken at once, is answered with the grant state. -/
theorem exec_grantAnswer {c : Instr} {q : Submitted} {take : State → Answer} {st : Status}
    (hc : exec c s = .next (runRequest ag q take s)) (h : s.takesNow ag q = true)
    (ht : take (s.withRequest ag q) = grantAnswer st (s.withRequest ag q)) :
    exec c s = .next (respond ag st (.grant (grantReport s)) s) :=
  hc.trans (congrArg Host.Outcome.next
    (runRequest_answer s ag q take h s st _ (ht.trans (grantAnswer_withRequest q st))))

/-! ## The expiry (R167) -/

theorem expireGrant_free (h : s.arbiter.grant = .free) : expireGrant s = s := by
  simp only [expireGrant, h]

theorem expireGrant_running (h : s.arbiter.grant = .held a t) (ht : s.ts.el < t) : expireGrant s = s := by
  simp [expireGrant, grantDue, h, ht]

theorem expireGrant_expired (h : s.arbiter.grant = .held a t) (ht : t ≤ s.ts.el) :
    expireGrant s = raiseTo a (.grant .expired) (freeGrant s) := by
  simp [expireGrant, grantDue, h, ht]

/-! ## The renewal report (R164) -/

theorem takeRenewal_none (h : s.flight.renewals = []) : takeRenewal s = s := by
  simp only [takeRenewal, h]

theorem takeRenewal_some {r : Renewal} {rest : List Renewal} (h : s.flight.renewals = r :: rest) :
    takeRenewal s =
      let u := s.setFlight { s.flight with renewals := rest }
      if r.stands && s.holdsGrant r.by_ then giveGrant r.by_ u else u := by
  simp only [takeRenewal, h]
  rfl

end

/-! ## The statement -/

/-- Settles O49: the requests by the grant that stands, the events by the lease and by the oldest report. -/
theorem grantPassesByItsTable : Obligations.GrantPassesByItsTable := by
  refine ⟨fun ag o s => ?requests, fun s => ?events⟩
  case requests =>
    refine ⟨fun hnow => ⟨fun hown => ?own, fun b t hheld hb hno => ?held, fun b t hheld hb hpre hag => ?preempts⟩,
      fun hnow => ⟨fun t hmine => ?renew, fun hnot => ?noRenew⟩,
      fun hnow => ⟨fun t hmine => ?release, fun hnot => ?noRelease⟩⟩
    case own => exact exec_accepted (t := giveGrant ag s) rfl hnow (takeGrantClaim_own o hown)
    case held => exact exec_grantAnswer rfl hnow (takeGrantClaim_held o hheld hb hno)
    case preempts =>
      have htake := takeGrantClaim_preempts (s := s.withRequest ag ⟨o, .grantClaim⟩) o hheld hb ⟨hpre, hag⟩
      rw [grantPreempted_withRequest, grantPreempted_eq] at htake
      exact exec_accepted rfl hnow htake
    case renew =>
      exact exec_accepted (t := giveGrant ag s) rfl hnow (takeGrantRenew_holder (holdsGrant_iff.2 ⟨t, hmine⟩))
    case noRenew => exact exec_grantAnswer rfl hnow (takeGrantRenew_other (not_holdsGrant_iff.2 hnot))
    case release =>
      exact exec_accepted (t := freeGrant s) rfl hnow (takeGrantRelease_holder (holdsGrant_iff.2 ⟨t, hmine⟩))
    case noRelease => exact exec_grantAnswer rfl hnow (takeGrantRelease_other (not_holdsGrant_iff.2 hnot))
  case events =>
    refine ⟨fun b t hheld hdue => ?expired, fun b t hheld hrun => congrArg _ (expireGrant_running hheld hrun),
      fun hfree => congrArg _ (expireGrant_free hfree), fun hnone => congrArg _ (takeRenewal_none hnone),
      fun r rest hr => ⟨fun t hstands hheld => ?renewed, fun hlost => ?lost⟩⟩
    case expired =>
      refine congrArg Host.Outcome.next ((expireGrant_expired hheld hdue).trans ?_)
      rw [raiseTo_eq_retime]
      rfl
    case renewed =>
      have hstill : (r.stands && s.holdsGrant r.by_) = true := by
        rw [hstands, holdsGrant_iff.2 ⟨t, hheld⟩]
        rfl
      exact congrArg Host.Outcome.next ((takeRenewal_some hr).trans (if_pos hstill))
    case lost =>
      have hnot : ¬(r.stands && s.holdsGrant r.by_) = true := by
        rw [Bool.and_eq_true, not_and_or, not_holdsGrant_iff, Bool.not_eq_true]
        exact hlost
      exact congrArg Host.Outcome.next ((takeRenewal_some hr).trans (if_neg hnot))

end Sys2Proof.Machine
end

section
/-! Agent resets and part resets (R168 … R170), with the parts that schedule, line unit and grant arbiter take (R137, R153). -/

namespace Sys2Proof.Machine

section
variable {s : State} {ag : Agent} {q : Submitted}

/-! ## The agent unit (R168) -/

/-- The messages once an agent reset is reported to the four blocks that have a part in it (R169). -/
def InFlight.withAgentReset (ag : Agent) (f : InFlight) : InFlight :=
  { f with
    schedResets := f.schedResets ++ [ag], lineResets := f.lineResets ++ [ag]
    grantResets := f.grantResets ++ [ag], slewResets := f.slewResets ++ [ag] }

/-- An agent reset looks at nothing of its unit but the pins. -/
theorem agentReset_setUnit (u : AgentUnit) :
    agentReset ag (s.setUnit ag u) = (s.setUnit ag u.afterReset).setFlight (s.flight.withAgentReset ag) := by
  simp only [agentReset, State.unit_setUnit, State.setUnit_setUnit]
  rfl

theorem respond_setFlight (f : InFlight) (st : Status) (b : Body) :
    respond ag st b (s.setFlight f) = (respond ag st b s).setFlight f := rfl

/-- AGENT-RESET is answered with the flags of the context after it. -/
theorem respond_afterReset (u : AgentUnit) (st : Status) (b : Body) :
    respond ag st b (s.setUnit ag u.afterReset) =
      s.setUnit ag { u.afterReset with link := .ready ⟨false, Flags.clear, st, b⟩ } := by
  rw [respond_eq, State.unit_setUnit, State.setUnit_setUnit]
  rfl

theorem exec_agentReset (o : Options) (h : s.takesNow ag ⟨o, .agentReset⟩ = true) :
    exec (.agentReset ag o) s =
      .next ((s.setUnit ag { (s.unit ag).afterReset with link := .ready ⟨false, Flags.clear, .ok, .empty⟩ }).setFlight
        (s.flight.withAgentReset ag)) := by
  refine congrArg Host.Outcome.next ((runRequest_of_takesNow ag _ _ s h).trans ?_)
  simp only [accept, State.withRequest, agentReset_setUnit, respond_setFlight, respond_afterReset]
  rfl

theorem exec_agentResetInput :
    exec (.agentResetInput ag) s =
      .next ((s.setUnit ag { (s.unit ag).cutOff.afterReset with resetIn := true }).setFlight
        (s.flight.withAgentReset ag)) := by
  have hinput : setResetIn ag true (s.setUnit ag (s.unit ag).cutOff) =
      s.setUnit ag { (s.unit ag).cutOff with resetIn := true } := by
    rw [setResetIn, State.unit_setUnit, State.setUnit_setUnit]
  refine congrArg Host.Outcome.next ?_
  rw [hinput, agentReset_setUnit]
  rfl

/-! ## The other blocks (R137, R153, R169) -/

theorem schedAgentReset_told (h : ag ∈ s.flight.schedResets) :
    schedAgentReset ag s =
      (s.setFlight { s.flight with schedResets := s.flight.schedResets.erase ag }).setSched
        (s.sched.keep fun e => e.owner != ag) := if_pos (List.contains_iff_mem.2 h)

theorem schedAgentReset_untold (h : ag ∉ s.flight.schedResets) : schedAgentReset ag s = s :=
  if_neg (mt List.contains_iff_mem.1 h)

theorem lineAgentReset_told (h : ag ∈ s.flight.lineResets) :
    lineAgentReset ag s =
      (s.setFlight { s.flight with lineResets := s.flight.lineResets.erase ag }).setCaptures ag ⟨[], 0⟩ :=
  if_pos (List.contains_iff_mem.2 h)

theorem lineAgentReset_untold (h : ag ∉ s.flight.lineResets) : lineAgentReset ag s = s :=
  if_neg (mt List.contains_iff_mem.1 h)

theorem grantAgentReset_untold (h : ag ∉ s.flight.grantResets) : grantAgentReset ag s = s :=
  if_neg (mt List.contains_iff_mem.1 h)

/-- Renewal reports stop standing exactly where the agent that is reset held the grant. -/
theorem grantAgentReset_told (h : ag ∈ s.flight.grantResets) :
    grantAgentReset ag s =
      { s with
        flight := { s.flight with
          grantResets := s.flight.grantResets.erase ag
          renewals := s.flight.renewals.map fun r => { r with stands := r.stands && !s.holdsGrant ag } }
        arbiter := { s.arbiter with grant := if s.holdsGrant ag then .free else s.arbiter.grant } } := by
  refine (if_pos (List.contains_iff_mem.2 h)).trans ?_
  by_cases hg : s.holdsGrant ag = true
  · refine (if_pos hg).trans ?_
    simp [hg, freeGrant, voidRenewals, State.setFlight]
  · refine (if_neg hg).trans ?_
    simp [hg, State.setFlight]

end

/-- Settles O50: the unit's own reset, then the part of each block, told of it or not. -/
theorem agentResetClearsAnAgent : Obligations.AgentResetClearsAnAgent := fun _ _ =>
  ⟨fun o hnow => exec_agentReset o hnow, exec_agentResetInput, rfl,
    fun h => congrArg _ (schedAgentReset_told h), fun h => congrArg _ (lineAgentReset_told h),
    fun h => congrArg _ (grantAgentReset_told h), fun h => congrArg _ (schedAgentReset_untold h),
    fun h => congrArg _ (lineAgentReset_untold h), fun h => congrArg _ (grantAgentReset_untold h)⟩

/-! ## Part reset (R170) -/

section
variable {s : State} {ag : Agent} {q : Submitted}

theorem inHand_withRequest (h : s.takesNow ag q = true) : (s.withRequest ag q).inHand ag q = true := by
  obtain ⟨-, hturn⟩ := Bool.and_eq_true_iff.1 h
  have hlink : ((s.withRequest ag q).unit ag).link = .busy q := by rw [State.withRequest_unit]
  rw [State.inHand, hlink, hturn, beq_self_eq_true, Bool.and_self]

/-- A part reset keeps nothing of a port status. -/
theorem resetPart_withRequest : resetPart (s.withRequest ag q) = resetPart s := by
  cases ag <;> rfl

theorem runPartReset_of_takesNow (h : s.takesNow ag q = true) : runPartReset ag q s = resetPart s := by
  obtain ⟨hhand, -⟩ := Bool.and_eq_true_iff.1 h
  rw [runPartReset, bringInHand_of_accepts ag q s hhand, if_pos (inHand_withRequest h), resetPart_withRequest]

/-- Power-on differs from a part reset by the store alone. -/
theorem powerOn_eq : powerOn s = (resetPart s).setTs Timescale.reset := rfl

end

/-- Settles O51: the request, the input and power-on each come to a part reset. -/
theorem partResetReturnsToPowerOn : Obligations.PartResetReturnsToPowerOn := fun _ =>
  ⟨fun _ _ hnow => congrArg Host.Outcome.next (runPartReset_of_takesNow hnow), rfl, rfl,
    congrArg Host.Outcome.next powerOn_eq⟩

end Sys2Proof.Machine
end

section
/-! The select windows of the agent link (R156 … R160, R168, R181, R182). -/

namespace Sys2Proof.Machine

theorem windowKind_other {d : Option Byte} (hsubmit : d ≠ some 0x5A#8) (hcollect : d ≠ some 0xA5#8) :
    windowKind d = .other := by
  unfold windowKind
  split
  · exact absurd rfl hsubmit
  · exact absurd rfl hcollect
  · rfl

section
variable {s : State} {ag : Agent} {d : Option Byte} {l : List Byte} {q : Submitted}

/-! ## What data out shifts (R156 … R158) -/

theorem windowOut_other (x : LinkState) (n : Nat) : windowOut .other x n = List.replicate n 0#8 := rfl

theorem windowOut_collect {x : LinkState} (h : ∀ r, x ≠ .ready r) (n : Nat) :
    windowOut .collect x n = List.replicate n (statusByte x) := by
  cases x with
  | ready r => exact absurd rfl (h r)
  | idle => rfl
  | busy q => rfl

theorem windowOut_busy {k : WindowKind} (h : k ≠ .other) (q : Submitted) (n : Nat) :
    windowOut k (.busy q) n = List.replicate n 1#8 := by
  cases k with
  | other => exact absurd rfl h
  | submit => rfl
  | collect => rfl

/-! ## A port whose data out has shifted -/

/-- The part after data out of a port has shifted `out`. -/
def State.shifted (s : State) (ag : Agent) (out : List Byte) : State :=
  s.setUnit ag { s.unit ag with dataOut := out }

section
variable (out : List Byte)

@[simp] theorem shifted_unit : (s.shifted ag out).unit ag = { s.unit ag with dataOut := out } := State.unit_setUnit ..

@[simp] theorem shifted_ctx : (s.shifted ag out).ctx ag = s.ctx ag := by simp [State.ctx]

@[simp] theorem shifted_holdsGrant : (s.shifted ag out).holdsGrant ag = s.holdsGrant ag := rfl

@[simp] theorem shifted_acceptsRequest : (s.shifted ag out).acceptsRequest ag q = s.acceptsRequest ag q := by
  have hresetIn : (s.shifted ag out).resetIn = s.resetIn := rfl
  simp [State.acceptsRequest, State.takesFrames, State.takesWindows, State.portFree, hresetIn]

theorem readFrame_shifted (l : List Byte) :
    readFrame ((s.shifted ag out).ctx ag) l = readFrame (s.unit ag).ctx l := congrArg (readFrame · l) (shifted_ctx out)

theorem shifted_setUnit (u : AgentUnit) : (s.shifted ag out).setUnit ag u = s.setUnit ag u := State.setUnit_setUnit ..

end

/-! ## A frame at the port (R157, R160, R182) -/

theorem port_of_acceptsRequest (h : s.acceptsRequest ag q = true) : s.takesFrames ag = true ∧ s.portFree ag = true := by
  simp only [State.acceptsRequest, Bool.and_eq_true] at h
  obtain ⟨⟨⟨⟨hframes, hfree⟩, -⟩, -⟩, -⟩ := h
  exact ⟨hframes, hfree⟩

/-- A frame that the port accepts is in hand. -/
theorem acceptFrame_inHand (h : s.acceptsRequest ag q = true) : acceptFrame ag q s = s.withRequest ag q := by
  obtain ⟨hframes, hfree⟩ := port_of_acceptsRequest h
  rw [← submit_of_portFree hframes hfree, ← bringInHand_of_link_ne (link_ne_of_portFree hfree)]
  exact bringInHand_of_accepts ag q s (by rw [h, Bool.or_true])

theorem submitWindow_busy {w : OpenWindow} (h : w.link = .busy q) : submitWindow ag w s = overrun ag s := by
  simp only [submitWindow, h]

/-- A SUBMIT that did not find the port BUSY goes by what its frame reads as. -/
theorem submitWindow_free {w : OpenWindow} (h : ∀ q, w.link ≠ .busy q) :
    submitWindow ag w s =
      match readFrame (s.ctx ag) w.bytes with
      | .error st => respond ag st .empty s
      | .ok q => acceptFrame ag q s := by
  unfold submitWindow
  split
  next q hq => exact absurd hq (h q)
  next => rfl

theorem submitWindow_unread {w : OpenWindow} {st : Status} (h : ∀ q, w.link ≠ .busy q)
    (hread : readFrame (s.ctx ag) w.bytes = .error st) : submitWindow ag w s = respond ag st .empty s := by
  rw [submitWindow_free h, hread]

theorem submitWindow_read {w : OpenWindow} (h : ∀ q, w.link ≠ .busy q)
    (hread : readFrame (s.ctx ag) w.bytes = .ok q) : submitWindow ag w s = acceptFrame ag q s := by
  rw [submitWindow_free h, hread]

/-! ## The response at the port (R158) -/

theorem collectWindow_unready {w : OpenWindow} (h : ∀ r, w.link ≠ .ready r) : collectWindow ag w s = s := by
  unfold collectWindow
  split
  next r hr => exact absurd hr (h r)
  next => rfl

theorem collectWindow_short {w : OpenWindow} {r : Response} (h : w.link = .ready r)
    (hn : w.bytes.length ≤ (responseBytes r).length) : collectWindow ag w s = s := by
  simp only [collectWindow, h, if_neg hn.not_gt]

theorem collectWindow_full {w : OpenWindow} {r : Response} (h : w.link = .ready r)
    (hn : (responseBytes r).length < w.bytes.length) :
    collectWindow ag w s = s.setUnit ag { s.unit ag with link := .idle } := by
  simp only [collectWindow, h, if_pos hn]

/-! ## The end of a window -/

theorem endWindow_submit {w : OpenWindow} (hcut : w.cut = false) (hdir : w.direction = some 0x5A#8) :
    endWindow ag w s = submitWindow ag w s := by
  simp only [endWindow, hcut, hdir, windowKind, Bool.false_eq_true, if_false]

theorem endWindow_collect {w : OpenWindow} (hcut : w.cut = false) (hdir : w.direction = some 0xA5#8) :
    endWindow ag w s = collectWindow ag w s := by
  simp only [endWindow, hcut, hdir, windowKind, Bool.false_eq_true, if_false]

theorem endWindow_other {w : OpenWindow} (hkind : windowKind w.direction = .other) : endWindow ag w s = s := by
  simp only [endWindow, hkind, ite_self]

theorem respond_dataOut (st : Status) (b : Body) :
    ((respond ag st b s).unit ag).dataOut = (s.unit ag).dataOut := by
  rw [respond_eq, State.unit_setUnit]

theorem acceptFrame_dataOut : ((acceptFrame ag q s).unit ag).dataOut = (s.unit ag).dataOut := by
  unfold acceptFrame
  split
  · exact respond_dataOut ..
  split
  · exact respond_dataOut ..
  split
  · exact respond_dataOut ..
  · rw [State.unit_setUnit]

theorem submitWindow_dataOut (w : OpenWindow) :
    ((submitWindow ag w s).unit ag).dataOut = (s.unit ag).dataOut := by
  unfold submitWindow
  split
  · rw [overrun, State.unit_setUnit]
  split
  · exact respond_dataOut ..
  · exact acceptFrame_dataOut

theorem collectWindow_dataOut (w : OpenWindow) :
    ((collectWindow ag w s).unit ag).dataOut = (s.unit ag).dataOut := by
  unfold collectWindow
  split
  · split
    · rw [State.unit_setUnit]
    · rfl
  · rfl

/-- The end of a window changes nothing of what has been shifted. -/
theorem endWindow_dataOut (w : OpenWindow) : ((endWindow ag w s).unit ag).dataOut = (s.unit ag).dataOut := by
  unfold endWindow
  split
  · rfl
  split
  · exact submitWindow_dataOut w
  · exact collectWindow_dataOut w
  · rfl

/-! ## A window given whole -/

/-- Under an asserted reset a window is disregarded and sees IDLE (R168, R170). -/
theorem selectWindow_whole_held (d : Option Byte) (l : List Byte) (h : (s.unit ag).window = none)
    (ht : s.takesWindows ag = false) :
    selectWindow ag d ⟨l, true⟩ s = s.shifted ag (List.replicate l.length 0#8) := by
  rw [selectWindow_whole ag d l s h, ht]
  rfl

theorem selectWindow_whole_taken (d : Option Byte) (l : List Byte) (h : (s.unit ag).window = none)
    (ht : s.takesWindows ag = true) :
    selectWindow ag d ⟨l, true⟩ s =
      endWindow ag ⟨d, (s.unit ag).link, l, false⟩ (s.shifted ag (windowOut (windowKind d) (s.unit ag).link l.length)) := by
  rw [selectWindow_whole ag d l s h, ht]
  rfl

/-- A window that is neither SUBMIT nor COLLECT is disregarded, data out low (R156). -/
theorem selectWindow_whole_other (l : List Byte) (h : (s.unit ag).window = none) (hd : windowKind d = .other) :
    selectWindow ag d ⟨l, true⟩ s = s.shifted ag (List.replicate l.length 0#8) := by
  by_cases ht : s.takesWindows ag = true
  · rw [selectWindow_whole_taken d l h ht, hd, windowOut_other, endWindow_other hd]
  · exact selectWindow_whole_held d l h (Bool.eq_false_iff.2 ht)

theorem selectWindow_whole_submit (l : List Byte) (h : (s.unit ag).window = none) (ht : s.takesWindows ag = true) :
    selectWindow ag (some 0x5A#8) ⟨l, true⟩ s =
      submitWindow ag ⟨some 0x5A#8, (s.unit ag).link, l, false⟩
        (s.shifted ag (List.replicate l.length (statusByte (s.unit ag).link))) :=
  (selectWindow_whole_taken _ l h ht).trans (endWindow_submit rfl rfl)

theorem selectWindow_whole_collect (l : List Byte) (h : (s.unit ag).window = none) (ht : s.takesWindows ag = true) :
    selectWindow ag (some 0xA5#8) ⟨l, true⟩ s =
      collectWindow ag ⟨some 0xA5#8, (s.unit ag).link, l, false⟩
        (s.shifted ag (windowOut .collect (s.unit ag).link l.length)) :=
  (selectWindow_whole_taken _ l h ht).trans (endWindow_collect rfl rfl)

/-- A SUBMIT whose frame reads meets the checks of the port (R160). -/
theorem selectWindow_submit_read (h : (s.unit ag).window = none) (ht : s.takesWindows ag = true)
    (hfree : s.portFree ag = true) (hread : readFrame (s.unit ag).ctx l = .ok q) :
    selectWindow ag (some 0x5A#8) ⟨l, true⟩ s =
      acceptFrame ag q (s.shifted ag (List.replicate l.length (statusByte (s.unit ag).link))) :=
  (selectWindow_whole_submit l h ht).trans
    (submitWindow_read (fun _ => link_ne_of_portFree hfree) ((readFrame_shifted _ l).trans hread))

/-! ## A window in stretches (log entry 52) -/

/-- The first stretch opens the window: it stands with the status of its direction byte, and what it has shifted. -/
theorem selectWindow_opens (d : Option Byte) (l : List Byte) (h : (s.unit ag).window = none) :
    selectWindow ag d ⟨l, false⟩ s =
      s.setUnit ag { s.unit ag with
        dataOut := (s.newWindow ag d).out l.length, window := some ((s.newWindow ag d).extend l) } := by
  simp only [selectWindow, State.windowFor, h, Option.isSome_none, Bool.false_eq_true, if_false, List.nil_append]

/-- Given whole, the window shifts out the same. -/
theorem selectWindow_whole_dataOut (d : Option Byte) (l : List Byte) (h : (s.unit ag).window = none) :
    ((selectWindow ag d ⟨l, true⟩ s).unit ag).dataOut = (s.newWindow ag d).out l.length := by
  simp only [selectWindow, State.windowFor, h, Option.isSome_none, Bool.false_eq_true, if_false, if_true,
    List.nil_append, endWindow_dataOut, State.unit_setUnit]

/-- The last stretch of a SUBMIT or COLLECT that found the port BUSY shifts out that status, whatever the port holds now. -/
theorem selectWindow_resumed_busy {w : OpenWindow} (e : Option Byte) (l : List Byte)
    (h : (s.unit ag).window = some w) (hcut : w.cut = false) (hdir : w.direction.isSome = true)
    (hkind : windowKind w.direction ≠ .other) (hlink : w.link = .busy q) :
    selectWindow ag e ⟨l, true⟩ s =
      endWindow ag (w.extend l) (s.setUnit ag { s.unit ag with
        window := none, dataOut := (s.unit ag).dataOut ++ List.replicate l.length 1#8 }) := by
  have hout : w.out l.length = List.replicate l.length 1#8 := by
    simp [OpenWindow.out, hcut, hlink, windowOut_busy hkind]
  simp [selectWindow, State.windowFor, h, hdir, hout]

theorem selectWindow_resumed_submit {w : OpenWindow} (h : (s.unit ag).window = some w) (hcut : w.cut = false)
    (hlink : w.link = .busy q) (hdir : w.direction = some 0x5A#8) :
    selectWindow ag (some 0x5A#8) ⟨l, true⟩ s =
      s.setUnit ag { s.unit ag with
        overrun := true, window := none, dataOut := (s.unit ag).dataOut ++ List.replicate l.length 1#8 } := by
  rw [selectWindow_resumed_busy _ l h hcut (by rw [hdir]; rfl) (by rw [hdir]; exact WindowKind.noConfusion) hlink]
  rw [endWindow_submit (w := w.extend l) hcut hdir, submitWindow_busy (w := w.extend l) hlink, overrun,
    State.unit_setUnit, State.setUnit_setUnit]

theorem selectWindow_resumed_collect {w : OpenWindow} (h : (s.unit ag).window = some w) (hcut : w.cut = false)
    (hlink : w.link = .busy q) (hdir : w.direction = some 0xA5#8) :
    selectWindow ag (some 0xA5#8) ⟨l, true⟩ s =
      s.setUnit ag { s.unit ag with
        window := none, dataOut := (s.unit ag).dataOut ++ List.replicate l.length 1#8 } := by
  rw [selectWindow_resumed_busy _ l h hcut (by rw [hdir]; rfl) (by rw [hdir]; exact WindowKind.noConfusion) hlink]
  have hunready : ∀ r, (w.extend l).link ≠ .ready r := fun r => by
    rw [OpenWindow.extend, hlink]
    exact LinkState.noConfusion
  rw [endWindow_collect (w := w.extend l) hcut hdir, collectWindow_unready hunready]

end

/-! ## The statement -/

/-- Settles O52: a window whole by its kind and by what it finds at the port, then its stretches, then one left open. -/
theorem windowsExchangeFrames : Obligations.WindowsExchangeFrames := by
  refine ⟨⟨rfl, rfl, fun d => windowKind_other, fun ag x s => ⟨rfl, rfl⟩⟩, fun ag l s => ?whole,
    fun ag d dir l m released s h => ?stretches, fun ag w dir l s h => ?resumed⟩
  case whole =>
    intro x shifted n whole status h
    have hstatus : status = statusByte x.link := rfl
    refine ⟨fun dir hd => congrArg _ (selectWindow_whole_other l h hd),
      fun ht => ⟨congrArg _ (selectWindow_whole_held _ l h ht), congrArg _ (selectWindow_whole_held _ l h ht)⟩,
      fun ht => ⟨fun q hl => ?busy, fun st hfree hread => ?unread, fun q hacc hread => ?accepted,
        fun q hfree hread => ?refused, fun hnot => ?unready, fun r hl => ?ready⟩⟩
    case busy =>
      refine congrArg Host.Outcome.next ((selectWindow_whole_submit l h ht).trans ((submitWindow_busy hl).trans ?_))
      rw [overrun, shifted_unit, shifted_setUnit, hstatus]
      rfl
    case unread =>
      exact congrArg Host.Outcome.next ((selectWindow_whole_submit l h ht).trans
        (submitWindow_unread (fun _ => link_ne_of_portFree hfree)
          ((readFrame_shifted _ l).trans hread)))
    case accepted =>
      obtain ⟨-, hfree⟩ := port_of_acceptsRequest hacc
      refine congrArg Host.Outcome.next ((selectWindow_submit_read h ht hfree hread).trans ?_)
      rw [acceptFrame_inHand (by rw [shifted_acceptsRequest, hacc]), State.withRequest, shifted_unit, shifted_setUnit]
      rfl
    case refused =>
      have hexec : exec (.submitWindow ag whole) s = .next (acceptFrame ag q (shifted x (List.replicate n status))) :=
        congrArg Host.Outcome.next (selectWindow_submit_read h ht hfree hread)
      have hctx : (shifted x (List.replicate n status)).ctx ag = x.ctx := shifted_ctx _
      refine ⟨fun henc => ?_, fun henc hrank hag => ?_, fun henc hneeds hno => ?_⟩
      · exact hexec.trans (congrArg _ (acceptFrame_format (by rw [hctx, henc])))
      · exact hexec.trans (congrArg _ (acceptFrame_rank (by rw [hctx, henc]) hrank hag))
      · exact hexec.trans (congrArg _ (acceptFrame_grant (by rw [hctx, henc]) hneeds hno))
    case unready =>
      refine congrArg Host.Outcome.next ((selectWindow_whole_collect l h ht).trans ((collectWindow_unready hnot).trans ?_))
      rw [windowOut_collect hnot]
      rfl
    case ready =>
      intro m
      refine ⟨fun hn => ?_, fun hn => ?_⟩
      · refine congrArg Host.Outcome.next ((selectWindow_whole_collect l h ht).trans ((collectWindow_short hl hn).trans ?_))
        rw [hl, windowOut_ready, if_pos hn]
        rfl
      · refine congrArg Host.Outcome.next ((selectWindow_whole_collect l h ht).trans ((collectWindow_full hl hn).trans ?_))
        rw [hl, windowOut_ready, if_neg hn.not_ge, shifted_unit, shifted_setUnit]
        rfl
  case stretches =>
    have hopens := selectWindow_opens (some d) l h
    refine ⟨selectWindow ag (some d) ⟨l, false⟩ s, rfl, ?_, ⟨_, rfl, ?_⟩, ?_,
      congrArg _ (selectWindow_twice ag d dir l m released s h)⟩
    · rw [hopens, State.unit_setUnit]
      rfl
    · rw [hopens, State.unit_setUnit]
      exact (selectWindow_whole_dataOut (some d) l h).symm
    · rw [hopens, State.unit_setUnit]
      rfl
  case resumed =>
    exact ⟨fun hcut => ⟨congrArg _ (selectWindow_cut ag dir ⟨l, true⟩ w s h hcut),
        congrArg _ (selectWindow_cut ag dir ⟨l, false⟩ w s h hcut)⟩,
      fun q hcut hlink => ⟨fun hdir => congrArg _ (selectWindow_resumed_submit h hcut hlink hdir),
        fun hdir => congrArg _ (selectWindow_resumed_collect h hcut hlink hdir)⟩⟩

end Sys2Proof.Machine
end

section
/-! Raises on their way to an agent unit: the pending flags and the schedule-alert FIFO (R171, R172). -/

namespace Sys2Proof.Machine

section
variable {s : State} {ag : Agent} {k : FlagKind}

/-! ## The pending flags (R171) -/

theorem takeRaise_of_none (h : ∀ r ∈ s.flight.raises.get ag, r.kind ≠ k) : takeRaise ag k s = s := by
  have hnone : (s.flight.raises.get ag).find? (fun r => r.kind == k) = none :=
    List.find?_eq_none.2 fun r hr => by simpa using h r hr
  simp only [takeRaise, hnone]

/-- The oldest raise of the kind leaves the way to the agent; the younger ones and those of other kinds stay on it. -/
theorem takeRaise_of_first {l m : List Raise} {r : Raise} (h : s.flight.raises.get ag = l ++ r :: m)
    (hl : ∀ x ∈ l, x.kind ≠ k) (hr : r.kind = k) :
    takeRaise ag k s =
      (s.setFlight { s.flight with raises := s.flight.raises.set ag (l ++ m) }).setUnit ag
        { s.unit ag with pending := (s.unit ag).pending.take r } := by
  have hpos : (r.kind == k) = true := by simpa using hr
  have hneg : ∀ x ∈ l, ¬(x.kind == k) = true := fun x hx => by simpa using hl x hx
  have hfind : (s.flight.raises.get ag).find? (fun x => x.kind == k) = some r :=
    List.find?_eq_some_iff_append.2 ⟨hpos, l, m, h, fun x hx => by simpa using hl x hx⟩
  have herase : (s.flight.raises.get ag).eraseP (fun x => x.kind == k) = l ++ m := by
    rw [h, List.eraseP_append_right _ hneg, List.eraseP_cons_of_pos (p := fun x : Raise => x.kind == k) hpos]
  simp only [takeRaise, hfind, herase]
  rfl

/-! ## The schedule-alert FIFO (R172) -/

theorem queueSched_of_room {a : SchedAlert} {u : AgentUnit} (h : u.fifo.length < 8) :
    u.queueSched a = { u with fifo := u.fifo ++ [{ a with gap := u.gap }], gap := 0 } := if_pos h

theorem queueSched_of_full {a : SchedAlert} {u : AgentUnit} (h : 8 ≤ u.fifo.length) :
    u.queueSched a = { u with gap := bump8 u.gap } := if_neg h.not_gt

theorem takeSchedRaise_of_nil (h : s.flight.schedRaises.get ag = []) : takeSchedRaise ag s = s := by
  simp only [takeSchedRaise, h]

theorem takeSchedRaise_of_cons {a : SchedAlert} {l : List SchedAlert} (h : s.flight.schedRaises.get ag = a :: l) :
    takeSchedRaise ag s =
      (s.setFlight { s.flight with schedRaises := s.flight.schedRaises.set ag l }).setUnit ag
        ((s.unit ag).queueSched a) := by
  simp only [takeSchedRaise, h]
  rfl

end

/-! ## The statement -/

/-- Settles O55: a flag kind by its oldest raise on the way, SCHEDULE by the room of the FIFO and the schedule gap. -/
theorem raisesBecomePending : Obligations.RaisesBecomePending := by
  refine ⟨fun ag k s => ⟨fun hnone => ?none, fun l r m hraises hl hr => ?flag⟩,
    fun ag s => ⟨fun hnil => ?nil, fun a l hcons => ?schedule⟩⟩
  case none => exact congrArg Host.Outcome.next (takeRaise_of_none hnone)
  case flag =>
    refine congrArg Host.Outcome.next ((takeRaise_of_first hraises hl hr).trans ?_)
    cases r <;> rfl
  case nil => exact congrArg Host.Outcome.next (takeSchedRaise_of_nil hnil)
  case schedule =>
    have htaken := takeSchedRaise_of_cons hcons
    refine ⟨fun hroom => ?_, fun hfull hgap => ?_, fun hfull hgap => ?_⟩
    · rw [queueSched_of_room hroom] at htaken
      exact congrArg Host.Outcome.next htaken
    · have hbump : bump8 (s.unit ag).gap = (s.unit ag).gap + 1 := if_pos hgap
      rw [queueSched_of_full hfull, hbump] at htaken
      exact congrArg Host.Outcome.next htaken
    · have hbump : bump8 (s.unit ag).gap = (s.unit ag).gap := if_neg hgap.not_gt
      rw [queueSched_of_full hfull, hbump] at htaken
      exact congrArg Host.Outcome.next htaken

end Sys2Proof.Machine
end

section
/-! Delivery: the candidates in their order, the one that is chosen, and the attention output (R171, R173 … R175). -/

namespace Sys2Proof.Machine

/-! ## The pending flags kind by kind (R171, R174) -/

theorem mem_kindList (k : FlagKind) : k ∈ kindList := by cases k <;> decide

/-- The pending alert of a kind. -/
def PendingAlerts.flag (p : PendingAlerts) : FlagKind → Option Raise
  | .fault => p.fault.map .fault
  | .grant => p.grant.map .grant
  | .servo => p.servo.map fun x => .servo x.1 x.2
  | .leap => p.leap.map fun x => .leap x.1 x.2
  | .source => p.source.map .source
  | .slew => p.slew.map .slew
  | .client => p.client.map .client
  | .capture => p.capture.map fun x => .capture x.1 x.2.1 x.2.2

theorem PendingAlerts.list_eq_filterMap (p : PendingAlerts) : p.list = kindList.filterMap p.flag := by
  simp [PendingAlerts.list, kindList, PendingAlerts.flag, List.filterMap_eq_flatMap_toList]

theorem PendingAlerts.kind_of_flag {p : PendingAlerts} {k : FlagKind} {r : Raise} (h : p.flag k = some r) : r.kind = k := by
  cases k <;> obtain ⟨x, -, rfl⟩ := Option.map_eq_some_iff.1 h <;> rfl

theorem PendingAlerts.mem_list_iff {p : PendingAlerts} {r : Raise} : r ∈ p.list ↔ p.flag r.kind = some r := by
  rw [p.list_eq_filterMap, List.mem_filterMap]
  refine ⟨fun ⟨k, _, hk⟩ => ?_, fun h => ⟨r.kind, mem_kindList _, h⟩⟩
  rwa [kind_of_flag hk]

theorem PendingAlerts.kinds_of_list (p : PendingAlerts) :
    p.list.map Raise.kind = kindList.filter fun k => (p.flag k).isSome := by
  rw [p.list_eq_filterMap, List.map_filterMap, ← List.filterMap_eq_filter]
  refine List.filterMap_congr fun k _ => ?_
  cases h : p.flag k with
  | none => simp [Option.guard, h]
  | some r => simp [Option.guard, h, kind_of_flag h]

/-! ## Level and room (R173) -/

section
variable {u : AgentUnit} {a : AlertRecord}

theorem admits_iff (n : Nat) :
    u.admits n = true ↔
      if n = 0 then u.stack.countP (fun r => r.alert.level == 0) = 0
      else n ≤ u.ctx.mask ∧ u.stack.countP (fun r => !(r.alert.level == 0)) < 4 := by
  unfold AgentUnit.admits
  split
  · simp [List.countP_eq_zero]
  · simp [bne]

/-! ## The alert chosen (R174) -/

theorem moreUrgent_of_lt {b : Option AlertRecord} (h : ∀ x, b = some x → a.level < x.level) :
    moreUrgent b a = some a := by
  cases b with
  | none => rfl
  | some x => exact if_pos (h x rfl)

theorem foldl_moreUrgent_of_le {m : List AlertRecord} (h : ∀ x ∈ m, a.level ≤ x.level) :
    m.foldl moreUrgent (some a) = some a := by
  induction m with
  | nil => rfl
  | cons x m ih =>
    have hkeep : moreUrgent (some a) x = some a := if_neg (h x List.mem_cons_self).not_gt
    rw [List.foldl_cons, hkeep]
    exact ih fun y hy => h y (List.mem_cons_of_mem x hy)

/-- Going through a list for the most urgent finds the first alert of the lowest level. -/
theorem foldl_moreUrgent_first {l m : List AlertRecord} (hl : ∀ x ∈ l, a.level < x.level)
    (hm : ∀ x ∈ m, a.level ≤ x.level) : (l ++ a :: m).foldl moreUrgent none = some a := by
  have hbefore : ∀ x, l.foldl moreUrgent none = some x → a.level < x.level := fun x hx =>
    hl x ((foldl_moreUrgent_mem l none hx).resolve_right nofun)
  rw [List.foldl_append, List.foldl_cons, moreUrgent_of_lt hbefore, foldl_moreUrgent_of_le hm]

theorem chosen_of_none (h : ∀ a ∈ u.candidates, ¬u.admits a.level = true) : u.chosen = none := by
  rw [AgentUnit.chosen, List.filter_eq_nil_iff.2 h]
  rfl

theorem chosen_of_first {l m : List AlertRecord} (h : u.candidates = l ++ a :: m) (ha : u.admits a.level = true)
    (hl : ∀ b ∈ l, u.admits b.level = true → a.level < b.level)
    (hm : ∀ b ∈ m, u.admits b.level = true → a.level ≤ b.level) : u.chosen = some a := by
  rw [AgentUnit.chosen, h, List.filter_append, List.filter_cons_of_pos (p := fun b : AlertRecord => u.admits b.level) ha]
  exact foldl_moreUrgent_first (fun b hb => hl b (List.mem_filter.1 hb).1 (List.mem_filter.1 hb).2)
    fun b hb => hm b (List.mem_filter.1 hb).1 (List.mem_filter.1 hb).2

end

/-! ## The delivery (R174), and the attention output (R175) -/

section
variable {s : State} {ag : Agent}

theorem deliverAlert_of_none (h : (s.unit ag).chosen = none) : deliverAlert ag s = s := by
  simp only [deliverAlert, h]

theorem deliverAlert_of_some {a : AlertRecord} (h : (s.unit ag).chosen = some a) :
    deliverAlert ag s = s.setUnit ag ((s.unit ag).deliver a) := by
  simp only [deliverAlert, h]

theorem attention_iff : s.attention ag = true ↔ (s.unit ag).stack ≠ [] ∧ (s.unit ag).resetIn = false := by
  simp [State.attention]

end

/-! ## The statement -/

/-- Settles O56: the flags kind by kind, and the delivery by the candidate that going through the deliverable ones finds. -/
theorem alertsAreDeliveredByLevel : Obligations.AlertsAreDeliveredByLevel := by
  refine ⟨fun p => ⟨?order, fun r => ?pending⟩, fun a => ?level, fun ag s => attention_iff, fun ag s => ?delivery⟩
  case order =>
    rw [p.kinds_of_list]
    exact List.filter_sublist
  case pending =>
    rw [PendingAlerts.mem_list_iff]
    cases r <;> simp [PendingAlerts.flag, Raise.kind]
  case level =>
    rcases a with r | x
    · cases r <;> rfl
    · rfl
  case delivery =>
    intro u level0 deliverable candidates
    have hdeliverable : ∀ a : AlertRecord, u.admits a.level = true ↔ deliverable a := fun a => admits_iff a.level
    refine ⟨fun hnone => ?_, fun a l m hsplit ha hl hm => ?_⟩
    · have hchosen : u.chosen = none := chosen_of_none fun a ha => mt (hdeliverable a).1 (hnone a ha)
      exact congrArg Host.Outcome.next (deliverAlert_of_none hchosen)
    · have hchosen : u.chosen = some a :=
        chosen_of_first hsplit ((hdeliverable a).2 ha) (fun b hb hadm => hl b hb ((hdeliverable b).1 hadm))
          fun b hb hadm => hm b hb ((hdeliverable b).1 hadm)
      refine congrArg Host.Outcome.next ((deliverAlert_of_some hchosen).trans ?_)
      rcases a with r | x
      · cases r <;> rfl
      · rfl

end Sys2Proof.Machine
end

section
/-! Frames of the agent link: the tests of a request frame in their order, and the layout of a response frame (R182, R183). -/

namespace Sys2Proof.Machine

/-! ## Numbers in bytes (R179) -/

@[simp] theorem length_be (w n : Nat) : (be w n).length = w := by
  induction w generalizing n with
  | zero => rfl
  | succ w ih => simp [be, ih]

theorem ofBe_concat (l : List Byte) (b : Byte) : ofBe (l ++ [b]) = ofBe l * 256 + b.toNat := by simp [ofBe]

/-- A number that fits its bytes is the number they spell. -/
theorem ofBe_be {w n : Nat} (h : n < 256 ^ w) : ofBe (be w n) = n := by
  induction w generalizing n with
  | zero => exact (Nat.lt_one_iff.1 h).symm
  | succ w ih =>
    have hhigh : n / 256 < 256 ^ w := Nat.div_lt_of_lt_mul (by rwa [← Nat.pow_succ'])
    rw [be, ofBe_concat, ih hhigh, BitVec.toNat_ofNat]
    omega

theorem ofBe_take_one_drop {l : List Byte} {i : Nat} (h : i < l.length) :
    ofBe ((l.drop i).take 1) = (l.getD i 0#8).toNat := by
  simp [ofBe, List.take_one_drop_eq_of_lt_length h, h]

theorem crc16_lt (l : List Byte) : crc16 l < 256 ^ 2 := BitVec.isLt _

/-- Bits 7 … 0 of a number are those of its byte. -/
theorem testBit_byte {n i : Nat} (h : i < 8) : (BitVec.ofNat 8 n).toNat.testBit i = n.testBit i := by
  rw [BitVec.toNat_ofNat, Nat.testBit_mod_two_pow, decide_eq_true h, Bool.true_and]

/-! ## The tests of a request frame (R182) -/

/-- The length test: the bytes of the window are as many as the length field says, 6 … 128. -/
def LengthFits (l : List Byte) : Prop := 6 ≤ l.length ∧ l.length ≤ 128 ∧ ofBe (l.take 2) = l.length

/-- The check test: the last two bytes are the CRC-16 of those before. -/
def CheckAgrees (l : List Byte) : Prop := crc16 (l.take (l.length - 2)) = ofBe (l.drop (l.length - 2))

/-- The code byte of a frame. -/
def frameCode (l : List Byte) : Nat := (l.getD 2 0#8).toNat

/-- The option byte of a frame. -/
def frameOption (l : List Byte) : Nat := (l.getD 3 0#8).toNat

/-- The bytes between the option byte and the check. -/
def frameBody (l : List Byte) : List Byte := (l.drop 4).take (l.length - 6)

/-- The codes of the catalogue (11.4). -/
def catalogueCodes : List Nat :=
  [1, 2, 3, 4, 5, 6, 16, 17, 18, 19, 20, 21, 22, 23, 24, 32, 33, 34, 40, 41, 42, 43, 48, 49, 50, 56, 57, 64, 65, 66,
    67, 72, 73, 74, 75, 76, 77, 78, 79, 80, 88, 89, 90, 91, 92, 93, 94, 96, 97, 98]

theorem readRequest_ne_none_of_mem {f g : Form} {code : Nat} (h : code ∈ catalogueCodes) :
    readRequest f g code ≠ none := by
  have hall : (catalogueCodes.all fun n => (readRequest f g n).isSome) = true := rfl
  exact Option.isSome_iff_ne_none.1 (List.all_eq_true.1 hall code h)

/-- The codes with a reader are those of the catalogue. -/
theorem readRequest_eq_none_iff {f g : Form} {code : Nat} : readRequest f g code = none ↔ code ∉ catalogueCodes := by
  refine ⟨fun hnone hmem => readRequest_ne_none_of_mem hmem hnone, fun hout => ?_⟩
  unfold readRequest
  split
  case h_51 => rfl
  all_goals exact absurd (by decide) hout

section
variable {c : Context} {l : List Byte}

theorem readFrame_of_not_lengthFits (h : ¬LengthFits l) : readFrame c l = .error .format :=
  if_pos (by unfold LengthFits at h; omega)

theorem readFrame_of_not_checkAgrees (hl : LengthFits l) (h : ¬CheckAgrees l) : readFrame c l = .error .check :=
  (if_neg (by unfold LengthFits at hl; omega)).trans (if_pos h)

section
variable (hl : LengthFits l) (hc : CheckAgrees l)
include hl hc

/-- The frame past the first two tests: its code, option byte and body decide. -/
theorem readFrame_of_checkAgrees : readFrame c l =
    match readRequest c.form c.form (frameCode l) with
    | none => .error .unknown
    | some _ =>
      match readOptions (frameCode l) (frameOption l) with
      | none => .error .format
      | some o =>
        match (readRequest (effForm o c) c.form (frameCode l)).bind fun p => p (frameBody l) with
        | some (r, []) => .ok ⟨o, r⟩
        | _ => .error .format := by
  obtain ⟨hmin, hmax, hfield⟩ := hl
  rw [frameCode, frameOption, ← ofBe_take_one_drop (by omega), ← ofBe_take_one_drop (by omega)]
  exact (if_neg (by omega)).trans (if_neg (not_not.2 hc))

theorem readFrame_of_unknown (h : readRequest c.form c.form (frameCode l) = none) : readFrame c l = .error .unknown := by
  rw [readFrame_of_checkAgrees hl hc, h]

theorem readFrame_of_reserved (hcode : readRequest c.form c.form (frameCode l) ≠ none)
    (h : readOptions (frameCode l) (frameOption l) = none) : readFrame c l = .error .format := by
  obtain ⟨_, hsome⟩ := Option.ne_none_iff_exists'.1 hcode
  rw [readFrame_of_checkAgrees hl hc, hsome, h]

section
variable {o : Options} {p : Reader Request} (ho : readOptions (frameCode l) (frameOption l) = some o)
  (hp : readRequest (effForm o c) c.form (frameCode l) = some p)
include ho hp

theorem readFrame_of_known : readFrame c l =
    match p (frameBody l) with
    | some (r, []) => .ok ⟨o, r⟩
    | _ => .error .format := by
  have hcode : readRequest c.form c.form (frameCode l) ≠ none := fun hnone =>
    Option.some_ne_none p (hp.symm.trans (readRequest_eq_none_iff.2 (readRequest_eq_none_iff.1 hnone)))
  obtain ⟨_, hsome⟩ := Option.ne_none_iff_exists'.1 hcode
  rw [readFrame_of_checkAgrees hl hc, hsome, ho]
  dsimp only
  rw [hp]
  rfl

theorem readFrame_of_filled {r : Request} (h : p (frameBody l) = some (r, [])) : readFrame c l = .ok ⟨o, r⟩ := by
  rw [readFrame_of_known hl hc ho hp, h]

theorem readFrame_of_not_filled (h : ∀ r, p (frameBody l) ≠ some (r, [])) : readFrame c l = .error .format := by
  rw [readFrame_of_known hl hc ho hp]
  split
  case h_1 r hr => exact absurd hr (h r)
  case h_2 => rfl

end
end
end

/-! ## The layout of a response frame (R183) -/

section
variable {r : Response}

theorem responseBody_length : (responseBody r).length = 4 + (bodyBytes r.body).length := by
  simp only [responseBody, enumBytes, List.length_append, length_be]

theorem responseBytes_length : (responseBytes r).length = (responseBody r).length + 2 := by simp [responseBytes]

theorem take_responseBytes : (responseBytes r).take ((responseBytes r).length - 2) = responseBody r := by
  rw [responseBytes_length]
  exact List.take_left

theorem drop_responseBytes : (responseBytes r).drop ((responseBytes r).length - 2) = be 2 (crc16 (responseBody r)) := by
  rw [responseBytes_length]
  exact List.drop_left

theorem take_two_responseBytes : (responseBytes r).take 2 = be 2 (responseBytes r).length := by
  have hn : (responseBytes r).length = 6 + (bodyBytes r.body).length := by
    rw [responseBytes_length, responseBody_length]
    omega
  rw [hn]
  rfl

/-- The status byte. -/
theorem getD_two_responseBytes : (responseBytes r).getD 2 0#8 = BitVec.ofNat 8 (codeIn statusList r.status) := rfl

/-- The flags byte. -/
theorem getD_three_responseBytes :
    (responseBytes r).getD 3 0#8 = BitVec.ofNat 8 ((if r.overrun then 128 else 0) + flagsByte r.flags) := rfl

end

/-- The overrun flag and the flags of an answer, bit by bit from ST in bit 0. -/
theorem flagsByte_eq_bits (overrun : Bool) (f : Flags) : (if overrun then 128 else 0) + flagsByte f =
    Nat.bit f.st (Nat.bit f.lh (Nat.bit f.wr (Nat.bit f.ix (Nat.bit f.ov (Nat.bit f.iv (Nat.bit f.fx overrun.toNat)))))) := by
  have hweight : ∀ (b : Bool) (n : Nat), (if b then n else 0) = n * b.toNat := fun b n => by cases b <;> simp
  simp only [flagsByte, hweight, Nat.bit_val]
  ring

/-! ## The statement -/

/-- Settles O53: each test of a request frame with those before it passed, the codes of the catalogue, and the bytes of a
response by their places. -/
theorem agentFramesAreTestedInOrder : Obligations.AgentFramesAreTestedInOrder := by
  refine ⟨fun c l => ?tests, fun f g code => readRequest_eq_none_iff, fun r hr => ?response⟩
  case tests =>
    refine ⟨readFrame_of_not_lengthFits, readFrame_of_not_checkAgrees, fun hl hc => ?_⟩
    exact ⟨readFrame_of_unknown hl hc, readFrame_of_reserved hl hc, fun o p ho hp =>
      ⟨fun r => readFrame_of_filled hl hc ho hp, readFrame_of_not_filled hl hc ho hp⟩⟩
  intro l n statusCode
  refine ⟨?length, ?check, ?atLeast, ?status, ?flags⟩
  case length =>
    rw [show l.take 2 = be 2 n from take_two_responseBytes]
    exact ofBe_be hr
  case check =>
    rw [drop_responseBytes, take_responseBytes]
    exact ofBe_be (crc16_lt _)
  case atLeast =>
    have hn : n = 4 + (bodyBytes r.body).length + 2 := responseBytes_length.trans (by rw [responseBody_length])
    omega
  case status =>
    rw [getD_two_responseBytes]
    cases r.status <;> rfl
  case flags =>
    rw [getD_three_responseBytes, flagsByte_eq_bits]
    have hlast : r.overrun.toNat.testBit 0 = r.overrun := by cases r.overrun <;> rfl
    simp only [testBit_byte, Nat.reduceLT, Nat.testBit_bit_succ, Nat.testBit_bit_zero, hlast, and_self]

end Sys2Proof.Machine
end

section
/-! What a step takes: the front of the queue, else a due event, else time (log entry 3). -/

namespace Sys2Proof.Machine

section
variable {s : State} {c : Instr} {l : List Instr}

theorem step_of_pending_cons (h : s.pending = c :: l) : step s = exec c { s with pending := l } := by
  simp only [step, h]

theorem step_of_due (hidle : s.pending = []) (hdue : dueEvents s = c :: l) : step s = exec c s := by
  simp only [step, hidle, hdue]

theorem step_of_nothing_due (hidle : s.pending = []) (hdue : dueEvents s = []) : step s = .next (advance s.span s) := by
  simp only [step, hidle, hdue]

end

/-- Settles O1: the case of a queue that is not empty. -/
theorem stepRunsTheFrontCommand : Obligations.StepRunsTheFrontCommand := by
  unfold Obligations.StepRunsTheFrontCommand
  intro c rest s
  exact step_of_pending_cons rfl

/-- Settles O2: the two cases of an empty queue; `advance` writes the timescale record alone. -/
theorem idleStepTakesADueEventOrTime : Obligations.IdleStepTakesADueEventOrTime := by
  unfold Obligations.IdleStepTakesADueEventOrTime
  refine ⟨fun s hidle => ⟨?due, ?time⟩, ?frame⟩
  case due => exact fun c l hdue => step_of_due hidle hdue
  case time => exact step_of_nothing_due hidle
  case frame =>
    intro n s
    rw [advance, State.setTs]

end Sys2Proof.Machine
end
